-- ==== Sys2Proof/Word.lean ====
section
/-! DEFINITION. The word types of the block: bytes, descriptor words, addresses, and the opaque
handle token (spec/00_scope.md R6, R8). -/

namespace Sys2Proof

/-- One byte of DMA memory (R32). -/
abbrev Byte := BitVec 8

/-- A 16-bit value: a VLAN tag, the interrupt mask and status registers (R94, R240). -/
abbrev Half := BitVec 16

/-- A descriptor word `opts1` or `opts2` (R75: "length+flags: u32, extra_flags: u32"). -/
abbrev Word := BitVec 32

/-- A 64-bit physical address (R32, R75: "physical_address: u64"). -/
abbrev Addr := BitVec 64

/-- A packet or buffer handle: an opaque token, never added to, shifted or masked (R8). -/
abbrev Handle := Nat

end Sys2Proof
end

