-- ==== Sys2Proof/Config.lean ====
section
/-! DEFINITION. The configuration record `Cfg` of spec/00_scope.md R5, the descriptor layout
`LAYOUT` of spec/30_encoding.md R76 with its default `L0`, and the two free values. A configuration
is plain data: it stands in the state, no step changes it, and every claim quantifies over it. -/

namespace Sys2Proof

/-- A run of `w` bits of a 32-bit word, the lowest at bit `lo` (R6). -/
structure BitField where
  lo : Nat
  w  : Nat
  deriving DecidableEq, Repr

/-- `LAYOUT` (R76): byte offsets of the three descriptor fields, and the position of every flag and
field of the words `opts1` and `opts2`. A bare `Nat` is the position of a one-bit flag. -/
structure Layout where
  offOpts1 : Nat
  offOpts2 : Nat
  offAddr  : Nat
  own      : Nat
  eor      : Nat
  fs       : Nat
  ls       : Nat
  lgsen    : Nat
  mss1     : BitField
  ipcs1    : Nat
  udpcs1   : Nat
  tcpcs1   : Nat
  txlen    : BitField
  udpcs2   : Nat
  tcpcs2   : Nat
  ipcs2    : Nat
  mss2     : BitField
  txvtag   : Nat
  rxvtag   : Nat
  vlan     : BitField
  pid      : BitField
  udpt     : Nat
  tcpt     : Nat
  ipf      : Nat
  udpf     : Nat
  tcpf     : Nat
  v6f      : Nat
  v4f      : Nat
  rxlen    : BitField
  vlanSwapped : Bool
  deriving DecidableEq, Repr

/-- The default layout `L0` of R76 (PRESUMED by the spec itself, D3 and G1; log entry 3). -/
def Layout.l0 : Layout where
  offOpts1 := 0
  offOpts2 := 4
  offAddr  := 8
  own      := 31
  eor      := 30
  fs       := 29
  ls       := 28
  lgsen    := 27
  mss1     := ⟨16, 11⟩
  ipcs1    := 18
  udpcs1   := 17
  tcpcs1   := 16
  txlen    := ⟨0, 16⟩
  udpcs2   := 31
  tcpcs2   := 30
  ipcs2    := 29
  mss2     := ⟨18, 11⟩
  txvtag   := 17
  rxvtag   := 16
  vlan     := ⟨0, 16⟩
  pid      := ⟨17, 2⟩
  udpt     := 18
  tcpt     := 17
  ipf      := 16
  udpf     := 15
  tcpf     := 14
  v6f      := 31
  v4f      := 30
  rxlen    := ⟨0, 14⟩
  vlanSwapped := true

/-- `REG` (R5): register offsets and the register constants, all open in the source (D36); `lowFirst` is the
order in which the two 32-bit halves of a 64-bit register are written, open too (R190, D36; log entry 17).
`statsAtInit`: "reinitialize chip registers" passes the statistics address to the NIC too, as R57 has it, and R25, R190
and R200 do not (log entry 41). -/
structure RegMap where
  txDoorbell     : Nat
  linkStatus     : Nat
  intrStatus     : Nat
  intrMask       : Nat
  txRingBase     : Nat
  rxRingBase     : Nat
  statsBase      : Nat
  doorbellValue  : Byte
  statsCmd       : BitVec 64
  causeRx        : Half
  causeTx        : Half
  causeBusError  : Half
  causeStatsDone : Half
  lowFirst       : Bool
  statsAtInit    : Bool
  deriving DecidableEq, Repr

/-- Link speed in Mbit/s: the chip is Fast-Ethernet (R29, R186). -/
inductive Speed where
  | mbit10
  | mbit100
  deriving DecidableEq, Repr

/-- Link duplex (R29). -/
inductive Duplex where
  | half
  | full
  deriving DecidableEq, Repr

/-- The parameters a link comes up with: the operand of LINK.UP (R187). -/
structure LinkParams where
  speed  : Speed
  duplex : Duplex
  fcTx   : Bool
  fcRx   : Bool
  deriving DecidableEq, Repr

/-- A value of `LINK_TABLE`, and the shape of the `link` record (R29, R186). -/
structure LinkState where
  up     : Bool
  params : LinkParams
  deriving DecidableEq, Repr

/-- The configuration record of R5, with the two statistics parameters of D39. `linkTable` is the
function `LINK_TABLE : u8 -> {up, speed, duplex, fc_tx, fc_rx}` written as data (log entry 2). -/
structure Cfg where
  nTx        : Nat
  nRx        : Nat
  kMaxSegs   : Nat
  revision2  : Bool
  rxBufSize  : Nat
  fcsLen     : Nat
  dlThresh1  : Nat
  dlThresh2  : Nat
  tTick      : Nat
  layout     : Layout
  ringAlign  : Nat
  ctrW       : Nat
  reg        : RegMap
  linkTable  : List (Byte × LinkState)
  statsSize  : Nat
  statsAlign : Nat
  deriving DecidableEq, Repr

/-- `DESC_SIZE` (R5, R75): 8 + 4 + 4 bytes, no padding. -/
def descSize : Nat := 16

/-- The configuration of spec/95_test_vectors.md ("Configuration used throughout"), with register
offsets and a link table of the model's own where that file leaves them open (DESIGN CHOICE, log
entry 1). State.reset carries it; no claim rests on it. -/
def Cfg.vectors : Cfg where
  nTx       := 16
  nRx       := 8
  kMaxSegs  := 4
  revision2 := false
  rxBufSize := 1536
  fcsLen    := 4
  dlThresh1 := 2
  dlThresh2 := 3
  tTick     := 1
  layout    := Layout.l0
  ringAlign := 256
  ctrW      := 32
  reg :=
    { txDoorbell := 0, linkStatus := 1, intrStatus := 2, intrMask := 4, txRingBase := 8,
      rxRingBase := 16, statsBase := 24, doorbellValue := 1, statsCmd := 1, causeRx := 1,
      causeTx := 2, causeBusError := 4, causeStatsDone := 8, lowFirst := true,
      statsAtInit := false }
  linkTable  := [(1, ⟨true, ⟨.mbit100, .full, true, true⟩⟩), (2, ⟨true, ⟨.mbit10, .half, false, false⟩⟩)]
  statsSize  := 64
  statsAlign := 64

/-- Free value: what a NIC register holds after `NicReset()` until the engine rewrites it
(spec/93_implementation_defined.md U18: "any value"). Nothing constrains it (log entry 12). -/
opaque Config.freeReg : Nat → BitVec 64

/-- Free value: the bits of the interrupt status register that belong to no cause (U9: "any value",
constrained only by `irq_pending`). Nothing constrains it (log entry 13). -/
opaque Config.freeStatus : Nat → Half

end Sys2Proof
end

