-- ==== Sys2Proof/Syntax.lean ====
section
/-! DEFINITION. The operations of the block as syntax: one constructor of `Instr` for every row of
spec/opcode_table.json, 31 operations (spec/30_encoding.md R95) and 10 descriptor-word formats
(R78 to R85). An operation carries its operand record and, where its rule says `Draw`, the values
the environment chooses for that step (R7, R97 `[draw: ...]`; log entry 5). -/

namespace Sys2Proof

/-- Who invokes an operation (R2, R95): the submitter, the serialized domain, the host, the NIC. -/
inductive Agent where
  | submitter
  | serialized
  | host
  | nic
  deriving DecidableEq, Repr

/-- The two descriptor rings (R95 `ring`). -/
inductive Ring where
  | tx
  | rx
  deriving DecidableEq, Repr

/-- The three fields of a descriptor (R75). -/
inductive DescField where
  | addr
  | opts1
  | opts2
  deriving DecidableEq, Repr

/-- `Region` (R94, R125): a physically contiguous run of bytes. -/
structure Region where
  pa  : Addr
  len : Nat
  deriving DecidableEq, Repr

/-- `Segment` (R94). -/
structure Segment where
  addr : Addr
  len  : Nat
  deriving DecidableEq, Repr

/-- `OffloadReq` (R135). `mss` is read only when `tso` holds. -/
structure OffloadReq where
  ip    : Bool
  tcp   : Bool
  udp   : Bool
  tso   : Bool
  other : Bool
  mss   : Nat
  deriving DecidableEq, Repr

/-- `Packet` (R94): the operand of TX.SUBMIT. -/
structure Packet where
  h       : Handle
  regions : List Region
  off     : OffloadReq
  vlan    : Option Half
  deriving DecidableEq, Repr

/-- The four interrupt causes (R240), in the order of their numbers 0, 1, 2, 3. -/
inductive Cause where
  | rx
  | tx
  | busError
  | statsDone
  deriving DecidableEq, Repr

/-- `status` of NIC.RX_FILL (R219). -/
structure RxStatus where
  fs : Bool
  ls : Bool
  s1 : Word
  s2 : Word
  deriving DecidableEq, Repr

/-- The NIC acts on a word it read before a ring clear overwrote it (U15, log entry 8): the `k`-th newest
of those it keeps of the descriptor, and whether it read the packet's bytes after their free. -/
structure StaleWord where
  k    : Nat
  late : Bool
  deriving DecidableEq, Repr

/-- The draws of NIC.TX_DONE (R218): `early` (the erratum), `latch` (false: a missed interrupt), and, where
the NIC acts on a word of before a ring clear, which. -/
structure TxDoneDraws where
  early : Bool
  latch : Bool
  stale : Option StaleWord
  deriving DecidableEq, Repr

/-- The same for NIC.RX_FILL: the word it read, and the address, read after it: of a later observation, or
the one the descriptor holds now (`none`). -/
structure StaleBuffer where
  word : Nat
  addr : Option Nat
  deriving DecidableEq, Repr

/-- The draws of NIC.RX_FILL (R219). -/
structure RxFillDraws where
  latch : Bool
  stale : Option StaleBuffer
  deriving DecidableEq, Repr

/-- `Acquisition` (R171), the draw of a receive iteration. A replacement buffer comes with the
region list its mapping yields (R125, R129); a copy buffer with its size. An invocation brings those of its pass, which
the state keeps, since a pass runs one iteration a step and draws one for each good frame (R167; log entry 5). -/
inductive Acquisition where
  | failed
  | replaced (h : Handle) (regions : List Region)
  | copied (h : Handle) (size : Nat)
  deriving DecidableEq, Repr

/-- What `AllocBuffer` yields (R211): a handle and its region list. -/
structure BufferDraw where
  h       : Handle
  regions : List Region
  deriving DecidableEq, Repr

/-- The draws of ENABLE (R200): the three `AllocDma` results and the `AllocBuffer` results in order;
`none`, or an absent entry, is a failed allocation. -/
structure EnableDraws where
  tx   : Option Addr
  rx   : Option Addr
  st   : Option Addr
  bufs : List (Option BufferDraw)
  deriving DecidableEq, Repr

/-- The ten descriptor-word formats of spec/opcode_table.json (R78 to R85). -/
inductive DescFormat where
  | txd1V1Csum
  | txd1V1Tso
  | txd1V2
  | txd2V1
  | txd2V2
  | rxdArmed
  | rxd1V1
  | rxd1V2
  | rxd2V1
  | rxd2V2
  deriving DecidableEq, Repr

/-- The operations and the descriptor-word formats, one constructor per row of the opcode table. -/
inductive Instr where
  /-- 0x00 RING.ALLOC `n` (R110). -/
  | ringAlloc (n : Nat)
  /-- 0x01 RING.WRITE (R112). -/
  | ringWrite (ring : Ring) (index : Nat) (seg : Segment) (flags1 flags2 : Word) (own : Bool)
  /-- 0x02 RING.RECLAIM (R114). -/
  | ringReclaim
  /-- 0x03 RING.CLEAR_TX (R116). -/
  | ringClearTx
  /-- 0x04 RING.CLEAR_RX (R117). -/
  | ringClearRx
  /-- 0x10 SEG.TX (R126). -/
  | segTx (regions : List Region)
  /-- 0x11 SEG.RX (R129). -/
  | segRx (regions : List Region)
  /-- 0x20 ENC.V1 (R136). -/
  | encV1 (off : OffloadReq)
  /-- 0x21 ENC.V2 (R137). -/
  | encV2 (off : OffloadReq)
  /-- 0x22 ENC.VLAN (R139). -/
  | encVlan (vlan : Option Half)
  /-- 0x30 TX.SUBMIT (R145). -/
  | txSubmit (packet : Packet)
  /-- 0x31 TX.IRQ (R149). -/
  | txIrq
  /-- 0x32 TX.DLCHK (R153). -/
  | txDlchk
  /-- 0x40 RX.IRQ (R165), with the acquisitions its pass draws. -/
  | rxIrq (draws : List Acquisition)
  /-- 0x41 RX.CSUM.V1 (R175). -/
  | rxCsumV1 (opts1 opts2 : Word)
  /-- 0x42 RX.CSUM.V2 (R176). -/
  | rxCsumV2 (opts1 opts2 : Word)
  /-- 0x43 RX.VLAN (R177). -/
  | rxVlan (opts2 : Word)
  /-- 0x50 TIMER.TICK (R185), with the value drawn for LINK_STATUS (R186). -/
  | timerTick (v : Byte)
  /-- 0x51 LINK.UP `params` (R187). -/
  | linkUp (params : LinkParams)
  /-- 0x52 LINK.DOWN (R188). -/
  | linkDown
  /-- 0x53 RESET.FULL (R190). -/
  | resetFull
  /-- 0x54 IRQ (R241), with the acquisitions its receive pass draws. -/
  | irq (draws : List Acquisition)
  /-- 0x55 STATS.REQ (R205). -/
  | statsReq
  /-- 0x56 STATS.DONE (R206). -/
  | statsDone
  /-- 0x60 ENABLE (R200), with the allocator's draws. -/
  | enable (draws : EnableDraws)
  /-- 0x61 DISABLE (R203). -/
  | disable
  /-- 0x70 NIC.TX_DONE `i` (R218), with its draws. -/
  | nicTxDone (i : Nat) (draws : TxDoneDraws)
  /-- 0x71 NIC.RX_FILL `i, frame, status` (R219), with its draws. -/
  | nicRxFill (i : Nat) (frame : List Byte) (status : RxStatus) (draws : RxFillDraws)
  /-- 0x72 NIC.IRQ_RAISE `cause` (R220). -/
  | nicIrqRaise (cause : Cause)
  /-- 0x73 NIC.RESET (R222). -/
  | nicReset
  /-- 0x74 NIC.TX_QUIESCE (R224). -/
  | nicTxQuiesce
  /-- TXD1_V1.CSUM (R78): TX `opts1`, `REVISION2 = false`, no segmentation offload. -/
  | txd1V1Csum (own eor fs ls ipcs udpcs tcpcs : Bool) (txlen : BitVec 16)
  /-- TXD1_V1.TSO (R78): TX `opts1`, `REVISION2 = false`, segmentation offload. -/
  | txd1V1Tso (own eor fs ls : Bool) (mss : BitVec 11) (txlen : BitVec 16)
  /-- TXD1_V2 (R79): TX `opts1`, `REVISION2 = true`. -/
  | txd1V2 (own eor fs ls lgsen : Bool) (txlen : BitVec 16)
  /-- TXD2_V1 (R80): TX `opts2`, `REVISION2 = false`. -/
  | txd2V1 (txvtag : Bool) (vlan : Half)
  /-- TXD2_V2 (R81): TX `opts2`, `REVISION2 = true`. -/
  | txd2V2 (udpcs tcpcs ipcs : Bool) (mss : BitVec 11) (txvtag : Bool) (vlan : Half)
  /-- RXD_ARMED (R82): RX `opts1` as the engine arms it. -/
  | rxdArmed (eor : Bool) (rxlen : BitVec 14)
  /-- RXD1_V1 (R83): RX `opts1` as the NIC completes it, `REVISION2 = false`; `rest` holds the bits
  no field names (27:19 under `L0`), which may have any value. -/
  | rxd1V1 (eor fs ls : Bool) (pid : BitVec 2) (ipf udpf tcpf : Bool) (rxlen : BitVec 14) (rest : Word)
  /-- RXD1_V2 (R84): RX `opts1` as the NIC completes it, `REVISION2 = true`. -/
  | rxd1V2 (eor fs ls udpt tcpt ipf udpf tcpf : Bool) (rxlen : BitVec 14) (rest : Word)
  /-- RXD2_V1 (R85): RX `opts2` as the NIC completes it, `REVISION2 = false`. -/
  | rxd2V1 (rxvtag : Bool) (vlan : Half) (rest : Word)
  /-- RXD2_V2 (R85): RX `opts2` as the NIC completes it, `REVISION2 = true`. -/
  | rxd2V2 (v6f v4f rxvtag : Bool) (vlan : Half) (rest : Word)
  deriving DecidableEq, Repr

end Sys2Proof
end

