-- ==== Sys2Proof/WellFormed.lean ====
section
/-! DEFINITION. Well-formed operations: those whose operand record fits the binary form the model
gives it (log entry 4), and whose unnamed descriptor bits lie where no field stands. The ranges a
rule itself sets on an operand (R236) depend on the configuration and are checked by the machine. -/

namespace Sys2Proof

/-- An integer operand fits its 32-bit field of the operand record. -/
def fits32 (n : Nat) : Bool := decide (n < 2 ^ 32)

/-- A list operand fits its 16-bit count. -/
def countFits {α : Type} (l : List α) : Bool := decide (l.length < 2 ^ 16)

def Region.fits (r : Region) : Bool := fits32 r.len

def Segment.fits (s : Segment) : Bool := fits32 s.len

def regionsFit (l : List Region) : Bool := countFits l && l.all Region.fits

def OffloadReq.fits (o : OffloadReq) : Bool := fits32 o.mss

def Packet.fits (p : Packet) : Bool := fits32 p.h && regionsFit p.regions && p.off.fits

def StaleWord.fits (x : StaleWord) : Bool := fits32 x.k

def BufferDraw.fits (b : BufferDraw) : Bool := fits32 b.h && regionsFit b.regions

def optFits {α : Type} (f : α → Bool) : Option α → Bool
  | none => true
  | some a => f a

def EnableDraws.fits (d : EnableDraws) : Bool := countFits d.bufs && d.bufs.all (optFits BufferDraw.fits)

def Acquisition.fits : Acquisition → Bool
  | .failed => true
  | .replaced h regions => fits32 h && regionsFit regions
  | .copied h size => fits32 h && fits32 size

def acquisitionsFit (l : List Acquisition) : Bool := countFits l && l.all Acquisition.fits

def StaleBuffer.fits (x : StaleBuffer) : Bool := fits32 x.word && optFits fits32 x.addr

def TxDoneDraws.fits (d : TxDoneDraws) : Bool := optFits StaleWord.fits d.stale

def RxFillDraws.fits (d : RxFillDraws) : Bool := optFits StaleBuffer.fits d.stale

/-- The bits of RX `opts1` that no field of R83 or R84 names, under `L0`: 27 to 19. -/
def rxd1Unnamed : Word := 0x0FF80000#32

/-- The bits of RX `opts2` that no field of `RXD2_V1` names, under `L0`: 31 to 17. -/
def rxd2V1Unnamed : Word := 0xFFFE0000#32

/-- The bits of RX `opts2` that no field of `RXD2_V2` names, under `L0`: 29 to 17. -/
def rxd2V2Unnamed : Word := 0x3FFE0000#32

/-- `rest` has no bit outside `mask`. -/
def within (rest mask : Word) : Bool := rest &&& mask == rest

/-- An operation has a binary form that decodes to it. -/
def WellFormed : Instr → Bool
  | .ringAlloc n => fits32 n
  | .ringWrite _ index seg _ _ _ => fits32 index && seg.fits
  | .ringReclaim => true
  | .ringClearTx => true
  | .ringClearRx => true
  | .segTx regions => regionsFit regions
  | .segRx regions => regionsFit regions
  | .encV1 off => off.fits
  | .encV2 off => off.fits
  | .encVlan _ => true
  | .txSubmit packet => packet.fits
  | .txIrq => true
  | .txDlchk => true
  | .rxIrq draws => acquisitionsFit draws
  | .rxCsumV1 _ _ => true
  | .rxCsumV2 _ _ => true
  | .rxVlan _ => true
  | .timerTick _ => true
  | .linkUp _ => true
  | .linkDown => true
  | .resetFull => true
  | .irq draws => acquisitionsFit draws
  | .statsReq => true
  | .statsDone => true
  | .enable draws => draws.fits
  | .disable => true
  | .nicTxDone i draws => fits32 i && draws.fits
  | .nicRxFill i frame _ draws => fits32 i && countFits frame && draws.fits
  | .nicIrqRaise _ => true
  | .nicReset => true
  | .nicTxQuiesce => true
  | .txd1V1Csum _ _ _ _ _ _ _ _ => true
  | .txd1V1Tso _ _ _ _ _ _ => true
  | .txd1V2 _ _ _ _ _ _ => true
  | .txd2V1 _ _ => true
  | .txd2V2 _ _ _ _ _ _ => true
  | .rxdArmed _ _ => true
  | .rxd1V1 _ _ _ _ _ _ _ _ rest => within rest rxd1Unnamed
  | .rxd1V2 _ _ _ _ _ _ _ _ _ rest => within rest rxd1Unnamed
  | .rxd2V1 _ _ rest => within rest rxd2V1Unnamed
  | .rxd2V2 _ _ _ _ rest => within rest rxd2V2Unnamed

end Sys2Proof
end

