-- ==== Sys2Proof/Decode.lean ====
section
/-! DEFINITION. The binary form of an invocation, its decoder and its encoder. An operation is its
8-bit selector (spec/30_encoding.md R95) followed by its operand record; the record's bytes are the
model's own (R93 gives it none; log entry 4): fields in the order of R95, integers 4 bytes, words
little-endian, Booleans one byte 0 or 1, a list its 2-byte count and its elements, an option a
Boolean and its value, then the environment's draws. A descriptor word is a format name and 32 bits
at the positions of `L0` (R78 to R85). The decoder is total and rejects by name; no selector outside
R95's table selects an operation (R96). -/

namespace Sys2Proof

/-- Why bytes or a word are no operation. -/
inductive DecodeError where
  /-- A selector with no row in R95's table, or no selector at all (R96). -/
  | invalidSelector
  /-- The operand record ends early. -/
  | truncated
  /-- An enumeration, a Boolean or a cause outside its values (R94, U4). -/
  | badOperand
  /-- Non-zero bytes behind the operand record. -/
  | trailingBytes
  /-- A bit the format fixes has another value (R91). -/
  | reservedBits
  deriving DecidableEq, Repr

/-- What the environment hands the machine: the bytes of an operation, or a descriptor word with the
format it is read under (a word alone does not say its format: the table's formats overlap). -/
inductive Code where
  | op (bytes : List Byte)
  | word (fmt : DescFormat) (w : Word)
  deriving DecidableEq, Repr

/-- A reader of bytes: a value and the bytes behind it, or an error. -/
abbrev Parser (α : Type) := List Byte → Except DecodeError (α × List Byte)

def Parser.ret {α : Type} (a : α) : Parser α := fun bs => .ok (a, bs)

def Parser.fail {α : Type} (e : DecodeError) : Parser α := fun _ => .error e

/-- Read one value, then go on with what follows it. -/
def Parser.andThen {α β : Type} (p : Parser α) (f : α → Parser β) : Parser β := fun bs =>
  match p bs with
  | .ok (a, rest) => f a rest
  | .error e => .error e

/-- `k` bytes, the lowest first (R50). -/
def putNat : Nat → Nat → List Byte
  | 0, _ => []
  | k + 1, v => BitVec.ofNat 8 v :: putNat k (v / 256)

def getNat : Nat → Parser Nat
  | 0 => Parser.ret 0
  | k + 1 => fun bs =>
    match bs with
    | [] => .error .truncated
    | b :: bs =>
      match getNat k bs with
      | .ok (n, rest) => .ok (b.toNat + 256 * n, rest)
      | .error e => .error e

def put8 (b : Byte) : List Byte := putNat 1 b.toNat
def put16 (v : Half) : List Byte := putNat 2 v.toNat
def put32 (v : Word) : List Byte := putNat 4 v.toNat
def put64 (v : BitVec 64) : List Byte := putNat 8 v.toNat
def putInt (n : Nat) : List Byte := putNat 4 n
def putBool (b : Bool) : List Byte := putNat 1 (cond b 1 0)

def get8 : Parser Byte := (getNat 1).andThen fun n => Parser.ret (BitVec.ofNat 8 n)
def get16 : Parser Half := (getNat 2).andThen fun n => Parser.ret (BitVec.ofNat 16 n)
def get32 : Parser Word := (getNat 4).andThen fun n => Parser.ret (BitVec.ofNat 32 n)
def get64 : Parser (BitVec 64) := (getNat 8).andThen fun n => Parser.ret (BitVec.ofNat 64 n)
def getInt : Parser Nat := getNat 4

/-- A Boolean byte: 0 or 1, nothing else. -/
def getBool : Parser Bool := (getNat 1).andThen fun n =>
  match n with
  | 0 => Parser.ret false
  | 1 => Parser.ret true
  | _ => Parser.fail .badOperand

def putMany {α : Type} (p : α → List Byte) : List α → List Byte
  | [] => []
  | a :: l => p a ++ putMany p l

def getMany {α : Type} (p : Parser α) : Nat → Parser (List α)
  | 0 => Parser.ret []
  | k + 1 => p.andThen fun a => (getMany p k).andThen fun l => Parser.ret (a :: l)

def putList {α : Type} (p : α → List Byte) (l : List α) : List Byte := putNat 2 l.length ++ putMany p l

def getList {α : Type} (p : Parser α) : Parser (List α) := (getNat 2).andThen fun k => getMany p k

def putOpt {α : Type} (p : α → List Byte) : Option α → List Byte
  | none => putBool false
  | some a => putBool true ++ p a

def getOpt {α : Type} (p : Parser α) : Parser (Option α) := getBool.andThen fun b =>
  match b with
  | false => Parser.ret none
  | true => p.andThen fun a => Parser.ret (some a)

/-! ### The operand types of R94 -/

def putRing : Ring → List Byte
  | .tx => putNat 1 0
  | .rx => putNat 1 1

def getRing : Parser Ring := (getNat 1).andThen fun n =>
  match n with
  | 0 => Parser.ret .tx
  | 1 => Parser.ret .rx
  | _ => Parser.fail .badOperand

/-- The cause numbers of R240. -/
def putCause : Cause → List Byte
  | .rx => putNat 1 0
  | .tx => putNat 1 1
  | .busError => putNat 1 2
  | .statsDone => putNat 1 3

def getCause : Parser Cause := (getNat 1).andThen fun n =>
  match n with
  | 0 => Parser.ret .rx
  | 1 => Parser.ret .tx
  | 2 => Parser.ret .busError
  | 3 => Parser.ret .statsDone
  | _ => Parser.fail .badOperand

def putSpeed : Speed → List Byte
  | .mbit10 => putNat 1 0
  | .mbit100 => putNat 1 1

def getSpeed : Parser Speed := (getNat 1).andThen fun n =>
  match n with
  | 0 => Parser.ret .mbit10
  | 1 => Parser.ret .mbit100
  | _ => Parser.fail .badOperand

def putDuplex : Duplex → List Byte
  | .half => putNat 1 0
  | .full => putNat 1 1

def getDuplex : Parser Duplex := (getNat 1).andThen fun n =>
  match n with
  | 0 => Parser.ret .half
  | 1 => Parser.ret .full
  | _ => Parser.fail .badOperand

def putRegion (r : Region) : List Byte := put64 r.pa ++ putInt r.len

def getRegion : Parser Region :=
  get64.andThen fun pa => getInt.andThen fun len => Parser.ret ⟨pa, len⟩

def putSegment (s : Segment) : List Byte := put64 s.addr ++ putInt s.len

def getSegment : Parser Segment :=
  get64.andThen fun addr => getInt.andThen fun len => Parser.ret ⟨addr, len⟩

def putOffload (o : OffloadReq) : List Byte :=
  putBool o.ip ++ (putBool o.tcp ++ (putBool o.udp ++ (putBool o.tso ++ (putBool o.other ++ putInt o.mss))))

def getOffload : Parser OffloadReq :=
  getBool.andThen fun ip => getBool.andThen fun tcp => getBool.andThen fun udp => getBool.andThen fun tso =>
    getBool.andThen fun other => getInt.andThen fun mss => Parser.ret ⟨ip, tcp, udp, tso, other, mss⟩

def putPacket (p : Packet) : List Byte :=
  putInt p.h ++ (putList putRegion p.regions ++ (putOffload p.off ++ putOpt put16 p.vlan))

def getPacket : Parser Packet :=
  getInt.andThen fun h => (getList getRegion).andThen fun regions => getOffload.andThen fun off =>
    (getOpt get16).andThen fun vlan => Parser.ret ⟨h, regions, off, vlan⟩

def putLinkParams (p : LinkParams) : List Byte :=
  putSpeed p.speed ++ (putDuplex p.duplex ++ (putBool p.fcTx ++ putBool p.fcRx))

def getLinkParams : Parser LinkParams :=
  getSpeed.andThen fun speed => getDuplex.andThen fun duplex => getBool.andThen fun fcTx =>
    getBool.andThen fun fcRx => Parser.ret ⟨speed, duplex, fcTx, fcRx⟩

def putStatus (x : RxStatus) : List Byte := putBool x.fs ++ (putBool x.ls ++ (put32 x.s1 ++ put32 x.s2))

def getStatus : Parser RxStatus :=
  getBool.andThen fun fs => getBool.andThen fun ls => get32.andThen fun s1 => get32.andThen fun s2 =>
    Parser.ret ⟨fs, ls, s1, s2⟩

/-! ### The environment's draws -/

def putStaleWord (x : StaleWord) : List Byte := putInt x.k ++ putBool x.late

def getStaleWord : Parser StaleWord := getInt.andThen fun k => getBool.andThen fun late => Parser.ret ⟨k, late⟩

def putTxDone (d : TxDoneDraws) : List Byte := putBool d.early ++ (putBool d.latch ++ putOpt putStaleWord d.stale)

def getTxDone : Parser TxDoneDraws :=
  getBool.andThen fun early => getBool.andThen fun latch => (getOpt getStaleWord).andThen fun stale =>
    Parser.ret ⟨early, latch, stale⟩

def putStaleBuffer (x : StaleBuffer) : List Byte := putInt x.word ++ putOpt putInt x.addr

def getStaleBuffer : Parser StaleBuffer :=
  getInt.andThen fun word => (getOpt getInt).andThen fun addr => Parser.ret ⟨word, addr⟩

def putRxFill (d : RxFillDraws) : List Byte := putBool d.latch ++ putOpt putStaleBuffer d.stale

def getRxFill : Parser RxFillDraws :=
  getBool.andThen fun latch => (getOpt getStaleBuffer).andThen fun stale => Parser.ret ⟨latch, stale⟩

def putAcquisition : Acquisition → List Byte
  | .failed => putNat 1 0
  | .replaced h regions => putNat 1 1 ++ (putInt h ++ putList putRegion regions)
  | .copied h size => putNat 1 2 ++ (putInt h ++ putInt size)

def getAcquisition : Parser Acquisition := (getNat 1).andThen fun n =>
  match n with
  | 0 => Parser.ret .failed
  | 1 => getInt.andThen fun h => (getList getRegion).andThen fun regions => Parser.ret (.replaced h regions)
  | 2 => getInt.andThen fun h => getInt.andThen fun size => Parser.ret (.copied h size)
  | _ => Parser.fail .badOperand

def putBufferDraw (b : BufferDraw) : List Byte := putInt b.h ++ putList putRegion b.regions

def getBufferDraw : Parser BufferDraw :=
  getInt.andThen fun h => (getList getRegion).andThen fun regions => Parser.ret ⟨h, regions⟩

def putEnableDraws (d : EnableDraws) : List Byte :=
  putOpt put64 d.tx ++ (putOpt put64 d.rx ++ (putOpt put64 d.st ++ putList (putOpt putBufferDraw) d.bufs))

def getEnableDraws : Parser EnableDraws :=
  (getOpt get64).andThen fun tx => (getOpt get64).andThen fun rx => (getOpt get64).andThen fun st =>
    (getList (getOpt getBufferDraw)).andThen fun bufs => Parser.ret ⟨tx, rx, st, bufs⟩

/-! ### Operations -/

/-- The operand record behind a selector (R95). -/
def getOperands (selector : Nat) : Parser Instr :=
  match selector with
  | 0x00 => getInt.andThen fun n => Parser.ret (.ringAlloc n)
  | 0x01 => getRing.andThen fun ring => getInt.andThen fun index => getSegment.andThen fun seg =>
      get32.andThen fun flags1 => get32.andThen fun flags2 => getBool.andThen fun own =>
        Parser.ret (.ringWrite ring index seg flags1 flags2 own)
  | 0x02 => Parser.ret .ringReclaim
  | 0x03 => Parser.ret .ringClearTx
  | 0x04 => Parser.ret .ringClearRx
  | 0x10 => (getList getRegion).andThen fun regions => Parser.ret (.segTx regions)
  | 0x11 => (getList getRegion).andThen fun regions => Parser.ret (.segRx regions)
  | 0x20 => getOffload.andThen fun off => Parser.ret (.encV1 off)
  | 0x21 => getOffload.andThen fun off => Parser.ret (.encV2 off)
  | 0x22 => (getOpt get16).andThen fun vlan => Parser.ret (.encVlan vlan)
  | 0x30 => getPacket.andThen fun packet => Parser.ret (.txSubmit packet)
  | 0x31 => Parser.ret .txIrq
  | 0x32 => Parser.ret .txDlchk
  | 0x40 => (getList getAcquisition).andThen fun draws => Parser.ret (.rxIrq draws)
  | 0x41 => get32.andThen fun opts1 => get32.andThen fun opts2 => Parser.ret (.rxCsumV1 opts1 opts2)
  | 0x42 => get32.andThen fun opts1 => get32.andThen fun opts2 => Parser.ret (.rxCsumV2 opts1 opts2)
  | 0x43 => get32.andThen fun opts2 => Parser.ret (.rxVlan opts2)
  | 0x50 => get8.andThen fun v => Parser.ret (.timerTick v)
  | 0x51 => getLinkParams.andThen fun params => Parser.ret (.linkUp params)
  | 0x52 => Parser.ret .linkDown
  | 0x53 => Parser.ret .resetFull
  | 0x54 => (getList getAcquisition).andThen fun draws => Parser.ret (.irq draws)
  | 0x55 => Parser.ret .statsReq
  | 0x56 => Parser.ret .statsDone
  | 0x60 => getEnableDraws.andThen fun draws => Parser.ret (.enable draws)
  | 0x61 => Parser.ret .disable
  | 0x70 => getInt.andThen fun i => getTxDone.andThen fun draws => Parser.ret (.nicTxDone i draws)
  | 0x71 => getInt.andThen fun i => (getList get8).andThen fun frame => getStatus.andThen fun status =>
      getRxFill.andThen fun draws => Parser.ret (.nicRxFill i frame status draws)
  | 0x72 => getCause.andThen fun cause => Parser.ret (.nicIrqRaise cause)
  | 0x73 => Parser.ret .nicReset
  | 0x74 => Parser.ret .nicTxQuiesce
  | _ => Parser.fail .invalidSelector

/-- The bytes of one invocation: selector, operand record, then only zero padding. -/
def decodeOp : List Byte → Except DecodeError Instr
  | [] => .error .invalidSelector
  | b :: bs =>
    match getOperands b.toNat bs with
    | .error e => .error e
    | .ok (i, rest) => if rest.all (· == 0#8) then .ok i else .error .trailingBytes

/-! ### Descriptor words at the positions of `L0` (spec/opcode_table.json) -/

/-- Bits `lo + n - 1` down to `lo` of a word (R6). -/
def field (w : Word) (lo n : Nat) : BitVec n := w.extractLsb' lo n

/-- `v` placed with its lowest bit at `lo` (R6: shifts drop what leaves the word). -/
def place {n : Nat} (v : BitVec n) (lo : Nat) : Word := v.setWidth 32 <<< lo

/-- The one-bit flag at `p`. -/
def placeBit (b : Bool) (p : Nat) : Word := place (BitVec.ofBool b) p

/-- The bits a format fixes (the table's mask) and their value (the table's match). -/
def DescFormat.mask : DescFormat → Word
  | .txd1V1Csum => 0x0FF80000#32
  | .txd1V1Tso => 0x08000000#32
  | .txd1V2 => 0x07FF0000#32
  | .txd2V1 => 0xFFFD0000#32
  | .txd2V2 => 0x00010000#32
  | .rxdArmed => 0xBFFFC000#32
  | .rxd1V1 => 0x80000000#32
  | .rxd1V2 => 0x80000000#32
  | .rxd2V1 => 0x00000000#32
  | .rxd2V2 => 0x00000000#32

def DescFormat.pattern : DescFormat → Word
  | .txd1V1Tso => 0x08000000#32
  | .rxdArmed => 0x80000000#32
  | .txd1V1Csum => 0#32
  | .txd1V2 => 0#32
  | .txd2V1 => 0#32
  | .txd2V2 => 0#32
  | .rxd1V1 => 0#32
  | .rxd1V2 => 0#32
  | .rxd2V1 => 0#32
  | .rxd2V2 => 0#32

def DescFormat.fits (f : DescFormat) (w : Word) : Bool := w &&& f.mask == f.pattern

/-- The fields of a word under a format (R78 to R85). -/
def readWord (f : DescFormat) (w : Word) : Instr :=
  match f with
  | .txd1V1Csum => .txd1V1Csum (w.getLsbD 31) (w.getLsbD 30) (w.getLsbD 29) (w.getLsbD 28)
      (w.getLsbD 18) (w.getLsbD 17) (w.getLsbD 16) (field w 0 16)
  | .txd1V1Tso => .txd1V1Tso (w.getLsbD 31) (w.getLsbD 30) (w.getLsbD 29) (w.getLsbD 28)
      (field w 16 11) (field w 0 16)
  | .txd1V2 => .txd1V2 (w.getLsbD 31) (w.getLsbD 30) (w.getLsbD 29) (w.getLsbD 28) (w.getLsbD 27)
      (field w 0 16)
  | .txd2V1 => .txd2V1 (w.getLsbD 17) (field w 0 16)
  | .txd2V2 => .txd2V2 (w.getLsbD 31) (w.getLsbD 30) (w.getLsbD 29) (field w 18 11) (w.getLsbD 17)
      (field w 0 16)
  | .rxdArmed => .rxdArmed (w.getLsbD 30) (field w 0 14)
  | .rxd1V1 => .rxd1V1 (w.getLsbD 30) (w.getLsbD 29) (w.getLsbD 28) (field w 17 2) (w.getLsbD 16)
      (w.getLsbD 15) (w.getLsbD 14) (field w 0 14) (w &&& rxd1Unnamed)
  | .rxd1V2 => .rxd1V2 (w.getLsbD 30) (w.getLsbD 29) (w.getLsbD 28) (w.getLsbD 18) (w.getLsbD 17)
      (w.getLsbD 16) (w.getLsbD 15) (w.getLsbD 14) (field w 0 14) (w &&& rxd1Unnamed)
  | .rxd2V1 => .rxd2V1 (w.getLsbD 16) (field w 0 16) (w &&& rxd2V1Unnamed)
  | .rxd2V2 => .rxd2V2 (w.getLsbD 31) (w.getLsbD 30) (w.getLsbD 16) (field w 0 16) (w &&& rxd2V2Unnamed)

/-- A word under a format, refused when a bit the format fixes has another value (R91). -/
def decodeWord (f : DescFormat) (w : Word) : Except DecodeError Instr :=
  if f.fits w then .ok (readWord f w) else .error .reservedBits

/-- The decoder: total on every code. -/
def decode : Code → Except DecodeError Instr
  | .op bytes => decodeOp bytes
  | .word f w => decodeWord f w

/-! ### The encoder -/

/-- The code of an operation: its selector (R95) and operand record, or its word (R78 to R85). -/
def encode : Instr → Code
  | .ringAlloc n => .op (0x00 :: putInt n)
  | .ringWrite ring index seg flags1 flags2 own =>
    .op (0x01 :: (putRing ring ++ (putInt index ++ (putSegment seg ++ (put32 flags1 ++ (put32 flags2 ++ putBool own))))))
  | .ringReclaim => .op [0x02]
  | .ringClearTx => .op [0x03]
  | .ringClearRx => .op [0x04]
  | .segTx regions => .op (0x10 :: putList putRegion regions)
  | .segRx regions => .op (0x11 :: putList putRegion regions)
  | .encV1 off => .op (0x20 :: putOffload off)
  | .encV2 off => .op (0x21 :: putOffload off)
  | .encVlan vlan => .op (0x22 :: putOpt put16 vlan)
  | .txSubmit packet => .op (0x30 :: putPacket packet)
  | .txIrq => .op [0x31]
  | .txDlchk => .op [0x32]
  | .rxIrq draws => .op (0x40 :: putList putAcquisition draws)
  | .rxCsumV1 opts1 opts2 => .op (0x41 :: (put32 opts1 ++ put32 opts2))
  | .rxCsumV2 opts1 opts2 => .op (0x42 :: (put32 opts1 ++ put32 opts2))
  | .rxVlan opts2 => .op (0x43 :: put32 opts2)
  | .timerTick v => .op (0x50 :: put8 v)
  | .linkUp params => .op (0x51 :: putLinkParams params)
  | .linkDown => .op [0x52]
  | .resetFull => .op [0x53]
  | .irq draws => .op (0x54 :: putList putAcquisition draws)
  | .statsReq => .op [0x55]
  | .statsDone => .op [0x56]
  | .enable draws => .op (0x60 :: putEnableDraws draws)
  | .disable => .op [0x61]
  | .nicTxDone i draws => .op (0x70 :: (putInt i ++ putTxDone draws))
  | .nicRxFill i frame status draws =>
    .op (0x71 :: (putInt i ++ (putList put8 frame ++ (putStatus status ++ putRxFill draws))))
  | .nicIrqRaise cause => .op (0x72 :: putCause cause)
  | .nicReset => .op [0x73]
  | .nicTxQuiesce => .op [0x74]
  | .txd1V1Csum own eor fs ls ipcs udpcs tcpcs txlen =>
    .word .txd1V1Csum (placeBit own 31 ||| placeBit eor 30 ||| placeBit fs 29 ||| placeBit ls 28 |||
      placeBit ipcs 18 ||| placeBit udpcs 17 ||| placeBit tcpcs 16 ||| place txlen 0)
  | .txd1V1Tso own eor fs ls mss txlen =>
    .word .txd1V1Tso (placeBit own 31 ||| placeBit eor 30 ||| placeBit fs 29 ||| placeBit ls 28 |||
      placeBit true 27 ||| place mss 16 ||| place txlen 0)
  | .txd1V2 own eor fs ls lgsen txlen =>
    .word .txd1V2 (placeBit own 31 ||| placeBit eor 30 ||| placeBit fs 29 ||| placeBit ls 28 |||
      placeBit lgsen 27 ||| place txlen 0)
  | .txd2V1 txvtag vlan => .word .txd2V1 (placeBit txvtag 17 ||| place vlan 0)
  | .txd2V2 udpcs tcpcs ipcs mss txvtag vlan =>
    .word .txd2V2 (placeBit udpcs 31 ||| placeBit tcpcs 30 ||| placeBit ipcs 29 ||| place mss 18 |||
      placeBit txvtag 17 ||| place vlan 0)
  | .rxdArmed eor rxlen => .word .rxdArmed (placeBit true 31 ||| placeBit eor 30 ||| place rxlen 0)
  | .rxd1V1 eor fs ls pid ipf udpf tcpf rxlen rest =>
    .word .rxd1V1 (placeBit eor 30 ||| placeBit fs 29 ||| placeBit ls 28 ||| place pid 17 |||
      placeBit ipf 16 ||| placeBit udpf 15 ||| placeBit tcpf 14 ||| place rxlen 0 ||| rest)
  | .rxd1V2 eor fs ls udpt tcpt ipf udpf tcpf rxlen rest =>
    .word .rxd1V2 (placeBit eor 30 ||| placeBit fs 29 ||| placeBit ls 28 ||| placeBit udpt 18 |||
      placeBit tcpt 17 ||| placeBit ipf 16 ||| placeBit udpf 15 ||| placeBit tcpf 14 ||| place rxlen 0 ||| rest)
  | .rxd2V1 rxvtag vlan rest => .word .rxd2V1 (placeBit rxvtag 16 ||| place vlan 0 ||| rest)
  | .rxd2V2 v6f v4f rxvtag vlan rest =>
    .word .rxd2V2 (placeBit v6f 31 ||| placeBit v4f 30 ||| placeBit rxvtag 16 ||| place vlan 0 ||| rest)

/-! ### Table words -/

/-- The format a bare 32-bit word is read under when nothing says which it is. The table's formats
overlap (word 0 fits eight of them); this takes the armed receive word first, whose fixed bits are
the most, and then the first row of the table that fits (log entry 6). -/
def bareFormat (w : Word) : DescFormat :=
  if DescFormat.rxdArmed.fits w then .rxdArmed
  else if DescFormat.txd1V1Csum.fits w then .txd1V1Csum
  else if DescFormat.txd1V1Tso.fits w then .txd1V1Tso
  else if DescFormat.txd2V1.fits w then .txd2V1
  else if DescFormat.rxd1V1.fits w then .rxd1V1
  else if DescFormat.txd2V2.fits w then .txd2V2
  else .rxd2V1

/-- The code whose bits, numbered as spec/opcode_table.json numbers them, are `w`: 32 bits are a
descriptor word; anything else is an operation's bytes, the first byte lowest, with zero operand
bytes behind them. -/
def tableCode (nbits w : Nat) : Code :=
  if nbits = 32 then .word (bareFormat (BitVec.ofNat 32 w)) (BitVec.ofNat 32 w)
  else .op (putNat (nbits / 8) w ++ List.replicate 64 0)

/-- The operation the decoder reads from a row's bits. -/
def decodeTableWord (nbits w : Nat) : Option Instr :=
  match decode (tableCode nbits w) with
  | .ok i => some i
  | .error _ => none

end Sys2Proof
end

