-- ==== Sys2Proof/Machine/Memory.lean ====
section
/-! DEFINITION. DMA memory (spec/20_memory.md): bytes by 64-bit physical address, held as a list of
cells in one canonical form, and the little-endian reads and writes built from bytes (R50, R51). -/

namespace Sys2Proof.Machine

/-- DMA memory: the listed bytes, addresses strictly rising, none equal to `Memory.unlisted`. -/
abbrev Memory := List Host.Cell

namespace Memory

/-- What an unlisted address reads as: no source gives the content of DMA memory nothing has written
(U17; DESIGN CHOICE, log entry 7). -/
def unlisted : Byte := 0#8

/-- The canonical form: strictly rising addresses and no entry that says what an unlisted address says. -/
abbrev wf (m : Memory) : Prop := m.Pairwise (fun c d => c.1 < d.1) ∧ ∀ c ∈ m, c.2 ≠ unlisted

/-- The byte at an address. -/
def read : Memory → Nat → Byte
  | [], _ => unlisted
  | (b, w) :: m, a => if a = b then w else read m a

/-- One byte stored, in canonical form. -/
def write : Memory → Nat → Byte → Memory
  | [], a, v => if v = unlisted then [] else [(a, v)]
  | (b, w) :: m, a, v =>
    if a < b then (if v = unlisted then (b, w) :: m else (a, v) :: (b, w) :: m)
    else if a = b then (if v = unlisted then m else (a, v) :: m)
    else (b, w) :: write m a v

/-- `n` bytes from `a` up. -/
def readBytes (m : Memory) (a : Nat) : Nat → List Byte
  | 0 => []
  | n + 1 => m.read a :: readBytes m (a + 1) n

/-- Bytes stored from `a` up. -/
def writeBytes : Memory → Nat → List Byte → Memory
  | m, _, [] => m
  | m, a, v :: vs => writeBytes (m.write a v) (a + 1) vs

/-- `MemRead(a, 4)`: the byte at the lowest address holds bits 7:0 (R50, R51). -/
def read32 (m : Memory) (a : Nat) : Word :=
  m.read (a + 3) ++ m.read (a + 2) ++ m.read (a + 1) ++ m.read a

/-- `MemWrite(a, 4, v)` (R50). -/
def write32 (m : Memory) (a : Nat) (v : Word) : Memory :=
  (((m.write a (v.extractLsb' 0 8)).write (a + 1) (v.extractLsb' 8 8)).write (a + 2)
    (v.extractLsb' 16 8)).write (a + 3) (v.extractLsb' 24 8)

/-- `MemRead(a, 8)`: bits 31:0 at `a`, bits 63:32 at `a + 4` (R89). -/
def read64 (m : Memory) (a : Nat) : Addr := m.read32 (a + 4) ++ m.read32 a

/-- `MemWrite(a, 8, v)` (R89). -/
def write64 (m : Memory) (a : Nat) (v : Addr) : Memory :=
  (m.write32 a (v.extractLsb' 0 32)).write32 (a + 4) (v.extractLsb' 32 32)

end Memory

end Sys2Proof.Machine
end

