-- ==== Sys2Proof/Machine/State.lean ====
section
/-! DEFINITION. The state of the block as plain data (spec/10_state.md): cursors, flags, slots,
counters, the NIC's hidden state, DMA memory, the NIC registers the engine writes; beside them the
configuration, the queue of invocations the environment supplies, and the history of a run. -/

namespace Sys2Proof.Machine

/-- The life of a DMA object (spec/20_memory.md R59). -/
inductive DmaLife where
  | allocated
  | prepared
  | completed
  deriving DecidableEq, Repr

/-- A physically contiguous DMA memory: its base, its size and where it is in its life (R57, R59). -/
structure DmaMem where
  addr : Addr
  len  : Nat
  life : DmaLife
  deriving DecidableEq, Repr

/-- A receive buffer in a slot: its handle and the memory its handle names (R27, R129). -/
structure RxBuffer where
  h   : Handle
  mem : DmaMem
  deriving DecidableEq, Repr

/-- A transmit packet handle the engine holds, and whether the segmenter has prepared it (R59). -/
structure HeldPacket where
  h    : Handle
  life : DmaLife
  deriving DecidableEq, Repr

/-- A set of interrupt causes: `irq_pending` (R33 (b)) and the set `P` of IRQ (R241). -/
structure CauseSet where
  rx        : Bool
  tx        : Bool
  busError  : Bool
  statsDone : Bool
  deriving DecidableEq, Repr

/-- `Validity` (R94): a subset of `{IP, TCP, UDP}`. -/
structure Validity where
  ip  : Bool
  tcp : Bool
  udp : Bool
  deriving DecidableEq, Repr

/-- The command bits for `opts1` and `opts2` (R94 `Cmd`). -/
structure Cmd where
  cmd1 : Word
  cmd2 : Word
  deriving DecidableEq, Repr

/-- The annotations of a delivered packet (R174). -/
structure DeliverOpts where
  validity : Validity
  vlan     : Option Half
  deriving DecidableEq, Repr

/-- The registers of R25 whose last written value the block relies on; `LINK_STATUS` and
`INTR_STATUS` are read from the environment and from `irq_pending`, `TX_DOORBELL` is an event. -/
structure NicRegs where
  intrMask   : Half
  txRingBase : BitVec 64
  rxRingBase : BitVec 64
  statsBase  : BitVec 64
  deriving DecidableEq, Repr

/-- What the NIC may have read of a descriptor with `OWN = 1` before a ring clear overwrote it: `opts1`, the
buffer address, and the packet whose last descriptor it was (R218, R219, R268; log entry 8). -/
structure Seen where
  ring  : Ring
  index : Nat
  word  : Word
  addr  : Addr
  pkt   : Option Handle
  deriving DecidableEq, Repr

/-- What a mapping event is about (R59). -/
inductive DmaId where
  | txRing
  | rxRing
  | stats
  | buffer (h : Handle)
  | packet (h : Handle)
  deriving DecidableEq, Repr

/-- The error causes of spec/60_exceptions.md R238. -/
inductive ErrCause where
  | backpressure
  | resourceExhaustion
  | busError
  | missedInterrupt
  | txDeadlock
  | unsupportedOffload
  | tooManySegments
  | fatalInit
  | rxFragmented
  | linkDownDrop
  /-- Recorded as the event `refused`, with the precondition that was broken (R236). -/
  | refused
  deriving DecidableEq, Repr

/-- Why an invocation is refused (R236, R96): which precondition it breaks. -/
inductive RefusedReason where
  /-- An engine operation other than ENABLE while disabled (R34). -/
  | disabled
  /-- ENABLE while enabled (R200). -/
  | alreadyEnabled
  /-- A selector with no row (R96). -/
  | invalidSelector
  /-- Bytes that are no operand record, or a word outside its format (R91, U4). -/
  | badEncoding
  /-- An operation invoked by an agent other than its own (R96, R256). -/
  | wrongAgent
  /-- An operand out of its range (R236, U4). -/
  | operandRange
  /-- RING.WRITE on a NIC-owned descriptor (R112, R22). -/
  | nicOwned
  /-- RING.WRITE on a TX descriptor that is not allocated and unsubmitted (R112). -/
  | notAllocated
  /-- `phys()` of an object that is not Prepared (R59). -/
  | notPrepared
  /-- A memory access that would be misaligned, or a ring that leaves the address space (R53, R56). -/
  | misaligned
  /-- An ill-formed configuration (R5, R76). -/
  | illFormedCfg
  /-- The queue is running, or the link is in the wrong state, for this operation (R116, R187, R188). -/
  | precondition
  deriving DecidableEq, Repr

/-- One entry of the history of a run: stores, barriers, register accesses, calls out of the block
(R209, R211), the NIC's stores, raised causes and refusals. -/
inductive Event where
  | descRead (ring : Ring) (i : Nat) (f : DescField)
  | descWrite (ring : Ring) (i : Nat) (f : DescField) (v : BitVec 64)
  | slotStore (i : Nat) (h : Handle)
  | release
  | acquire
  | regRead (off width : Nat) (v : BitVec 64)
  | regWrite (off width : Nat) (v : BitVec 64)
  /-- `RegWrite8(REG.TX_DOORBELL, v)`: the event `doorbell` (R221). -/
  | doorbell (off : Nat) (v : Byte)
  | dmaPrepare (o : DmaId)
  | dmaComplete (o : DmaId)
  | freePacket (h : Handle)
  | freeBuffer (h : Handle)
  | freeDma (o : DmaId)
  | copyBytes (src dst : Handle) (len : Nat)
  | deliverPacket (buffer : Handle) (len : Nat) (opts : DeliverOpts)
  | flushInputQueue
  /-- The link-down call gives no speed and no duplex (R188). -/
  | reportLinkStatus (up : Bool) (params : Option (Speed × Duplex))
  | resumeQueue
  | stopAndFlushQueue
  | nicReset
  | applyChipQuirks
  | applyLinkTuning
  | accumulateStats
  | startTimer
  | stopTimer
  | nicDescWrite (ring : Ring) (i : Nat) (f : DescField) (v : BitVec 64)
  | nicMemWrite (a : Nat) (len : Nat)
  | raised (c : ErrCause)
  | refused (r : RefusedReason)
  deriving DecidableEq, Repr

/-- The result an operation ends with (R9, R95). -/
inductive Result where
  | none
  | first (i : Nat)
  | stall
  | indices (l : List Nat)
  | segs (l : List Segment)
  | seg (s : Segment)
  | tooManySegments
  | cmd (c : Cmd)
  | unsupported
  | word (w : Word)
  | success
  | dropped
  | noReset
  | didReset
  | validity (v : Validity)
  | vlan (t : Option Half)
  | ok
  | fatalInit
  /-- A descriptor word and the format it is in (R78 to R85). -/
  | desc (f : DescFormat) (w : Word)
  | refused (r : RefusedReason)
  deriving DecidableEq, Repr

/-- One invocation the environment makes: who, and what (R18: an input of the step relation), and after how
many steps of an operation in progress (H7; log entry 5). -/
structure Invocation where
  agent : Agent
  code  : Code
  after : Nat
  deriving DecidableEq, Repr

/-- What is left of an operation of the serialized domain: each task is one step of it, and the submitter and
the NIC may step between two (R167, R210 H7, R215, R245 (g); log entry 14). -/
inductive Task where
  /-- The next iteration of RX.IRQ; whether the pass has delivered a frame (R165). -/
  | rxNext (delivered : Bool)
  /-- TX.IRQ from its start (R149). -/
  | txBegin
  /-- The scan of TX.IRQ: at most `k` descriptors more, `old` the `tx_dirty` it began with (R114, R149). -/
  | txScan (k old : Nat)
  /-- The end of TX.DLCHK behind a forced pass (R153). -/
  | dlSnapshot
  /-- Step 2 of TIMER.TICK (R185). -/
  | tickRelease
  /-- Step 3 of TIMER.TICK. -/
  | tickCheck
  /-- Step 4 of TIMER.TICK, on a tick that did not reset. -/
  | tickStats
  /-- STATS.DONE, the last part of IRQ (R241). -/
  | statsDone
  /-- RESET.FULL from the upcall of its step 1 on (R189, R190); what its invoker returns at its end. -/
  | resetRest (ends : Result)
  /-- LINK.DOWN from its upcall on (R188, R189). -/
  | linkDownRest
  deriving DecidableEq, Repr

/-- The state. Every field is named in INVENTORY.md with its rule and its reset value. -/
structure State where
  cfg        : Cfg
  mem        : Memory
  txNext     : Nat
  txDirty    : Nat
  txFree     : Int
  rxIndex    : Nat
  txStalled  : Bool
  txqEnabled : Bool
  txDoneCount  : Nat
  txDoneLast   : Nat
  deadlockWarn : Nat
  enabled    : Bool
  link       : LinkState
  txSlot     : List (Option Handle)
  rxSlot     : List (Option RxBuffer)
  txPending  : Option Handle
  ctrResourceErrors : Nat
  ctrFrameTooLong   : Nat
  ctrTimeouts       : Nat
  ctrResets         : Nat
  ctrTxDrops        : Nat
  statsPending : Bool
  txMem      : Option DmaMem
  rxMem      : Option DmaMem
  stMem      : Option DmaMem
  regs       : NicRegs
  timerOn    : Bool
  everEnabled : Bool
  txUnsubmitted : List Nat
  heldPackets : List HeldPacket
  heldBuffers : List Handle
  hostBufs   : List (Handle × List Byte)
  nicTxBusy  : Option Handle
  irqPending : CauseSet
  nicSeen    : List Seen
  input      : List Invocation
  acquisitions : List Acquisition
  work       : List Task
  caller     : Agent
  result     : Result
  history    : List Event
  freeCount  : Nat
  deriving DecidableEq, Repr

/-- Why the machine stops with a fault (treatment `fault` of spec/93_implementation_defined.md). -/
inductive Fault where
  /-- RX.IRQ read a whole frame whose length is not above `FCS_LEN` or exceeds `RX_BUF_SIZE` (R169, U6).
  Safe: the spec gives no effect and names the fault. -/
  | rxLength
  /-- A handle or DMA memory the engine does not hold was freed (R8, U12). Safe: the spec names the
  fault, and no run reaches it. -/
  | freeNotHeld
  /-- A byte store would leave the 64-bit address space (R32, R125). Safe: the address does not exist. -/
  | outsideAddressSpace
  /-- A sent packet whose memory the NIC may still be reading was freed (ERRATUM_BOUNDED or LINKDOWN_TX_IDLE
  fails: R218, R268), or NIC.TX_DONE read one that had been (U14, U15). Safe: the spec names the fault. -/
  | freedMemoryRead
  deriving DecidableEq, Repr

/-- Why the machine has no move (treatment `stuck` of spec/93_implementation_defined.md). An invocation
the spec calls *refused* is no refusal here: it is a step that changes nothing and is recorded (R236). -/
inductive Refusal where
  /-- The instruction of this mnemonic has no meaning yet. Safe. -/
  | notModelled (mnemonic : String)
  /-- A NIC step that its rule does not enable (R218, R219, R224, U13). Safe: the NIC has no such move. -/
  | nicNotEnabled
  /-- The host submits a packet handle it does not hold (R8, R210, U3). Safe: the host has no such move. -/
  | hostNotHolder
  /-- The allocator hands out memory that is live, or a handle the engine holds, whose memory is (R8, R57, R171,
  R210 H8, U3: "stuck"). Safe: the allocator has no such move. -/
  | unlawfulDraw
  /-- An operation of the serialized domain inside another (R2, R210 H6, U3). Safe: the host has no such move. -/
  | overlap
  deriving DecidableEq, Repr

/-- The outcome of a part of a step. -/
abbrev Out (α : Type) := Host.Outcome α Fault Refusal

/-- The machine before the first ENABLE (R34, R260): disabled, link down, queue stopped, mask all
disabled, no DMA memory. What the spec leaves unspecified is zero or empty (log entry 9). -/
def State.reset : State where
  cfg        := Cfg.vectors
  mem        := []
  txNext     := 0
  txDirty    := 0
  txFree     := 0
  rxIndex    := 0
  txStalled  := false
  txqEnabled := false
  txDoneCount  := 0
  txDoneLast   := 0
  deadlockWarn := 0
  enabled    := false
  link       := ⟨false, ⟨.mbit10, .half, false, false⟩⟩
  txSlot     := []
  rxSlot     := []
  txPending  := none
  ctrResourceErrors := 0
  ctrFrameTooLong   := 0
  ctrTimeouts       := 0
  ctrResets         := 0
  ctrTxDrops        := 0
  statsPending := false
  txMem      := none
  rxMem      := none
  stMem      := none
  regs       := ⟨0#16, 0#64, 0#64, 0#64⟩
  timerOn    := false
  everEnabled := false
  txUnsubmitted := []
  heldPackets := []
  heldBuffers := []
  hostBufs   := []
  nicTxBusy  := none
  irqPending := ⟨false, false, false, false⟩
  nicSeen    := []
  input      := []
  acquisitions := []
  work       := []
  caller     := .host
  result     := .none
  history    := []
  freeCount  := 0

end Sys2Proof.Machine
end

