-- ==== Sys2Proof/Machine/Bits.lean ====
section
/-! DEFINITION. Bit-field helpers over a descriptor word at the positions of a `Layout`
(spec/00_scope.md R6, spec/30_encoding.md R76), the VLAN byte swap (R88), and 32-bit wrapping. -/

namespace Sys2Proof.Machine

/-- The word with only bit `p` set (nothing when `p` is outside the word). -/
def bit (p : Nat) : Word := 1#32 <<< p

/-- The one-bit flag at `p` of `w`. -/
def flag (w : Word) (p : Nat) : Bool := w.getLsbD p

/-- `bit p` when `b`, else 0: the form `(c ? F : 0)` of the spec's pseudocode. -/
def flagIf (b : Bool) (p : Nat) : Word := cond b (bit p) 0#32

/-- `w & ~bit p`. -/
def clearBit (w : Word) (p : Nat) : Word := w &&& ~~~ bit p

/-- All bits of a field. -/
def fieldMask (f : BitField) : Word := (BitVec.allOnes f.w).setWidth 32 <<< f.lo

/-- `v` placed in a field: `v << lo`, bits shifted out of the word dropped (R6). -/
def putField (f : BitField) (v : Nat) : Word := BitVec.ofNat 32 v <<< f.lo

/-- The unsigned value of a field (R6 `w[hi:lo]`). -/
def getField (f : BitField) (w : Word) : Nat := (w.extractLsb' f.lo f.w).toNat

/-- The largest value a field of `w` bits holds. -/
def maxOf (w : Nat) : Nat := 2 ^ w - 1

/-- `swap16(v) = {v[7:0], v[15:8]}` (R6). -/
def swap16 (v : Half) : Half := v.extractLsb' 0 8 ++ v.extractLsb' 8 8

/-- The VLAN field of a tag: byte-swapped when the layout says so (R88). -/
def vlanField (l : Layout) (tci : Half) : Half := cond l.vlanSwapped (swap16 tci) tci

/-- An integer as a 32-bit two's complement register holds it (R14 `tx_free`). -/
def wrapI32 (x : Int) : Int := x.bmod (2 ^ 32)

/-- `count(c)` (R7): one more, modulo `2^CTR_W`. -/
def countUp (cfg : Cfg) (c : Nat) : Nat := (c + 1) % 2 ^ cfg.ctrW

/-- `STATUS1_MASK` (R219): every bit of `opts1` but `OWN`, `EOR`, `FS`, `LS` and `RXLEN`. -/
def status1Mask (l : Layout) : Word :=
  ~~~ (bit l.own ||| bit l.eor ||| bit l.fs ||| bit l.ls ||| fieldMask l.rxlen)

end Sys2Proof.Machine
end

