-- ==== Sys2Proof/Machine/Operands.lean ====
section
/-! DEFINITION. What an invocation must satisfy before it has its effect (spec/60_exceptions.md R236):
the configuration (R5, R76), the invoking agent (R95, R96), the mode, the state of the DMA memories
it uses (R53, R56, R59), and the ranges of operands (R94, R112, R125). -/

namespace Sys2Proof.Machine

/-! ### The configuration -/

def isPow2 (n : Nat) : Bool := n != 0 && n &&& (n - 1) == 0

def fieldInWord (f : BitField) : Bool := decide (f.lo + f.w ≤ 32)

/-- No two of the masks share a bit. -/
def noOverlap (masks : List Word) : Bool := decide (masks.Pairwise fun a b => a &&& b = 0#32)

/-- The one-bit flags of a layout. -/
def layoutFlags (l : Layout) : List Nat :=
  [l.own, l.eor, l.fs, l.ls, l.lgsen, l.ipcs1, l.udpcs1, l.tcpcs1, l.udpcs2, l.tcpcs2, l.ipcs2,
   l.txvtag, l.rxvtag, l.udpt, l.tcpt, l.ipf, l.udpf, l.tcpf, l.v6f, l.v4f]

/-- The fields of each word format that can be non-zero together (R76, R78 to R85). -/
def layoutFormats (l : Layout) : List (List Word) :=
  let common := [bit l.own, bit l.eor, bit l.fs, bit l.ls]
  let txCommon := common ++ [bit l.lgsen, fieldMask l.txlen]
  let fails := [bit l.ipf, bit l.udpf, bit l.tcpf, fieldMask l.rxlen]
  [ txCommon ++ [bit l.ipcs1, bit l.udpcs1, bit l.tcpcs1],
    txCommon ++ [fieldMask l.mss1],
    [bit l.txvtag, fieldMask l.vlan],
    [bit l.udpcs2, bit l.tcpcs2, bit l.ipcs2, bit l.txvtag, fieldMask l.vlan],
    [fieldMask l.mss2, bit l.txvtag, fieldMask l.vlan],
    common ++ fails ++ [fieldMask l.pid],
    common ++ fails ++ [bit l.udpt, bit l.tcpt],
    [bit l.rxvtag, fieldMask l.vlan],
    [bit l.v6f, bit l.v4f, bit l.rxvtag, fieldMask l.vlan] ]

/-- The three descriptor fields lie in 16 bytes, naturally aligned, apart from each other (R52, R75). -/
def layoutOffsetsOk (l : Layout) : Bool :=
  l.offOpts1 % 4 == 0 && l.offOpts2 % 4 == 0 && l.offAddr % 8 == 0 &&
  decide (l.offOpts1 + 4 ≤ descSize) && decide (l.offOpts2 + 4 ≤ descSize) &&
  decide (l.offAddr + 8 ≤ descSize) && l.offOpts1 != l.offOpts2 &&
  (decide (l.offOpts1 + 4 ≤ l.offAddr) || decide (l.offAddr + 8 ≤ l.offOpts1)) &&
  (decide (l.offOpts2 + 4 ≤ l.offAddr) || decide (l.offAddr + 8 ≤ l.offOpts2))

/-- A well-formed layout (R76). The widths of the MSS, VLAN and protocol-id fields are those R76 gives. -/
def layoutWf (l : Layout) : Bool :=
  (layoutFlags l).all (fun p => decide (p < 32)) &&
  [l.mss1, l.txlen, l.mss2, l.vlan, l.pid, l.rxlen].all fieldInWord &&
  l.mss1.w == l.mss2.w && l.vlan.w == 16 && l.pid.w == 2 &&
  (layoutFormats l).all noOverlap && layoutOffsetsOk l

/-- The four cause masks: non-zero and pairwise disjoint (R240). -/
def causesOk (r : RegMap) : Bool :=
  [r.causeRx, r.causeTx, r.causeBusError, r.causeStatsDone].all (· != 0#16) &&
  decide ([r.causeRx, r.causeTx, r.causeBusError, r.causeStatsDone].Pairwise fun a b => a &&& b = 0#16)

/-- A well-formed configuration: the constraints of R5, R76, R120 and R240. An alignment of at least
16 is what makes R52 follow (D5). -/
def cfgWf (c : Cfg) : Bool :=
  isPow2 c.nTx && decide (2 ≤ c.nTx) && decide (c.kMaxSegs < c.nTx) && decide (c.nTx ≤ 2 ^ 31 - 1) &&
  isPow2 c.nRx && decide (2 ≤ c.nRx) && decide (1 ≤ c.kMaxSegs) &&
  decide (c.fcsLen < c.rxBufSize) && decide (c.rxBufSize ≤ maxOf c.layout.rxlen.w) &&
  decide (1 ≤ c.dlThresh1) && decide (c.dlThresh1 < c.dlThresh2) && decide (0 < c.tTick) &&
  isPow2 c.ringAlign && decide (16 ≤ c.ringAlign) && layoutWf c.layout && causesOk c.reg

/-- `SEG_LEN_MAX` (R125). -/
def segLenMax (c : Cfg) : Nat := maxOf c.layout.txlen.w

/-- `MSS_MAX` (R76). -/
def mssMax (c : Cfg) : Nat := maxOf c.layout.mss1.w

/-- `ALL_CAUSES` (R240). -/
def allCauses (r : RegMap) : Half := r.causeRx ||| r.causeTx ||| r.causeBusError ||| r.causeStatsDone

/-! ### Who may invoke what -/

/-- The agents R95 gives each operation. RING.WRITE is the submitter's on the TX ring and the
serialized domain's on the RX ring (R36, R95). A descriptor word may be looked at by any agent. -/
def agentsOf : Instr → List Agent
  | .ringAlloc _ => [.submitter]
  | .ringWrite .tx _ _ _ _ _ => [.submitter]
  | .ringWrite .rx _ _ _ _ _ => [.serialized]
  | .ringReclaim => [.serialized]
  | .ringClearTx => [.serialized]
  | .ringClearRx => [.serialized]
  | .segTx _ => [.submitter]
  | .segRx _ => [.serialized]
  | .encV1 _ => [.submitter]
  | .encV2 _ => [.submitter]
  | .encVlan _ => [.submitter]
  | .txSubmit _ => [.submitter]
  | .txIrq => [.serialized]
  | .txDlchk => [.serialized]
  | .rxIrq _ => [.serialized]
  | .rxCsumV1 _ _ => [.serialized]
  | .rxCsumV2 _ _ => [.serialized]
  | .rxVlan _ => [.serialized]
  | .timerTick _ => [.serialized]
  | .linkUp _ => [.serialized]
  | .linkDown => [.serialized]
  | .resetFull => [.serialized]
  | .irq _ => [.serialized]
  | .statsReq => [.serialized]
  | .statsDone => [.serialized]
  | .enable _ => [.host]
  | .disable => [.host]
  | .nicTxDone _ _ => [.nic]
  | .nicRxFill _ _ _ _ => [.nic]
  | .nicIrqRaise _ => [.nic]
  | .nicReset => [.serialized]
  | .nicTxQuiesce => [.nic]
  | .txd1V1Csum _ _ _ _ _ _ _ _ => [.submitter, .serialized, .host, .nic]
  | .txd1V1Tso _ _ _ _ _ _ => [.submitter, .serialized, .host, .nic]
  | .txd1V2 _ _ _ _ _ _ => [.submitter, .serialized, .host, .nic]
  | .txd2V1 _ _ => [.submitter, .serialized, .host, .nic]
  | .txd2V2 _ _ _ _ _ _ => [.submitter, .serialized, .host, .nic]
  | .rxdArmed _ _ => [.submitter, .serialized, .host, .nic]
  | .rxd1V1 _ _ _ _ _ _ _ _ _ => [.submitter, .serialized, .host, .nic]
  | .rxd1V2 _ _ _ _ _ _ _ _ _ _ => [.submitter, .serialized, .host, .nic]
  | .rxd2V1 _ _ _ => [.submitter, .serialized, .host, .nic]
  | .rxd2V2 _ _ _ _ _ => [.submitter, .serialized, .host, .nic]

/-- The agents whose operations run in the serialized domain, one at a time: the domain itself, and the host's
ENABLE and DISABLE (R2, R200, R203, R210 H6). -/
def inDomain : Agent → Bool
  | .submitter => false
  | .serialized => true
  | .host => true
  | .nic => false

/-! ### The DMA memories -/

/-- What is wrong with a ring memory of `n` descriptors: not Prepared (R59), or a base under which an
access would be misaligned or leave the address space (R52, R53, R56). -/
def ringProblem (c : Cfg) (m : Option DmaMem) (n : Nat) : Option RefusedReason :=
  match m with
  | none => some .notPrepared
  | some d =>
    if d.life ≠ .prepared then some .notPrepared
    else if d.addr.toNat % c.ringAlign ≠ 0 ∨ 2 ^ 64 < d.addr.toNat + descSize * n then some .misaligned
    else none

/-- A slot whose buffer is Prepared, inside the address space and large enough (R27, R59, R129). -/
def rxSlotOk (c : Cfg) : Option RxBuffer → Bool
  | none => false
  | some b => b.mem.life == .prepared && decide (b.mem.addr.toNat + b.mem.len ≤ 2 ^ 64) &&
      decide (c.rxBufSize ≤ b.mem.len)

def txProblem (s : State) : Option RefusedReason := ringProblem s.cfg s.txMem s.cfg.nTx

/-- The RX ring and the buffers its descriptors name. -/
def rxProblem (s : State) : Option RefusedReason :=
  match ringProblem s.cfg s.rxMem s.cfg.nRx with
  | some r => some r
  | none =>
    if s.rxSlot.length = s.cfg.nRx ∧ s.rxSlot.all (rxSlotOk s.cfg) = true then none else some .notPrepared

/-- `phys(stmem)` (R59); 0 for a memory that does not exist, which no admitted operation reads. -/
def statsBase (s : State) : Addr :=
  match s.stMem with
  | some d => d.addr
  | none => 0#64

/-- What is wrong with the statistics memory: it is not Prepared (R59). -/
def stProblem (s : State) : Option RefusedReason :=
  match s.stMem with
  | some d => if d.life = .prepared then none else some .notPrepared
  | none => some .notPrepared

/-- The statistics memory, where "reinitialize chip registers" passes its address (R57, R59; log entry 41). -/
def initProblem (s : State) : Option RefusedReason := if s.cfg.reg.statsAtInit then stProblem s else none

/-! ### Preconditions -/

/-- What an operation needs of the state beyond the right agent and a well-formed configuration. -/
inductive Need where
  /-- Nothing: a step of the NIC, or its reset (R215, R222). -/
  | always
  /-- `enabled` (R34). -/
  | enabled
  /-- `enabled` and the TX ring memory. -/
  | tx
  /-- `enabled`, the RX ring memory and its buffers. -/
  | rx
  /-- Both, and what the chip's registers are given again (R190): an operation that may reset. -/
  | both
  deriving DecidableEq, Repr

/-- The first precondition of R236 an invocation breaks, if any. -/
def precheck (agents : List Agent) (need : Need) (s : State) : Option RefusedReason :=
  if s.caller ∉ agents then some .wrongAgent
  else if cfgWf s.cfg = false then some .illFormedCfg
  else
    match need with
    | .always => none
    | .enabled => if s.enabled then none else some .disabled
    | .tx => if s.enabled then txProblem s else some .disabled
    | .rx => if s.enabled then rxProblem s else some .disabled
    | .both => if s.enabled then (txProblem s).or ((rxProblem s).or (initProblem s)) else some .disabled

/-- A region inside the address space and no longer than `SEG_LEN_MAX` (R125). -/
def regionOk (c : Cfg) (r : Region) : Bool :=
  decide (r.pa.toNat + r.len ≤ 2 ^ 64) && decide (r.len ≤ segLenMax c)

def regionsOk (c : Cfg) (l : List Region) : Bool := l.all (regionOk c)

/-- The number of descriptors of a ring. -/
def ringSize (c : Cfg) : Ring → Nat
  | .tx => c.nTx
  | .rx => c.nRx

/-- The length field of a ring's `opts1` (R112: `TXLEN_W` or `RXLEN_W` bits). -/
def lenField (c : Cfg) : Ring → BitField
  | .tx => c.layout.txlen
  | .rx => c.layout.rxlen

/-- The bits `flags1` may have: those its word format names, but for `OWN`, `EOR` and the length field (R91,
R112). On TX those of R78 or R79, where `LGSEN` says what the bits below it are; on RX none (R82). -/
def flags1Mask (c : Cfg) (ring : Ring) (flags1 : Word) : Word :=
  let l := c.layout
  match ring with
  | .rx => 0#32
  | .tx =>
    bit l.fs ||| bit l.ls ||| bit l.lgsen |||
      (if c.revision2 then 0#32
        else if flag flags1 l.lgsen then fieldMask l.mss1
        else bit l.ipcs1 ||| bit l.udpcs1 ||| bit l.tcpcs1)

/-- The bits `flags2` may have: those its word format names (R80, R81, R82, R91). -/
def flags2Mask (c : Cfg) (ring : Ring) (flags1 flags2 : Word) : Word :=
  let l := c.layout
  match ring with
  | .rx => 0#32
  | .tx =>
    if c.revision2 then
      bit l.txvtag ||| fieldMask l.vlan |||
        (if flag flags1 l.lgsen then fieldMask l.mss2 else bit l.udpcs2 ||| bit l.tcpcs2 ||| bit l.ipcs2)
    else bit l.txvtag ||| (if flag flags2 l.txvtag then fieldMask l.vlan else 0#32)

/-- `flags1` and `flags2` have no bit outside their format (R91; log entry 32). -/
def flagsOk (c : Cfg) (ring : Ring) (flags1 flags2 : Word) : Bool :=
  within flags1 (flags1Mask c ring flags1) && within flags2 (flags2Mask c ring flags1 flags2)

/-- The operands of RING.WRITE in their ranges (R91, R94, R112, R236). -/
def writeOperandsOk (c : Cfg) (ring : Ring) (index : Nat) (seg : Segment) (flags1 flags2 : Word) : Bool :=
  decide (index < ringSize c ring) && decide (1 ≤ seg.len) &&
  decide (seg.len ≤ maxOf (lenField c ring).w) && flagsOk c ring flags1 flags2

/-- Two runs of bytes that share none. -/
def disjoint (a : Nat) (len : Nat) (m : DmaMem) : Bool :=
  decide (a + len ≤ m.addr.toNat) || decide (m.addr.toNat + m.len ≤ a)

/-- A run of bytes that shares none with either ring memory (R216 (f)); an empty one shares none. -/
def offRings (s : State) (a len : Nat) : Bool :=
  len == 0 || (s.txMem.toList ++ s.rxMem.toList).all (disjoint a len)

end Sys2Proof.Machine
end

