-- ==== Sys2Proof/Machine/Flags.lean ====
section
/-! DEFINITION. The flag computations: the offload command bits of a transmit descriptor
(spec/42_tx_encoder.md), the checksum-validity set and the VLAN tag of a received one
(spec/44_rx_pipeline.md R175 to R177), and the cause sets of the interrupt registers (R240). All
are pure functions of their operands and the configuration. -/

namespace Sys2Proof.Machine

/-- `unsupported(off)` (R138): (a) to (d). -/
def unsupported (c : Cfg) (off : OffloadReq) : Bool :=
  off.other || (off.tcp && off.udp) || (off.tso && off.udp) ||
  (off.tso && (off.mss == 0 || decide (mssMax c < off.mss)))

/-- ENC.V1 (R136): every command bit is in `opts1`. `none` is `Unsupported`. -/
def encodeV1 (c : Cfg) (off : OffloadReq) : Option Cmd :=
  if unsupported c off then none
  else if off.tso then some ⟨bit c.layout.lgsen ||| putField c.layout.mss1 off.mss, 0#32⟩
  else some ⟨flagIf off.ip c.layout.ipcs1 ||| flagIf off.udp c.layout.udpcs1 |||
    flagIf off.tcp c.layout.tcpcs1, 0#32⟩

/-- ENC.V2 (R137): the checksum requests and the MSS are in `opts2`. -/
def encodeV2 (c : Cfg) (off : OffloadReq) : Option Cmd :=
  if unsupported c off then none
  else if off.tso then some ⟨bit c.layout.lgsen, putField c.layout.mss2 off.mss⟩
  else some ⟨0#32, flagIf off.udp c.layout.udpcs2 ||| flagIf off.tcp c.layout.tcpcs2 |||
    flagIf off.ip c.layout.ipcs2⟩

/-- The encoder the chip revision selects (R90, R145 step 3). -/
def encodeOffload (c : Cfg) (off : OffloadReq) : Option Cmd :=
  if c.revision2 then encodeV2 c off else encodeV1 c off

/-- ENC.VLAN (R139): the word to OR into `opts2`. -/
def encodeVlan (c : Cfg) : Option Half → Word
  | none => 0#32
  | some tci => bit c.layout.txvtag ||| putField c.layout.vlan (vlanField c.layout tci).toNat

def Validity.nothing : Validity := ⟨false, false, false⟩

/-- `{IP, TCP}`, `{IP, UDP}` or `{IP}` when the fail bit is clear, else the empty set. -/
def validIf (fail : Bool) (v : Validity) : Validity := cond fail Validity.nothing v

/-- RX.CSUM.V1 (R175): the protocol id selects the fail bit that decides. -/
def csumV1 (c : Cfg) (opts1 : Word) : Validity :=
  match getField c.layout.pid opts1 with
  | 1 => validIf (flag opts1 c.layout.tcpf) ⟨true, true, false⟩
  | 2 => validIf (flag opts1 c.layout.udpf) ⟨true, false, true⟩
  | 3 => validIf (flag opts1 c.layout.ipf) ⟨true, false, false⟩
  | _ => Validity.nothing

/-- RX.CSUM.V2 (R176): nothing is claimed unless the frame is IPv4. -/
def csumV2 (c : Cfg) (opts1 opts2 : Word) : Validity :=
  if flag opts2 c.layout.v4f = false then Validity.nothing
  else if flag opts1 c.layout.tcpt then validIf (flag opts1 c.layout.tcpf) ⟨true, true, false⟩
  else if flag opts1 c.layout.udpt then validIf (flag opts1 c.layout.udpf) ⟨true, false, true⟩
  else validIf (flag opts1 c.layout.ipf) ⟨true, false, false⟩

/-- The decoder the chip revision selects (R90, R165). -/
def csum (c : Cfg) (opts1 opts2 : Word) : Validity :=
  if c.revision2 then csumV2 c opts1 opts2 else csumV1 c opts1

/-- RX.VLAN (R177). -/
def rxVlanTag (c : Cfg) (opts2 : Word) : Option Half :=
  if flag opts2 c.layout.rxvtag then
    some (vlanField c.layout (BitVec.ofNat 16 (getField c.layout.vlan opts2)))
  else none

/-! ### Cause sets -/

def CauseSet.empty : CauseSet := ⟨false, false, false, false⟩

def CauseSet.all : CauseSet := ⟨true, true, true, true⟩

def CauseSet.has (p : CauseSet) : Cause → Bool
  | .rx => p.rx
  | .tx => p.tx
  | .busError => p.busError
  | .statsDone => p.statsDone

/-- `irq_pending + {cause}`. -/
def CauseSet.add (p : CauseSet) : Cause → CauseSet
  | .rx => { p with rx := true }
  | .tx => { p with tx := true }
  | .busError => { p with busError := true }
  | .statsDone => { p with statsDone := true }

/-- `irq_pending - P`. -/
def CauseSet.diff (p q : CauseSet) : CauseSet :=
  ⟨p.rx && !q.rx, p.tx && !q.tx, p.busError && !q.busError, p.statsDone && !q.statsDone⟩

/-- `REG.CAUSE_MASK(c)` (R240). -/
def causeMask (r : RegMap) : Cause → Half
  | .rx => r.causeRx
  | .tx => r.causeTx
  | .busError => r.causeBusError
  | .statsDone => r.causeStatsDone

/-- The bits `INTR_STATUS` shows for the pending causes (R240). -/
def statusBits (r : RegMap) (p : CauseSet) : Half :=
  cond p.rx r.causeRx 0#16 ||| cond p.tx r.causeTx 0#16 ||| cond p.busError r.causeBusError 0#16 |||
  cond p.statsDone r.causeStatsDone 0#16

end Sys2Proof.Machine
end

