-- ==== Sys2Proof/Machine/Ops.lean ====
section
/-! DEFINITION. The named operations over the state that the meanings are written in: the history,
refusals and results, descriptor access (spec/20_memory.md R56), the free count (R64), freeing
(R8, R59), the doorbell, the descriptor write of R112, the ring clears of R116 and R117, the NIC's
reset (R222), and the full reset path of R190, which is what this block has in place of taking an
exception and returning from it (spec/60_exceptions.md R246, R247). -/

namespace Sys2Proof.Machine

/-! ### Sequencing, history, results -/

/-- Go on with the next part of a step unless this one stopped. -/
def andThen {α β : Type} (x : Out α) (f : α → Out β) : Out β :=
  match x with
  | .next a => f a
  | .fault r => .fault r
  | .refused r => .refused r

namespace State

/-- Append one event to the history. -/
def emit (s : State) (e : Event) : State := { s with history := s.history ++ [e] }

/-- The result an operation ends with (R9). -/
def withResult (s : State) (r : Result) : State := { s with result := r }

/-- `raise E` (R230): a mark in the history, nothing else. -/
def raise (s : State) (c : ErrCause) : State := s.emit (.raised c)

/-- A refused invocation (R236): no state changes, the refusal is recorded, the machine goes on. The record
stands for the cause `Refused` of R238. -/
def refuse (s : State) (r : RefusedReason) : State := (s.emit (.refused r)).withResult (.refused r)

/-- Tasks put in front of what is left of the operation in progress (R167). -/
def pushWork (s : State) (l : List Task) : State := { s with work := l ++ s.work }

/-- An operation of the serialized domain is in progress, and the agent that acts runs in that domain. The host
invokes none inside another (R210 H6). -/
def overlaps (s : State) : Bool := inDomain s.caller && !s.work.isEmpty

end State

/-- Run `body` when no precondition of R236 is broken, else end as `refusal` says. -/
def guardedBy (refusal : RefusedReason → State → State) (agents : List Agent) (need : Need) (s : State)
    (body : State → Out State) : Out State :=
  match precheck agents need s with
  | some r => .next (refusal r s)
  | none => if s.overlaps then .refused .overlap else body s

/-- Run `body` when no precondition of R236 is broken, else refuse. -/
def guarded (agents : List Agent) (need : Need) (s : State) (body : State → Out State) : Out State :=
  guardedBy (fun r s => s.refuse r) agents need s body

/-- The code numbers of R238. -/
def ErrCause.code : ErrCause → Nat
  | .backpressure => 0x01
  | .resourceExhaustion => 0x02
  | .busError => 0x03
  | .missedInterrupt => 0x04
  | .txDeadlock => 0x05
  | .unsupportedOffload => 0x06
  | .tooManySegments => 0x07
  | .fatalInit => 0x08
  | .rxFragmented => 0x09
  | .linkDownDrop => 0x0A
  | .refused => 0x0F

/-- The error cause an entry of the history records, if it records one (R230, R238). -/
def errorOf : Event → Option ErrCause
  | .raised c => some c
  | .refused _ => some .refused
  | _ => none

/-! ### Descriptors in DMA memory -/

namespace State

/-- The memory object of a ring. -/
def ringMem (s : State) : Ring → Option DmaMem
  | .tx => s.txMem
  | .rx => s.rxMem

/-- `base(ring)` (R56); 0 for a ring that does not exist, which no admitted operation reads. -/
def base (s : State) (ring : Ring) : Addr :=
  match s.ringMem ring with
  | some d => d.addr
  | none => 0#64

end State

/-- `off(f)` (R76). -/
def fieldOff (l : Layout) : DescField → Nat
  | .opts1 => l.offOpts1
  | .opts2 => l.offOpts2
  | .addr => l.offAddr

namespace State

/-- The address of field `f` of descriptor `i`: `base(ring) + 16*i + off(f)` (R56, R119). -/
def descAddr (s : State) (ring : Ring) (i : Nat) (f : DescField) : Nat :=
  (s.base ring).toNat + descSize * i + fieldOff s.cfg.layout f

/-- The word `opts1` or `opts2` of a descriptor. -/
def desc32 (s : State) (ring : Ring) (i : Nat) (f : DescField) : Word :=
  s.mem.read32 (s.descAddr ring i f)

/-- The address field of a descriptor. -/
def descBuf (s : State) (ring : Ring) (i : Nat) : Addr := s.mem.read64 (s.descAddr ring i .addr)

/-- A descriptor is NIC-owned (R12, R77). -/
def nicOwned (s : State) (ring : Ring) (i : Nat) : Bool := flag (s.desc32 ring i .opts1) s.cfg.layout.own

/-- `DescRead` of a 4-byte field, as the history records it; the value is `desc32`. -/
def noteRead (s : State) (ring : Ring) (i : Nat) (f : DescField) : State := s.emit (.descRead ring i f)

/-- `DescWrite` of `opts1` or `opts2` (R54: one 4-byte access). -/
def descWrite32 (s : State) (ring : Ring) (i : Nat) (f : DescField) (v : Word) : State :=
  { s with
    mem := s.mem.write32 (s.descAddr ring i f) v
    history := s.history ++ [.descWrite ring i f (v.setWidth 64)] }

/-- `DescWrite` of `addr` (R54: one 8-byte access). -/
def descWriteAddr (s : State) (ring : Ring) (i : Nat) (v : Addr) : State :=
  { s with
    mem := s.mem.write64 (s.descAddr ring i .addr) v
    history := s.history ++ [.descWrite ring i .addr v] }

end State

/-- `eor(ring, i)`: `EOR` on the last index of the ring, 0 elsewhere (R19, R112). -/
def eorBit (c : Cfg) (ring : Ring) (i : Nat) : Word :=
  if i + 1 = ringSize c ring then bit c.layout.eor else 0#32

/-- The `opts1` word of a descriptor write without `OWN`: `e | flags1 | seg.len` (R112). -/
def opts1Word (c : Cfg) (ring : Ring) (i : Nat) (flags1 : Word) (len : Nat) : Word :=
  eorBit c ring i ||| flags1 ||| putField (lenField c ring) len

/-- The `opts1` word of the same write with `OWN`. -/
def ownedWord (c : Cfg) (ring : Ring) (i : Nat) (flags1 : Word) (len : Nat) : Word :=
  bit c.layout.own ||| opts1Word c ring i flags1 len

/-- Steps W1 to W4 of RING.WRITE (R112), with no check. -/
def writeDesc (ring : Ring) (i : Nat) (seg : Segment) (flags1 flags2 : Word) (own : Bool) (s : State) : State :=
  let s1 := s.descWriteAddr ring i seg.addr
  let s2 := s1.descWrite32 ring i .opts1 (opts1Word s.cfg ring i 0#32 seg.len)
  let s3 := s2.descWrite32 ring i .opts2 flags2
  let s4 := s3.descWrite32 ring i .opts1 (opts1Word s.cfg ring i flags1 seg.len)
  if own then (s4.emit .release).descWrite32 ring i .opts1 (ownedWord s.cfg ring i flags1 seg.len) else s4

/-- `AtomicAdd(tx_free, k)` (R64), in a 32-bit two's complement register (R14). -/
def atomicAdd (k : Int) (s : State) : State := { s with txFree := wrapI32 (s.txFree + k) }

/-- `(i + k) mod N_TX` (R122). -/
def txIdx (c : Cfg) (i k : Nat) : Nat := (i + k) % c.nTx

/-- `RegWrite8(REG.TX_DOORBELL, DOORBELL_VALUE)` (R63, R221): one `doorbell` event. -/
def ringDoorbell (s : State) : State := s.emit (.doorbell s.cfg.reg.txDoorbell s.cfg.reg.doorbellValue)

/-! ### Handles and DMA memories -/

/-- The engine takes a packet handle from the host (R8). -/
def holdPacket (h : Handle) (s : State) : State :=
  { s with heldPackets := ⟨h, .allocated⟩ :: s.heldPackets }

def State.holdsPacket (s : State) (h : Handle) : Bool := s.heldPackets.any (·.h == h)

/-- The engine no longer holds a packet handle. -/
def dropPacket (h : Handle) (s : State) : State :=
  { s with heldPackets := s.heldPackets.filter (·.h != h) }

/-- The segmenter prepares a packet's memory (R59, R125). -/
def preparePacket (h : Handle) (s : State) : State :=
  { s with
    heldPackets := s.heldPackets.map fun p => if p.h == h then ⟨p.h, .prepared⟩ else p
    history := s.history ++ [.dmaPrepare (.packet h)] }

/-- The mapping of a prepared packet is completed before the packet leaves the engine (R59). -/
def completePacket (h : Handle) (s : State) : State :=
  if s.heldPackets.any (fun p => p.h == h && p.life == .prepared) then s.emit (.dmaComplete (.packet h)) else s

/-- `FreePacket(h)` (R8): back to the host's allocator; a fault if the engine does not hold it (U12). -/
def freePacket (h : Handle) (s : State) : Out State :=
  if s.holdsPacket h then .next ((dropPacket h (completePacket h s)).emit (.freePacket h))
  else .fault .freeNotHeld

/-- The packet goes back to the host, which never gave it up (R145 step 4, H1). -/
def returnPacket (h : Handle) (s : State) : State := dropPacket h (completePacket h s)

/-- `FreePacket` of a packet the engine has sent, out of a slot or out of `tx_pending`: a fault while the NIC may
still be reading it (R33 (a), U14, U15). -/
def freeSent (h : Handle) (s : State) : Out State :=
  if s.nicTxBusy = some h then .fault .freedMemoryRead else freePacket h s

/-- The same of a handle that may be absent. -/
def freeSentOpt (h : Option Handle) (s : State) : Out State :=
  match h with
  | some h => freeSent h s
  | none => .next s

/-- A receive buffer acquired and prepared (R211 `AllocBuffer`). -/
def holdBuffer (h : Handle) (s : State) : State :=
  { s with
    heldBuffers := h :: s.heldBuffers
    history := s.history ++ [.dmaPrepare (.buffer h)] }

/-- `FreeBuffer(h)` (R8, R59). -/
def freeBuffer (h : Handle) (s : State) : Out State :=
  if h ∈ s.heldBuffers then
    .next { s with
      heldBuffers := s.heldBuffers.erase h
      history := s.history ++ [.dmaComplete (.buffer h), .freeBuffer h] }
  else .fault .freeNotHeld

/-- `FreeDma` of the TX ring memory (R59, R211). -/
def freeTxMem (s : State) : Out State :=
  match s.txMem with
  | some _ => .next { s with txMem := none, history := s.history ++ [.dmaComplete .txRing, .freeDma .txRing] }
  | none => .fault .freeNotHeld

/-- `FreeDma` of the RX ring memory. -/
def freeRxMem (s : State) : Out State :=
  match s.rxMem with
  | some _ => .next { s with rxMem := none, history := s.history ++ [.dmaComplete .rxRing, .freeDma .rxRing] }
  | none => .fault .freeNotHeld

/-- `FreeDma` of the statistics memory. -/
def freeStMem (s : State) : Out State :=
  match s.stMem with
  | some _ => .next { s with stMem := none, history := s.history ++ [.dmaComplete .stats, .freeDma .stats] }
  | none => .fault .freeNotHeld

/-- The buffer in an RX slot. -/
def State.rxBuf (s : State) (i : Nat) : Option RxBuffer := s.rxSlot.getD i none

/-- The packet handle in a TX slot. -/
def State.txPkt (s : State) (i : Nat) : Option Handle := s.txSlot.getD i none

/-- `phys(rx_slot[i])` (R8, R59): defined only while the buffer is Prepared; every operation that uses
it is refused otherwise (`rxProblem`). -/
def State.slotPhys (s : State) (i : Nat) : Addr :=
  match s.rxBuf i with
  | some b => if b.mem.life = .prepared then b.mem.addr else 0#64
  | none => 0#64

/-! ### The ring clears -/

/-- One descriptor of RING.CLEAR_TX (R116): the three fields, then the slot's packet. -/
def clearTxOne (i : Nat) (s : State) : Out State :=
  let s1 := s.descWrite32 .tx i .opts1 (eorBit s.cfg .tx i)
  let s2 := s1.descWrite32 .tx i .opts2 0#32
  let s3 := s2.descWriteAddr .tx i 0#64
  match s3.txPkt i with
  | some h => andThen (freeSent h s3) fun s4 => .next { s4 with txSlot := s4.txSlot.set i none }
  | none => .next s3

/-- `for i in i .. i + k - 1` of RING.CLEAR_TX. -/
def clearTxLoop : Nat → Nat → State → Out State
  | 0, _, s => .next s
  | k + 1, i, s => andThen (clearTxOne i s) (clearTxLoop k (i + 1))

/-- The registers RING.CLEAR_TX re-establishes (R35, R116). DESIGN CHOICE (log entry 40): no index RING.ALLOC handed
out before the clear is one RING.WRITE may still write, of which R112 and R116 say nothing. -/
def resetTxRegs (s : State) : State :=
  { s with
    txPending := none
    txNext := 0
    txDirty := 0
    txFree := s.cfg.nTx
    txStalled := false
    txDoneCount := 0
    txDoneLast := 0
    deadlockWarn := 0
    txUnsubmitted := [] }

/-- RING.CLEAR_TX (R116), with no check. -/
def clearTx (s : State) : Out State :=
  andThen (clearTxLoop s.cfg.nTx 0 s) fun s1 =>
  andThen (freeSentOpt s1.txPending s1) fun s2 => .next (resetTxRegs s2)

/-- What the NIC may have read of descriptor `i`, if it owns it (R218, R219). -/
def seenAt (s : State) (ring : Ring) (i : Nat) : Option Seen :=
  if s.nicOwned ring i then
    some ⟨ring, i, s.desc32 ring i .opts1, s.descBuf ring i, if ring = .tx then s.txPkt i else none⟩
  else none

/-- The NIC keeps what it may have read of descriptors a ring clear is about to overwrite, when it has
not been reset first (R268, U15); the newest stands first. -/
def noteSeen (ring : Ring) (s : State) : State :=
  { s with nicSeen := (List.range (ringSize s.cfg ring)).filterMap (seenAt s ring) ++ s.nicSeen }

/-- Re-arm RX descriptor `i` with the buffer in its slot (R82, R117, R178). -/
def rearm (i : Nat) (s : State) : State :=
  writeDesc .rx i ⟨s.slotPhys i, s.cfg.rxBufSize⟩ 0#32 0#32 true s

def clearRxLoop : Nat → Nat → State → State
  | 0, _, s => s
  | k + 1, i, s => clearRxLoop k (i + 1) (rearm i s)

/-- RING.CLEAR_RX (R117), with no check. -/
def clearRx (s : State) : State := { clearRxLoop s.cfg.nRx 0 s with rxIndex := 0 }

/-! ### The NIC's reset and the full reset path -/

/-- `NicReset()`, that is NIC.RESET (R192, R222): pending causes, the erratum window and every
observation are gone, and the registers other than the interrupt mask hold values no source gives
(U18, log entry 12). -/
def nicReset (s : State) : State :=
  { s with
    irqPending := CauseSet.empty
    nicTxBusy := none
    nicSeen := []
    regs := { s.regs with
      txRingBase := Config.freeReg s.freeCount
      rxRingBase := Config.freeReg (s.freeCount + 1)
      statsBase := Config.freeReg (s.freeCount + 2) }
    freeCount := s.freeCount + 3
    history := s.history ++ [.nicReset] }

/-- `RegWrite16(REG.INTR_MASK, v)` (R25, R240). -/
def writeIntrMask (v : Half) (s : State) : State :=
  { s with
    regs := { s.regs with intrMask := v }
    history := s.history ++ [.regWrite s.cfg.reg.intrMask 16 (v.setWidth 64)] }

/-- `RegWrite64(off, v)`: two 32-bit writes, the low half at `off` and the high half at `off + 4`, in the order
the configuration gives (R190, D36). -/
def halves (r : RegMap) (off : Nat) (v : BitVec 64) : List Event :=
  let low := .regWrite off 32 ((v.extractLsb' 0 32).setWidth 64)
  let high := .regWrite (off + 4) 32 ((v.extractLsb' 32 32).setWidth 64)
  if r.lowFirst then [low, high] else [high, low]

/-- `RegWrite64(REG.STATS_BASE, v)` (R25, R190, R205). -/
def writeStatsBase (v : BitVec 64) (s : State) : State :=
  { s with
    regs := { s.regs with statsBase := v }
    history := s.history ++ halves s.cfg.reg s.cfg.reg.statsBase v }

/-- R57: the statistics address is passed to the NIC with the ring bases. DESIGN CHOICE (log entry 41): R25, R190 and
R200 do not list this write, so the configuration says whether it is made. -/
def passStats (s : State) : State := if s.cfg.reg.statsAtInit then writeStatsBase (statsBase s) s else s

/-- "Reinitialize chip registers" (R57, R190 step 5, R200 step E7): the opaque part, both ring bases, the statistics
address where the configuration says so, the interrupt mask last (R262). -/
def reinitRegs (s : State) : State :=
  let s1 := s.emit .applyChipQuirks
  let s2 := { s1 with
    regs := { s1.regs with txRingBase := s1.base .tx, rxRingBase := s1.base .rx }
    history := s1.history ++ (halves s1.cfg.reg s1.cfg.reg.txRingBase (s1.base .tx) ++
      halves s1.cfg.reg s1.cfg.reg.rxRingBase (s1.base .rx)) }
  writeIntrMask (allCauses s2.cfg.reg) (passStats s2)

/-- `txq_enabled <- false`: from here on a submission is dropped (R145 step 1, R188, R190). -/
def closeQueue (s : State) : State := { s with txqEnabled := false }

/-- `Upcall stop_and_flush_queue()` (R189). A submission is one step here, so none is in progress when it returns. -/
def flushQueue (s : State) : State := s.emit .stopAndFlushQueue

/-- "Stop queue, flush" with no submission in between, as DISABLE has it (R98, R203, R210 H7). -/
def stopQueue (s : State) : State := flushQueue (closeQueue s)

/-- "Resumes the TX queue" (R187, R190 step 6). -/
def resumeQueue (s : State) : State := { s with txqEnabled := true, history := s.history ++ [.resumeQueue] }

/-- RESET.FULL from the upcall of its step 1 on (R190). -/
def fullReset (s : State) : Out State :=
  andThen (clearTx (nicReset (flushQueue s))) fun s1 =>
    let s2 := clearRx s1
    let s3 := reinitRegs { s2 with statsPending := false }
    .next (if s3.link.up then resumeQueue s3 else s3)

/-- RESET.FULL (R190): the block's one recovery path, in place of taking an exception (R246). It saves nothing, and
returns by falling out of its last step to its invoker, which ends as `ends` says (R247). The queue is closed; the
rest is a step of its own, so that a submission may meet the closed queue before `stop_and_flush_queue()` has
returned (R189, R245 (g); log entry 14). -/
def beginReset (ends : Result) (s : State) : State := (closeQueue s).pushWork [.resetRest ends]

/-! ### The counters of R30 -/

def countResourceErrors (s : State) : State := { s with ctrResourceErrors := countUp s.cfg s.ctrResourceErrors }
def countFrameTooLong (s : State) : State := { s with ctrFrameTooLong := countUp s.cfg s.ctrFrameTooLong }
def countTimeouts (s : State) : State := { s with ctrTimeouts := countUp s.cfg s.ctrTimeouts }
def countResets (s : State) : State := { s with ctrResets := countUp s.cfg s.ctrResets }
def countTxDrops (s : State) : State := { s with ctrTxDrops := countUp s.cfg s.ctrTxDrops }

/-! ### Taking an invocation -/

/-- The refusal a code that decodes to nothing is recorded as (R91, R96, R236, U4). -/
def decodeReason : DecodeError → RefusedReason
  | .invalidSelector => .invalidSelector
  | .truncated => .badEncoding
  | .badOperand => .badEncoding
  | .trailingBytes => .badEncoding
  | .reservedBits => .badEncoding

/-- The next invocation is taken from the queue; its agent is the one acting (R2, R18). -/
def takeInput (x : Invocation) (rest : List Invocation) (s : State) : State :=
  { s with input := rest, caller := x.agent }

/-- The acquisitions an invocation brings for its receive pass (R167, R171; log entry 5). -/
def takeDraws (draws : List Acquisition) (s : State) : State := { s with acquisitions := draws }

/-- The agent that may invoke what a code decodes to; the host for a code that decodes to nothing. -/
def agentFor (c : Code) : Agent :=
  match decode c with
  | .ok i => (agentsOf i).headD .host
  | .error _ => .host

end Sys2Proof.Machine
end

