-- ==== Sys2Proof/Machine/Encoder.lean ====
section
/-! DEFINITION. The transmit descriptor encoder of spec/42_tx_encoder.md as operations: ENC.V1,
ENC.V2, ENC.VLAN. Each is pure: it ends with a result and changes nothing else. -/

namespace Sys2Proof.Machine

/-- The result of an encoder: `Ok(Cmd)` or `Unsupported` (R95). -/
def cmdResult : Option Cmd → Result
  | some c => .cmd c
  | none => .unsupported

/-- ENC.V1 (R136). -/
def execEncV1 (off : OffloadReq) (s : State) : Out State :=
  guarded [.submitter] .enabled s fun s => .next (s.withResult (cmdResult (encodeV1 s.cfg off)))

/-- ENC.V2 (R137). -/
def execEncV2 (off : OffloadReq) (s : State) : Out State :=
  guarded [.submitter] .enabled s fun s => .next (s.withResult (cmdResult (encodeV2 s.cfg off)))

/-- ENC.VLAN (R139). -/
def execEncVlan (vlan : Option Half) (s : State) : Out State :=
  guarded [.submitter] .enabled s fun s => .next (s.withResult (.word (encodeVlan s.cfg vlan)))

end Sys2Proof.Machine
end

