-- ==== Sys2Proof/Machine/Ring.lean ====
section
/-! DEFINITION. The descriptor ring operations of spec/40_ring.md: RING.ALLOC, RING.WRITE,
RING.RECLAIM, RING.CLEAR_TX, RING.CLEAR_RX. -/

namespace Sys2Proof.Machine

/-- The indices `first, first + 1, ..., first + n - 1 (mod N_TX)` (R18, R111). -/
def txRange (c : Cfg) (first n : Nat) : List Nat := (List.range n).map fun j => txIdx c first j

/-- The success effect of RING.ALLOC (R110): `tx_next` advances by `n`, `tx_free` falls by `n`. -/
def takeDescs (n : Nat) (s : State) : State :=
  atomicAdd (-(n : Int)) { s with
    txNext := txIdx s.cfg s.txNext n
    txUnsubmitted := s.txUnsubmitted ++ txRange s.cfg s.txNext n }

/-- The failure test of RING.ALLOC: "fails if free_count ≤ n_segments" (R110). -/
def allocFails (n : Nat) (s : State) : Bool := decide (s.txFree ≤ (n : Int))

/-- RING.ALLOC (R110). -/
def execRingAlloc (n : Nat) (s : State) : Out State :=
  guarded [.submitter] .enabled s fun s =>
    if n = 0 ∨ s.cfg.kMaxSegs < n then .next (s.refuse .operandRange)
    else if allocFails n s then .next ((s.raise .backpressure).withResult .stall)
    else .next ((takeDescs n s).withResult (.first s.txNext))

/-- What RING.WRITE needs of the descriptor it writes (R22, R112). -/
def writeProblem (ring : Ring) (index : Nat) (s : State) : Option RefusedReason :=
  if s.nicOwned ring index then some .nicOwned
  else if ring = .tx ∧ index ∉ s.txUnsubmitted then some .notAllocated
  else none

/-- A TX index leaves the set of allocated, unsubmitted ones. DESIGN CHOICE (log entry 39): RING.WRITE ends an
allocation index by index, each with its own hand-over; R112 says "not yet submitted" of the allocation and R37 a
packet submitted with its first descriptor. -/
def submitIndex (index : Nat) (s : State) : State :=
  { s with txUnsubmitted := s.txUnsubmitted.filter (· != index) }

/-- RING.WRITE (R112). A TX descriptor handed over is no longer unsubmitted. -/
def execRingWrite (ring : Ring) (index : Nat) (seg : Segment) (flags1 flags2 : Word) (own : Bool) (s : State) :
    Out State :=
  guarded (agentsOf (.ringWrite ring index seg flags1 flags2 own)) (match ring with | .tx => .tx | .rx => .rx) s fun s =>
    if writeOperandsOk s.cfg ring index seg flags1 flags2 = false then .next (s.refuse .operandRange)
    else
      match writeProblem ring index s with
      | some r => .next (s.refuse r)
      | none =>
        let s1 := writeDesc ring index seg flags1 flags2 own s
        .next ((if ring = .tx ∧ own then submitIndex index s1 else s1).withResult .none)

/-- The number outstanding at entry: `k <- N_TX - tx_free` (R114). -/
def outstandingCount (s : State) : Nat := ((s.cfg.nTx : Int) - s.txFree).toNat

/-- The register effect of reclaiming the descriptor at `tx_dirty` (R114). DESIGN CHOICE (log entry 34): an index
reclaimed before it was submitted is no longer one RING.WRITE may write. -/
def advanceDirty (s : State) : State :=
  let s1 := { s with txDoneCount := countUp s.cfg s.txDoneCount }
  let s2 := atomicAdd 1 s1
  { s2 with
    txDirty := txIdx s2.cfg s2.txDirty 1
    txUnsubmitted := s2.txUnsubmitted.filter (· != s2.txDirty) }

/-- One round of the scan of RING.RECLAIM (R114): the descriptor at `tx_dirty` is read; if it is the engine's,
`visit` is the caller's action on its index, before the registers advance. The Boolean: it was reclaimed. -/
def reclaimOne (visit : Nat → State → Out State) (s : State) : Out (State × Bool) :=
  let s1 := s.noteRead .tx s.txDirty .opts1
  if s1.nicOwned .tx s1.txDirty then .next (s1, false)
  else andThen (visit s1.txDirty (s1.emit .acquire)) fun s2 => .next (advanceDirty s2, true)

/-- The scan of RING.RECLAIM (R114): at most `k` descriptors from `tx_dirty`, stopping at the first NIC-owned
one; the indices reclaimed are the result. -/
def reclaimLoop : Nat → List Nat → State → Out (State × List Nat)
  | 0, done, s => .next (s, done)
  | k + 1, done, s =>
    andThen (reclaimOne (fun _ s => .next s) s) fun r =>
      if r.2 then reclaimLoop k (done ++ [s.txDirty]) r.1 else .next (r.1, done)

/-- RING.RECLAIM invoked by itself (R114): there is no caller and so no visit action (log entry 20). -/
def execRingReclaim (s : State) : Out State :=
  guarded [.serialized] .tx s fun s =>
    andThen (reclaimLoop (outstandingCount s) [] s) fun r => .next (r.1.withResult (.indices r.2))

/-- RING.CLEAR_TX (R116): only with the queue stopped. The NIC, which is not reset here, keeps what it
may have read. -/
def execRingClearTx (s : State) : Out State :=
  guarded [.serialized] .tx s fun s =>
    if s.txqEnabled then .next (s.refuse .precondition)
    else andThen (clearTx (noteSeen .tx s)) fun s1 => .next (s1.withResult .none)

/-- RING.CLEAR_RX (R117). The NIC, which is not reset here, keeps what it may have read. -/
def execRingClearRx (s : State) : Out State :=
  guarded [.serialized] .rx s fun s => .next ((clearRx (noteSeen .rx s)).withResult .none)

end Sys2Proof.Machine
end

