-- ==== Sys2Proof/Machine/Segmenter.lean ====
section
/-! DEFINITION. The packet cursor and segmenter of spec/41_segmenter.md: SEG.TX, SEG.RX. -/

namespace Sys2Proof.Machine

/-- The region starts exactly where the segment ends, and the sum stays within `maxLen` (R126). -/
def mergeable (maxLen : Nat) (last : Segment) (r : Region) : Bool :=
  last.addr.toNat + last.len == r.pa.toNat && decide (last.len + r.len ≤ maxLen)

/-- The segmenter's loop (R126). `done` holds the finished segments, the newest first, and `last` the
one still open, if any. `none` is `TooManySegments`. -/
def segmentLoop (maxSegs maxLen : Nat) : List Segment → Option Segment → List Region → Option (List Segment)
  | done, last, [] =>
    match last with
    | none => some done.reverse
    | some l => some (l :: done).reverse
  | done, last, r :: rs =>
    if r.len = 0 then segmentLoop maxSegs maxLen done last rs
    else
      match last with
      | none => if maxSegs = 0 then none else segmentLoop maxSegs maxLen done (some ⟨r.pa, r.len⟩) rs
      | some l =>
        if mergeable maxLen l r then segmentLoop maxSegs maxLen done (some ⟨l.addr, l.len + r.len⟩) rs
        else if done.length + 1 = maxSegs then none
        else segmentLoop maxSegs maxLen (l :: done) (some ⟨r.pa, r.len⟩) rs

/-- SEG.TX (R126): at most `K_MAX_SEGS` segments, merged up to `SEG_LEN_MAX`. -/
def segmentTx (c : Cfg) (regions : List Region) : Option (List Segment) :=
  segmentLoop c.kMaxSegs (segLenMax c) [] none regions

/-- SEG.RX (R129): one segment, merged up to `2^RXLEN_W - 1`, at least `RX_BUF_SIZE` bytes long. -/
def segmentRx (c : Cfg) (regions : List Region) : Option Segment :=
  match segmentLoop 1 (maxOf c.layout.rxlen.w) [] none regions with
  | some [seg] => if c.rxBufSize ≤ seg.len then some seg else none
  | _ => none

/-- SEG.TX (R126). -/
def execSegTx (regions : List Region) (s : State) : Out State :=
  guarded [.submitter] .enabled s fun s =>
    if regionsOk s.cfg regions = false then .next (s.refuse .operandRange)
    else
      match segmentTx s.cfg regions with
      | some segs => .next (s.withResult (.segs segs))
      | none => .next (s.withResult .tooManySegments)

/-- SEG.RX (R129). -/
def execSegRx (regions : List Region) (s : State) : Out State :=
  guarded [.serialized] .enabled s fun s =>
    if regionsOk s.cfg regions = false then .next (s.refuse .operandRange)
    else
      match segmentRx s.cfg regions with
      | some seg => .next (s.withResult (.seg seg))
      | none => .next (s.withResult .tooManySegments)

end Sys2Proof.Machine
end

