-- ==== Sys2Proof/Machine/TxPipeline.lean ====
section
/-! DEFINITION. The transmit pipeline of spec/43_tx_pipeline.md: TX.SUBMIT, TX.IRQ with the delayed
free and the un-stall, TX.DLCHK. -/

namespace Sys2Proof.Machine

/-! ### TX.SUBMIT -/

/-- `flags1` of descriptor `j` of a packet of `n` segments (R140). -/
def packetFlags1 (c : Cfg) (cmd : Cmd) (j n : Nat) : Word :=
  cmd.cmd1 ||| flagIf (j == 0) c.layout.fs ||| flagIf (j + 1 == n) c.layout.ls

/-- `flags2` of every descriptor of a packet (R140). -/
def packetFlags2 (c : Cfg) (cmd : Cmd) (vlan : Option Half) : Word := cmd.cmd2 ||| encodeVlan c vlan

/-- Step 5 of TX.SUBMIT from descriptor `j` on (R145): every descriptor but the first is written
NIC-owned (R140, R147). -/
def writePacket (first n : Nat) (cmd : Cmd) (vlan : Option Half) : Nat → List Segment → State → State
  | _, [], s => s
  | j, seg :: rest, s =>
    writePacket first n cmd vlan (j + 1) rest
      (writeDesc .tx (txIdx s.cfg first j) seg (packetFlags1 s.cfg cmd j n) (packetFlags2 s.cfg cmd vlan)
        (j != 0) s)

/-- `tx_slot[i] <- h` (R26, R145 step 6). -/
def storeSlot (i : Nat) (h : Handle) (s : State) : State :=
  { s with txSlot := s.txSlot.set i (some h), history := s.history ++ [.slotStore i h] }

/-- Step 7 of TX.SUBMIT, the final ownership store (R147). -/
def ownFirst (first : Nat) (flags1 : Word) (len : Nat) (s : State) : State :=
  (s.emit .release).descWrite32 .tx first .opts1 (ownedWord s.cfg .tx first flags1 len)

/-- The packet's indices are submitted. -/
def submitRange (first n : Nat) (s : State) : State :=
  { s with txUnsubmitted := s.txUnsubmitted.filter fun i => i ∉ txRange s.cfg first n }

/-- Steps 4 (success) to 8 of TX.SUBMIT (R145), indivisible (R148). -/
def submitSegs (h : Handle) (seg0 : Segment) (segs : List Segment) (cmd : Cmd) (vlan : Option Half) (s : State) :
    State :=
  let n := segs.length + 1
  let first := s.txNext
  let s1 := writePacket first n cmd vlan 0 (seg0 :: segs) (takeDescs n s)
  let s2 := storeSlot (txIdx s.cfg first (n - 1)) h s1
  let s3 := ownFirst first (packetFlags1 s.cfg cmd 0 n) seg0.len s2
  ringDoorbell (submitRange first n s3)

/-- `drop_config` (R146): count, free, `Dropped`. -/
def dropConfig (cause : ErrCause) (h : Handle) (s : State) : Out State :=
  andThen (freePacket h (countTxDrops (s.raise cause))) fun s1 => .next (s1.withResult .dropped)

/-- Step 4 failing (R145, R148): `tx_stalled` is set in the same step, the packet stays with the host. -/
def stallSubmit (h : Handle) (s : State) : State :=
  (returnPacket h { s.raise .backpressure with txStalled := true }).withResult .stall

/-- TX.SUBMIT from step 1 on (R145), the engine holding the packet's handle. -/
def submitHeld (p : Packet) (s : State) : Out State :=
  if s.link.up = false ∨ s.txqEnabled = false then
    andThen (freePacket p.h (s.raise .linkDownDrop)) fun s1 => .next (s1.withResult .dropped)
  else
    let s1 := preparePacket p.h s
    match segmentTx s.cfg p.regions with
    | none => dropConfig .tooManySegments p.h s1
    | some [] => dropConfig .tooManySegments p.h s1
    | some (seg0 :: segs) =>
      match encodeOffload s.cfg p.off with
      | none => dropConfig .unsupportedOffload p.h s1
      | some cmd =>
        if allocFails (segs.length + 1) s1 then .next (stallSubmit p.h s1)
        else .next ((submitSegs p.h seg0 segs cmd p.vlan s1).withResult .success)

/-- A refused TX.SUBMIT is recorded and for the host counts as `Dropped`, the packet not freed (R9, R236; log entry
33). One by another agent is no submission of the host's. -/
def submitRefused (r : RefusedReason) (s : State) : State :=
  if r = .wrongAgent then s.refuse r else (s.emit (.refused r)).withResult .dropped

/-- TX.SUBMIT (R145). DESIGN CHOICE (log entry 36): a region out of R125's range is refused before the link is
looked at. -/
def execTxSubmit (packet : Packet) (s : State) : Out State :=
  guardedBy submitRefused [.submitter] .tx s fun s =>
    if regionsOk s.cfg packet.regions = false then .next (submitRefused .operandRange s)
    else if s.holdsPacket packet.h then .refused .hostNotHolder
    else submitHeld packet (holdPacket packet.h s)

/-! ### TX.IRQ -/

/-- The visit action of TX.IRQ (R149): the held-back packet is freed, and a packet whose last
descriptor this is takes its place. -/
def visitTx (i : Nat) (s : State) : Out State :=
  andThen (freeSentOpt s.txPending s) fun s1 =>
    let s2 := { s1 with txPending := none }
    match s2.txPkt i with
    | some h => .next { s2 with txPending := some h, txSlot := s2.txSlot.set i none }
    | none => .next s2

/-- Un-stall (R150). -/
def unstall (s : State) : State :=
  if s.txStalled ∧ (s.cfg.kMaxSegs : Int) < s.txFree then
    { s with txStalled := false, history := s.history ++ [.resumeQueue] }
  else s

/-- What follows the scan of TX.IRQ (R149): the un-stall, and the doorbell when the pass moved `tx_dirty` (R151). -/
def endTxPass (old : Nat) (s : State) : State :=
  let s1 := unstall s
  if s1.txDirty ≠ old then ringDoorbell s1 else s1

/-- One round of TX.IRQ (R149): a visit, which leaves the rest of the scan as a task, or the end of the pass. -/
def txScan (k old : Nat) (s : State) : Out State :=
  match k with
  | 0 => .next (endTxPass old s)
  | k + 1 =>
    andThen (reclaimOne visitTx s) fun r =>
      .next (if r.2 then r.1.pushWork [.txScan k old] else endTxPass old r.1)

/-- TX.IRQ from its start (R114, R149): the number outstanding and `tx_dirty` are read, then the first round. -/
def txBegin (s : State) : Out State := txScan (outstandingCount s) s.txDirty s

/-- TX.IRQ (R149): its first step. -/
def execTxIrq (s : State) : Out State :=
  guarded [.serialized] .tx s fun s => andThen (txBegin s) fun s1 => .next (s1.withResult .none)

/-! ### TX.DLCHK -/

/-- The end of TX.DLCHK without a reset: the snapshot `tx_done_last` (R153). -/
def snapshotDone (s : State) : State := { s with txDoneLast := s.txDoneCount }

/-- `NoReset` or `DidReset`. -/
def dlchkResult (didReset : Bool) : Result := cond didReset .didReset .noReset

/-- TX.DLCHK (R153), with no check; the Boolean is `DidReset`. The forced pass and the snapshot behind it are left
as tasks, and `rest`, what the invoker does after `NoReset`, behind them; `ends` is what the invoker returns behind a
reset. -/
def dlchk (rest : List Task) (ends : Result) (s : State) : State × Bool :=
  if s.txDoneCount = s.txDoneLast ∧ s.txFree < (s.cfg.nTx : Int) then
    let s1 := { s with deadlockWarn := countUp s.cfg s.deadlockWarn }
    if s1.deadlockWarn = s1.cfg.dlThresh1 then
      (((countTimeouts s1).raise .missedInterrupt).pushWork (.txBegin :: .dlSnapshot :: rest), false)
    else if s1.deadlockWarn = s1.cfg.dlThresh2 then
      (beginReset ends ((countResets s1).raise .txDeadlock), true)
    else ((snapshotDone s1).pushWork rest, false)
  else ((snapshotDone { s with deadlockWarn := 0 }).pushWork rest, false)

/-- TX.DLCHK (R153). -/
def execTxDlchk (s : State) : Out State :=
  guarded [.serialized] .both s fun s =>
    let r := dlchk [] .didReset s
    .next (r.1.withResult (dlchkResult r.2))

end Sys2Proof.Machine
end

