-- ==== Sys2Proof/Machine/Monitor.lean ====
section
/-! DEFINITION. The link and deadlock monitor of spec/45_monitor_control.md: TIMER.TICK, LINK.UP,
LINK.DOWN, RESET.FULL, STATS.REQ, STATS.DONE. -/

namespace Sys2Proof.Machine

/-- `LINK_TABLE(v)` (R186), a pure function; a value the table does not list reads as link down (log
entry 2). -/
def linkLookup (c : Cfg) (v : Byte) : LinkState :=
  match c.linkTable.find? (·.1 == v) with
  | some e => e.2
  | none => ⟨false, ⟨.mbit10, .half, false, false⟩⟩

/-- The body of LINK.UP (R187). -/
def linkUp (p : LinkParams) (s : State) : State :=
  let s1 := { s.emit .applyLinkTuning with link := ⟨true, p⟩ }
  (resumeQueue s1).emit (.reportLinkStatus true (some (p.speed, p.duplex)))

/-- LINK.DOWN (R188): the queue is closed; the rest is a step of its own, so that a submission may meet the closed
queue before `stop_and_flush_queue()` has returned (R189, R245 (g); log entry 14). -/
def beginLinkDown (s : State) : State := (closeQueue s).pushWork [.linkDownRest]

/-- LINK.DOWN from its upcall on (R188): the TX ring is cleared without a reset of the NIC, which keeps what it
may have read (R268). -/
def linkDown (s : State) : Out State :=
  let s1 := flushQueue s
  let s2 := { s1 with link := { s1.link with up := false } }
  andThen (clearTx (noteSeen .tx s2)) fun s3 => .next (s3.emit (.reportLinkStatus false none))

/-- Step 1 of TIMER.TICK (R185): only a transition is acted on. -/
def tickLink (v : Byte) (s : State) : State :=
  let now := linkLookup s.cfg v
  let s1 := s.emit (.regRead s.cfg.reg.linkStatus 8 (v.setWidth 64))
  if now.up && !s1.link.up then linkUp now.params s1
  else if !now.up && s1.link.up then beginLinkDown s1
  else s1

/-- Step 2 of TIMER.TICK (R185): the held-back packet is released. -/
def tickRelease (s : State) : Out State :=
  andThen (freeSentOpt s.txPending s) fun s1 => .next { s1 with txPending := none }

/-- STATS.REQ (R205): one request at a time. -/
def requestStats (s : State) : State :=
  if s.statsPending then s
  else writeStatsBase (statsBase s ||| s.cfg.reg.statsCmd) { s with statsPending := true }

/-- STATS.DONE (R206): ignored when no dump is pending. -/
def finishStats (s : State) : State :=
  if s.statsPending then { s with statsPending := false, history := s.history ++ [.accumulateStats] } else s

/-- Step 3 of TIMER.TICK (R185): the deadlock check; step 4 follows, and is skipped on a tick that reset the chip. -/
def tickCheck (s : State) : State := (dlchk [.tickStats] .none s).1

/-- Step 4 of TIMER.TICK (R185): skipped with the link down. -/
def tickStats (s : State) : State := if s.link.up then requestStats s else s

/-- What TIMER.TICK leaves to do after its step 1 has begun (R185). -/
def tickRest (s : State) : State := { s with work := s.work ++ [.tickRelease, .tickCheck] }

/-- TIMER.TICK (R185): step 1, of which LINK.DOWN leaves its rest; the other three are left as tasks behind it. -/
def execTimerTick (v : Byte) (s : State) : Out State :=
  guarded [.serialized] .both s fun s =>
    match stProblem s with
    | some r => .next (s.refuse r)
    | none => .next ((tickRest (tickLink v s)).withResult .none)

/-- LINK.UP (R187): only from link down. -/
def execLinkUp (params : LinkParams) (s : State) : Out State :=
  guarded [.serialized] .enabled s fun s =>
    if s.link.up then .next (s.refuse .precondition)
    else .next ((linkUp params s).withResult .none)

/-- LINK.DOWN (R188): only from link up; its first step. -/
def execLinkDown (s : State) : Out State :=
  guarded [.serialized] .tx s fun s =>
    if s.link.up = false then .next (s.refuse .precondition)
    else .next ((beginLinkDown s).withResult .none)

/-- RESET.FULL (R190): its first step. -/
def execResetFull (s : State) : Out State :=
  guarded [.serialized] .both s fun s => .next ((beginReset .none s).withResult .none)

/-- STATS.REQ (R205). -/
def execStatsReq (s : State) : Out State :=
  guarded [.serialized] .enabled s fun s =>
    match stProblem s with
    | some r => .next (s.refuse r)
    | none => .next ((requestStats s).withResult .none)

/-- STATS.DONE (R206). -/
def execStatsDone (s : State) : Out State :=
  guarded [.serialized] .enabled s fun s => .next ((finishStats s).withResult .none)

end Sys2Proof.Machine
end

