-- ==== Sys2Proof/Machine/Nic.lean ====
section
/-! DEFINITION. The NIC as the block's peer (spec/46_nic_agent.md): NIC.TX_DONE, NIC.TX_QUIESCE,
NIC.RX_FILL, NIC.IRQ_RAISE, NIC.RESET. A step its rule does not enable is no move of the NIC. -/

namespace Sys2Proof.Machine

/-- A 4-byte descriptor store of the NIC (R216 (c)). -/
def nicWrite32 (ring : Ring) (i : Nat) (f : DescField) (v : Word) (s : State) : State :=
  { s with
    mem := s.mem.write32 (s.descAddr ring i f) v
    history := s.history ++ [.nicDescWrite ring i f (v.setWidth 64)] }

/-- `irq_pending <- irq_pending + {c}` (R220). -/
def latchCause (c : Cause) (s : State) : State := { s with irqPending := s.irqPending.add c }

/-- The observations the NIC keeps of a descriptor, the newest first. -/
def seenOf (ring : Ring) (i : Nat) (s : State) : List Seen := s.nicSeen.filter fun x => x.ring == ring && x.index == i

/-- The NIC has completed a descriptor: it acts on nothing it read of it before (R218, R219). -/
def forget (ring : Ring) (i : Nat) (s : State) : State :=
  { s with nicSeen := s.nicSeen.filter fun x => !(x.ring == ring && x.index == i) }

/-- What NIC.TX_DONE acts on: what the NIC read before a ring clear (`stale`), or what it reads now, if that
has `OWN = 1` (R218, U15). -/
def txDoneWord (i : Nat) (d : TxDoneDraws) (s : State) : Option Seen :=
  match d.stale with
  | some x => (seenOf .tx i s)[x.k]?
  | none => seenAt s .tx i

/-- A step on a word of before a ring clear reads bytes of a packet that clear freed: before it, or after it inside
the erratum window (U15). -/
def readsFreed (l : Layout) (d : TxDoneDraws) (x : Seen) : Bool :=
  match d.stale with
  | some y => y.late || (flag x.word l.ls && d.early && x.pkt.isSome)
  | none => false

/-- NIC.TX_DONE (R218): `OWN` cleared, all other bits as read; the erratum window; the latch. DESIGN CHOICE (log
entry 35): `early` on a packet's last descriptor whose slot names no packet leaves `nic_tx_busy` null. -/
def txDone (i : Nat) (d : TxDoneDraws) (s : State) : Out State :=
  if (txProblem s).isSome then .refused .nicNotEnabled
  else
    match txDoneWord i d s with
    | none => .refused .nicNotEnabled
    | some x =>
      if readsFreed s.cfg.layout d x then .fault .freedMemoryRead
      else
        let s1 := forget .tx i (nicWrite32 .tx i .opts1 (clearBit x.word s.cfg.layout.own) s)
        let s2 := { s1 with
          nicTxBusy := if flag x.word s.cfg.layout.ls then (if d.early then x.pkt else none) else s1.nicTxBusy }
        .next (if d.latch then latchCause .tx s2 else s2)

/-- The `opts1` word NIC.RX_FILL stores (R219). -/
def filledWord (l : Layout) (w : Word) (x : RxStatus) (len : Nat) : Word :=
  (w &&& bit l.eor) ||| flagIf x.fs l.fs ||| flagIf x.ls l.ls ||| (x.s1 &&& status1Mask l) ||| putField l.rxlen len

/-- The word NIC.RX_FILL acts on and the buffer address it read after it: those of now, if the word has `OWN = 1`,
or a word read before a ring clear with an address no older (R216 (b), R219). -/
def rxFillWord (i : Nat) (d : RxFillDraws) (s : State) : Option (Word × Addr) :=
  match d.stale with
  | none => (seenAt s .rx i).map fun x => (x.word, x.addr)
  | some y =>
    match (seenOf .rx i s)[y.word]?, y.addr with
    | none, _ => none
    | some x, none => some (x.word, s.descBuf .rx i)
    | some x, some j =>
      if j ≤ y.word then ((seenOf .rx i s)[j]?).map fun z => (x.word, z.addr) else none

/-- The two `require` lines of NIC.RX_FILL for a frame of `len` bytes, and the NIC's discipline that it stores to
ring memory nowhere but in a descriptor's own words (R216 (f), R219, U13). -/
def rxFillEnabled (len : Nat) (x : RxStatus) (w : Word) (a : Addr) (s : State) : Bool :=
  decide (len ≤ getField s.cfg.layout.rxlen w) && (!(x.fs && x.ls) || decide (s.cfg.fcsLen < len)) &&
  offRings s a.toNat len

/-- The frame's bytes stored from the descriptor's address up (R219). -/
def nicStoreFrame (a : Nat) (frame : List Byte) (s : State) : State :=
  { s with
    mem := s.mem.writeBytes a frame
    history := s.history ++ [.nicMemWrite a frame.length] }

/-- The stores of NIC.RX_FILL (R219): the bytes, then `opts2`, then `opts1` with `OWN = 0` (R67). -/
def fillDesc (i : Nat) (frame : List Byte) (x : RxStatus) (w : Word) (a : Addr) (s : State) : State :=
  let s1 := nicStoreFrame a.toNat frame s
  let s2 := nicWrite32 .rx i .opts2 x.s2 s1
  nicWrite32 .rx i .opts1 (filledWord s.cfg.layout w x frame.length) s2

/-- NIC.RX_FILL (R219). -/
def rxFill (i : Nat) (frame : List Byte) (x : RxStatus) (d : RxFillDraws) (s : State) : Out State :=
  if (ringProblem s.cfg s.rxMem s.cfg.nRx).isSome then .refused .nicNotEnabled
  else
    match rxFillWord i d s with
    | none => .refused .nicNotEnabled
    | some (w, a) =>
      if rxFillEnabled frame.length x w a s = false then .refused .nicNotEnabled
      else if 2 ^ 64 < a.toNat + frame.length then .fault .outsideAddressSpace
      else
        let s1 := forget .rx i (fillDesc i frame x w a s)
        .next (if d.latch then latchCause .rx s1 else s1)

/-- NIC.TX_QUIESCE (R224): enabled while `nic_tx_busy` names a packet; what it holds while the block is disabled
is unspecified, and no rule reads it (R261). -/
def txQuiesce (s : State) : Out State :=
  if s.enabled = false then .refused .nicNotEnabled
  else
    match s.nicTxBusy with
    | some _ => .next { s with nicTxBusy := none }
    | none => .refused .nicNotEnabled

/-- NIC.TX_DONE (R218). -/
def execNicTxDone (i : Nat) (draws : TxDoneDraws) (s : State) : Out State :=
  guarded [.nic] .always s fun s =>
    if s.cfg.nTx ≤ i then .next (s.refuse .operandRange)
    else andThen (txDone i draws s) fun s1 => .next (s1.withResult .none)

/-- NIC.RX_FILL (R219). -/
def execNicRxFill (i : Nat) (frame : List Byte) (status : RxStatus) (draws : RxFillDraws) (s : State) : Out State :=
  guarded [.nic] .always s fun s =>
    if s.cfg.nRx ≤ i then .next (s.refuse .operandRange)
    else andThen (rxFill i frame status draws s) fun s1 => .next (s1.withResult .none)

/-- NIC.IRQ_RAISE (R220). -/
def execNicIrqRaise (cause : Cause) (s : State) : Out State :=
  guarded [.nic] .always s fun s => .next ((latchCause cause s).withResult .none)

/-- NIC.RESET (R222). -/
def execNicReset (s : State) : Out State :=
  guarded [.serialized] .always s fun s => .next ((nicReset s).withResult .none)

/-- NIC.TX_QUIESCE (R224). -/
def execNicTxQuiesce (s : State) : Out State :=
  guarded [.nic] .always s fun s => andThen (txQuiesce s) fun s1 => .next (s1.withResult .none)

end Sys2Proof.Machine
end

