-- ==== Sys2Proof/Machine/RxPipeline.lean ====
section
/-! DEFINITION. The receive pipeline of spec/44_rx_pipeline.md: RX.IRQ with its acquisitions, one iteration a
step (R167), and the checksum and VLAN decoders as operations. -/

namespace Sys2Proof.Machine

/-! ### What the allocator may hand out -/

/-- The memories that are live (R57): the three DMA memories and the buffers in the slots. -/
def liveMems (s : State) : List DmaMem :=
  s.txMem.toList ++ s.rxMem.toList ++ s.stMem.toList ++ s.rxSlot.filterMap (Option.map RxBuffer.mem)

/-- Memory the allocator may hand out: apart from everything live (R57, H8). -/
def memFresh (s : State) (a len : Nat) : Bool := (liveMems s).all (disjoint a len)

/-- A buffer handle the allocator may hand out: one the engine does not hold (R8, R171). -/
def handleFresh (s : State) (h : Handle) : Bool := !s.heldBuffers.contains h

/-- The prepared buffer a region list yields, when SEG.RX accepts it (R129). -/
def bufferOf (h : Handle) (seg : Segment) : RxBuffer := ⟨h, ⟨seg.addr, seg.len, .prepared⟩⟩

/-- The draws of a receive pass whose region lists are in R125's range: the others are refused with the invocation
that brings them (R236, U4; log entry 37). -/
def drawsOk (c : Cfg) (draws : List Acquisition) : Bool :=
  draws.all fun a => match a with
    | .failed => true
    | .replaced _ regions => regionsOk c regions
    | .copied _ _ => true

/-- The segment of a drawn buffer, if SEG.RX accepts it (R129). A list out of R125's range is none; it does not come
this far (`drawsOk`). -/
def drawnSegment (c : Cfg) (regions : List Region) : Option Segment :=
  if regionsOk c regions then segmentRx c regions else none

/-! ### One iteration -/

/-- `opts` of a delivery (R165, R174). -/
def deliverOpts (c : Cfg) (w1 w2 : Word) : DeliverOpts := ⟨csum c w1 w2, rxVlanTag c w2⟩

/-- `Upcall deliver_packet(buffer, len, opts)`. -/
def deliver (h : Handle) (len : Nat) (opts : DeliverOpts) (s : State) : State := s.emit (.deliverPacket h len opts)

/-- An acquisition that failed (R170): counted, raised, nothing delivered. -/
def acquisitionFailed (s : State) : State := (countResourceErrors s).raise .resourceExhaustion

/-- `out <- rx_slot[i]; rx_slot[i] <- b2` and the delivery (R172): the old buffer's mapping is completed
and the engine gives the buffer up. -/
def replaceBuffer (i : Nat) (old : RxBuffer) (b : RxBuffer) (len : Nat) (opts : DeliverOpts) (s : State) : State :=
  let s1 := { s with
    rxSlot := s.rxSlot.set i (some b)
    heldBuffers := s.heldBuffers.erase old.h
    history := s.history ++ [.dmaComplete (.buffer old.h)] }
  deliver old.h len opts s1

/-- `Replaced(b2)` (R171, R172), the region list of `b2` put through SEG.RX; a buffer that is not one
segment is freed at once and counts as a failed acquisition (R129, R170). The allocator has no move that hands out
live memory (R57, H8, U3). The Boolean: delivered. -/
def acquireReplaced (i : Nat) (old : RxBuffer) (h : Handle) (regions : List Region) (len : Nat)
    (opts : DeliverOpts) (s : State) : Out (State × Bool) :=
  if handleFresh s h = false then .refused .unlawfulDraw
  else
    let s1 := holdBuffer h s
    match drawnSegment s.cfg regions with
    | none => andThen (freeBuffer h s1) fun s2 => .next (acquisitionFailed s2, false)
    | some seg =>
      if memFresh s seg.addr.toNat seg.len = false then .refused .unlawfulDraw
      else .next (replaceBuffer i old (bufferOf h seg) len opts s1, true)

/-- `CopyBytes(from rx_slot[i], to b2, len)` (R173): the copy buffer's bytes are the host's to read. -/
def copyFrame (src dst : Handle) (a len : Nat) (s : State) : State :=
  { s with
    hostBufs := (dst, s.mem.readBytes a len) :: s.hostBufs.filter (·.1 != dst)
    history := s.history ++ [.copyBytes src dst len] }

/-- `Copied(b2)` (R171, R173). DESIGN CHOICE (log entry 38): a buffer too small for the frame, which R171's law
excludes, counts as a failed acquisition (R170). -/
def acquireCopied (old : RxBuffer) (h : Handle) (size len : Nat) (opts : DeliverOpts) (s : State) :
    Out (State × Bool) :=
  if size < len then .next (acquisitionFailed s, false)
  else if handleFresh s h = false then .refused .unlawfulDraw
  else .next (deliver h len opts (copyFrame old.h h old.mem.addr.toNat len s), true)

/-- The case split on the acquisition (R165), for a good frame of `len` bytes at index `i`. -/
def acquire (i : Nat) (a : Acquisition) (len : Nat) (opts : DeliverOpts) (s : State) : Out (State × Bool) :=
  match a with
  | .failed => .next (acquisitionFailed s, false)
  | .replaced h regions =>
    match s.rxBuf i with
    | some old => acquireReplaced i old h regions len opts s
    | none => .fault .freeNotHeld
  | .copied h size =>
    match s.rxBuf i with
    | some old => acquireCopied old h size len opts s
    | none => .fault .freeNotHeld

/-- The re-arm and the advance that end every iteration (R178). -/
def rearmAdvance (s : State) : State :=
  let s1 := rearm s.rxIndex s
  { s1 with rxIndex := (s1.rxIndex + 1) % s1.cfg.nRx }

/-- A completed descriptor whose `FS` and `LS` are not both 1 (R168). -/
def fragmented (l : Layout) (w1 : Word) : Bool := !(flag w1 l.fs && flag w1 l.ls)

/-- `RxFragmented` (R168): counted and raised, nothing else. -/
def dropFragment (s : State) : State := (countFrameTooLong s).raise .rxFragmented

/-- A whole frame whose length RX.IRQ has no behaviour for (R169, U6). -/
def badRxLength (c : Cfg) (w1 : Word) : Bool :=
  decide (getField c.layout.rxlen w1 ≤ c.fcsLen) || decide (c.rxBufSize < getField c.layout.rxlen w1)

/-- `Draw a : Acquisition` (R171): the next of those the pass came with; none left is a failed one (log entry 5). -/
def nextAcquisition (s : State) : Acquisition := s.acquisitions.headD .failed

/-- What one iteration does with a completed descriptor, before the re-arm (R165): the state, and whether a
frame was delivered. -/
def handleRx (s : State) : Out (State × Bool) :=
  let i := s.rxIndex
  let w1 := s.desc32 .rx i .opts1
  let w2 := s.desc32 .rx i .opts2
  let s1 := (s.emit .acquire).noteRead .rx i .opts2
  if fragmented s.cfg.layout w1 then .next (dropFragment s1, false)
  else if badRxLength s.cfg w1 then .fault .rxLength
  else
    acquire i (nextAcquisition s) (getField s.cfg.layout.rxlen w1 - s.cfg.fcsLen) (deliverOpts s.cfg w1 w2)
      { s1 with acquisitions := s1.acquisitions.tail }

/-- One iteration of RX.IRQ (R165, R167); `delivered`: an earlier one of the pass delivered a frame. It ends the pass
where the descriptor at `rx_index` reads NIC-owned, with one flush if something was delivered (R174), and else
leaves the next iteration as a task. -/
def rxNext (delivered : Bool) (s : State) : Out State :=
  let s1 := s.noteRead .rx s.rxIndex .opts1
  if s1.nicOwned .rx s1.rxIndex then .next (if delivered then s1.emit .flushInputQueue else s1)
  else andThen (handleRx s1) fun r => .next ((rearmAdvance r.1).pushWork [.rxNext (delivered || r.2)])

/-- RX.IRQ (R165): its first step. DESIGN CHOICE (log entry 37): a drawn region list out of R125's range is refused
(R236, U4) with the invocation that brings it. -/
def execRxIrq (draws : List Acquisition) (s : State) : Out State :=
  guarded [.serialized] .rx s fun s =>
    if drawsOk s.cfg draws = false then .next (s.refuse .operandRange)
    else andThen (rxNext false (takeDraws draws s)) fun s1 => .next (s1.withResult .none)

/-! ### The status decoders -/

/-- RX.CSUM.V1 (R175). -/
def execRxCsumV1 (opts1 _opts2 : Word) (s : State) : Out State :=
  guarded [.serialized] .enabled s fun s => .next (s.withResult (.validity (csumV1 s.cfg opts1)))

/-- RX.CSUM.V2 (R176). -/
def execRxCsumV2 (opts1 opts2 : Word) (s : State) : Out State :=
  guarded [.serialized] .enabled s fun s => .next (s.withResult (.validity (csumV2 s.cfg opts1 opts2)))

/-- RX.VLAN (R177). -/
def execRxVlan (opts2 : Word) (s : State) : Out State :=
  guarded [.serialized] .enabled s fun s => .next (s.withResult (.vlan (rxVlanTag s.cfg opts2)))

end Sys2Proof.Machine
end

