-- ==== Sys2Proof/Machine/Control.lean ====
section
/-! DEFINITION. ENABLE with its unwinding and DISABLE, spec/45_monitor_control.md R200 to R203. -/

namespace Sys2Proof.Machine

/-! ### Allocation -/

/-- An allocation that counts as failed: its base is not a multiple of the alignment, or it would leave
the address space (R53, R56, R200). An alignment of 0 asks nothing. -/
def allocBad (a : Addr) (size align : Nat) : Bool :=
  (align != 0 && a.toNat % align != 0) || decide (2 ^ 64 < a.toNat + size)

/-- `AllocDma(size, align)` (R211): the drawn base as a prepared memory, or failure. -/
def allocDma (size align : Nat) (draw : Option Addr) : Option DmaMem :=
  match draw with
  | some a => if allocBad a size align then none else some ⟨a, size, .prepared⟩
  | none => none

/-- The allocator hands out memory apart from everything live (R57, H8). -/
def dmaLawful (s : State) (m : DmaMem) : Bool := memFresh s m.addr.toNat m.len

/-! ### Unwinding (R201) -/

/-- `for j in n-1 downto 0 do FreeBuffer(rx_slot[j]); rx_slot[j] <- null` (R201, R203 X5). -/
def freeSlots : Nat → State → Out State
  | 0, s => .next s
  | j + 1, s =>
    match s.rxBuf j with
    | some b => andThen (freeBuffer b.h s) fun s1 => freeSlots j { s1 with rxSlot := s1.rxSlot.set j none }
    | none => .fault .freeNotHeld

/-- `raise FatalInit; return FatalInit` (R201): `enabled` stays false. -/
def fatalInit (s : State) : State := (s.raise .fatalInit).withResult .fatalInit

/-- `fail(2)`: the TX ring memory is released. -/
def fail2 (s : State) : Out State := andThen (freeTxMem s) fun s1 => .next (fatalInit s1)

/-- `fail(3)`: the RX ring memory, then as `fail(2)`. -/
def fail3 (s : State) : Out State := andThen (freeRxMem s) fail2

/-- `fail(4, i)`: the first `i` receive buffers in decreasing index, the statistics memory, then as
`fail(3)`. -/
def fail4 (i : Nat) (s : State) : Out State :=
  andThen (freeSlots i s) fun s1 => andThen (freeStMem s1) fail3

/-! ### ENABLE -/

/-- What one iteration of step E4 comes to: the slot is filled, or the allocation failed (a buffer that
is not one segment already freed again). The allocator has no move that hands out live memory (R57, H8, U3). -/
def fillSlot (i : Nat) (draw : Option BufferDraw) (s : State) : Out (State × Bool) :=
  match draw with
  | none => .next (s, false)
  | some b =>
    if handleFresh s b.h = false then .refused .unlawfulDraw
    else
      let s1 := holdBuffer b.h s
      match drawnSegment s.cfg b.regions with
      | none => andThen (freeBuffer b.h s1) fun s2 => .next (s2, false)
      | some seg =>
        if memFresh s seg.addr.toNat seg.len = false then .refused .unlawfulDraw
        else .next ({ s1 with rxSlot := s1.rxSlot.set i (some (bufferOf b.h seg)) }, true)

/-- Step E4 from slot `i` on, `k` slots (R200): the index at which it failed, if it did. -/
def fillSlots : Nat → Nat → List (Option BufferDraw) → State → Out (State × Option Nat)
  | 0, _, _, s => .next (s, none)
  | k + 1, i, draws, s =>
    andThen (fillSlot i (draws.headD none) s) fun r =>
      if r.2 then fillSlots k (i + 1) draws.tail r.1 else .next (r.1, some i)

/-- `if this is the first ENABLE then the five counters <- 0` (R200 E6). -/
def firstCounters (s : State) : State :=
  if s.everEnabled then s
  else { s with
    ctrResourceErrors := 0
    ctrFrameTooLong := 0
    ctrTimeouts := 0
    ctrResets := 0
    ctrTxDrops := 0 }

/-- Steps E5 to E8 (R200), every memory acquired. DESIGN CHOICE (log entry 9): the link's speed, duplex and flow
control stay what they were; after ENABLE they are unspecified (R35, R260), and no rule reads them while the link is
down (U8). -/
def bringUp (s : State) : Out State :=
  let s5 := { s with txSlot := List.replicate s.cfg.nTx none, txPending := none }
  andThen (clearTx s5) fun s5a =>
    let s5b := clearRx s5a
    let s6 := firstCounters { s5b with
      link := { s5b.link with up := false }
      txqEnabled := false
      statsPending := false }
    let s7 := reinitRegs (nicReset s6)
    let s8 := { s7 with
      enabled := true
      everEnabled := true
      timerOn := true }
    .next ((s8.emit .startTimer).withResult .ok)

/-- Step E4 and what follows it (R200). -/
def enableBuffers (draws : List (Option BufferDraw)) (s : State) : Out State :=
  let s4 := { s with rxSlot := List.replicate s.cfg.nRx none }
  andThen (fillSlots s.cfg.nRx 0 draws s4) fun r =>
    match r.2 with
    | some i => fail4 i r.1
    | none => bringUp r.1

/-- Step E3 and what follows it. -/
def enableStats (d : EnableDraws) (s : State) : Out State :=
  match allocDma s.cfg.statsSize s.cfg.statsAlign d.st with
  | none => fail3 s
  | some m =>
    if dmaLawful s m = false then .refused .unlawfulDraw
    else enableBuffers d.bufs { s with stMem := some m, history := s.history ++ [.dmaPrepare .stats] }

/-- Step E2 and what follows it. -/
def enableRxRing (d : EnableDraws) (s : State) : Out State :=
  match allocDma (descSize * s.cfg.nRx) s.cfg.ringAlign d.rx with
  | none => fail2 s
  | some m =>
    if dmaLawful s m = false then .refused .unlawfulDraw
    else enableStats d { s with rxMem := some m, history := s.history ++ [.dmaPrepare .rxRing] }

/-- Step E1 and what follows it. While disabled no memory exists, so nothing is live (R34). -/
def enableFrom (d : EnableDraws) (s : State) : Out State :=
  match allocDma (descSize * s.cfg.nTx) s.cfg.ringAlign d.tx with
  | none => .next (fatalInit s)
  | some m => enableRxRing d { s with txMem := some m, history := s.history ++ [.dmaPrepare .txRing] }

/-- What ENABLE starts from (R34): a disabled block has no memory and no buffer. This changes nothing in
a state a run reaches. -/
def dropUnspecified (s : State) : State :=
  { s with txMem := none, rxMem := none, stMem := none, rxSlot := [], heldBuffers := [] }

/-- The receive buffers ENABLE may come to are in R125's range (R236, U4). -/
def bufsOk (c : Cfg) (d : EnableDraws) : Bool :=
  (d.bufs.take c.nRx).all fun b => b.all fun x => regionsOk c x.regions

/-- ENABLE (R200). DESIGN CHOICE (log entry 37): a receive buffer's region list out of R125's range is refused (R236,
U4) with the invocation that brings it. -/
def execEnable (draws : EnableDraws) (s : State) : Out State :=
  guarded [.host] .always s fun s =>
    if s.enabled then .next (s.refuse .alreadyEnabled)
    else if bufsOk s.cfg draws = false then .next (s.refuse .operandRange)
    else enableFrom draws (dropUnspecified s)

/-! ### DISABLE -/

/-- The three DMA memories in the reverse of the order E1 to E3 acquired them (R203 X7). -/
def freeMems (s : State) : Out State :=
  andThen (freeStMem s) fun s1 => andThen (freeRxMem s1) freeTxMem

/-- DISABLE from its first step on (R203). -/
def bringDown (s : State) : Out State :=
  let s1 := writeIntrMask 0#16 ({ s with enabled := false, timerOn := false }.emit .stopTimer)
  let s3 := nicReset (stopQueue s1)
  andThen (clearTx s3) fun s4 =>
  andThen (freeSlots s4.cfg.nRx s4) fun s5 =>
    let s6 := { s5 with link := { s5.link with up := false }, statsPending := false }
    freeMems s6

/-- DISABLE (R203). -/
def execDisable (s : State) : Out State :=
  guarded [.host] .both s fun s =>
    match stProblem s with
    | some r => .next (s.refuse r)
    | none => andThen (bringDown s) fun s1 => .next (s1.withResult .none)

end Sys2Proof.Machine
end

