-- ==== Sys2Proof/Machine/Formats.lean ====
section
/-! DEFINITION. The ten descriptor-word formats of spec/30_encoding.md R78 to R85 as rows of the opcode
table. A format moves no state: its meaning is the word its fields make at the positions of the
configured `LAYOUT` (R76), which is the result; under `L0` that is the word the row was decoded from. -/

namespace Sys2Proof.Machine

/-- Any agent may look at a descriptor word (R216 (a)); no state is needed. -/
def anyAgent : List Agent := [.submitter, .serialized, .host, .nic]

/-- A word with every bit named by a format's fields: all others are 0 (R91). -/
def orAll (l : List Word) : Word := l.foldl (· ||| ·) 0#32

/-- The bits of a NIC-written word that no field names, any value (R83 to R85, U1). -/
def unnamed (rest : Word) (named : List Word) : Word := rest &&& ~~~ orAll named

/-- The result of a format: the word, or a refusal when a value does not fit its field (R86, R236). A word is data, so
it may be looked at inside any operation. -/
def descResult (f : DescFormat) (fits : Bool) (w : Layout → Word) (s : State) : Out State :=
  match precheck anyAgent .always s with
  | some r => .next (s.refuse r)
  | none => if fits then .next (s.withResult (.desc f (w s.cfg.layout))) else .next (s.refuse .operandRange)

/-- A value fits a field. -/
def fieldFits (f : BitField) (v : Nat) : Bool := decide (v ≤ maxOf f.w)

/-- The four common bits of `opts1` (R77). -/
def commonBits (l : Layout) (own eor fs ls : Bool) : Word :=
  orAll [flagIf own l.own, flagIf eor l.eor, flagIf fs l.fs, flagIf ls l.ls]

/-- The named fields of RX `opts1` behind the common bits and the protocol fields (R83, R84). -/
def rxCommon (l : Layout) : List Word :=
  [bit l.own, bit l.eor, bit l.fs, bit l.ls, bit l.ipf, bit l.udpf, bit l.tcpf, fieldMask l.rxlen]

/-- TXD1_V1 with `LGSEN = 0` (R78). -/
def execTxd1V1Csum (own eor fs ls ipcs udpcs tcpcs : Bool) (txlen : BitVec 16) (s : State) : Out State :=
  descResult .txd1V1Csum (fieldFits s.cfg.layout.txlen txlen.toNat)
    (fun l => orAll [commonBits l own eor fs ls, flagIf ipcs l.ipcs1, flagIf udpcs l.udpcs1,
      flagIf tcpcs l.tcpcs1, putField l.txlen txlen.toNat]) s

/-- TXD1_V1 with `LGSEN = 1` (R78). -/
def execTxd1V1Tso (own eor fs ls : Bool) (mss : BitVec 11) (txlen : BitVec 16) (s : State) : Out State :=
  descResult .txd1V1Tso
    (fieldFits s.cfg.layout.txlen txlen.toNat && fieldFits s.cfg.layout.mss1 mss.toNat)
    (fun l => orAll [commonBits l own eor fs ls, bit l.lgsen, putField l.mss1 mss.toNat,
      putField l.txlen txlen.toNat]) s

/-- TXD1_V2 (R79). -/
def execTxd1V2 (own eor fs ls lgsen : Bool) (txlen : BitVec 16) (s : State) : Out State :=
  descResult .txd1V2 (fieldFits s.cfg.layout.txlen txlen.toNat)
    (fun l => orAll [commonBits l own eor fs ls, flagIf lgsen l.lgsen, putField l.txlen txlen.toNat]) s

/-- TXD2_V1 (R80). -/
def execTxd2V1 (txvtag : Bool) (vlan : Half) (s : State) : Out State :=
  descResult .txd2V1 true (fun l => orAll [flagIf txvtag l.txvtag, putField l.vlan vlan.toNat]) s

/-- TXD2_V2 (R81). -/
def execTxd2V2 (udpcs tcpcs ipcs : Bool) (mss : BitVec 11) (txvtag : Bool) (vlan : Half) (s : State) : Out State :=
  descResult .txd2V2 (fieldFits s.cfg.layout.mss2 mss.toNat)
    (fun l => orAll [flagIf udpcs l.udpcs2, flagIf tcpcs l.tcpcs2, flagIf ipcs l.ipcs2,
      putField l.mss2 mss.toNat, flagIf txvtag l.txvtag, putField l.vlan vlan.toNat]) s

/-- RXD_ARMED (R82). -/
def execRxdArmed (eor : Bool) (rxlen : BitVec 14) (s : State) : Out State :=
  descResult .rxdArmed (fieldFits s.cfg.layout.rxlen rxlen.toNat)
    (fun l => orAll [bit l.own, flagIf eor l.eor, putField l.rxlen rxlen.toNat]) s

/-- RXD1_V1 (R83). -/
def execRxd1V1 (eor fs ls : Bool) (pid : BitVec 2) (ipf udpf tcpf : Bool) (rxlen : BitVec 14) (rest : Word)
    (s : State) : Out State :=
  descResult .rxd1V1 (fieldFits s.cfg.layout.rxlen rxlen.toNat)
    (fun l => orAll [commonBits l false eor fs ls, putField l.pid pid.toNat, flagIf ipf l.ipf,
      flagIf udpf l.udpf, flagIf tcpf l.tcpf, putField l.rxlen rxlen.toNat,
      unnamed rest (fieldMask l.pid :: rxCommon l)]) s

/-- RXD1_V2 (R84). -/
def execRxd1V2 (eor fs ls udpt tcpt ipf udpf tcpf : Bool) (rxlen : BitVec 14) (rest : Word) (s : State) :
    Out State :=
  descResult .rxd1V2 (fieldFits s.cfg.layout.rxlen rxlen.toNat)
    (fun l => orAll [commonBits l false eor fs ls, flagIf udpt l.udpt, flagIf tcpt l.tcpt, flagIf ipf l.ipf,
      flagIf udpf l.udpf, flagIf tcpf l.tcpf, putField l.rxlen rxlen.toNat,
      unnamed rest (bit l.udpt :: bit l.tcpt :: rxCommon l)]) s

/-- RXD2_V1 (R85). -/
def execRxd2V1 (rxvtag : Bool) (vlan : Half) (rest : Word) (s : State) : Out State :=
  descResult .rxd2V1 true
    (fun l => orAll [flagIf rxvtag l.rxvtag, putField l.vlan vlan.toNat,
      unnamed rest [bit l.rxvtag, fieldMask l.vlan]]) s

/-- RXD2_V2 (R85). -/
def execRxd2V2 (v6f v4f rxvtag : Bool) (vlan : Half) (rest : Word) (s : State) : Out State :=
  descResult .rxd2V2 true
    (fun l => orAll [flagIf v6f l.v6f, flagIf v4f l.v4f, flagIf rxvtag l.rxvtag, putField l.vlan vlan.toNat,
      unnamed rest [bit l.v6f, bit l.v4f, bit l.rxvtag, fieldMask l.vlan]]) s

end Sys2Proof.Machine
end

