-- ==== Sys2Proof/Machine/Interrupt.lean ====
section
/-! DEFINITION. The interrupt dispatch IRQ of spec/60_exceptions.md R241. -/

namespace Sys2Proof.Machine

/-- The value `INTR_STATUS` reads as: the bits of the pending causes, and in the bits of no cause a free
value (R240, U9; log entry 13). -/
def intrStatus (s : State) : Half :=
  statusBits s.cfg.reg s.irqPending ||| (Config.freeStatus s.freeCount &&& ~~~ allCauses s.cfg.reg)

/-- `P`: the causes whose mask shows in the status word (R241). -/
def causesIn (r : RegMap) (w : Half) : CauseSet :=
  ⟨w &&& r.causeRx != 0#16, w &&& r.causeTx != 0#16, w &&& r.causeBusError != 0#16, w &&& r.causeStatsDone != 0#16⟩

/-- Read and acknowledge (R241): exactly the causes read are cleared. -/
def acknowledge (s : State) : State :=
  let w := intrStatus s
  { s with
    irqPending := s.irqPending.diff (causesIn s.cfg.reg w)
    freeCount := s.freeCount + 1
    history := s.history ++
      [.regRead s.cfg.reg.intrStatus 16 (w.setWidth 64), .regWrite s.cfg.reg.intrStatus 16 (w.setWidth 64)] }

/-- The host has reason to invoke IRQ: an enabled cause is pending (R240, R241). -/
def interruptRequested (s : State) : Bool :=
  statusBits s.cfg.reg s.irqPending &&& s.regs.intrMask != 0#16

/-- The passes of IRQ for a set of causes without a bus error, in the order of R241. -/
def passesFor (p : CauseSet) : List Task :=
  (if p.rx then [.rxNext false] else []) ++ (if p.tx then [.txBegin] else []) ++
    (if p.statsDone then [.statsDone] else [])

/-- IRQ (R241), with no check: read and acknowledge; a bus error begins the reset and makes the other causes moot
(R233, R245), else the passes are left as tasks. -/
def irq (s : State) : State :=
  let p := causesIn s.cfg.reg (intrStatus s)
  let s1 := acknowledge s
  if p.busError then beginReset .none ((countResets s1).raise .busError) else s1.pushWork (passesFor p)

/-- IRQ (R241): its first step, under the same check of the draws as RX.IRQ (log entry 37). -/
def execIrq (draws : List Acquisition) (s : State) : Out State :=
  guarded [.serialized] .both s fun s =>
    if drawsOk s.cfg draws = false then .next (s.refuse .operandRange)
    else .next ((irq (takeDraws draws s)).withResult .none)

end Sys2Proof.Machine
end

