-- ==== Sys2Proof/Machine/Dispatch.lean ====
section
/-! DEFINITION. The dispatch: one arm per row of spec/opcode_table.json. -/

namespace Sys2Proof.Machine

def exec (i : Instr) (s : State) : Host.Outcome State Fault Refusal :=
  match i with
  | .ringAlloc n => Sys2Proof.Machine.execRingAlloc n s
  | .ringWrite ring index seg flags1 flags2 own => Sys2Proof.Machine.execRingWrite ring index seg flags1 flags2 own s
  | .ringReclaim => Sys2Proof.Machine.execRingReclaim s
  | .ringClearTx => Sys2Proof.Machine.execRingClearTx s
  | .ringClearRx => Sys2Proof.Machine.execRingClearRx s
  | .segTx regions => Sys2Proof.Machine.execSegTx regions s
  | .segRx regions => Sys2Proof.Machine.execSegRx regions s
  | .encV1 off => Sys2Proof.Machine.execEncV1 off s
  | .encV2 off => Sys2Proof.Machine.execEncV2 off s
  | .encVlan vlan => Sys2Proof.Machine.execEncVlan vlan s
  | .txSubmit packet => Sys2Proof.Machine.execTxSubmit packet s
  | .txIrq => Sys2Proof.Machine.execTxIrq s
  | .txDlchk => Sys2Proof.Machine.execTxDlchk s
  | .rxIrq draws => Sys2Proof.Machine.execRxIrq draws s
  | .rxCsumV1 opts1 opts2 => Sys2Proof.Machine.execRxCsumV1 opts1 opts2 s
  | .rxCsumV2 opts1 opts2 => Sys2Proof.Machine.execRxCsumV2 opts1 opts2 s
  | .rxVlan opts2 => Sys2Proof.Machine.execRxVlan opts2 s
  | .timerTick v => Sys2Proof.Machine.execTimerTick v s
  | .linkUp params => Sys2Proof.Machine.execLinkUp params s
  | .linkDown => Sys2Proof.Machine.execLinkDown s
  | .resetFull => Sys2Proof.Machine.execResetFull s
  | .irq draws => Sys2Proof.Machine.execIrq draws s
  | .statsReq => Sys2Proof.Machine.execStatsReq s
  | .statsDone => Sys2Proof.Machine.execStatsDone s
  | .enable draws => Sys2Proof.Machine.execEnable draws s
  | .disable => Sys2Proof.Machine.execDisable s
  | .nicTxDone n draws => Sys2Proof.Machine.execNicTxDone n draws s
  | .nicRxFill n frame status draws => Sys2Proof.Machine.execNicRxFill n frame status draws s
  | .nicIrqRaise cause => Sys2Proof.Machine.execNicIrqRaise cause s
  | .nicReset => Sys2Proof.Machine.execNicReset s
  | .nicTxQuiesce => Sys2Proof.Machine.execNicTxQuiesce s
  | .txd1V1Csum own eor fs ls ipcs udpcs tcpcs txlen => Sys2Proof.Machine.execTxd1V1Csum own eor fs ls ipcs udpcs tcpcs txlen s
  | .txd1V1Tso own eor fs ls mss txlen => Sys2Proof.Machine.execTxd1V1Tso own eor fs ls mss txlen s
  | .txd1V2 own eor fs ls lgsen txlen => Sys2Proof.Machine.execTxd1V2 own eor fs ls lgsen txlen s
  | .txd2V1 txvtag vlan => Sys2Proof.Machine.execTxd2V1 txvtag vlan s
  | .txd2V2 udpcs tcpcs ipcs mss txvtag vlan => Sys2Proof.Machine.execTxd2V2 udpcs tcpcs ipcs mss txvtag vlan s
  | .rxdArmed eor rxlen => Sys2Proof.Machine.execRxdArmed eor rxlen s
  | .rxd1V1 eor fs ls pid ipf udpf tcpf rxlen rest => Sys2Proof.Machine.execRxd1V1 eor fs ls pid ipf udpf tcpf rxlen rest s
  | .rxd1V2 eor fs ls udpt tcpt ipf udpf tcpf rxlen rest => Sys2Proof.Machine.execRxd1V2 eor fs ls udpt tcpt ipf udpf tcpf rxlen rest s
  | .rxd2V1 rxvtag vlan rest => Sys2Proof.Machine.execRxd2V1 rxvtag vlan rest s
  | .rxd2V2 v6f v4f rxvtag vlan rest => Sys2Proof.Machine.execRxd2V2 v6f v4f rxvtag vlan rest s

end Sys2Proof.Machine
end

