-- ==== Sys2Proof/Machine/Work.lean ====
section
/-! DEFINITION. The serialized domain between its invocations: an operation that takes more than one step leaves
the rest of itself as tasks, and running the next of them is a step of its own, so that the submitter and the NIC
may step in between (spec/00_scope.md R2, spec/44_rx_pipeline.md R167, spec/45_monitor_control.md R210 H7,
spec/60_exceptions.md R245 (g)). -/

namespace Sys2Proof.Machine

/-- One task. -/
def runTask (x : Task) (s : State) : Out State :=
  match x with
  | .rxNext delivered => rxNext delivered s
  | .txBegin => txBegin s
  | .txScan k old => txScan k old s
  | .dlSnapshot => .next (snapshotDone s)
  | .tickRelease => tickRelease s
  | .tickCheck => .next (tickCheck s)
  | .tickStats => .next (tickStats s)
  | .statsDone => .next (finishStats s)
  | .resetRest _ => fullReset s
  | .linkDownRest => linkDown s

/-- What the operation a task belongs to has returned once the task is done: TX.DLCHK its `NoReset` behind a forced
pass (R153), RESET.FULL what its invoker returns behind it (R247), any other none. -/
def taskResult : Task → Result
  | .rxNext _ => .none
  | .txBegin => .none
  | .txScan _ _ => .none
  | .dlSnapshot => .noReset
  | .tickRelease => .none
  | .tickCheck => .none
  | .tickStats => .none
  | .statsDone => .none
  | .resetRest ends => ends
  | .linkDownRest => .none

/-- The next task is taken; the serialized domain is the one acting (R2). -/
def takeTask (rest : List Task) (s : State) : State := { s with work := rest, caller := .serialized }

/-- The serialized domain goes on with the operation in progress; with none it rests. -/
def goOn (s : State) : Out State :=
  match s.work with
  | [] => .next s
  | x :: rest => andThen (runTask x (takeTask rest s)) fun s1 => .next (s1.withResult (taskResult x))

/-- An invocation waits for the operation in progress: for as many steps of it as it says, and for its end when it is
an operation of the serialized domain itself (R210 H6). -/
def waits (x : Invocation) (s : State) : Bool := !s.work.isEmpty && (x.after != 0 || inDomain x.agent)

end Sys2Proof.Machine
end

