-- ==== Sys2Proof/Machine/Step.lean ====
section
/-! DEFINITION. One step of the machine: the next invocation the environment queued is taken, decoded and
run (spec/10_state.md R18: which operation comes next "is an input of the step relation"), or the serialized domain
goes on with the operation it is in. -/

namespace Sys2Proof.Machine

/-- Run a code: an operation by `exec`; a code that decodes to nothing is refused, which changes nothing
but the record (R96, R236). -/
def runCode (c : Code) (s : State) : Host.Outcome State Fault Refusal :=
  match decode c with
  | .ok i => exec i s
  | .error e => .next (s.refuse (decodeReason e))

/-- The head of the queue has waited one more step of the operation in progress. -/
def waited (x : Invocation) (rest : List Invocation) (s : State) : State :=
  { s with input := { x with after := x.after - 1 } :: rest }

/-- One step. With no invocation queued and no operation in progress the block rests: nothing in it moves by itself
(R18, R255). -/
def step (s : State) : Host.Outcome State Fault Refusal :=
  match s.input with
  | [] => goOn s
  | x :: rest => if waits x s then goOn (waited x rest s) else runCode x.code (takeInput x rest s)

/-- The state with one table word queued before everything else, invoked by an agent that may invoke it and that
waits for nothing (log entry 5). -/
def State.withFetchWord (s : State) (nbits w : Nat) : State :=
  { s with
    input := ⟨agentFor (tableCode nbits w), tableCode nbits w, 0⟩ :: s.input
    work := if inDomain (agentFor (tableCode nbits w)) then [] else s.work }

end Sys2Proof.Machine
end

