-- ==== Sys2Proof/Safety.lean ====
section
/-! DEFINITION. What claims are stated in: the conditions under which an operation runs, the invariants of
spec/10_state.md as predicates on one state, the premises on the NIC and the host that the spec names,
and which operations are the engine's, the submitter's, the NIC's. -/

namespace Sys2Proof.Machine

/-! ### Conditions under which an operation runs -/

/-- The agent that acts is `a`, the configuration is well-formed (R5, R76, R95), and an agent of the serialized
domain acts only when no operation of that domain is in progress (R2, R210 H6). -/
structure Acting (a : Agent) (s : State) : Prop where
  caller : s.caller = a
  cfg    : cfgWf s.cfg = true
  alone  : inDomain a = true → s.work = []

/-- An engine operation of agent `a` may run: as `Acting`, and enabled (R34). -/
def Ready (a : Agent) (s : State) : Prop := Acting a s ∧ s.enabled = true

/-- The TX ring memory is Prepared, aligned and inside the address space (R53, R56, R59). -/
def TxUsable (s : State) : Prop := txProblem s = none

/-- The RX ring memory likewise, and every slot holds a Prepared buffer (R27, R59). -/
def RxUsable (s : State) : Prop := rxProblem s = none

/-- The statistics memory is Prepared (R59). -/
def StUsable (s : State) : Prop := stProblem s = none

/-- What an operation that may rewrite the chip's registers needs of the statistics memory: that it is Prepared where
its address is passed with the ring bases (R57, R59; log entry 41). -/
def InitUsable (s : State) : Prop := s.cfg.reg.statsAtInit = true → StUsable s

/-! ### The ring cursors (R20, R21) -/

/-- The number of outstanding descriptors: `(tx_next - tx_dirty) mod N_TX` (R12, R20). -/
def outstanding (s : State) : Nat := (s.txNext + s.cfg.nTx - s.txDirty) % s.cfg.nTx

/-- Descriptor `i` is outstanding: `(i - tx_dirty) mod N_TX < (tx_next - tx_dirty) mod N_TX` (R12). -/
def isOutstanding (s : State) (i : Nat) : Prop := (i + s.cfg.nTx - s.txDirty) % s.cfg.nTx < outstanding s

/-- The task is the rest of a scan of TX.IRQ. -/
def isScan : Task → Bool
  | .txScan _ _ => true
  | _ => false

/-- How many descriptors the scan in progress may still visit (R114). -/
def scanLeft : List Task → Nat
  | .txScan k _ :: _ => k
  | _ => 0

/-- `tx_free = N_TX - outstanding`, the cursors are indices of their rings, there is one slot for each TX
descriptor, and one scan at most, which stays within what is outstanding (R14, R15, R20, R26, R114). -/
structure CursorsOk (s : State) : Prop where
  next  : s.txNext < s.cfg.nTx
  dirty : s.txDirty < s.cfg.nTx
  rx    : s.rxIndex < s.cfg.nRx
  free  : s.txFree = (s.cfg.nTx : Int) - (outstanding s : Int)
  slots : s.txSlot.length = s.cfg.nTx
  scan  : scanLeft s.work ≤ outstanding s
  once  : ∀ x ∈ s.work.tail, isScan x = false

/-- The free-count invariant (R20), while enabled. -/
def CursorInv (s : State) : Prop := s.enabled = true → cfgWf s.cfg = true ∧ CursorsOk s

/-- A TX slot holds a handle only where the descriptor is outstanding (R26). -/
def SlotInv (s : State) : Prop :=
  s.enabled = true → ∀ i < s.cfg.nTx, ∀ h, s.txPkt i = some h → isOutstanding s i

/-! ### Exclusive ownership of handles (R8) -/

/-- The packet handles in slots and in `tx_pending` (R26, R28). -/
def packetsIn (s : State) : List Handle := s.txSlot.filterMap id ++ s.txPending.toList

/-- The buffer handles in slots (R27). -/
def buffersIn (s : State) : List Handle := s.rxSlot.filterMap (Option.map RxBuffer.h)

/-- Every handle stands in one place only, and the engine holds it (R8). -/
structure HandleInv (s : State) : Prop where
  packetsOnce : (packetsIn s).Nodup
  packetsHeld : ∀ h ∈ packetsIn s, s.holdsPacket h = true
  buffersOnce : (buffersIn s).Nodup
  buffersHeld : ∀ h ∈ buffersIn s, h ∈ s.heldBuffers

/-! ### The memories of an enabled block (R27, R34, R59) -/

/-- Enabled: all memories and receive buffers are there and Prepared. Disabled: there are none. -/
structure PlatformInv (s : State) : Prop where
  on  : s.enabled = true → cfgWf s.cfg = true ∧ TxUsable s ∧ RxUsable s ∧ StUsable s
  off : s.enabled = false → s.txMem = none ∧ s.rxMem = none ∧ s.stMem = none ∧ buffersIn s = []

/-! ### The bytes of the rings (R19, R22, R27, R56, R57) -/

/-- The 16 bytes of a descriptor (R56). -/
def State.inDesc (s : State) (ring : Ring) (i : Nat) (a : Nat) : Prop :=
  (s.base ring).toNat + descSize * i ≤ a ∧ a < (s.base ring).toNat + descSize * i + descSize

/-- The bytes of a ring (R56). -/
def State.inRing (s : State) (ring : Ring) (a : Nat) : Prop :=
  (s.base ring).toNat ≤ a ∧ a < (s.base ring).toNat + descSize * ringSize s.cfg ring

/-- Two memories share no byte (R57). -/
def memsApart (m n : DmaMem) : Prop :=
  m.addr.toNat + m.len ≤ n.addr.toNat ∨ n.addr.toNat + n.len ≤ m.addr.toNat

/-- The live memories are pairwise apart (R57). -/
def MemsApart (s : State) : Prop := (liveMems s).Pairwise memsApart

/-- The word the ring-end rule gives `opts1` of descriptor `i`: `EOR` on the last index only (R19). -/
def eorOn (c : Cfg) (ring : Ring) (i : Nat) : Word := flagIf (decide (i + 1 = ringSize c ring)) c.layout.eor

/-- `EOR` is 1 on the last descriptor of the ring and 0 on every other (R19). -/
def ringEndOk (s : State) (ring : Ring) : Prop :=
  ∀ i < ringSize s.cfg ring, flag (s.desc32 ring i .opts1) s.cfg.layout.eor = decide (i + 1 = ringSize s.cfg ring)

/-- What the two rings of an enabled block hold. -/
structure RingsOk (s : State) : Prop where
  apart : MemsApart s
  txLen : ∀ m, s.txMem = some m → m.len = descSize * s.cfg.nTx
  rxLen : ∀ m, s.rxMem = some m → m.len = descSize * s.cfg.nRx
  endTx : ringEndOk s .tx
  endRx : ringEndOk s .rx
  /-- A descriptor that is not outstanding is the engine's (R12, R22). -/
  idle  : ∀ i < s.cfg.nTx, ¬ isOutstanding s i → s.nicOwned .tx i = false
  /-- What may still be written by RING.WRITE is outstanding (R112; log entries 34, 39 and 40). -/
  unsub : ∀ i ∈ s.txUnsubmitted, i < s.cfg.nTx ∧ isOutstanding s i
  /-- `DescRead(RX, i, addr) = phys(rx_slot[i])` (R27). -/
  bufs  : ∀ i < s.cfg.nRx, s.descBuf .rx i = s.slotPhys i
  /-- An armed descriptor offers the NIC `RX_BUF_SIZE` bytes (R82). -/
  armed : ∀ i < s.cfg.nRx, s.nicOwned .rx i = true →
    getField s.cfg.layout.rxlen (s.desc32 .rx i .opts1) = s.cfg.rxBufSize
  /-- A completed whole frame has a length RX.IRQ has a behaviour for (R169). -/
  whole : ∀ i < s.cfg.nRx, s.nicOwned .rx i = false → fragmented s.cfg.layout (s.desc32 .rx i .opts1) = false →
    badRxLength s.cfg (s.desc32 .rx i .opts1) = false
  /-- What the NIC remembers of a descriptor has the ring-end marker right (R217). -/
  seen  : ∀ x ∈ s.nicSeen, flag x.word s.cfg.layout.eor = decide (x.index + 1 = ringSize s.cfg x.ring)
  /-- What it remembers of an RX descriptor is of one that is still armed with the same buffer (R219). -/
  kept  : ∀ x ∈ s.nicSeen, x.ring = .rx → x.index < s.cfg.nRx ∧ s.nicOwned .rx x.index = true ∧
    getField s.cfg.layout.rxlen x.word = s.cfg.rxBufSize ∧ x.addr = s.slotPhys x.index

/-- The rings are in order while enabled (R19, R27). -/
def RingInv (s : State) : Prop := s.enabled = true → RingsOk s

/-- RING.WRITE on the RX ring is invoked as the block itself invokes it, to re-arm with the slot's own
buffer (R117, R178). The operands of a direct invocation are otherwise free (R112). -/
def RxWritesRearm (i : Instr) (s : State) : Prop :=
  ∀ index seg flags1 flags2 own, i = .ringWrite .rx index seg flags1 flags2 own →
    seg = ⟨s.slotPhys index, s.cfg.rxBufSize⟩

/-! ### Control state (R34, R240, R251, R260) -/

/-- All causes are enabled while enabled and disabled while disabled, the timer runs while enabled, and a
disabled block has its link down, its queue stopped and no dump pending. -/
structure ControlInv (s : State) : Prop where
  mask  : s.regs.intrMask = if s.enabled = true then allCauses s.cfg.reg else 0#16
  timer : s.timerOn = s.enabled
  down  : s.enabled = false → s.link.up = false ∧ s.txqEnabled = false ∧ s.statsPending = false

/-- An operation in progress is one of an enabled, well-formed block: it was admitted so, and nothing disables the
block before it ends (R34, R210 H6). -/
def WorkInv (s : State) : Prop := s.work ≠ [] → s.enabled = true ∧ cfgWf s.cfg = true

/-- A RESET.FULL in progress has closed the queue and not yet begun its rest (R190). -/
def isReset : Task → Bool
  | .resetRest _ => true
  | _ => false

/-- The warning counter is below the second threshold but where the reset that zeroes it is in progress (R121,
R153). -/
def WarnInv (s : State) : Prop := s.work.any isReset = false → s.deadlockWarn < s.cfg.dlThresh2

/-- Everything the spec says holds between two steps. -/
structure BlockInv (s : State) : Prop where
  memory   : s.mem.wf
  work     : WorkInv s
  cursors  : CursorInv s
  handles  : HandleInv s
  platform : PlatformInv s
  control  : ControlInv s
  rings    : RingInv s

/-! ### Stores, as the history records them -/

/-- A store of the engine to `opts1` carries `EOR` on the last index and nowhere else (R19, R269). -/
def storeKeepsRingEnd (c : Cfg) : Event → Bool
  | .descWrite ring i .opts1 v => v.getLsbD c.layout.eor == decide (i + 1 = ringSize c ring)
  | _ => true

/-- Every store of the engine so far kept the ring-end marker (R19). -/
def RingEndInv (s : State) : Prop := ∀ e ∈ s.history, storeKeepsRingEnd s.cfg e = true

/-- A store that hands descriptor `i` of a ring to the NIC (R22). -/
def handsOver (c : Cfg) (ring : Ring) (i : Nat) : Event → Bool
  | .descWrite ring' i' .opts1 v => ring' == ring && i' == i && v.getLsbD c.layout.own
  | _ => false

/-- The packet handles freed, in order. -/
def freedPackets (l : List Event) : List Handle :=
  l.filterMap fun e => match e with
    | .freePacket h => some h
    | _ => none

/-- The buffers and DMA memories released, in order. -/
def released (l : List Event) : List DmaId :=
  l.filterMap fun e => match e with
    | .freeBuffer h => some (.buffer h)
    | .freeDma o => some o
    | _ => none

/-- The frames delivered, in order (R174). -/
def deliveries (l : List Event) : List (Handle × Nat × DeliverOpts) :=
  l.filterMap fun e => match e with
    | .deliverPacket h len opts => some (h, len, opts)
    | _ => none

/-- An access to a NIC register other than the doorbell (R58). -/
def isRegAccess : Event → Bool
  | .regRead _ _ _ => true
  | .regWrite _ _ _ => true
  | _ => false

/-- `RegWrite64(off, v)` as the two 32-bit writes it stands for, in the order of the configuration (R190, D36). -/
def regWrite64 (c : Cfg) (off : Nat) (v : BitVec 64) : List Event :=
  if c.reg.lowFirst then [.regWrite off 32 (v &&& 0xFFFFFFFF#64), .regWrite (off + 4) 32 (v >>> 32)]
  else [.regWrite (off + 4) 32 (v >>> 32), .regWrite off 32 (v &&& 0xFFFFFFFF#64)]

/-- `phys(stmem)` (R57, R59). -/
def statsAddr (s : State) : Addr := s.stMem.elim 0#64 fun m => m.addr

/-- An upcall to the host (R209), the frees set aside. -/
def isUpcall : Event → Bool
  | .deliverPacket _ _ _ => true
  | .flushInputQueue => true
  | .reportLinkStatus _ _ => true
  | .resumeQueue => true
  | .stopAndFlushQueue => true
  | _ => false

/-- A store of the engine to a descriptor. -/
def isStore : Event → Bool
  | .descWrite _ _ _ _ => true
  | _ => false

/-! ### Reference descriptions the operations are compared with -/

/-- One pass through the loop body of R126, as its pseudocode has it: `none` is `TooManySegments`. -/
def segmentStep (maxSegs maxLen : Nat) (segs : Option (List Segment)) (r : Region) : Option (List Segment) :=
  match segs with
  | none => none
  | some l =>
    if r.len = 0 then some l
    else
      match l.getLast? with
      | some last =>
        if last.addr.toNat + last.len = r.pa.toNat ∧ last.len + r.len ≤ maxLen then
          some (l.dropLast ++ [⟨last.addr, last.len + r.len⟩])
        else if l.length = maxSegs then none
        else some (l ++ [⟨r.pa, r.len⟩])
      | none => if l.length = maxSegs then none else some (l ++ [⟨r.pa, r.len⟩])

/-- The segments of a region list by the loop of R126. -/
def segmentsOf (maxSegs maxLen : Nat) (regions : List Region) : Option (List Segment) :=
  regions.foldl (segmentStep maxSegs maxLen) (some [])

/-- Every region list among the draws is in R125's range. -/
def DrawsInRange (c : Cfg) (draws : List Acquisition) : Prop :=
  ∀ h regions, .replaced h regions ∈ draws → regionsOk c regions = true

/-- Every region list of the receive buffers ENABLE may come to is in R125's range. -/
def BufsInRange (c : Cfg) (d : EnableDraws) : Prop := ∀ b, some b ∈ d.bufs.take c.nRx → regionsOk c b.regions = true

/-- The addresses of a run of bytes, in order. -/
def runOf (pa : Addr) (len : Nat) : List Nat := (List.range len).map fun k => pa.toNat + k

/-- `unsupported(off)`, the four cases of R138. -/
def OffloadUnsupported (c : Cfg) (off : OffloadReq) : Prop :=
  off.other = true ∨ (off.tcp = true ∧ off.udp = true) ∨ (off.tso = true ∧ off.udp = true) ∨
  (off.tso = true ∧ (off.mss = 0 ∨ 2 ^ c.layout.mss1.w - 1 < off.mss))

/-- A counter after `k` more counts (R121). -/
def counted (c : Cfg) (x k : Nat) : Nat := if k = 0 then x else (x + k) % 2 ^ c.ctrW

/-- `t` comes from `s` with the events `l`, and every counter has counted exactly the causes `l` records for it
(R30, R238). -/
structure CountsWhatItRaises (s t : State) (l : List Event) : Prop where
  history  : t.history = s.history ++ l
  resource : t.ctrResourceErrors = counted s.cfg s.ctrResourceErrors (l.count (.raised .resourceExhaustion))
  tooLong  : t.ctrFrameTooLong = counted s.cfg s.ctrFrameTooLong (l.count (.raised .rxFragmented))
  timeouts : t.ctrTimeouts = counted s.cfg s.ctrTimeouts (l.count (.raised .missedInterrupt))
  resets   : t.ctrResets = counted s.cfg s.ctrResets
    (l.count (.raised .txDeadlock) + l.count (.raised .busError))
  drops    : t.ctrTxDrops = counted s.cfg s.ctrTxDrops
    (l.count (.raised .unsupportedOffload) + l.count (.raised .tooManySegments))

/-- How often one of two causes was raised. -/
def raisedOf (l : List Event) (a b : ErrCause) : Nat := l.count (.raised a) + l.count (.raised b)

/-- What the flags of RING.WRITE may be: on TX the command bits of R78 to R81, with `FS` and `LS` and without `OWN`,
`EOR` and the length; on RX none (R82, R91; log entry 32). -/
def CommandBits (c : Cfg) (ring : Ring) (flags1 flags2 : Word) : Prop :=
  let l := c.layout
  let marks := bit l.fs ||| bit l.ls ||| bit l.lgsen
  let tso := flags1.getLsbD l.lgsen = true
  match ring, c.revision2 with
  | .rx, _ => flags1 = 0#32 ∧ flags2 = 0#32
  | .tx, false =>
    flags1 &&& ~~~ (marks ||| (if tso then fieldMask l.mss1 else bit l.ipcs1 ||| bit l.udpcs1 ||| bit l.tcpcs1)) = 0#32 ∧
    flags2 &&& ~~~ (bit l.txvtag ||| (if flags2.getLsbD l.txvtag = true then fieldMask l.vlan else 0#32)) = 0#32
  | .tx, true =>
    flags1 &&& ~~~ marks = 0#32 ∧
    flags2 &&& ~~~ ((if tso then fieldMask l.mss2 else bit l.udpcs2 ||| bit l.tcpcs2 ||| bit l.ipcs2) |||
      bit l.txvtag ||| fieldMask l.vlan) = 0#32

/-- `x` is the `k`-th newest of what the NIC remembers of a descriptor (R268; log entry 8). -/
def Remembers (s : State) (ring : Ring) (i k : Nat) (x : Seen) : Prop :=
  (s.nicSeen.filter fun y => y.ring == ring && y.index == i)[k]? = some x

/-- What a NIC.TX_DONE acts on: the descriptor as it reads now, NIC-owned, or what the NIC remembers of it (R218). -/
def TxDoneReads (s : State) (i : Nat) (d : TxDoneDraws) (x : Seen) : Prop :=
  (d.stale = none ∧ s.nicOwned .tx i = true ∧
    x = ⟨.tx, i, s.desc32 .tx i .opts1, s.descBuf .tx i, s.txPkt i⟩) ∨
  (∃ y, d.stale = some y ∧ Remembers s .tx i y.k x)

/-- A NIC.TX_DONE on what the NIC remembers reads the packet the ring clear freed (U15). -/
def ReadsFreedPacket (c : Cfg) (d : TxDoneDraws) (x : Seen) : Prop :=
  ∃ y, d.stale = some y ∧
    (y.late = true ∨ (d.early = true ∧ x.pkt ≠ none ∧ x.word.getLsbD c.layout.ls = true))

/-- The word and then the buffer address a NIC.RX_FILL acts on, the address never older than the word (R216 (b),
R219). -/
def RxFillReads (s : State) (i : Nat) (d : RxFillDraws) (w : Word) (a : Addr) : Prop :=
  (d.stale = none ∧ s.nicOwned .rx i = true ∧ w = s.desc32 .rx i .opts1 ∧ a = s.descBuf .rx i) ∨
  (∃ k x, d.stale = some ⟨k, none⟩ ∧ Remembers s .rx i k x ∧ w = x.word ∧ a = s.descBuf .rx i) ∨
  (∃ k j x z, d.stale = some ⟨k, some j⟩ ∧ j ≤ k ∧ Remembers s .rx i k x ∧ Remembers s .rx i j z ∧
    w = x.word ∧ a = z.addr)

/-- The run of bytes meets neither ring memory (R216 (f)). -/
def ClearOfRings (s : State) (a len : Nat) : Prop :=
  ∀ m, s.txMem = some m ∨ s.rxMem = some m → len = 0 ∨ a + len ≤ m.addr.toNat ∨ m.addr.toNat + m.len ≤ a

/-- What the NIC remembers once a ring has been cleared under it: as before, and every descriptor it owned
(R268). -/
def RemembersCleared (s t : State) (ring : Ring) : Prop :=
  ∀ x, x ∈ t.nicSeen ↔ x ∈ s.nicSeen ∨ (x.ring = ring ∧ x.index < ringSize s.cfg ring ∧
    s.nicOwned ring x.index = true ∧ x.word = s.desc32 ring x.index .opts1 ∧ x.addr = s.descBuf ring x.index ∧
    x.pkt = if ring = .tx then s.txPkt x.index else none)

/-- The descriptors `tx_dirty`, `tx_dirty + 1`, ... a pass takes: `n` of them, all completed, and the next
one, if outstanding, is not (R114, R115). -/
structure PassTakes (s : State) (n : Nat) : Prop where
  bound : n ≤ outstanding s
  done  : ∀ j < n, s.nicOwned .tx ((s.txDirty + j) % s.cfg.nTx) = false
  stop  : n < outstanding s → s.nicOwned .tx ((s.txDirty + n) % s.cfg.nTx) = true

/-- RX descriptor `i` is armed with the buffer of its slot (R82). -/
structure ArmedAt (t : State) (i : Nat) : Prop where
  opts1 : t.desc32 .rx i .opts1 = bit t.cfg.layout.own ||| eorOn t.cfg .rx i ||| putField t.cfg.layout.rxlen t.cfg.rxBufSize
  opts2 : t.desc32 .rx i .opts2 = 0#32
  addr  : t.descBuf .rx i = t.slotPhys i

/-- TX descriptor `i` is cleared (R116). -/
structure ClearedAt (t : State) (i : Nat) : Prop where
  opts1 : t.desc32 .tx i .opts1 = eorOn t.cfg .tx i
  opts2 : t.desc32 .tx i .opts2 = 0#32
  addr  : t.descBuf .tx i = 0#64

/-- The length RX.IRQ delivers of RX descriptor `i` (R169). -/
def frameLen (s : State) (i : Nat) : Nat :=
  getField s.cfg.layout.rxlen (s.desc32 .rx i .opts1) - s.cfg.fcsLen

/-- RX descriptor `i` holds one whole frame of a length RX.IRQ has a behaviour for (R168, R169). -/
def GoodFrame (s : State) (i : Nat) : Prop :=
  fragmented s.cfg.layout (s.desc32 .rx i .opts1) = false ∧
  s.cfg.fcsLen < getField s.cfg.layout.rxlen (s.desc32 .rx i .opts1) ∧
  getField s.cfg.layout.rxlen (s.desc32 .rx i .opts1) ≤ s.cfg.rxBufSize

/-- The annotations of the frame in RX descriptor `i` (R165). -/
def frameOpts (s : State) (i : Nat) : DeliverOpts :=
  ⟨if s.cfg.revision2 then csumV2 s.cfg (s.desc32 .rx i .opts1) (s.desc32 .rx i .opts2)
    else csumV1 s.cfg (s.desc32 .rx i .opts1), rxVlanTag s.cfg (s.desc32 .rx i .opts2)⟩

/-- What one iteration of RX.IRQ always does at the end (R178): descriptor `i` re-armed, no other byte
stored, `rx_index` one further. -/
structure RearmedFrom (s t : State) : Prop where
  armed : ArmedAt t s.rxIndex
  mem   : ∀ a, ¬ s.inDesc .rx s.rxIndex a → t.mem.read a = s.mem.read a
  index : t.rxIndex = (s.rxIndex + 1) % s.cfg.nRx

/-- A drawn base that `AllocDma` succeeds with: aligned, inside the address space (R53, R56, R200). -/
def AllocGives (draw : Option Addr) (size align : Nat) (a : Addr) : Prop :=
  draw = some a ∧ (align = 0 ∨ a.toNat % align = 0) ∧ a.toNat + size ≤ 2 ^ 64

/-- The draws ENABLE goes on with, up to the receive buffers `bufs`: three aligned memories inside the
address space and single-segment buffers of distinct handles, all pairwise apart (R57, R129, R171, R200). -/
structure EnableTakes (d : EnableDraws) (c : Cfg) (tx rx st : Addr) (bufs : List (BufferDraw × Segment)) : Prop where
  txDraw  : AllocGives d.tx (descSize * c.nTx) c.ringAlign tx
  rxDraw  : AllocGives d.rx (descSize * c.nRx) c.ringAlign rx
  stDraw  : AllocGives d.st c.statsSize c.statsAlign st
  drawn   : d.bufs.take bufs.length = bufs.map fun b => some b.1
  segment : ∀ b ∈ bufs, regionsOk c b.1.regions = true ∧ segmentRx c b.1.regions = some b.2
  handles : (bufs.map fun b => b.1.h).Nodup
  apart   : (⟨tx, descSize * c.nTx, .prepared⟩ :: ⟨rx, descSize * c.nRx, .prepared⟩ ::
    ⟨st, c.statsSize, .prepared⟩ :: bufs.map fun b => (⟨b.2.addr, b.2.len, .prepared⟩ : DmaMem)).Pairwise memsApart

/-- A drawn base at which `AllocDma` counts as failed, or no base at all (R53, R56, R200). -/
def AllocFails (draw : Option Addr) (size align : Nat) : Prop :=
  ∀ a, draw = some a → (align ≠ 0 ∧ a.toNat % align ≠ 0) ∨ 2 ^ 64 < a.toNat + size

/-! ### Whole operations -/

/-- At most `n` tasks of the operation in progress, one after the other with nothing between. -/
def runWork : Nat → State → Out State
  | 0, s => .next s
  | n + 1, s => andThen (goOn s) (runWork n)

/-- An operation and at most `n` tasks of it, with nothing between. -/
def execWhole (n : Nat) (i : Instr) (s : State) : Out State := andThen (exec i s) (runWork n)

/-! ### Premises on the NIC and the host -/

/-- `ERRATUM_BOUNDED` (R218), asked of a state from which a step frees out of `tx_pending`: the NIC is not reading
what is held back. A pass frees once a step at most, so nothing made pending escapes it. -/
def ErratumBounded (s : State) : Prop := ∀ h, s.txPending = some h → s.nicTxBusy ≠ some h

/-- The NIC is reading no packet of the engine's past its last descriptor. -/
def NothingBusy (s : State) : Prop := ∀ h ∈ packetsIn s, s.nicTxBusy ≠ some h

/-- The link register has read down, or LINK.DOWN has run, and no doorbell has been rung since (R186, R188, R221):
the link coming up again does not end it (R268). -/
def downSinceDoorbell (c : Cfg) (l : List Event) : Bool :=
  l.foldl (fun b e => match e with
    | .regRead off width v =>
      b || (off == c.reg.linkStatus && width == 8 && !(linkLookup c (v.setWidth 8)).up)
    | .reportLinkStatus up _ => b || !up
    | .doorbell _ _ => false
    | _ => b) false

/-- The link is down for the NIC's transmitter: LINK.DOWN is in progress, or the link has been down since the last
doorbell. -/
def LinkReadsDown (s : State) : Prop := .linkDownRest ∈ s.work ∨ downSinceDoorbell s.cfg s.history = true

/-- `LINKDOWN_TX_IDLE` (R268): when the link register reads down, until the next doorbell, `nic_tx_busy` is null and
the NIC completes no TX descriptor. -/
def LinkdownTxIdle (s : State) : Prop :=
  LinkReadsDown s → s.nicTxBusy = none ∧ ∀ x ∈ s.input.head?, ∀ n d, decode x.code ≠ .ok (.nicTxDone n d)

/-- The host's duty H1 (R210): no submission while the queue is stalled. -/
def HostDuty (i : Instr) (s : State) : Prop := (∃ p, i = .txSubmit p) → s.txStalled = false

/-! ### Whose operation it is (R95) -/

/-- The NIC's own steps; its reset is the serialized domain's (R222). -/
def isNicStep : Instr → Bool
  | .nicTxDone _ _ => true
  | .nicRxFill _ _ _ _ => true
  | .nicIrqRaise _ => true
  | .nicTxQuiesce => true
  | _ => false

/-- The rows of the table that are descriptor words, not operations (R78 to R85). -/
def isFormat : Instr → Bool
  | .txd1V1Csum _ _ _ _ _ _ _ _ => true
  | .txd1V1Tso _ _ _ _ _ _ => true
  | .txd1V2 _ _ _ _ _ _ => true
  | .txd2V1 _ _ => true
  | .txd2V2 _ _ _ _ _ _ => true
  | .rxdArmed _ _ => true
  | .rxd1V1 _ _ _ _ _ _ _ _ _ => true
  | .rxd1V2 _ _ _ _ _ _ _ _ _ _ => true
  | .rxd2V1 _ _ _ => true
  | .rxd2V2 _ _ _ _ _ => true
  | _ => false

/-- The engine operations other than ENABLE, which are refused while disabled (R34, R236). -/
def needsEnabled : Instr → Bool
  | .enable _ => false
  | .nicReset => false
  | i => !isNicStep i && !isFormat i

/-- What a refused invocation returns (R236): the refusal, and for the host's submission `Dropped` (R9, log entry
33). -/
def refusedResult (i : Instr) (r : RefusedReason) : Result :=
  match i with
  | .txSubmit _ => if r = .wrongAgent then .refused r else .dropped
  | _ => .refused r

/-- The selectors of R95's table. -/
def selectors : List Nat :=
  [0x00, 0x01, 0x02, 0x03, 0x04, 0x10, 0x11, 0x20, 0x21, 0x22, 0x30, 0x31, 0x32, 0x40, 0x41, 0x42, 0x43, 0x50, 0x51,
   0x52, 0x53, 0x54, 0x55, 0x56, 0x60, 0x61, 0x70, 0x71, 0x72, 0x73, 0x74]

/-- The operations of the submitter (R2, R95). -/
def isSubmitterOp (i : Instr) : Bool := agentsOf i == [.submitter]

end Sys2Proof.Machine
end

