-- ==== Sys2Proof/Certificates/Slice0/Obligations.lean ====
section
/-! DEFINITION. The statements for the provers. Each says in its docstring which rules of spec/ it
formalises; a clause that rests on a choice of the model names the log entry. `t = { s with ... }` is a
frame: every field not named is as it was. -/

open Sys2Proof Sys2Proof.Machine

/-! ### Encodings -/

/-- Words written out from R95, R78 to R85 decode to what they stand for. The operand bytes behind a selector
are the model's own (log entry 4). -/
def Obligations.SpecWordsDecode : Prop :=
  decode (.op [0x00, 3, 0, 0, 0]) = .ok (.ringAlloc 3) ∧
  decode (.op [0x02]) = .ok .ringReclaim ∧
  decode (.op [0x31]) = .ok .txIrq ∧
  decode (.op [0x72, 2]) = .ok (.nicIrqRaise .busError) ∧
  decode (.word .txd1V1Csum 0xA0050064#32) = .ok (.txd1V1Csum true false true false true false true 100#16) ∧
  decode (.word .txd1V1Tso 0xBDB4003C#32) = .ok (.txd1V1Tso true false true true 1460#11 60#16) ∧
  decode (.word .txd2V2 0x60000000#32) = .ok (.txd2V2 false true true 0#11 false 0#16) ∧
  decode (.word .rxdArmed 0xC0000600#32) = .ok (.rxdArmed true 1536#14) ∧
  decode (.word .rxd1V1 0x30020044#32) = .ok (.rxd1V1 false true true 1#2 false false false 68#14 0#32) ∧
  decode (.word .rxdArmed 0x00000600#32) = .error .reservedBits

/-- No bit of an encoding is dropped: every well-formed operation, with every operand value its form admits,
is read back from its own code. -/
def Obligations.EncodeThenDecodeReturnsInstr : Prop :=
  ∀ i, WellFormed i = true → decode (encode i) = .ok i

/-- Whatever the decoder accepts is a well-formed operation. What is well-formed, and the operand bytes behind a
selector, are the model's own form (log entry 4): R95 gives selectors and operands, R93 no bytes. -/
def Obligations.DecodedInstrIsWellFormed : Prop :=
  ∀ c i, decode c = .ok i → WellFormed i = true

/-- R96: a selector outside R95's table selects no operation, and the machine refuses it; so it does an operation
invoked by an agent other than its own, where whose a RING.WRITE and a descriptor word are is the model's (log
entries 10 and 11). Nothing changes but the record of the refusal. -/
def Obligations.UnassignedSelectorOrWrongAgentRefused : Prop :=
  (∀ (s : State) (x : Invocation) b bs rest, b.toNat ∉ selectors → x.code = .op (b :: bs) → s.input = x :: rest →
    (s.work = [] ∨ (x.after = 0 ∧ inDomain x.agent = false)) →
    step s = .next { s with
      input := rest, caller := x.agent
      history := s.history ++ [.refused .invalidSelector], result := .refused .invalidSelector }) ∧
  (∀ i s, s.caller ∉ agentsOf i →
    exec i s = .next { s with history := s.history ++ [.refused .wrongAgent], result := .refused .wrongAgent })

/-- A step runs the operation the next invocation decodes to, for the agent that makes it; a code that decodes to
nothing is recorded as refused (R18, R96; log entry 5). While an operation of the serialized domain is in progress an
invocation waits as many steps of it as it says, and one of that domain to its end (R167, R210 H6 and H7, R245 (g);
log entry 14); such a step runs the next task. With nothing queued and nothing in progress the block rests. -/
def Obligations.StepRunsDecodedInvocation : Prop :=
  (∀ (s : State) x rest i, s.input = x :: rest → (s.work = [] ∨ (x.after = 0 ∧ inDomain x.agent = false)) →
    decode x.code = .ok i → step s = exec i { s with input := rest, caller := x.agent }) ∧
  (∀ (s : State) x rest e, s.input = x :: rest → (s.work = [] ∨ (x.after = 0 ∧ inDomain x.agent = false)) →
    decode x.code = .error e → step s = .next { s with
      input := rest, caller := x.agent
      history := s.history ++ [.refused (decodeReason e)], result := .refused (decodeReason e) }) ∧
  (∀ (s : State) x rest task tasks, s.input = x :: rest → s.work = task :: tasks →
    (x.after ≠ 0 ∨ inDomain x.agent = true) →
    step s = andThen
      (runTask task { s with
        input := { x with after := x.after - 1 } :: rest, work := tasks, caller := .serialized })
      fun t => .next { t with result := taskResult task }) ∧
  (∀ (s : State) task tasks, s.input = [] → s.work = task :: tasks →
    step s = andThen (runTask task { s with work := tasks, caller := .serialized })
      fun t => .next { t with result := taskResult task }) ∧
  (∀ s : State, s.input = [] → s.work = [] → step s = .next s) ∧
  (∀ (s : State) nbits w i, decodeTableWord nbits w = some i →
    step (s.withFetchWord nbits w) = exec i { s with
      caller := (agentsOf i).headD .host
      work := if inDomain ((agentsOf i).headD .host) = true then [] else s.work })

/-! ### Refusals -/

/-- R236: a refused invocation changes no state, makes no upcall and counts nothing; the model records it. The result
is the refusal, and for a submission of the host's `Dropped` (R9, R236; log entry 33). -/
def Obligations.RefusedInvocationOnlyRecorded : Prop :=
  (∀ i s t r, exec i s = .next t → t.result = .refused r →
    t = { s with history := s.history ++ [.refused r], result := .refused r }) ∧
  (∀ i s t r, exec i s = .next t → t.history = s.history ++ [.refused r] →
    t = { s with history := s.history ++ [.refused r], result := refusedResult i r })

/-- R34, R200, R236: while disabled every engine operation but ENABLE is refused, while enabled ENABLE is, and
under an ill-formed configuration everything is. What is ill-formed beyond R5 and R76 is log entry 30; that
descriptor words are refused with the rest is log entry 24; NIC.RESET, whose agent is the serialized domain, is no
engine operation here (log entries 11 and 15); a refused TX.SUBMIT answers `Dropped` (log entry 33). Inside an
operation in progress the serialized domain and the host have no other (R210 H6). -/
def Obligations.DisabledBlockRefusesAllButEnable : Prop :=
  (∀ i s, needsEnabled i = true → s.caller ∈ agentsOf i → cfgWf s.cfg = true → s.enabled = false →
    exec i s = .next { s with history := s.history ++ [.refused .disabled], result := refusedResult i .disabled }) ∧
  (∀ d s, Acting .host s → s.enabled = true →
    exec (.enable d) s = .next { s with
      history := s.history ++ [.refused .alreadyEnabled], result := .refused .alreadyEnabled }) ∧
  (∀ i s, s.caller ∈ agentsOf i → cfgWf s.cfg = false →
    exec i s = .next { s with
      history := s.history ++ [.refused .illFormedCfg], result := refusedResult i .illFormedCfg }) ∧
  (∀ i s, isFormat i = false → s.caller ∈ agentsOf i → inDomain s.caller = true → s.work ≠ [] → WorkInv s →
    PlatformInv s → exec i s = .refused .overlap)

/-! ### Invariants -/

/-- R5: no step changes the configuration; every step keeps memory in its canonical form (log entry 7). -/
def Obligations.StepKeepsConfigurationAndMemoryForm : Prop :=
  ∀ s t : State, step s = .next t → t.cfg = s.cfg ∧ (s.mem.wf → t.mem.wf)

/-- R20: at every operation boundary of an enabled block `tx_free = N_TX - ((tx_next - tx_dirty) mod N_TX)`, and
so `1 <= tx_free <= N_TX`. -/
def Obligations.StepKeepsFreeCount : Prop :=
  (∀ s t, CursorInv s → step s = .next t → CursorInv t) ∧
  (∀ s, CursorInv s → s.enabled = true →
    s.txFree = (s.cfg.nTx : Int) - (((s.txNext + s.cfg.nTx - s.txDirty) % s.cfg.nTx : Nat) : Int) ∧
    1 ≤ s.txFree ∧ s.txFree ≤ s.cfg.nTx)

/-- R26: a slot holds a handle only while its descriptor is outstanding. A RING.RECLAIM invoked by itself has no
visit action and takes no slot (log entry 20), so it is set aside. -/
def Obligations.SlotsFollowOutstandingDescriptors : Prop :=
  ∀ s t, (∀ x ∈ s.input.head?, decode x.code ≠ .ok .ringReclaim) → CursorInv s → SlotInv s → step s = .next t →
    SlotInv t

/-- R8: every step keeps each handle in one place, held by the engine, and no step frees a handle or a memory
the engine does not hold. -/
def Obligations.NoHandleIsFreedTwice : Prop :=
  (∀ s t, HandleInv s → step s = .next t → HandleInv t) ∧
  (∀ s, HandleInv s → CursorInv s → PlatformInv s → WorkInv s → step s ≠ .fault .freeNotHeld)

/-- R27, R34, R59: while enabled both rings, every receive buffer and the statistics memory are there and
Prepared; while disabled none is. -/
def Obligations.StepKeepsMemoriesPrepared : Prop :=
  ∀ s t, PlatformInv s → step s = .next t → PlatformInv t

/-- R34, R240, R251: all causes are enabled exactly while the block is, the timer runs exactly then, and a
disabled block has its link down, its queue stopped and no dump pending. What is in progress is of an enabled block
(the premise `WorkInv`, itself kept by every step: `StepKeepsWarningBelowThreshold`). -/
def Obligations.StepKeepsControlState : Prop :=
  ∀ s t, WorkInv s → ControlInv s → step s = .next t → ControlInv t

/-- R121, R153: at operation boundaries the deadlock warning counter is below the second threshold; between two steps
of one it is so too, but where the RESET.FULL that zeroes it has only closed the queue (log entry 14). And R34, R210
H6: what is in progress between two steps is an operation of an enabled block. -/
def Obligations.StepKeepsWarningBelowThreshold : Prop :=
  (∀ s t, WorkInv s → step s = .next t → WorkInv t) ∧
  (∀ s t, WorkInv s → WarnInv s → step s = .next t → WarnInv t) ∧
  (∀ s, WarnInv s → s.work = [] → s.deadlockWarn < s.cfg.dlThresh2)

/-- R19, R269: every store of the engine to `opts1` carries `EOR` on the last index of its ring and nowhere
else. -/
def Obligations.EngineStoresKeepRingEndMarker : Prop :=
  ∀ s t, WorkInv s → RingEndInv s → step s = .next t → RingEndInv t

/-- R19, R22, R27, R82, R217: the whole block in order. From any state where the memories are apart and in order,
each ring has its one ring-end marker on its last descriptor, every idle TX descriptor is the engine's and every
RX descriptor names the buffer of its slot, each step leaves such a state, in the middle of an operation too. No step
faults but by a read of freed transmit memory (U14, U15), and none does where the premises of R218 and R268 hold and
neither a direct RING.CLEAR_TX nor a NIC.TX_DONE on what the NIC remembers is invoked. A direct RING.WRITE on the RX
ring is taken with the operands the block itself gives it. What RING.WRITE may write is outstanding: log entries 34, 39
and 40 (DESIGN CHOICE). -/
def Obligations.EveryOperationKeepsTheBlockInOrder : Prop :=
  ∀ s, BlockInv s → (∀ x ∈ s.input.head?, ∀ i, decode x.code = .ok i → RxWritesRearm i s) →
    (∀ t, step s = .next t → BlockInv t) ∧
    (∀ f, step s = .fault f → f = .freedMemoryRead) ∧
    (ErratumBounded s → LinkdownTxIdle s →
      (∀ x ∈ s.input.head?, ∀ i, decode x.code = .ok i →
        i ≠ .ringClearTx ∧ ∀ n d, i = .nicTxDone n d → d.stale = none) →
      ∀ f, step s ≠ .fault f)

/-- The state after reset meets every invariant (its values that the spec leaves open: log entries 1 and 9). -/
def Obligations.ResetMeetsInvariants : Prop :=
  BlockInv State.reset ∧ SlotInv State.reset ∧ WarnInv State.reset ∧ RingEndInv State.reset

/-! ### Who may touch what -/

/-- R29: only LINK.UP, LINK.DOWN (and the tick that invokes them), ENABLE and DISABLE write `link`. LINK.DOWN does so
in the rest it leaves for its second step (log entry 14), which nothing but LINK.DOWN and the tick leaves. -/
def Obligations.OnlyMonitorAndControlWriteLink : Prop :=
  (∀ i s t, exec i s = .next t →
    (t.link ≠ s.link → (∃ p, i = .linkUp p) ∨ (∃ v, i = .timerTick v) ∨ (∃ d, i = .enable d) ∨ i = .disable) ∧
    (.linkDownRest ∈ t.work → .linkDownRest ∈ s.work ∨ i = .linkDown ∨ ∃ v, i = .timerTick v)) ∧
  (∀ x s t, runTask x s = .next t →
    (t.link ≠ s.link → x = .linkDownRest) ∧ (.linkDownRest ∈ t.work → .linkDownRest ∈ s.work))

/-- R36, R58: what the submitter may touch. It never clears `tx_stalled`, never takes a slot away, stores to no
byte outside the TX ring and reaches no register but the doorbell. -/
def Obligations.SubmitterStaysInItsPart : Prop :=
  ∀ i s t, isSubmitterOp i = true → s.mem.wf → CursorInv s → exec i s = .next t →
    t = { s with
      mem := t.mem, history := t.history, result := t.result
      txNext := t.txNext, txFree := t.txFree, txUnsubmitted := t.txUnsubmitted, txSlot := t.txSlot
      txStalled := t.txStalled, ctrTxDrops := t.ctrTxDrops, heldPackets := t.heldPackets } ∧
    (s.txStalled = true → t.txStalled = true) ∧
    (∀ j, s.txPkt j ≠ none → t.txPkt j ≠ none) ∧
    (∀ a, ¬ s.inRing .tx a → t.mem.read a = s.mem.read a) ∧
    (∃ l, t.history = s.history ++ l ∧ ∀ e ∈ l, isRegAccess e = false)

/-- R36, R215: a step of the NIC touches DMA memory, its pending causes, its erratum window and what it has
observed; nothing of the engine. -/
def Obligations.NicStepsLeaveTheEngineAlone : Prop :=
  ∀ i s t, isNicStep i = true → exec i s = .next t →
    t = { s with
      mem := t.mem, history := t.history, result := t.result
      irqPending := t.irqPending, nicTxBusy := t.nicTxBusy, nicSeen := t.nicSeen }

/-- R30, R238: each counter counts exactly the raised causes the history records for it, whoever runs, and only the
operations R238 names raise them, one a step; no counter is cleared but by the first ENABLE. -/
def Obligations.CountersOnlyCountUp : Prop :=
  (∀ i s t, exec i s = .next t → ((∃ d, i = .enable d) → s.everEnabled = true) →
    ∃ l, CountsWhatItRaises s t l ∧
      (raisedOf l .resourceExhaustion .rxFragmented ≠ 0 →
        raisedOf l .resourceExhaustion .rxFragmented = 1 ∧ ∃ d, i = .rxIrq d) ∧
      raisedOf l .missedInterrupt .txDeadlock ≤ (if i = .txDlchk then 1 else 0) ∧
      (l.count (.raised .busError) ≠ 0 → l.count (.raised .busError) = 1 ∧ ∃ d, i = .irq d) ∧
      (raisedOf l .unsupportedOffload .tooManySegments ≠ 0 →
        raisedOf l .unsupportedOffload .tooManySegments = 1 ∧ ∃ p, i = .txSubmit p)) ∧
  (∀ x s t, runTask x s = .next t →
    ∃ l, CountsWhatItRaises s t l ∧
      (raisedOf l .resourceExhaustion .rxFragmented ≠ 0 →
        raisedOf l .resourceExhaustion .rxFragmented = 1 ∧ ∃ d, x = .rxNext d) ∧
      raisedOf l .missedInterrupt .txDeadlock ≤ (if x = .tickCheck then 1 else 0) ∧
      l.count (.raised .busError) = 0 ∧ raisedOf l .unsupportedOffload .tooManySegments = 0)

/-! ### The descriptor ring -/

/-- R110: RING.ALLOC. -/
def Obligations.RingAllocAdvancesOrStalls : Prop :=
  ∀ n s, Ready .submitter s →
    (n = 0 ∨ s.cfg.kMaxSegs < n → exec (.ringAlloc n) s = .next { s with
      history := s.history ++ [.refused .operandRange], result := .refused .operandRange }) ∧
    (1 ≤ n → n ≤ s.cfg.kMaxSegs → s.txFree ≤ n → exec (.ringAlloc n) s = .next { s with
      history := s.history ++ [.raised .backpressure], result := .stall }) ∧
    (1 ≤ n → n ≤ s.cfg.kMaxSegs → n < s.txFree → s.txFree ≤ s.cfg.nTx → exec (.ringAlloc n) s = .next { s with
      txNext := (s.txNext + n) % s.cfg.nTx
      txFree := s.txFree - n
      txUnsubmitted := s.txUnsubmitted ++ (List.range n).map fun j => (s.txNext + j) % s.cfg.nTx
      result := .first s.txNext })

/-- R111: what a successful RING.ALLOC hands out was free, is outstanding, and is the engine's. -/
def Obligations.RingAllocHandsOutFreeDescriptors : Prop :=
  ∀ (n : Nat) s, Ready .submitter s → CursorsOk s → RingsOk s → 1 ≤ n → n ≤ s.cfg.kMaxSegs → (n : Int) < s.txFree →
    ∃ t, exec (.ringAlloc n) s = .next t ∧ t.result = .first s.txNext ∧
      ∀ j < n, ¬ isOutstanding s ((s.txNext + j) % s.cfg.nTx) ∧ isOutstanding t ((s.txNext + j) % s.cfg.nTx) ∧
        t.nicOwned .tx ((s.txNext + j) % s.cfg.nTx) = false

/-- R112: RING.WRITE writes the three fields in order, ownership last behind a release, and refuses a descriptor
that is the NIC's, one that is not allocated and unsubmitted, and operands out of range: an index, a length, or (R91;
log entry 32, DEDUCED) a flag bit that is no command bit of the ring's format. Which TX indices count as allocated and
unsubmitted is the model's choice: a write that gives an index to the NIC takes that index, and no other, out of them
(log entry 39, DESIGN CHOICE), as do a reclaim pass and a ring clear (log entries 34 and 40, DESIGN CHOICE). -/
def Obligations.RingWriteStoresOwnershipLast : Prop :=
  ∀ ring index seg flags1 flags2 own s, s.caller ∈ agentsOf (.ringWrite ring index seg flags1 flags2 own) →
    (ring = .rx → s.work = []) →
    cfgWf s.cfg = true → s.enabled = true → (ring = .tx → TxUsable s) → (ring = .rx → RxUsable s) → s.mem.wf →
    let len := lenField s.cfg ring
    let inRange := index < ringSize s.cfg ring ∧ 1 ≤ seg.len ∧ seg.len ≤ 2 ^ len.w - 1 ∧
      CommandBits s.cfg ring flags1 flags2
    let e := eorOn s.cfg ring index
    let w2 := e ||| putField len seg.len
    let w3 := e ||| flags1 ||| putField len seg.len
    let w4 := bit s.cfg.layout.own ||| w3
    (inRange → s.nicOwned ring index = false → (ring = .tx → index ∈ s.txUnsubmitted) →
      ∃ t, exec (.ringWrite ring index seg flags1 flags2 own) s = .next t ∧
        t.descBuf ring index = seg.addr ∧ t.desc32 ring index .opts2 = flags2 ∧
        t.desc32 ring index .opts1 = (if own then w4 else w3) ∧
        (∀ a, ¬ s.inDesc ring index a → t.mem.read a = s.mem.read a) ∧
        t = { s with
          mem := t.mem
          txUnsubmitted := if ring = .tx ∧ own = true then s.txUnsubmitted.filter (· != index) else s.txUnsubmitted
          history := s.history ++ [.descWrite ring index .addr seg.addr, .descWrite ring index .opts1 (w2.setWidth 64),
            .descWrite ring index .opts2 (flags2.setWidth 64), .descWrite ring index .opts1 (w3.setWidth 64)] ++
            (if own then [.release, .descWrite ring index .opts1 (w4.setWidth 64)] else [])
          result := .none }) ∧
    (inRange → s.nicOwned ring index = true → exec (.ringWrite ring index seg flags1 flags2 own) s = .next { s with
      history := s.history ++ [.refused .nicOwned], result := .refused .nicOwned }) ∧
    (inRange → s.nicOwned ring index = false → ring = .tx → index ∉ s.txUnsubmitted →
      exec (.ringWrite ring index seg flags1 flags2 own) s = .next { s with
        history := s.history ++ [.refused .notAllocated], result := .refused .notAllocated }) ∧
    (¬ inRange → exec (.ringWrite ring index seg flags1 flags2 own) s = .next { s with
      history := s.history ++ [.refused .operandRange], result := .refused .operandRange })

/-- R114, R115: RING.RECLAIM reports the completed descriptors from `tx_dirty` up, in order and without gaps, and
stores to none of them. Invoked by itself it has no visit action (log entry 20). -/
def Obligations.RingReclaimReportsCompletedInOrder : Prop :=
  ∀ s, Ready .serialized s → TxUsable s → CursorsOk s →
    ∃ n t, PassTakes s n ∧ exec .ringReclaim s = .next t ∧
      t.result = .indices ((List.range n).map fun j => (s.txDirty + j) % s.cfg.nTx) ∧
      t.txDirty = (s.txDirty + n) % s.cfg.nTx ∧ t.txFree = s.txFree + n ∧
      t.txDoneCount = counted s.cfg s.txDoneCount n ∧
      (∃ l, t.history = s.history ++ l ∧ ∀ e ∈ l, isStore e = false) ∧
      t = { s with
        txDirty := t.txDirty, txFree := t.txFree, txDoneCount := t.txDoneCount, txUnsubmitted := t.txUnsubmitted
        history := t.history, result := t.result }

/-- R116: RING.CLEAR_TX scrubs every TX descriptor but the ring-end marker, frees every packet and re-establishes
the transmit registers. With the queue running it is refused. That the NIC keeps all it had read is log entry 8
(DEDUCED; R268). A packet the NIC is still reading must not be freed (R33 (a)); that the freeing step itself is the
fault of U14 and U15 is log entry 28 (DEDUCED). That no index allocated before the clear may be written by RING.WRITE
after it is log entry 40 (DESIGN CHOICE). -/
def Obligations.RingClearTxEmptiesTheRing : Prop :=
  ∀ s, Ready .serialized s → TxUsable s → s.mem.wf →
    (s.txqEnabled = true → exec .ringClearTx s = .next { s with
      history := s.history ++ [.refused .precondition], result := .refused .precondition }) ∧
    (s.txqEnabled = false → s.txSlot.length = s.cfg.nTx → HandleInv s →
      (¬ NothingBusy s → exec .ringClearTx s = .fault .freedMemoryRead) ∧
      (NothingBusy s →
        ∃ t l, exec .ringClearTx s = .next t ∧ (∀ i < s.cfg.nTx, ClearedAt t i ∧ t.txPkt i = none) ∧
          (∀ a, ¬ s.inRing .tx a → t.mem.read a = s.mem.read a) ∧
          t.history = s.history ++ l ∧ freedPackets l = packetsIn s ∧
          (∀ h, t.holdsPacket h = (s.holdsPacket h && decide (h ∉ packetsIn s))) ∧ RemembersCleared s t .tx ∧
          t = { s with
            mem := t.mem, history := t.history, heldPackets := t.heldPackets, txSlot := t.txSlot, nicSeen := t.nicSeen
            txPending := none, txNext := 0, txDirty := 0, txFree := s.cfg.nTx, txStalled := false
            txDoneCount := 0, txDoneLast := 0, deadlockWarn := 0, txUnsubmitted := [], result := .none }))

/-- R117, R82: RING.CLEAR_RX arms every RX descriptor with the buffer it already has. The NIC keeps what it had read
(log entry 8). -/
def Obligations.RingClearRxArmsTheRing : Prop :=
  ∀ s, Ready .serialized s → RxUsable s → s.mem.wf →
    ∃ t, exec .ringClearRx s = .next t ∧ (∀ i < s.cfg.nRx, ArmedAt t i) ∧
      (∀ a, ¬ s.inRing .rx a → t.mem.read a = s.mem.read a) ∧ RemembersCleared s t .rx ∧
      t = { s with mem := t.mem, history := t.history, nicSeen := t.nicSeen, rxIndex := 0, result := .none }

/-! ### Segmenter and encoder -/

/-- R126: SEG.TX is its pseudocode, and changes nothing but the result. -/
def Obligations.SegTxFollowsItsLoop : Prop :=
  ∀ regions s, Ready .submitter s →
    ((∀ r ∈ regions, r.pa.toNat + r.len ≤ 2 ^ 64 ∧ r.len ≤ 2 ^ s.cfg.layout.txlen.w - 1) →
      exec (.segTx regions) s = .next { s with
        result := match segmentsOf s.cfg.kMaxSegs (2 ^ s.cfg.layout.txlen.w - 1) regions with
          | some segs => .segs segs
          | none => .tooManySegments }) ∧
    ((∃ r ∈ regions, 2 ^ 64 < r.pa.toNat + r.len ∨ 2 ^ s.cfg.layout.txlen.w - 1 < r.len) →
      exec (.segTx regions) s = .next { s with
        history := s.history ++ [.refused .operandRange], result := .refused .operandRange })

/-- R129: SEG.RX is the same loop for one segment that must hold `RX_BUF_SIZE` bytes. The operand's range is
that of R125 (log entry 19). -/
def Obligations.SegRxYieldsOneLargeSegment : Prop :=
  ∀ regions s, Ready .serialized s →
    ((∀ r ∈ regions, r.pa.toNat + r.len ≤ 2 ^ 64 ∧ r.len ≤ 2 ^ s.cfg.layout.txlen.w - 1) →
      exec (.segRx regions) s = .next { s with
        result := match segmentsOf 1 (2 ^ s.cfg.layout.rxlen.w - 1) regions with
          | some [seg] => if s.cfg.rxBufSize ≤ seg.len then .seg seg else .tooManySegments
          | _ => .tooManySegments }) ∧
    ((∃ r ∈ regions, 2 ^ 64 < r.pa.toNat + r.len ∨ 2 ^ s.cfg.layout.txlen.w - 1 < r.len) →
      exec (.segRx regions) s = .next { s with
        history := s.history ++ [.refused .operandRange], result := .refused .operandRange })

/-- R127: what `Ok(segs)` of SEG.TX guarantees. `groups` are the regions, the empty ones left out, segment by
segment. -/
def Obligations.SegmentsCoverTheRegions : Prop :=
  ∀ regions s t segs, exec (.segTx regions) s = .next t → t.result = .segs segs →
    segs.length ≤ s.cfg.kMaxSegs ∧
    (∀ g ∈ segs, 1 ≤ g.len ∧ g.len ≤ 2 ^ s.cfg.layout.txlen.w - 1) ∧
    segs.flatMap (fun g => runOf g.addr g.len) = regions.flatMap (fun r => runOf r.pa r.len) ∧
    ∃ groups : List (List Region),
      groups.flatten = regions.filter (fun r => r.len != 0) ∧
      groups.map (fun g => g.flatMap fun r => runOf r.pa r.len) = segs.map (fun g => runOf g.addr g.len) ∧
      ∀ k (hk : k + 1 < segs.length), segs[k].addr.toNat + segs[k].len = (segs[k + 1]).addr.toNat →
        ∃ first rest, groups[k + 1]? = some (first :: rest) ∧ first.pa = (segs[k + 1]).addr ∧
          2 ^ s.cfg.layout.txlen.w - 1 < segs[k].len + first.len

/-- R136, R137, R138, R139: the three encoders. -/
def Obligations.EncodersGiveTheirCommandBits : Prop :=
  ∀ off vlan s, Ready .submitter s →
    let l := s.cfg.layout
    let mss := BitVec.ofNat 32 off.mss
    (OffloadUnsupported s.cfg off →
      exec (.encV1 off) s = .next { s with result := .unsupported } ∧
      exec (.encV2 off) s = .next { s with result := .unsupported }) ∧
    (¬ OffloadUnsupported s.cfg off → off.tso = true →
      exec (.encV1 off) s = .next { s with result := .cmd ⟨bit l.lgsen ||| mss <<< l.mss1.lo, 0#32⟩ } ∧
      exec (.encV2 off) s = .next { s with result := .cmd ⟨bit l.lgsen, mss <<< l.mss2.lo⟩ }) ∧
    (¬ OffloadUnsupported s.cfg off → off.tso = false →
      exec (.encV1 off) s = .next { s with result := .cmd ⟨(if off.ip then bit l.ipcs1 else 0#32) |||
        (if off.udp then bit l.udpcs1 else 0#32) ||| (if off.tcp then bit l.tcpcs1 else 0#32), 0#32⟩ } ∧
      exec (.encV2 off) s = .next { s with result := .cmd ⟨0#32, (if off.udp then bit l.udpcs2 else 0#32) |||
        (if off.tcp then bit l.tcpcs2 else 0#32) ||| (if off.ip then bit l.ipcs2 else 0#32)⟩ }) ∧
    (exec (.encVlan vlan) s = .next { s with result := .word (match vlan with
      | none => 0#32
      | some tci => bit l.txvtag |||
          ((if l.vlanSwapped then tci.extractLsb' 0 8 ++ tci.extractLsb' 8 8 else tci).setWidth 32) <<< l.vlan.lo) })

/-- R76, R136, R137, R140: command bits stay off the ownership, ring-end, first, last and length bits of `opts1`,
and off the VLAN bits of `opts2`; so `FS`, `LS`, the length and the tag of a descriptor read back as written. -/
def Obligations.CommandBitsStayInTheirFields : Prop :=
  ∀ c off cmd vlan, cfgWf c = true → encodeOffload c off = some cmd →
    cmd.cmd1 &&& (bit c.layout.own ||| bit c.layout.eor ||| bit c.layout.fs ||| bit c.layout.ls |||
      fieldMask c.layout.txlen) = 0#32 ∧
    cmd.cmd2 &&& encodeVlan c vlan = 0#32

/-! ### Transmit -/

/-- R140, R145: a packet that passes every check is written, one descriptor a segment, and submitted. -/
def Obligations.TxSubmitWritesThePacket : Prop :=
  ∀ (p : Packet) segs cmd s, Ready .submitter s → TxUsable s → CursorsOk s → s.mem.wf →
    s.link.up = true → s.txqEnabled = true → regionsOk s.cfg p.regions = true → s.holdsPacket p.h = false →
    segmentTx s.cfg p.regions = some segs → segs ≠ [] → encodeOffload s.cfg p.off = some cmd →
    (segs.length : Int) < s.txFree →
    let n := segs.length
    let at' := fun j => (s.txNext + j) % s.cfg.nTx
    ∃ t, exec (.txSubmit p) s = .next t ∧ t.result = .success ∧
      t.txNext = at' n ∧ t.txFree = s.txFree - n ∧
      (∀ i, t.txPkt i = if i = at' (n - 1) then some p.h else s.txPkt i) ∧ t.holdsPacket p.h = true ∧
      (∀ j (hj : j < n), t.descBuf .tx (at' j) = segs[j].addr ∧
        t.desc32 .tx (at' j) .opts2 = cmd.cmd2 ||| encodeVlan s.cfg p.vlan ∧
        t.desc32 .tx (at' j) .opts1 = bit s.cfg.layout.own ||| (eorOn s.cfg .tx (at' j) |||
          (cmd.cmd1 ||| flagIf (j == 0) s.cfg.layout.fs ||| flagIf (j + 1 == n) s.cfg.layout.ls) |||
          putField s.cfg.layout.txlen segs[j].len)) ∧
      (∀ a, (∀ j < n, ¬ s.inDesc .tx (at' j) a) → t.mem.read a = s.mem.read a) ∧
      t = { s with
        mem := t.mem, history := t.history, txNext := t.txNext, txFree := t.txFree, txSlot := t.txSlot
        txUnsubmitted := t.txUnsubmitted, heldPackets := t.heldPackets, result := .success }

/-- R147: the first descriptor's ownership is the last store of TX.SUBMIT to DMA memory, behind a release; it adds
`OWN` to the word written before and changes no other bit; and one doorbell follows it. -/
def Obligations.TxSubmitOwnsFirstDescriptorLast : Prop :=
  ∀ (p : Packet) s t, s.mem.wf → CursorsOk s → exec (.txSubmit p) s = .next t → t.result = .success →
    ∃ pre w, t.history = s.history ++ pre ++ [.release, .descWrite .tx s.txNext .opts1
        ((bit s.cfg.layout.own ||| w).setWidth 64), .doorbell s.cfg.reg.txDoorbell s.cfg.reg.doorbellValue] ∧
      flag w s.cfg.layout.own = false ∧ .descWrite .tx s.txNext .opts1 (w.setWidth 64) ∈ pre ∧
      (∀ e ∈ pre, handsOver s.cfg .tx s.txNext e = false) ∧
      (∀ off v, .doorbell off v ∉ pre) ∧
      t.desc32 .tx s.txNext .opts1 = bit s.cfg.layout.own ||| w

/-- R145 step 1, R146, R234, R245: a packet is dropped, in this order of precedence, for the link, its segments,
its offload request; it is freed and, but for the link, counted; nothing else changes. Where the mapping of the packet
is prepared and completed is log entry 23 (DEDUCED; R59). A region out of R125's range is refused, which is recorded,
answers `Dropped` and frees nothing (R236; log entry 33); that it comes before the link is log entry 36 (DESIGN
CHOICE). A handle the engine has already is one the host cannot submit (R8, U3). -/
def Obligations.TxSubmitDropsAndFrees : Prop :=
  ∀ (p : Packet) s, Ready .submitter s → TxUsable s →
    ((∃ r ∈ p.regions, 2 ^ 64 < r.pa.toNat + r.len ∨ 2 ^ s.cfg.layout.txlen.w - 1 < r.len) →
      exec (.txSubmit p) s = .next { s with
        history := s.history ++ [.refused .operandRange], result := .dropped }) ∧
    (regionsOk s.cfg p.regions = true → s.holdsPacket p.h = true → exec (.txSubmit p) s = .refused .hostNotHolder) ∧
    (regionsOk s.cfg p.regions = true → s.holdsPacket p.h = false →
    ((s.link.up = false ∨ s.txqEnabled = false) → exec (.txSubmit p) s = .next { s with
      history := s.history ++ [.raised .linkDownDrop, .freePacket p.h], result := .dropped }) ∧
    (s.link.up = true → s.txqEnabled = true → (segmentTx s.cfg p.regions = none ∨ segmentTx s.cfg p.regions = some []) →
      exec (.txSubmit p) s = .next { s with
        ctrTxDrops := (s.ctrTxDrops + 1) % 2 ^ s.cfg.ctrW
        history := s.history ++ [.dmaPrepare (.packet p.h), .raised .tooManySegments, .dmaComplete (.packet p.h),
          .freePacket p.h]
        result := .dropped }) ∧
    (∀ segs, s.link.up = true → s.txqEnabled = true → segmentTx s.cfg p.regions = some segs → segs ≠ [] →
      OffloadUnsupported s.cfg p.off → exec (.txSubmit p) s = .next { s with
        ctrTxDrops := (s.ctrTxDrops + 1) % 2 ^ s.cfg.ctrW
        history := s.history ++ [.dmaPrepare (.packet p.h), .raised .unsupportedOffload, .dmaComplete (.packet p.h),
          .freePacket p.h]
        result := .dropped }))

/-- R145 step 4, R231: without enough free descriptors TX.SUBMIT stalls: the queue is marked stalled, the packet
stays the host's, and no descriptor is written. That its mapping is completed before it goes back is log entry 23
(DEDUCED; R59). -/
def Obligations.TxSubmitStallsWithoutSpace : Prop :=
  ∀ (p : Packet) segs cmd s, Ready .submitter s → TxUsable s → regionsOk s.cfg p.regions = true →
    s.holdsPacket p.h = false → s.link.up = true → s.txqEnabled = true → segmentTx s.cfg p.regions = some segs →
    segs ≠ [] → encodeOffload s.cfg p.off = some cmd → s.txFree ≤ segs.length →
    exec (.txSubmit p) s = .next { s with
      txStalled := true
      history := s.history ++ [.dmaPrepare (.packet p.h), .raised .backpressure, .dmaComplete (.packet p.h)]
      result := .stall }

/-- R149, R150, R151, R152: TX.IRQ reclaims what is completed; each visit frees the held-back packet and the
packet of the last visit, if it ends one, is held back in turn; it un-stalls above `K_MAX_SEGS` and rings the
doorbell exactly when it reclaimed something. Said of the whole pass with no step of another agent in it; its first
step completes by itself (log entry 14). A round that visits a completed descriptor while the NIC still reads the
held-back packet is the read of freed memory (R33 (a), U14), and the model's fault stands at that free (log entry 28,
DEDUCED): the first round, and any later one. -/
def Obligations.TxIrqHoldsBackTheLastPacket : Prop :=
  (∀ k old s h, s.txPending = some h → s.nicTxBusy = some h → s.nicOwned .tx s.txDirty = false →
    runTask (.txScan (k + 1) old) s = .fault .freedMemoryRead) ∧
  ∀ s, Ready .serialized s → TxUsable s → CursorsOk s → HandleInv s →
    (∀ h, s.txPending = some h → s.nicTxBusy = some h → 1 ≤ outstanding s → s.nicOwned .tx s.txDirty = false →
      exec .txIrq s = .fault .freedMemoryRead) ∧
    (ErratumBounded s → ∃ u, exec .txIrq s = .next u) ∧
    (NothingBusy s → ∃ n t l, PassTakes s n ∧ execWhole s.cfg.nTx .txIrq s = .next t ∧ t.history = s.history ++ l ∧
      t.txDirty = (s.txDirty + n) % s.cfg.nTx ∧ t.txFree = s.txFree + n ∧
      t.txDoneCount = counted s.cfg s.txDoneCount n ∧
      (∀ i, t.txPkt i = if ∃ j < n, i = (s.txDirty + j) % s.cfg.nTx then none else s.txPkt i) ∧
      t.txPending = (if n = 0 then s.txPending else s.txPkt ((s.txDirty + (n - 1)) % s.cfg.nTx)) ∧
      freedPackets l = (if n = 0 then [] else s.txPending.toList ++
        (List.range (n - 1)).filterMap fun j => s.txPkt ((s.txDirty + j) % s.cfg.nTx)) ∧
      (∀ h, t.holdsPacket h = (s.holdsPacket h && decide (h ∉ freedPackets l))) ∧
      t.txStalled = (s.txStalled && decide (s.txFree + n ≤ s.cfg.kMaxSegs)) ∧
      (.resumeQueue ∈ l ↔ s.txStalled = true ∧ s.cfg.kMaxSegs < s.txFree + n) ∧
      l.count (.doorbell s.cfg.reg.txDoorbell s.cfg.reg.doorbellValue) = (if n = 0 then 0 else 1) ∧
      (∀ e ∈ l, isStore e = false) ∧
      t = { s with
        txDirty := t.txDirty, txFree := t.txFree, txDoneCount := t.txDoneCount, txSlot := t.txSlot
        txPending := t.txPending, heldPackets := t.heldPackets, txStalled := t.txStalled
        txUnsubmitted := t.txUnsubmitted, history := t.history, result := .none })

/-- R153: TX.DLCHK. The counter is `CTR_W` bits wide (R121). At the first threshold it leaves the forced TX.IRQ and
the snapshot behind it as the next two tasks (log entry 14); the reset is RESET.FULL itself, begun in the same step and
left to end in the next, behind which it returns `DidReset`. `InitUsable`: the statistics memory is Prepared where
RESET.FULL passes its address (R57, R59; log entry 41, DESIGN CHOICE). -/
def Obligations.DeadlockCheckEscalates : Prop :=
  (∀ s, Ready .serialized s → TxUsable s → RxUsable s → InitUsable s →
    let idle := s.txDoneCount = s.txDoneLast ∧ s.txFree < s.cfg.nTx
    let warn := (s.deadlockWarn + 1) % 2 ^ s.cfg.ctrW
    (¬ idle → exec .txDlchk s = .next { s with
      deadlockWarn := 0, txDoneLast := s.txDoneCount, result := .noReset }) ∧
    (idle → warn ≠ s.cfg.dlThresh1 → warn ≠ s.cfg.dlThresh2 → exec .txDlchk s = .next { s with
      deadlockWarn := warn, txDoneLast := s.txDoneCount, result := .noReset }) ∧
    (idle → warn = s.cfg.dlThresh1 → exec .txDlchk s = .next { s with
      deadlockWarn := warn, ctrTimeouts := (s.ctrTimeouts + 1) % 2 ^ s.cfg.ctrW
      history := s.history ++ [.raised .missedInterrupt]
      work := [.txBegin, .dlSnapshot], result := .noReset }) ∧
    (idle → warn = s.cfg.dlThresh2 → exec .txDlchk s = .next { s with
      deadlockWarn := warn, ctrResets := (s.ctrResets + 1) % 2 ^ s.cfg.ctrW
      history := s.history ++ [.raised .txDeadlock], txqEnabled := false
      work := [.resetRest .didReset], result := .didReset })) ∧
  (∀ s, Ready .serialized s → TxUsable s → RxUsable s → InitUsable s → exec .resetFull s = .next { s with
    txqEnabled := false, work := [.resetRest .none], result := .none }) ∧
  (∀ ends s, runTask (.resetRest ends) s = runTask (.resetRest .none) s ∧ taskResult (.resetRest ends) = ends) ∧
  (∀ s, Ready .serialized s → TxUsable s →
    exec .txIrq s = andThen (runTask .txBegin s) fun t => .next { t with result := .none }) ∧
  (∀ s, runTask .dlSnapshot s = .next { s with txDoneLast := s.txDoneCount } ∧ taskResult .dlSnapshot = .noReset)

/-! ### Receive -/

/-- R165, R168: a pass that finds nothing changes nothing; a fragment is counted, not delivered, and its
descriptor re-armed with the buffer it has. One iteration is one step, the next a task (R167; log entry 14); the
acquisitions the invocation brings are kept for the good frames of the pass (log entry 5). One of them with a region
out of R125's range is refused with the invocation (R236, U4; log entry 37, DESIGN CHOICE). -/
def Obligations.RxIrqRecyclesFragments : Prop :=
  (∀ draws s, Ready .serialized s → RxUsable s → ¬ DrawsInRange s.cfg draws → exec (.rxIrq draws) s = .next { s with
    history := s.history ++ [.refused .operandRange], result := .refused .operandRange }) ∧
  ∀ draws s, Ready .serialized s → RxUsable s → s.mem.wf → s.rxIndex < s.cfg.nRx → DrawsInRange s.cfg draws →
    (s.nicOwned .rx s.rxIndex = true → exec (.rxIrq draws) s = .next { s with
      acquisitions := draws, history := s.history ++ [.descRead .rx s.rxIndex .opts1], result := .none }) ∧
    (s.nicOwned .rx s.rxIndex = false → fragmented s.cfg.layout (s.desc32 .rx s.rxIndex .opts1) = true →
      ∃ t l, exec (.rxIrq draws) s = .next t ∧ RearmedFrom s t ∧ t.history = s.history ++ l ∧
        .raised .rxFragmented ∈ l ∧ deliveries l = [] ∧ .flushInputQueue ∉ l ∧
        t = { s with
          mem := t.mem, history := t.history, rxIndex := t.rxIndex, work := [.rxNext false], acquisitions := draws
          ctrFrameTooLong := (s.ctrFrameTooLong + 1) % 2 ^ s.cfg.ctrW, result := .none })

/-- R129, R170: when no usable buffer is acquired, the frame is dropped and counted, and the descriptor re-armed
with the buffer it has. The draw is the first the invocation brings, a failed one when there is none (log entry
5); a copy buffer too small for the frame is the model's failed one (log entry 38, DESIGN CHOICE). -/
def Obligations.RxIrqSurvivesFailedAcquisition : Prop :=
  ∀ draws a s, Ready .serialized s → RxUsable s → s.mem.wf → s.rxIndex < s.cfg.nRx →
    s.nicOwned .rx s.rxIndex = false → GoodFrame s s.rxIndex → DrawsInRange s.cfg draws → draws.headD .failed = a →
    (a = .failed ∨ (∃ h regions, a = .replaced h regions ∧ h ∉ s.heldBuffers ∧ segmentRx s.cfg regions = none) ∨
      ∃ h size, a = .copied h size ∧ size < frameLen s s.rxIndex) →
    ∃ t l, exec (.rxIrq draws) s = .next t ∧ RearmedFrom s t ∧ t.history = s.history ++ l ∧
      .raised .resourceExhaustion ∈ l ∧ deliveries l = [] ∧ .flushInputQueue ∉ l ∧
      t = { s with
        mem := t.mem, history := t.history, rxIndex := t.rxIndex, work := [.rxNext false]
        acquisitions := draws.tail
        ctrResourceErrors := (s.ctrResourceErrors + 1) % 2 ^ s.cfg.ctrW, result := .none }

/-- R172, R174: the filled buffer is delivered and leaves the engine, the fresh one takes its slot, and the pass goes
on owing a flush. A handle the engine holds, or memory that is live, is one the allocator cannot hand out (R57, R171,
R210 H8, U3). -/
def Obligations.RxIrqReplacesTheBuffer : Prop :=
  (∀ h regions acqs s, Ready .serialized s → RxUsable s → s.rxIndex < s.cfg.nRx → s.nicOwned .rx s.rxIndex = false →
    GoodFrame s s.rxIndex → DrawsInRange s.cfg (.replaced h regions :: acqs) →
    (h ∈ s.heldBuffers ∨ ∃ seg, segmentRx s.cfg regions = some seg ∧
      ∃ m ∈ liveMems s, ¬ memsApart ⟨seg.addr, seg.len, .prepared⟩ m) →
    exec (.rxIrq (.replaced h regions :: acqs)) s = .refused .unlawfulDraw) ∧
  ∀ h regions acqs seg old s, Ready .serialized s → RxUsable s → s.mem.wf → s.rxIndex < s.cfg.nRx →
    s.nicOwned .rx s.rxIndex = false → GoodFrame s s.rxIndex →
    s.rxBuf s.rxIndex = some old → h ∉ s.heldBuffers → DrawsInRange s.cfg (.replaced h regions :: acqs) →
    segmentRx s.cfg regions = some seg → (∀ m ∈ liveMems s, memsApart ⟨seg.addr, seg.len, .prepared⟩ m) →
    ∃ t l, exec (.rxIrq (.replaced h regions :: acqs)) s = .next t ∧ RearmedFrom s t ∧ t.history = s.history ++ l ∧
      deliveries l = [(old.h, frameLen s s.rxIndex, frameOpts s s.rxIndex)] ∧ .flushInputQueue ∉ l ∧
      .dmaPrepare (.buffer h) ∈ l ∧ .dmaComplete (.buffer old.h) ∈ l ∧
      t = { s with
        mem := t.mem, history := t.history, rxIndex := t.rxIndex, work := [.rxNext true], acquisitions := acqs
        rxSlot := s.rxSlot.set s.rxIndex (some ⟨h, ⟨seg.addr, seg.len, .prepared⟩⟩)
        heldBuffers := (h :: s.heldBuffers).erase old.h, result := .none }

/-- R173, R174: the frame's bytes are copied and the copy delivered; the descriptor keeps its buffer, and the pass
goes on owing a flush. A handle the engine holds is none the allocator can hand out (R171, R210 H8, U3). -/
def Obligations.RxIrqCopiesTheFrame : Prop :=
  (∀ h size acqs s, Ready .serialized s → RxUsable s → s.rxIndex < s.cfg.nRx → s.nicOwned .rx s.rxIndex = false →
    GoodFrame s s.rxIndex → DrawsInRange s.cfg acqs → frameLen s s.rxIndex ≤ size → h ∈ s.heldBuffers →
    exec (.rxIrq (.copied h size :: acqs)) s = .refused .unlawfulDraw) ∧
  ∀ h size acqs old s, Ready .serialized s → RxUsable s → s.mem.wf → s.rxIndex < s.cfg.nRx →
    s.nicOwned .rx s.rxIndex = false → GoodFrame s s.rxIndex →
    s.rxBuf s.rxIndex = some old → h ∉ s.heldBuffers → DrawsInRange s.cfg acqs → frameLen s s.rxIndex ≤ size →
    ∃ t l, exec (.rxIrq (.copied h size :: acqs)) s = .next t ∧ RearmedFrom s t ∧ t.history = s.history ++ l ∧
      deliveries l = [(h, frameLen s s.rxIndex, frameOpts s s.rxIndex)] ∧ .flushInputQueue ∉ l ∧
      (∃ bytes, t.hostBufs = (h, bytes) :: s.hostBufs.filter (·.1 != h) ∧ bytes.length = frameLen s s.rxIndex ∧
        ∀ k (hk : k < bytes.length), bytes[k] = s.mem.read (old.mem.addr.toNat + k)) ∧
      t = { s with
        mem := t.mem, history := t.history, rxIndex := t.rxIndex, work := [.rxNext true], acquisitions := acqs
        hostBufs := t.hostBufs, result := .none }

/-- R169, U6: RX.IRQ has no behaviour for a whole frame no longer than its check sequence or longer than its
buffer: the machine faults. -/
def Obligations.RxIrqFaultsOnBadLength : Prop :=
  ∀ draws s, Ready .serialized s → RxUsable s → DrawsInRange s.cfg draws → s.nicOwned .rx s.rxIndex = false →
    fragmented s.cfg.layout (s.desc32 .rx s.rxIndex .opts1) = false →
    (getField s.cfg.layout.rxlen (s.desc32 .rx s.rxIndex .opts1) ≤ s.cfg.fcsLen ∨
      s.cfg.rxBufSize < getField s.cfg.layout.rxlen (s.desc32 .rx s.rxIndex .opts1)) →
    exec (.rxIrq draws) s = .fault .rxLength

/-- R165, R167, R174: whatever other agents do between two iterations, an iteration ends the pass exactly where it
reads a NIC-owned descriptor, with one flush if the pass delivered something, and else handles one descriptor and
goes on. A whole pass with nothing in between delivers in ring order, and flushes once, as its last event, if it
delivered anything. -/
def Obligations.RxPassEndsAtNicOwnedDescriptor : Prop :=
  (∀ d rest s t, s.work = .rxNext d :: rest → goOn s = .next t →
    (s.nicOwned .rx s.rxIndex = true ∧ t = { s with
      work := rest, caller := .serialized, result := .none
      history := s.history ++ [.descRead .rx s.rxIndex .opts1] ++ (if d then [.flushInputQueue] else []) }) ∨
    (s.nicOwned .rx s.rxIndex = false ∧ ∃ d' l, t.work = .rxNext d' :: rest ∧ t.history = s.history ++ l ∧
      .flushInputQueue ∉ l ∧ (deliveries l).length ≤ 1 ∧ (d' = true ↔ d = true ∨ deliveries l ≠ []) ∧
      t.rxIndex = (s.rxIndex + 1) % s.cfg.nRx)) ∧
  (∀ draws n s t, Ready .serialized s → RxUsable s → s.mem.wf → s.rxIndex < s.cfg.nRx → DrawsInRange s.cfg draws →
    execWhole n (.rxIrq draws) s = .next t → t.work = [] →
    ∃ (l : List Event) (js : List Nat), t.history = s.history ++ l ∧ js.Pairwise (· < ·) ∧ (∀ j ∈ js, j < s.cfg.nRx) ∧
      (deliveries l).map (·.2) = js.map (fun j =>
        (frameLen s ((s.rxIndex + j) % s.cfg.nRx), frameOpts s ((s.rxIndex + j) % s.cfg.nRx))) ∧
      (deliveries l = [] → .flushInputQueue ∉ l) ∧
      (deliveries l ≠ [] → l.count .flushInputQueue = 1 ∧ l.getLast? = some .flushInputQueue) ∧
      t.nicOwned .rx t.rxIndex = true)

/-- R170, R179 (b), (c): with every acquisition failing, a pass still ends. It takes the completed descriptors from
`rx_index` up to the first NIC-owned one; each of them is armed again and the NIC's, with its own buffer, `rx_index`
stands behind the last, every buffer is kept and nothing delivered. -/
def Obligations.RxPassNeverBlocksOnAllocation : Prop :=
  ∀ draws s, Ready .serialized s → RxUsable s → s.mem.wf → s.rxIndex < s.cfg.nRx → RingsOk s →
    (∀ a ∈ draws, a = .failed) →
    ∃ t l, execWhole s.cfg.nRx (.rxIrq draws) s = .next t ∧ t.nicOwned .rx t.rxIndex = true ∧ t.history = s.history ++ l ∧
      deliveries l = [] ∧
      (∃ n ≤ s.cfg.nRx, t.rxIndex = (s.rxIndex + n) % s.cfg.nRx ∧
        (n < s.cfg.nRx → s.nicOwned .rx ((s.rxIndex + n) % s.cfg.nRx) = true) ∧
        (∀ j < n, s.nicOwned .rx ((s.rxIndex + j) % s.cfg.nRx) = false ∧
          t.nicOwned .rx ((s.rxIndex + j) % s.cfg.nRx) = true ∧ ArmedAt t ((s.rxIndex + j) % s.cfg.nRx)) ∧
        ∀ a, (∀ j < n, ¬ s.inDesc .rx ((s.rxIndex + j) % s.cfg.nRx) a) → t.mem.read a = s.mem.read a) ∧
      t = { s with
        mem := t.mem, history := t.history, rxIndex := t.rxIndex, ctrFrameTooLong := t.ctrFrameTooLong
        ctrResourceErrors := t.ctrResourceErrors, acquisitions := t.acquisitions, result := .none }

/-- R175, R176, R177: the status decoders. -/
def Obligations.RxDecodersReadTheStatus : Prop :=
  ∀ w1 w2 s, Ready .serialized s →
    let l := s.cfg.layout
    let pid := getField l.pid w1
    (exec (.rxCsumV1 w1 w2) s = .next { s with result := .validity (
      if pid = 1 ∧ w1.getLsbD l.tcpf = false then ⟨true, true, false⟩
       else if pid = 2 ∧ w1.getLsbD l.udpf = false then ⟨true, false, true⟩
       else if pid = 3 ∧ w1.getLsbD l.ipf = false then ⟨true, false, false⟩
       else ⟨false, false, false⟩) }) ∧
    (exec (.rxCsumV2 w1 w2) s = .next { s with result := .validity (
      if w2.getLsbD l.v4f = false then ⟨false, false, false⟩
       else if w1.getLsbD l.tcpt = true then ⟨!w1.getLsbD l.tcpf, !w1.getLsbD l.tcpf, false⟩
       else if w1.getLsbD l.udpt = true then ⟨!w1.getLsbD l.udpf, false, !w1.getLsbD l.udpf⟩
       else ⟨!w1.getLsbD l.ipf, false, false⟩) }) ∧
    (exec (.rxVlan w2) s = .next { s with result := .vlan (
      if w2.getLsbD l.rxvtag = true then
        some (if l.vlanSwapped = true then w2.extractLsb' l.vlan.lo 8 ++ w2.extractLsb' (l.vlan.lo + 8) 8
          else w2.extractLsb' l.vlan.lo 16)
       else none) })

/-! ### Monitor, interrupts, control -/

/-- R185: TIMER.TICK is the link transition, the release of the held-back packet, TX.DLCHK, and, if that did not
reset and the link is up, STATS.REQ. The first is done by the invocation, with the rest of a LINK.DOWN left as a task;
the other three are the tasks behind it (R245 (g); log entry 14). On a block in order the invocation completes, and so
does the whole tick with nothing in between. -/
def Obligations.TimerTickRunsItsFourDuties : Prop :=
  (∀ v s s1, Ready .serialized s → TxUsable s → RxUsable s → StUsable s →
    let now := linkLookup s.cfg v
    let s0 := { s with history := s.history ++ [.regRead s.cfg.reg.linkStatus 8 (v.setWidth 64)] }
    (now.up = true ∧ s.link.up = false → exec (.linkUp now.params) s0 = .next s1) →
    (now.up = false ∧ s.link.up = true → exec .linkDown s0 = .next s1) →
    (now.up = s.link.up → s1 = s0) →
    exec (.timerTick v) s = .next { s1 with work := s1.work ++ [.tickRelease, .tickCheck], result := .none }) ∧
  (∀ s, (s.txPending = none → runTask .tickRelease s = .next s) ∧
    (∀ h, s.txPending = some h → s.nicTxBusy = some h → runTask .tickRelease s = .fault .freedMemoryRead) ∧
    (∀ h, s.txPending = some h → s.nicTxBusy ≠ some h →
      runTask .tickRelease s = andThen (freePacket h s) fun t => .next { t with txPending := none })) ∧
  (∀ s u, Ready .serialized s → TxUsable s → RxUsable s → InitUsable s → exec .txDlchk s = .next u →
    runTask .tickCheck s = .next { u with
      work := if u.result = .noReset then u.work ++ [.tickStats] else [.resetRest .none], result := s.result }) ∧
  (∀ s u, Ready .serialized s → StUsable s → (s.link.up = true → exec .statsReq s = .next u) →
    (s.link.up = false → u = s) → runTask .tickStats s = .next { u with result := s.result }) ∧
  (∀ v s, Ready .serialized s → TxUsable s → RxUsable s → StUsable s → CursorsOk s → HandleInv s → NothingBusy s →
    (∃ u, exec (.timerTick v) s = .next u) ∧
    ∃ t l, execWhole (s.cfg.nTx + 5) (.timerTick v) s = .next t ∧ t.work = [] ∧ t.history = s.history ++ l ∧
      (∀ h, s.txPending = some h → .freePacket h ∈ l) ∧ t.link.up = (linkLookup s.cfg v).up)

/-- R187: LINK.UP. -/
def Obligations.LinkUpResumesTheQueue : Prop :=
  ∀ params s, Ready .serialized s →
    (s.link.up = false → exec (.linkUp params) s = .next { s with
      link := ⟨true, params⟩, txqEnabled := true
      history := s.history ++ [.applyLinkTuning, .resumeQueue,
        .reportLinkStatus true (some (params.speed, params.duplex))]
      result := .none }) ∧
    (s.link.up = true → exec (.linkUp params) s = .next { s with
      history := s.history ++ [.refused .precondition], result := .refused .precondition })

/-- R188, R214: LINK.DOWN stops the queue, clears the TX ring and frees its packets, leaves the RX side, the
counters and the NIC alone, and reports; with the link down it is refused (R236). It closes the queue in its first
step and does the rest in its second, so that a submission may meet the closed queue before the upcall returns (R189,
R245 (g); log entry 14). That the NIC keeps all it had read is log entry 8 (DEDUCED; R268); U15 names the possible
read of a packet freed under the NIC a fault, and that the freeing step itself is that fault is log entry 28
(DEDUCED). That the clear drops the allocations not yet submitted is log entry 40 (DESIGN CHOICE). -/
def Obligations.LinkDownClearsOnlyTheTxRing : Prop :=
  ∀ s, Ready .serialized s → TxUsable s →
    (s.link.up = false → exec .linkDown s = .next { s with
      history := s.history ++ [.refused .precondition], result := .refused .precondition }) ∧
    (s.link.up = true → exec .linkDown s = .next { s with
      txqEnabled := false, work := [.linkDownRest], result := .none }) ∧
    (s.link.up = true → s.mem.wf → s.txSlot.length = s.cfg.nTx → HandleInv s → ¬ NothingBusy s →
      execWhole 1 .linkDown s = .fault .freedMemoryRead) ∧
    (s.link.up = true → s.mem.wf → s.txSlot.length = s.cfg.nTx → HandleInv s → NothingBusy s →
      ∃ t l, execWhole 1 .linkDown s = .next t ∧ (∀ i < s.cfg.nTx, ClearedAt t i ∧ t.txPkt i = none) ∧
        (∀ a, ¬ s.inRing .tx a → t.mem.read a = s.mem.read a) ∧
        t.history = s.history ++ [.stopAndFlushQueue] ++ l ++ [.reportLinkStatus false none] ∧
        freedPackets l = packetsIn s ∧ .nicReset ∉ l ∧ (∀ e ∈ l, isRegAccess e = false) ∧ RemembersCleared s t .tx ∧
        t = { s with
          mem := t.mem, history := t.history, heldPackets := t.heldPackets, txSlot := t.txSlot, nicSeen := t.nicSeen
          link := ⟨false, s.link.params⟩, txqEnabled := false
          txPending := none, txNext := 0, txDirty := 0, txFree := s.cfg.nTx, txStalled := false
          txDoneCount := 0, txDoneLast := 0, deadlockWarn := 0, txUnsubmitted := [], result := .none })

/-- R190, R260, R276: RESET.FULL stops the queue and the NIC before anything is freed or rewritten, clears both
rings, rewrites the ring bases, each in two 32-bit halves whose order is open (log entry 17), and the mask, and
resumes exactly when the link is up. Whether the statistics address is passed there too, as R57 has it and R190 does
not, is the configuration's (log entry 41, DESIGN CHOICE): where it is, that memory must be Prepared (R59), else
RESET.FULL and what may invoke it, TX.DLCHK and IRQ, are refused (R236); where it is not, the statistics base is the
NIC's own after its reset (a free value, log entry 12). Its first step closes the queue, which a submission may meet
before the upcall returns (R189, R245 (g)), and its second does the rest (log entry 14). That the clear drops the allocations not yet submitted is log entry 40
(DESIGN CHOICE). -/
def Obligations.FullResetReestablishesBothRings : Prop :=
  (∀ i s, (i = .resetFull ∨ i = .txDlchk ∨ ∃ draws, i = .irq draws) → Ready .serialized s → TxUsable s → RxUsable s →
    ¬ InitUsable s → exec i s = .next { s with
      history := s.history ++ [.refused .notPrepared], result := .refused .notPrepared }) ∧
  ∀ s, Ready .serialized s → TxUsable s → RxUsable s → InitUsable s → s.mem.wf → s.txSlot.length = s.cfg.nTx →
    HandleInv s → RingsOk s →
    exec .resetFull s = .next { s with txqEnabled := false, work := [.resetRest .none], result := .none } ∧
    ∃ t l, execWhole 1 .resetFull s = .next t ∧ (∀ i < s.cfg.nTx, ClearedAt t i ∧ t.txPkt i = none) ∧
      (∀ i < s.cfg.nRx, ArmedAt t i) ∧
      (∀ a, ¬ s.inRing .tx a → ¬ s.inRing .rx a → t.mem.read a = s.mem.read a) ∧
      t.history = s.history ++ [.stopAndFlushQueue, .nicReset] ++ l ++ [.applyChipQuirks] ++
        regWrite64 s.cfg s.cfg.reg.txRingBase (s.base .tx) ++ regWrite64 s.cfg s.cfg.reg.rxRingBase (s.base .rx) ++
        (if s.cfg.reg.statsAtInit then regWrite64 s.cfg s.cfg.reg.statsBase (statsAddr s) else []) ++
        [.regWrite s.cfg.reg.intrMask 16 ((allCauses s.cfg.reg).setWidth 64)] ++
        (if s.link.up then [.resumeQueue] else []) ∧
      freedPackets l = packetsIn s ∧
      t = { s with
        mem := t.mem, history := t.history, heldPackets := t.heldPackets, txSlot := t.txSlot, nicSeen := []
        txqEnabled := s.link.up, rxIndex := 0, statsPending := false
        txPending := none, txNext := 0, txDirty := 0, txFree := s.cfg.nTx, txStalled := false
        txDoneCount := 0, txDoneLast := 0, deadlockWarn := 0, txUnsubmitted := []
        irqPending := ⟨false, false, false, false⟩, nicTxBusy := none
        regs := ⟨allCauses s.cfg.reg, s.base .tx, s.base .rx,
          if s.cfg.reg.statsAtInit then statsAddr s else t.regs.statsBase⟩
        freeCount := t.freeCount, result := .none }

/-- R191 (a): two full resets leave what one leaves. Only the history, the free values drawn and the register
that holds one (log entry 12) differ, and the register does not where the engine passes the statistics address (R57;
log entry 41). -/
def Obligations.FullResetIsIdempotent : Prop :=
  ∀ s t, Ready .serialized s → s.mem.wf → s.txSlot.length = s.cfg.nTx → execWhole 1 .resetFull s = .next t →
    t.result = .none →
    ∃ u, execWhole 1 .resetFull t = .next u ∧ u = { t with
      history := u.history, freeCount := u.freeCount, regs := { t.regs with
        statsBase := if s.cfg.reg.statsAtInit then t.regs.statsBase else u.regs.statsBase } }

/-- R205, R206: STATS.REQ writes the request once, in two 32-bit halves (R190; log entry 17), and STATS.DONE ends
it. -/
def Obligations.StatisticsRequestIsOneAtATime : Prop :=
  ∀ m s, Ready .serialized s → s.stMem = some m → m.life = .prepared →
    (s.statsPending = true → exec .statsReq s = .next { s with result := .none } ∧
      exec .statsDone s = .next { s with
        statsPending := false, history := s.history ++ [.accumulateStats], result := .none }) ∧
    (s.statsPending = false → exec .statsReq s = .next { s with
        statsPending := true
        regs := { s.regs with statsBase := m.addr ||| s.cfg.reg.statsCmd }
        history := s.history ++ regWrite64 s.cfg s.cfg.reg.statsBase (m.addr ||| s.cfg.reg.statsCmd)
        result := .none } ∧
      exec .statsDone s = .next { s with result := .none })

/-- R233, R241, R245 (c): IRQ acknowledges exactly the causes pending. Then a bus error begins RESET.FULL, whose rest
is the one task left, and ends it; else the passes of the other causes are left to run in the order RX, TX,
statistics, each step by step (log entry 14): they are RX.IRQ, TX.IRQ and STATS.DONE. The status word's other bits are
a free value (log entry 13). Drawn region lists out of R125's range are refused with the invocation (R236, U4; log
entry 37, DESIGN CHOICE). `InitUsable` is log entry 41 (DESIGN CHOICE). -/
def Obligations.IrqDispatchesPendingCauses : Prop :=
  (∀ (draws : List Acquisition) (s : State), Ready .serialized s → TxUsable s → RxUsable s → InitUsable s →
    ¬ DrawsInRange s.cfg draws → exec (.irq draws) s = .next { s with
      history := s.history ++ [.refused .operandRange], result := .refused .operandRange }) ∧
  (∀ (draws : List Acquisition) (s : State), Ready .serialized s → TxUsable s → RxUsable s → InitUsable s →
    DrawsInRange s.cfg draws →
    ∃ w : Half, (∀ c, (w &&& causeMask s.cfg.reg c ≠ 0#16 ↔ s.irqPending.has c = true)) ∧
    let s1 : State := { s with
      irqPending := ⟨false, false, false, false⟩, freeCount := s.freeCount + 1, acquisitions := draws
      history := s.history ++ [.regRead s.cfg.reg.intrStatus 16 (w.setWidth 64),
        .regWrite s.cfg.reg.intrStatus 16 (w.setWidth 64)] }
    (s.irqPending.busError = true → exec (.irq draws) s = exec .resetFull { s1 with
        ctrResets := (s.ctrResets + 1) % 2 ^ s.cfg.ctrW, history := s1.history ++ [.raised .busError] } ∧
      exec (.irq draws) s = .next { s1 with
        ctrResets := (s.ctrResets + 1) % 2 ^ s.cfg.ctrW, history := s1.history ++ [.raised .busError]
        txqEnabled := false, work := [.resetRest .none], result := .none }) ∧
    (s.irqPending.busError = false → exec (.irq draws) s = .next { s1 with
      work := (if s.irqPending.rx = true then [Task.rxNext false] else []) ++
        (if s.irqPending.tx = true then [Task.txBegin] else []) ++
        (if s.irqPending.statsDone = true then [Task.statsDone] else [])
      result := .none })) ∧
  (∀ draws s, Ready .serialized s →
    (RxUsable s → DrawsInRange s.cfg draws → exec (.rxIrq draws) s =
      andThen (runTask (.rxNext false) { s with acquisitions := draws }) fun t => .next { t with result := .none }) ∧
    (TxUsable s → exec .txIrq s = andThen (runTask .txBegin s) fun t => .next { t with result := .none }) ∧
    exec .statsDone s = andThen (runTask .statsDone s) fun t => .next { t with result := .none })

/-- R35, R200, R262: an ENABLE whose allocations all succeed. The first one zeroes the five counters, a later one
keeps them. Descriptors are initialised before the NIC is reset and told the ring bases, each in two 32-bit halves
(log entry 17). That the link's speed, duplex and flow control stay as they were is log entry 9 (DESIGN CHOICE; R35
leaves them open), and that no allocation not yet submitted is left log entry 40 (DESIGN CHOICE). Whether the
statistics address is passed with the ring bases, as R57 has it and R200 does not, is the configuration's (log entry
41, DESIGN CHOICE). -/
def Obligations.EnableEstablishesTheResetValues : Prop :=
  ∀ d tx rx st bufs s, Acting .host s → s.enabled = false → s.mem.wf → EnableTakes d s.cfg tx rx st bufs →
    bufs.length = s.cfg.nRx →
    ∃ t l, exec (.enable d) s = .next t ∧
      (∀ i < s.cfg.nTx, ClearedAt t i) ∧ (∀ i < s.cfg.nRx, ArmedAt t i) ∧
      (∀ a, ¬ t.inRing .tx a → ¬ t.inRing .rx a → t.mem.read a = s.mem.read a) ∧
      t.history = s.history ++ l ++ [.nicReset, .applyChipQuirks] ++ regWrite64 s.cfg s.cfg.reg.txRingBase tx ++
        regWrite64 s.cfg s.cfg.reg.rxRingBase rx ++
        (if s.cfg.reg.statsAtInit then regWrite64 s.cfg s.cfg.reg.statsBase st else []) ++
        [.regWrite s.cfg.reg.intrMask 16 ((allCauses s.cfg.reg).setWidth 64), .startTimer] ∧
      (∀ e ∈ l, isRegAccess e = false) ∧
      t = { s with
        mem := t.mem, history := t.history, nicSeen := [], freeCount := t.freeCount
        txMem := some ⟨tx, descSize * s.cfg.nTx, .prepared⟩, rxMem := some ⟨rx, descSize * s.cfg.nRx, .prepared⟩
        stMem := some ⟨st, s.cfg.statsSize, .prepared⟩
        rxSlot := bufs.map fun b => some ⟨b.1.h, ⟨b.2.addr, b.2.len, .prepared⟩⟩
        heldBuffers := (bufs.map fun b => b.1.h).reverse
        txSlot := List.replicate s.cfg.nTx none, txPending := none, txNext := 0, txDirty := 0
        txFree := s.cfg.nTx, txStalled := false, txDoneCount := 0, txDoneLast := 0, deadlockWarn := 0
        txUnsubmitted := [], rxIndex := 0, link := ⟨false, s.link.params⟩, txqEnabled := false
        statsPending := false, enabled := true, everEnabled := true, timerOn := true
        ctrResourceErrors := if s.everEnabled then s.ctrResourceErrors else 0
        ctrFrameTooLong := if s.everEnabled then s.ctrFrameTooLong else 0
        ctrTimeouts := if s.everEnabled then s.ctrTimeouts else 0
        ctrResets := if s.everEnabled then s.ctrResets else 0
        ctrTxDrops := (if s.everEnabled then s.ctrTxDrops else 0)
        irqPending := ⟨false, false, false, false⟩, nicTxBusy := none
        regs := ⟨allCauses s.cfg.reg, tx, rx, if s.cfg.reg.statsAtInit then st else t.regs.statsBase⟩, result := .ok }

/-- R201, R235: an allocation that fails unwinds what was acquired, in reverse order: no register is written, no
counter bumped, no upcall made, and the block stays disabled. That a misaligned or wrapping base counts as a failed
allocation is R200's for the rings and the model's for the statistics memory (log entry 21, DESIGN CHOICE). A receive
buffer's region list out of R125's range is refused with the invocation (R236, U4; log entry 37, DESIGN CHOICE). The
allocator hands out no live memory and no handle it has handed out (R57, R210 H8, U3: no such move). -/
def Obligations.FailedEnableUnwindsInReverse : Prop :=
  (∀ d s, Acting .host s → s.enabled = false → ¬ BufsInRange s.cfg d → exec (.enable d) s = .next { s with
    history := s.history ++ [.refused .operandRange], result := .refused .operandRange }) ∧
  ∀ d s, Acting .host s → s.enabled = false → BufsInRange s.cfg d →
    let fails := fun (l : List Event) => ∃ t, exec (.enable d) s = .next t ∧ buffersIn t = [] ∧
      (∀ e ∈ l, isRegAccess e = false ∧ isUpcall e = false) ∧
      t = { s with
        txMem := none, rxMem := none, stMem := none, rxSlot := t.rxSlot, heldBuffers := []
        history := s.history ++ l ++ [.raised .fatalInit], result := .fatalInit }
    (AllocFails d.tx (descSize * s.cfg.nTx) s.cfg.ringAlign → fails []) ∧
    (∀ tx, AllocGives d.tx (descSize * s.cfg.nTx) s.cfg.ringAlign tx →
      AllocFails d.rx (descSize * s.cfg.nRx) s.cfg.ringAlign →
      ∃ l, fails l ∧ released l = [.txRing]) ∧
    (∀ tx rx, AllocGives d.tx (descSize * s.cfg.nTx) s.cfg.ringAlign tx →
      AllocGives d.rx (descSize * s.cfg.nRx) s.cfg.ringAlign rx →
      memsApart ⟨rx, descSize * s.cfg.nRx, .prepared⟩ ⟨tx, descSize * s.cfg.nTx, .prepared⟩ →
      AllocFails d.st s.cfg.statsSize s.cfg.statsAlign →
      ∃ l, fails l ∧ released l = [.rxRing, .txRing]) ∧
    (∀ tx rx st bufs, EnableTakes d s.cfg tx rx st bufs → bufs.length < s.cfg.nRx →
      d.bufs.getD bufs.length none = none →
      ∃ l, fails l ∧ released l = (bufs.map fun b => DmaId.buffer b.1.h).reverse ++ [.stats, .rxRing, .txRing]) ∧
    (∀ tx rx, AllocGives d.tx (descSize * s.cfg.nTx) s.cfg.ringAlign tx →
      AllocGives d.rx (descSize * s.cfg.nRx) s.cfg.ringAlign rx →
      ¬ memsApart ⟨rx, descSize * s.cfg.nRx, .prepared⟩ ⟨tx, descSize * s.cfg.nTx, .prepared⟩ →
      exec (.enable d) s = .refused .unlawfulDraw) ∧
    (∀ tx rx st, AllocGives d.tx (descSize * s.cfg.nTx) s.cfg.ringAlign tx →
      AllocGives d.rx (descSize * s.cfg.nRx) s.cfg.ringAlign rx →
      memsApart ⟨rx, descSize * s.cfg.nRx, .prepared⟩ ⟨tx, descSize * s.cfg.nTx, .prepared⟩ →
      AllocGives d.st s.cfg.statsSize s.cfg.statsAlign st →
      ¬ (memsApart ⟨st, s.cfg.statsSize, .prepared⟩ ⟨tx, descSize * s.cfg.nTx, .prepared⟩ ∧
        memsApart ⟨st, s.cfg.statsSize, .prepared⟩ ⟨rx, descSize * s.cfg.nRx, .prepared⟩) →
      exec (.enable d) s = .refused .unlawfulDraw) ∧
    (∀ tx rx st bufs b, EnableTakes d s.cfg tx rx st bufs → bufs.length < s.cfg.nRx →
      d.bufs.getD bufs.length none = some b →
      (b.h ∈ bufs.map (fun b => b.1.h) ∨ ∃ seg, segmentRx s.cfg b.regions = some seg ∧
        ∃ m ∈ ⟨tx, descSize * s.cfg.nTx, .prepared⟩ :: ⟨rx, descSize * s.cfg.nRx, .prepared⟩ ::
          ⟨st, s.cfg.statsSize, .prepared⟩ :: bufs.map fun b => (⟨b.2.addr, b.2.len, .prepared⟩ : DmaMem),
          ¬ memsApart ⟨seg.addr, seg.len, .prepared⟩ m) →
      exec (.enable d) s = .refused .unlawfulDraw) ∧
    (∀ tx rx st bufs b, EnableTakes d s.cfg tx rx st bufs → bufs.length < s.cfg.nRx →
      d.bufs.getD bufs.length none = some b → b.h ∉ bufs.map (fun b => b.1.h) → segmentRx s.cfg b.regions = none →
      ∃ l, fails l ∧
        released l = .buffer b.h :: (bufs.map fun b => DmaId.buffer b.1.h).reverse ++ [.stats, .rxRing, .txRing])

/-- R203, R276: DISABLE stops the timer, the mask, the queue and the NIC before it frees anything; then every
packet, the receive buffers in decreasing index, and the three memories in reverse order. That the clear drops the
allocations not yet submitted is log entry 40 (DESIGN CHOICE). -/
def Obligations.DisableTearsDownInOrder : Prop :=
  ∀ s, Acting .host s → s.enabled = true → TxUsable s → RxUsable s → StUsable s → s.mem.wf →
    s.txSlot.length = s.cfg.nTx → HandleInv s →
    ∃ t l, exec .disable s = .next t ∧
      t.history = s.history ++ [.stopTimer, .regWrite s.cfg.reg.intrMask 16 0#64, .stopAndFlushQueue, .nicReset] ++ l ∧
      freedPackets l = packetsIn s ∧
      released l = ((buffersIn s).map DmaId.buffer).reverse ++ [.stats, .rxRing, .txRing] ∧
      (∀ a, ¬ s.inRing .tx a → t.mem.read a = s.mem.read a) ∧
      (∀ i, t.txPkt i = none) ∧ buffersIn t = [] ∧ t.regs.intrMask = 0#16 ∧
      t = { s with
        mem := t.mem, history := t.history, heldPackets := t.heldPackets, heldBuffers := t.heldBuffers
        txSlot := t.txSlot, rxSlot := t.rxSlot, nicSeen := [], regs := t.regs, freeCount := t.freeCount
        enabled := false, timerOn := false, txqEnabled := false, link := ⟨false, s.link.params⟩
        statsPending := false, txPending := none, txNext := 0, txDirty := 0, txFree := s.cfg.nTx
        txStalled := false, txDoneCount := 0, txDoneLast := 0, deadlockWarn := 0, txUnsubmitted := []
        irqPending := ⟨false, false, false, false⟩, nicTxBusy := none
        txMem := none, rxMem := none, stMem := none, result := .none }

/-! ### The NIC -/

/-- R217, R218: NIC.TX_DONE clears `OWN` and no other bit of a word the NIC read as its own, opens or ends the
erratum window at a packet's last descriptor, and may miss its interrupt. It has no move where the NIC has read no
such word. A word read before a ring clear is log entry 8, a last descriptor whose slot names no packet log
entry 35; bytes of a packet that clear freed are not there to read (U15). -/
def Obligations.NicTxDoneClearsOnlyOwn : Prop :=
  ∀ i d s, Acting .nic s →
    (s.cfg.nTx ≤ i → exec (.nicTxDone i d) s = .next { s with
      history := s.history ++ [.refused .operandRange], result := .refused .operandRange }) ∧
    (i < s.cfg.nTx → (¬ TxUsable s ∨ ∀ x, ¬ TxDoneReads s i d x) →
      exec (.nicTxDone i d) s = .refused .nicNotEnabled) ∧
    (∀ x, i < s.cfg.nTx → TxUsable s → TxDoneReads s i d x → ReadsFreedPacket s.cfg d x →
      exec (.nicTxDone i d) s = .fault .freedMemoryRead) ∧
    (∀ x, i < s.cfg.nTx → TxUsable s → s.mem.wf → TxDoneReads s i d x → ¬ ReadsFreedPacket s.cfg d x →
      ∃ t, exec (.nicTxDone i d) s = .next t ∧
        (∀ p, (t.desc32 .tx i .opts1).getLsbD p = (x.word.getLsbD p && decide (p ≠ s.cfg.layout.own))) ∧
        (∀ a, ¬ (s.descAddr .tx i .opts1 ≤ a ∧ a < s.descAddr .tx i .opts1 + 4) → t.mem.read a = s.mem.read a) ∧
        t = { s with
          mem := t.mem
          history := s.history ++ [.nicDescWrite .tx i .opts1 ((t.desc32 .tx i .opts1).setWidth 64)]
          nicSeen := s.nicSeen.filter fun y => decide (¬ (y.ring = .tx ∧ y.index = i))
          nicTxBusy := if x.word.getLsbD s.cfg.layout.ls then (if d.early then x.pkt else none) else s.nicTxBusy
          irqPending := if d.latch then { s.irqPending with tx := true } else s.irqPending
          result := .none })

/-- R67, R216, R217, R219: NIC.RX_FILL stores the frame, then `opts2`, then `opts1` with `OWN = 0` and `EOR` as it was
in the word the NIC read; the bits it does not place are as the environment draws them. It has no move where the NIC
has read no such word, where a `require` line fails, or where the frame would meet a ring. A frame past the end of the
address space, on which the spec is silent, is the model's fault (log entry 26, DEDUCED). A word or an address read
before a ring clear is log entry 8 (DEDUCED). -/
def Obligations.NicRxFillCompletesTheDescriptor : Prop :=
  ∀ i frame status d s, Acting .nic s →
    let fits := fun (w : Word) (a : Addr) => frame.length ≤ getField s.cfg.layout.rxlen w ∧
      (status.fs = true → status.ls = true → s.cfg.fcsLen < frame.length) ∧ ClearOfRings s a.toNat frame.length
    (s.cfg.nRx ≤ i → exec (.nicRxFill i frame status d) s = .next { s with
      history := s.history ++ [.refused .operandRange], result := .refused .operandRange }) ∧
    (i < s.cfg.nRx → (ringProblem s.cfg s.rxMem s.cfg.nRx ≠ none ∨ ∀ w a, RxFillReads s i d w a → ¬ fits w a) →
      exec (.nicRxFill i frame status d) s = .refused .nicNotEnabled) ∧
    (∀ w a, i < s.cfg.nRx → ringProblem s.cfg s.rxMem s.cfg.nRx = none → RxFillReads s i d w a → fits w a →
      2 ^ 64 < a.toNat + frame.length → exec (.nicRxFill i frame status d) s = .fault .outsideAddressSpace) ∧
    (∀ w a, i < s.cfg.nRx → ringProblem s.cfg s.rxMem s.cfg.nRx = none → s.mem.wf → RxFillReads s i d w a →
      fits w a → a.toNat + frame.length ≤ 2 ^ 64 →
      let l := s.cfg.layout
      let word := fun f b => s.descAddr .rx i f ≤ b ∧ b < s.descAddr .rx i f + 4
      ∃ t, exec (.nicRxFill i frame status d) s = .next t ∧
        t.nicOwned .rx i = false ∧ t.desc32 .rx i .opts2 = status.s2 ∧
        flag (t.desc32 .rx i .opts1) l.eor = flag w l.eor ∧
        flag (t.desc32 .rx i .opts1) l.fs = status.fs ∧ flag (t.desc32 .rx i .opts1) l.ls = status.ls ∧
        getField l.rxlen (t.desc32 .rx i .opts1) = frame.length ∧
        t.desc32 .rx i .opts1 &&& status1Mask l = status.s1 &&& status1Mask l ∧
        (∀ k (hk : k < frame.length), ¬ word .opts1 (a.toNat + k) → ¬ word .opts2 (a.toNat + k) →
          t.mem.read (a.toNat + k) = frame[k]) ∧
        (∀ b, ¬ (a.toNat ≤ b ∧ b < a.toNat + frame.length) → ¬ word .opts1 b → ¬ word .opts2 b →
          t.mem.read b = s.mem.read b) ∧
        t = { s with
          mem := t.mem
          history := s.history ++ [.nicMemWrite a.toNat frame.length, .nicDescWrite .rx i .opts2 (status.s2.setWidth 64),
            .nicDescWrite .rx i .opts1 ((t.desc32 .rx i .opts1).setWidth 64)]
          nicSeen := s.nicSeen.filter fun y => decide (¬ (y.ring = .rx ∧ y.index = i))
          irqPending := if d.latch then { s.irqPending with rx := true } else s.irqPending
          result := .none })

/-- R220, R222, R224: NIC.IRQ_RAISE latches its cause; NIC.TX_QUIESCE ends the erratum window and has no move
without one, or while the block is disabled, when what the window holds is unspecified (R261; log entry 9); NIC.RESET
forgets the causes, the window and every observation. That it leaves the interrupt mask, and what the other registers
hold after it, is log entry 12 (R222 says values no source gives; R240 that nothing else writes the mask). -/
def Obligations.NicRaisesQuiescesAndResets : Prop :=
  (∀ cause s, Acting .nic s → ∃ t, exec (.nicIrqRaise cause) s = .next t ∧
    (∀ c, t.irqPending.has c = (s.irqPending.has c || decide (c = cause))) ∧
    t = { s with irqPending := t.irqPending, result := .none }) ∧
  (∀ h s, Acting .nic s → s.enabled = true → s.nicTxBusy = some h →
    exec .nicTxQuiesce s = .next { s with nicTxBusy := none, result := .none }) ∧
  (∀ s, Acting .nic s → (s.enabled = false ∨ s.nicTxBusy = none) → exec .nicTxQuiesce s = .refused .nicNotEnabled) ∧
  (∀ s, Acting .serialized s → ∃ t, exec .nicReset s = .next t ∧
    t = { s with
      irqPending := ⟨false, false, false, false⟩, nicTxBusy := none, nicSeen := []
      regs := ⟨s.regs.intrMask, t.regs.txRingBase, t.regs.rxRingBase, t.regs.statsBase⟩
      freeCount := t.freeCount, history := s.history ++ [.nicReset], result := .none })

/-! ### Descriptor words -/

/-- R78 to R85: under the default layout the word a format's fields make is the word it was read from, and
nothing else changes. That such a row runs as an operation, for any agent and in any mode, with its word as the
result, is log entry 24 (DESIGN CHOICE). -/
def Obligations.DescriptorWordsUnderDefaultLayout : Prop :=
  ∀ i f w s, isFormat i = true → WellFormed i = true → encode i = .word f w → cfgWf s.cfg = true →
    s.cfg.layout = Layout.l0 → exec i s = .next { s with result := .desc f w }
end

