-- ==== Sys2Proof/Laws/Bits.lean ====
section
/-! SUPPORT. The bits of flags and fields at any positions, and 32-bit wrapping of what fits. -/

namespace Sys2Proof.Machine

@[simp] theorem flag_or (v w : Word) (p : Nat) : flag (v ||| w) p = (flag v p || flag w p) := by simp [flag]

@[simp] theorem flag_and (v w : Word) (p : Nat) : flag (v &&& w) p = (flag v p && flag w p) := by simp [flag]

@[simp] theorem flag_zero (p : Nat) : flag 0#32 p = false := by simp [flag]

theorem flag_bit (p q : Nat) : flag (bit p) q = (decide (q < 32) && decide (q = p)) := by
  simp only [flag, bit, BitVec.getLsbD_shiftLeft, BitVec.getLsbD_one]
  by_cases h : q < 32 <;> by_cases h' : q < p <;> simp [h, h'] <;> omega

theorem flag_bit_self {p : Nat} (h : p < 32) : flag (bit p) p = true := by simp [flag_bit, h]

theorem flag_bit_ne {p q : Nat} (h : q ≠ p) : flag (bit p) q = false := by simp [flag_bit, h]

theorem flag_flagIf (b : Bool) (p q : Nat) : flag (flagIf b p) q = (b && flag (bit p) q) := by
  cases b <;> simp [flagIf]

theorem flag_fieldMask (f : BitField) (q : Nat) :
    flag (fieldMask f) q = (decide (q < 32) && decide (f.lo ≤ q) && decide (q - f.lo < f.w)) := by
  simp only [flag, fieldMask, BitVec.getLsbD_shiftLeft, BitVec.getLsbD_setWidth, BitVec.getLsbD_allOnes]
  by_cases h : q < 32
  · have h2 : q - f.lo < 32 := by omega
    by_cases h' : q < f.lo
    · simp [h, h']
    · simp [h, h', h2, Nat.le_of_not_lt h']
  · simp [h]

/-- A field's bits are those of its value. -/
theorem flag_putField (f : BitField) (v q : Nat) :
    flag (putField f v) q = (decide (q < 32) && decide (f.lo ≤ q) && v.testBit (q - f.lo)) := by
  simp only [flag, putField, BitVec.getLsbD_shiftLeft, BitVec.getLsbD_ofNat]
  by_cases h : q < 32
  · have h2 : q - f.lo < 32 := by omega
    by_cases h' : q < f.lo
    · simp [h, h']
    · simp [h, h', h2, Nat.le_of_not_lt h']
  · simp [h]

/-- A value that fits its field sets no bit outside it. -/
theorem flag_putField_of_fits {f : BitField} {v q : Nat} (hv : v ≤ maxOf f.w)
    (hq : flag (fieldMask f) q = false) : flag (putField f v) q = false := by
  rw [flag_fieldMask] at hq
  rw [flag_putField]
  by_cases h : q < 32 <;> by_cases h' : f.lo ≤ q <;> simp [h, h'] at hq ⊢
  refine Nat.testBit_lt_two_pow (lt_of_lt_of_le ?_ (Nat.pow_le_pow_right (by norm_num) hq))
  have := Nat.two_pow_pos f.w
  simp only [maxOf] at hv
  omega

/-- Words that share no bit. -/
theorem flag_disjoint {v w : Word} (h : v &&& w = 0#32) {q : Nat} (hv : flag v q = true) : flag w q = false := by
  have := congrArg (flag · q) h
  simpa [hv] using this

theorem flag_clearBit (w : Word) (p q : Nat) (hq : q < 32) :
    flag (clearBit w p) q = (flag w q && !decide (q = p)) := by
  have hb : flag (bit p) q = decide (q = p) := by rw [flag_bit]; simp [hq]
  simp only [flag] at hb
  simp only [flag, clearBit, BitVec.getLsbD_and, BitVec.getLsbD_not, hb, hq, decide_true, Bool.true_and]

theorem word_ext {v w : Word} (h : ∀ q, q < 32 → flag v q = flag w q) : v = w :=
  BitVec.eq_of_getLsbD_eq fun q hq => h q hq

/-- A 32-bit register holds exactly what fits it. -/
theorem wrapI32_of_bounds {x : Int} (h1 : -2147483648 ≤ x) (h2 : x < 2147483648) : wrapI32 x = x := by
  rw [wrapI32]
  exact Int.bmod_eq_of_le (by norm_num; exact h1) (by norm_num; exact h2)

end Sys2Proof.Machine
end

