-- ==== Sys2Proof/Laws/Config.lean ====
section
/-! SUPPORT. What a well-formed configuration gives, as plain facts: bounds (R5), the places of the
descriptor fields (R52, R75), and which flags and fields share no bit (R76). -/

namespace Sys2Proof.Machine

/-- The bounds of R5 and the descriptor offsets of R52. -/
structure CfgOk (c : Cfg) : Prop where
  nTx2 : 2 ≤ c.nTx
  kTx : c.kMaxSegs < c.nTx
  nTxMax : c.nTx ≤ 2 ^ 31 - 1
  nRx2 : 2 ≤ c.nRx
  k1 : 1 ≤ c.kMaxSegs
  fcs : c.fcsLen < c.rxBufSize
  bufFits : c.rxBufSize ≤ maxOf c.layout.rxlen.w
  dl1 : 1 ≤ c.dlThresh1
  dl2 : c.dlThresh1 < c.dlThresh2
  layout : layoutWf c.layout = true
  causes : causesOk c.reg = true

theorem cfgOk {c : Cfg} (h : cfgWf c = true) : CfgOk c := by
  simp only [cfgWf, Bool.and_eq_true, decide_eq_true_eq] at h
  obtain ⟨⟨⟨⟨⟨⟨⟨⟨⟨⟨⟨⟨⟨⟨⟨-, h2⟩, h3⟩, h4⟩, -⟩, h6⟩, h7⟩, h8⟩, h9⟩, h10⟩, h11⟩, -⟩, -⟩, -⟩, h15⟩, h16⟩ := h
  exact ⟨h2, h3, h4, h6, h7, h8, h9, h10, h11, h15, h16⟩

/-- The three fields of a descriptor lie in its 16 bytes, apart from each other. -/
structure OffsetsOk (l : Layout) : Prop where
  opts1 : l.offOpts1 + 4 ≤ 16
  opts2 : l.offOpts2 + 4 ≤ 16
  addr : l.offAddr + 8 ≤ 16
  apart12 : l.offOpts1 + 4 ≤ l.offOpts2 ∨ l.offOpts2 + 4 ≤ l.offOpts1
  apart1a : l.offOpts1 + 4 ≤ l.offAddr ∨ l.offAddr + 8 ≤ l.offOpts1
  apart2a : l.offOpts2 + 4 ≤ l.offAddr ∨ l.offAddr + 8 ≤ l.offOpts2

theorem offsetsOk {l : Layout} (h : layoutWf l = true) : OffsetsOk l := by
  simp only [layoutWf, layoutOffsetsOk, Bool.and_eq_true, Bool.or_eq_true, decide_eq_true_eq, beq_iff_eq,
    bne_iff_ne] at h
  obtain ⟨-, ⟨⟨⟨⟨⟨⟨⟨h1, h2⟩, h3⟩, h4⟩, h5⟩, h6⟩, h7⟩, h8⟩, h9⟩ := h
  exact ⟨h4, h5, h6, by omega, h8, h9⟩

theorem flags_lt {l : Layout} (h : layoutWf l = true) {p : Nat} (hp : p ∈ layoutFlags l) : p < 32 := by
  simp only [layoutWf, Bool.and_eq_true, List.all_eq_true, decide_eq_true_eq] at h
  exact h.1.1.1.1.1.1 p hp

theorem formats_noOverlap {l : Layout} (h : layoutWf l = true) {f : List Word} (hf : f ∈ layoutFormats l) :
    f.Pairwise fun a b => a &&& b = 0#32 := by
  simp only [layoutWf, Bool.and_eq_true, List.all_eq_true, noOverlap, decide_eq_true_eq] at h
  exact h.1.2 f hf

/-- The positions of the four common flags and of the two segmentation fields are in the word. -/
theorem own_lt {l : Layout} (h : layoutWf l = true) : l.own < 32 := flags_lt h (by simp [layoutFlags])
theorem eor_lt {l : Layout} (h : layoutWf l = true) : l.eor < 32 := flags_lt h (by simp [layoutFlags])
theorem fs_lt {l : Layout} (h : layoutWf l = true) : l.fs < 32 := flags_lt h (by simp [layoutFlags])
theorem ls_lt {l : Layout} (h : layoutWf l = true) : l.ls < 32 := flags_lt h (by simp [layoutFlags])

/-- The first TX format of `opts1`: no two of its bits and fields overlap. -/
theorem tx1_apart {l : Layout} (h : layoutWf l = true) :
    [bit l.own, bit l.eor, bit l.fs, bit l.ls, bit l.lgsen, fieldMask l.txlen, bit l.ipcs1, bit l.udpcs1,
      bit l.tcpcs1].Pairwise fun a b => a &&& b = 0#32 := by
  simpa using formats_noOverlap h (f := _) List.mem_cons_self

/-- The TX format of `opts1` with segmentation offload. -/
theorem tso_apart {l : Layout} (h : layoutWf l = true) :
    [bit l.own, bit l.eor, bit l.fs, bit l.ls, bit l.lgsen, fieldMask l.txlen, fieldMask l.mss1].Pairwise
      fun a b => a &&& b = 0#32 := by
  simpa using formats_noOverlap h (f := _) (List.mem_cons_of_mem _ List.mem_cons_self)

/-- The RX format of `opts1` of the first revision. -/
theorem rx1_apart {l : Layout} (h : layoutWf l = true) :
    [bit l.own, bit l.eor, bit l.fs, bit l.ls, bit l.ipf, bit l.udpf, bit l.tcpf, fieldMask l.rxlen,
      fieldMask l.pid].Pairwise fun a b => a &&& b = 0#32 := by
  simpa using formats_noOverlap h (f := _) (List.mem_cons_of_mem _ (List.mem_cons_of_mem _
    (List.mem_cons_of_mem _ (List.mem_cons_of_mem _ (List.mem_cons_of_mem _ List.mem_cons_self)))))

/-- A flag bit outside a mask, from the two being disjoint. -/
theorem flag_of_apart {p : Nat} {w : Word} (hp : p < 32) (h : bit p &&& w = 0#32) : flag w p = false :=
  flag_disjoint h (flag_bit_self hp)

/-- `OWN` and `EOR` are two bits, and neither lies in the length field of a ring. -/
theorem own_ne_eor {l : Layout} (h : layoutWf l = true) : l.own ≠ l.eor := fun he => by
  have h1 := tx1_apart h
  simp only [List.pairwise_cons, List.mem_cons, forall_eq_or_imp] at h1
  have := flag_of_apart (own_lt h) h1.1.1
  rw [he, flag_bit_self (eor_lt h)] at this
  exact absurd this (by simp)

theorem len_flag_own {c : Cfg} (h : layoutWf c.layout = true) (ring : Ring) :
    flag (fieldMask (lenField c ring)) c.layout.own = false := by
  cases ring
  · have h1 := tx1_apart h
    simp only [List.pairwise_cons, List.mem_cons, forall_eq_or_imp] at h1
    exact flag_of_apart (own_lt h) h1.1.2.2.2.2.1
  · have h1 := rx1_apart h
    simp only [List.pairwise_cons, List.mem_cons, forall_eq_or_imp] at h1
    exact flag_of_apart (own_lt h) h1.1.2.2.2.2.2.2.1

theorem len_flag_eor {c : Cfg} (h : layoutWf c.layout = true) (ring : Ring) :
    flag (fieldMask (lenField c ring)) c.layout.eor = false := by
  cases ring
  · have h1 := tx1_apart h
    simp only [List.pairwise_cons, List.mem_cons, forall_eq_or_imp] at h1
    exact flag_of_apart (eor_lt h) h1.2.1.2.2.2.1
  · have h1 := rx1_apart h
    simp only [List.pairwise_cons, List.mem_cons, forall_eq_or_imp] at h1
    exact flag_of_apart (eor_lt h) h1.2.1.2.2.2.2.2.1

end Sys2Proof.Machine
end

