-- ==== Sys2Proof/Laws/Causes.lean ====
section
/-! SUPPORT. The interrupt status word shows exactly the pending causes, whatever its other bits are. -/

namespace Sys2Proof.Machine

theorem cond_bit (p : Bool) (x : Half) (i : Nat) : (cond p x 0#16).getLsbD i = (p && x.getLsbD i) := by
  cases p <;> simp

/-- A cause mask shows in a status word exactly when its cause is pending: the masks do not overlap. -/
theorem masked_status {a b c d f : Half} (hab : a &&& b = 0#16) (hac : a &&& c = 0#16) (had : a &&& d = 0#16)
    (pa pb pc pd : Bool) :
    ((cond pa a 0#16 ||| cond pb b 0#16 ||| cond pc c 0#16 ||| cond pd d 0#16) ||| (f &&& ~~~ (a ||| b ||| c ||| d))) &&& a =
      cond pa a 0#16 := by
  apply BitVec.eq_of_getLsbD_eq
  intro i hi
  have h1 := congrArg (·.getLsbD i) hab
  have h2 := congrArg (·.getLsbD i) hac
  have h3 := congrArg (·.getLsbD i) had
  simp only [BitVec.getLsbD_and, BitVec.getLsbD_zero] at h1 h2 h3
  simp only [BitVec.getLsbD_and, BitVec.getLsbD_or, BitVec.getLsbD_not, hi, decide_true, Bool.true_and,
    cond_bit]
  generalize a.getLsbD i = x at *
  generalize b.getLsbD i = y at *
  generalize c.getLsbD i = z at *
  generalize d.getLsbD i = w at *
  cases x <;> simp_all

/-- The causes read from the status word are the pending ones (R240, R241). -/
theorem causesIn_intrStatus {s : State} (h : cfgWf s.cfg = true) : causesIn s.cfg.reg (intrStatus s) = s.irqPending := by
  have hc : causesOk s.cfg.reg = true := by simp only [cfgWf, Bool.and_eq_true] at h; exact h.2
  simp only [causesOk, List.all_cons, List.all_nil, Bool.and_true, Bool.and_eq_true, bne_iff_ne, ne_eq,
    decide_eq_true_eq, List.pairwise_cons, List.mem_cons, List.not_mem_nil, or_false, forall_eq_or_imp, forall_eq,
    List.Pairwise.nil, and_true, false_imp_iff, implies_true] at hc
  obtain ⟨⟨n1, n2, n3, n4⟩, ⟨h12, h13, h14⟩, ⟨h23, h24⟩, h34⟩ := hc
  simp only [causesIn, intrStatus, statusBits, allCauses]
  generalize Config.freeStatus s.freeCount = f
  generalize s.cfg.reg.causeRx = a at *
  generalize s.cfg.reg.causeTx = b at *
  generalize s.cfg.reg.causeBusError = c at *
  generalize s.cfg.reg.causeStatsDone = d at *
  obtain ⟨pa, pb, pc, pd⟩ := s.irqPending
  have e1 := masked_status (f := f) h12 h13 h14 pa pb pc pd
  have e2 := masked_status (a := b) (b := a) (c := c) (d := d) (f := f) (by rwa [BitVec.and_comm] at h12) h23 h24 pb pa pc pd
  have e3 := masked_status (a := c) (b := a) (c := b) (d := d) (f := f) (by rwa [BitVec.and_comm] at h13) (by rwa [BitVec.and_comm] at h23) h34 pc pa pb pd
  have e4 := masked_status (a := d) (b := a) (c := b) (d := c) (f := f) (by rwa [BitVec.and_comm] at h14) (by rwa [BitVec.and_comm] at h24)
    (by rwa [BitVec.and_comm] at h34) pd pa pb pc
  have r2 : (cond pb b 0#16 ||| cond pa a 0#16 ||| cond pc c 0#16 ||| cond pd d 0#16) = (cond pa a 0#16 ||| cond pb b 0#16 ||| cond pc c 0#16 ||| cond pd d 0#16) := by
    rw [BitVec.or_comm (cond pb b 0#16)]
  have r3 : (cond pc c 0#16 ||| cond pa a 0#16 ||| cond pb b 0#16 ||| cond pd d 0#16) = (cond pa a 0#16 ||| cond pb b 0#16 ||| cond pc c 0#16 ||| cond pd d 0#16) := by
    ac_rfl
  have r4 : (cond pd d 0#16 ||| cond pa a 0#16 ||| cond pb b 0#16 ||| cond pc c 0#16) = (cond pa a 0#16 ||| cond pb b 0#16 ||| cond pc c 0#16 ||| cond pd d 0#16) := by
    ac_rfl
  rw [r2, show b ||| a ||| c ||| d = a ||| b ||| c ||| d by ac_rfl] at e2
  rw [r3, show c ||| a ||| b ||| d = a ||| b ||| c ||| d by ac_rfl] at e3
  rw [r4, show d ||| a ||| b ||| c = a ||| b ||| c ||| d by ac_rfl] at e4
  dsimp only
  rw [e1, e2, e3, e4]
  cases pa <;> cases pb <;> cases pc <;> cases pd <;> simp [n1, n2, n3, n4]

/-- What IRQ's acknowledgement leaves: no cause pending, one free value used, two register accesses (R241). -/
theorem acknowledge_eq {s : State} (h : cfgWf s.cfg = true) : acknowledge s = { s with
    irqPending := CauseSet.empty
    freeCount := s.freeCount + 1
    history := s.history ++ [.regRead s.cfg.reg.intrStatus 16 ((intrStatus s).setWidth 64),
      .regWrite s.cfg.reg.intrStatus 16 ((intrStatus s).setWidth 64)] } := by
  simp only [acknowledge, causesIn_intrStatus h]
  obtain ⟨pa, pb, pc, pd⟩ := s.irqPending
  congr 1
  simp [CauseSet.diff, CauseSet.empty]

end Sys2Proof.Machine
end

