-- ==== Sys2Proof/Laws/Codec.lean ====
section
/-! SUPPORT. Each reader of Decode.lean undoes its writer, whatever bytes follow. -/

namespace Sys2Proof

theorem Parser.andThen_of_ok {α β : Type} {p : Parser α} {f : α → Parser β} {bs rest : List Byte} {a : α}
    (h : p bs = .ok (a, rest)) : p.andThen f bs = f a rest := by
  simp [Parser.andThen, h]

@[simp] theorem Parser.ret_apply {α : Type} (a : α) (bs : List Byte) : Parser.ret a bs = .ok (a, bs) := rfl

/-- A reader undoes a writer on one value. -/
def Undoes {α : Type} (get : Parser α) (put : α → List Byte) (a : α) : Prop :=
  ∀ rest, get (put a ++ rest) = .ok (a, rest)

theorem getNat_putNat (k v : Nat) (hv : v < 256 ^ k) (rest : List Byte) :
    getNat k (putNat k v ++ rest) = .ok (v, rest) := by
  induction k generalizing v with
  | zero => simp at hv; subst hv; rfl
  | succ k ih =>
    have h1 : v / 256 < 256 ^ k := by
      rw [Nat.div_lt_iff_lt_mul (by norm_num), ← Nat.pow_succ]; exact hv
    simp only [putNat, List.cons_append, getNat, ih _ h1]
    simp only [BitVec.toNat_ofNat]
    congr 2
    omega

theorem undoes8 (b : Byte) : Undoes get8 put8 b := fun rest => by
  rw [get8, put8, Parser.andThen_of_ok (getNat_putNat 1 _ (by have := b.isLt; omega) rest)]
  simp

theorem undoes16 (v : Half) : Undoes get16 put16 v := fun rest => by
  rw [get16, put16, Parser.andThen_of_ok (getNat_putNat 2 _ (by have := v.isLt; omega) rest)]
  simp

theorem undoes32 (v : Word) : Undoes get32 put32 v := fun rest => by
  rw [get32, put32, Parser.andThen_of_ok (getNat_putNat 4 _ (by have := v.isLt; omega) rest)]
  simp

theorem undoes64 (v : BitVec 64) : Undoes get64 put64 v := fun rest => by
  rw [get64, put64, Parser.andThen_of_ok (getNat_putNat 8 _ (by have := v.isLt; omega) rest)]
  simp

theorem undoesInt {n : Nat} (h : fits32 n = true) : Undoes getInt putInt n := fun rest =>
  getNat_putNat 4 _ (by simp only [fits32, decide_eq_true_eq] at h; omega) rest

theorem undoesBool (b : Bool) : Undoes getBool putBool b := fun rest => by
  cases b <;> rfl

theorem undoesMany {α : Type} {get : Parser α} {put : α → List Byte} {l : List α}
    (h : ∀ a ∈ l, Undoes get put a) (rest : List Byte) :
    getMany get l.length (putMany put l ++ rest) = .ok (l, rest) := by
  induction l with
  | nil => rfl
  | cons a l ih =>
    simp only [putMany, List.length_cons, getMany, List.append_assoc]
    rw [Parser.andThen_of_ok (h a List.mem_cons_self _),
      Parser.andThen_of_ok (ih fun b hb => h b (List.mem_cons_of_mem _ hb))]
    rfl

theorem undoesList {α : Type} {get : Parser α} {put : α → List Byte} {l : List α}
    (hl : countFits l = true) (h : ∀ a ∈ l, Undoes get put a) : Undoes (getList get) (putList put) l :=
  fun rest => by
    rw [getList, putList, List.append_assoc,
      Parser.andThen_of_ok (getNat_putNat 2 _ (by simp only [countFits, decide_eq_true_eq] at hl; omega) _)]
    exact undoesMany h rest

theorem undoesOpt {α : Type} {get : Parser α} {put : α → List Byte} {o : Option α}
    (h : ∀ a, o = some a → Undoes get put a) : Undoes (getOpt get) (putOpt put) o := fun rest => by
  cases o with
  | none => rfl
  | some a =>
    rw [getOpt, putOpt, List.append_assoc, Parser.andThen_of_ok (undoesBool true _)]
    simp only []
    rw [Parser.andThen_of_ok (h a rfl rest)]
    rfl

/-- Read the first of two writers, go on with the second. -/
theorem Undoes.step {α β : Type} {get : Parser α} {put : α → List Byte} {a : α} (h : Undoes get put a)
    (f : α → Parser β) (bs rest : List Byte) :
    get.andThen f (put a ++ bs ++ rest) = f a (bs ++ rest) := by
  rw [List.append_assoc]; exact Parser.andThen_of_ok (h _)

theorem Undoes.last {α β : Type} {get : Parser α} {put : α → List Byte} {a : α} (h : Undoes get put a)
    (f : α → Parser β) (rest : List Byte) : get.andThen f (put a ++ rest) = f a rest :=
  Parser.andThen_of_ok (h _)

theorem undoesRing (r : Ring) : Undoes getRing putRing r := fun rest => by cases r <;> rfl
theorem undoesCause (c : Cause) : Undoes getCause putCause c := fun rest => by cases c <;> rfl
theorem undoesSpeed (x : Speed) : Undoes getSpeed putSpeed x := fun rest => by cases x <;> rfl
theorem undoesDuplex (x : Duplex) : Undoes getDuplex putDuplex x := fun rest => by cases x <;> rfl

theorem undoesRegion {r : Region} (h : r.fits = true) : Undoes getRegion putRegion r := fun rest => by
  rw [getRegion, putRegion, (undoes64 _).step, (undoesInt h).last]; rfl

theorem undoesSegment {s : Segment} (h : s.fits = true) : Undoes getSegment putSegment s := fun rest => by
  rw [getSegment, putSegment, (undoes64 _).step, (undoesInt h).last]; rfl

theorem undoesRegions {l : List Region} (h : regionsFit l = true) : Undoes (getList getRegion) (putList putRegion) l := by
  simp only [regionsFit, Bool.and_eq_true, List.all_eq_true] at h
  exact undoesList h.1 fun r hr => undoesRegion (h.2 r hr)

theorem undoesOffload {o : OffloadReq} (h : o.fits = true) : Undoes getOffload putOffload o := fun rest => by
  rw [getOffload, putOffload, (undoesBool _).step, (undoesBool _).step, (undoesBool _).step,
    (undoesBool _).step, (undoesBool _).step, (undoesInt h).last]; rfl

theorem undoesTag (o : Option Half) : Undoes (getOpt get16) (putOpt put16) o := undoesOpt fun a _ => undoes16 a
theorem undoesBase (o : Option Addr) : Undoes (getOpt get64) (putOpt put64) o := undoesOpt fun a _ => undoes64 a

theorem undoesPacket {p : Packet} (h : p.fits = true) : Undoes getPacket putPacket p := fun rest => by
  simp only [Packet.fits, Bool.and_eq_true] at h
  rw [getPacket, putPacket, (undoesInt h.1.1).step, (undoesRegions h.1.2).step, (undoesOffload h.2).step,
    (undoesTag _).last]; rfl

theorem undoesLinkParams (p : LinkParams) : Undoes getLinkParams putLinkParams p := fun rest => by
  rw [getLinkParams, putLinkParams, (undoesSpeed _).step, (undoesDuplex _).step, (undoesBool _).step,
    (undoesBool _).last]; rfl

theorem undoesStatus (x : RxStatus) : Undoes getStatus putStatus x := fun rest => by
  rw [getStatus, putStatus, (undoesBool _).step, (undoesBool _).step, (undoes32 _).step, (undoes32 _).last]; rfl

theorem undoesStaleWord {x : StaleWord} (h : x.fits = true) : Undoes getStaleWord putStaleWord x := fun rest => by
  rw [getStaleWord, putStaleWord, (undoesInt h).step, (undoesBool _).last]; rfl

theorem undoesTxDone {d : TxDoneDraws} (h : d.fits = true) : Undoes getTxDone putTxDone d := fun rest => by
  rw [getTxDone, putTxDone, (undoesBool _).step, (undoesBool _).step,
    (undoesOpt fun x hx => undoesStaleWord (by rwa [TxDoneDraws.fits, hx] at h)).last]; rfl

theorem undoesStaleBuffer {x : StaleBuffer} (h : x.fits = true) : Undoes getStaleBuffer putStaleBuffer x :=
  fun rest => by
  simp only [StaleBuffer.fits, Bool.and_eq_true] at h
  rw [getStaleBuffer, putStaleBuffer, (undoesInt h.1).step,
    (undoesOpt fun j hj => undoesInt (by have := h.2; rwa [hj] at this)).last]; rfl

theorem undoesRxFill {d : RxFillDraws} (h : d.fits = true) : Undoes getRxFill putRxFill d := fun rest => by
  rw [getRxFill, putRxFill, (undoesBool _).step,
    (undoesOpt fun x hx => undoesStaleBuffer (by rwa [RxFillDraws.fits, hx] at h)).last]; rfl

theorem undoesFrame {l : List Byte} (h : countFits l = true) : Undoes (getList get8) (putList put8) l :=
  undoesList h fun b _ => undoes8 b

theorem undoesAcquisition {x : Acquisition} (h : x.fits = true) : Undoes getAcquisition putAcquisition x :=
  fun rest => by
  cases x with
  | failed => rfl
  | replaced b regions =>
    simp only [Acquisition.fits, Bool.and_eq_true] at h
    simp only [getAcquisition, putAcquisition, List.append_assoc]
    rw [Parser.andThen_of_ok (getNat_putNat 1 1 (by norm_num) _)]
    simp only []
    rw [Parser.andThen_of_ok (undoesInt h.1 _), Parser.andThen_of_ok (undoesRegions h.2 _)]; rfl
  | copied b size =>
    simp only [Acquisition.fits, Bool.and_eq_true] at h
    simp only [getAcquisition, putAcquisition, List.append_assoc]
    rw [Parser.andThen_of_ok (getNat_putNat 1 2 (by norm_num) _)]
    simp only []
    rw [Parser.andThen_of_ok (undoesInt h.1 _), Parser.andThen_of_ok (undoesInt h.2 _)]; rfl

theorem undoesAcquisitions {l : List Acquisition} (h : acquisitionsFit l = true) :
    Undoes (getList getAcquisition) (putList putAcquisition) l := by
  simp only [acquisitionsFit, Bool.and_eq_true, List.all_eq_true] at h
  exact undoesList h.1 fun x hx => undoesAcquisition (h.2 x hx)

theorem undoesBufferDraw {b : BufferDraw} (h : b.fits = true) : Undoes getBufferDraw putBufferDraw b :=
  fun rest => by
  simp only [BufferDraw.fits, Bool.and_eq_true] at h
  rw [getBufferDraw, putBufferDraw, (undoesInt h.1).step, (undoesRegions h.2).last]; rfl

theorem undoesBufferDraws {l : List (Option BufferDraw)} (hc : countFits l = true)
    (h : ∀ x ∈ l, optFits BufferDraw.fits x = true) :
    Undoes (getList (getOpt getBufferDraw)) (putList (putOpt putBufferDraw)) l :=
  undoesList hc fun x hx => undoesOpt fun b hb => undoesBufferDraw (by have := h x hx; rw [hb] at this; exact this)

theorem undoesEnableDraws {d : EnableDraws} (h : d.fits = true) : Undoes getEnableDraws putEnableDraws d :=
  fun rest => by
  simp only [EnableDraws.fits, Bool.and_eq_true, List.all_eq_true] at h
  rw [getEnableDraws, putEnableDraws, (undoesBase _).step, (undoesBase _).step, (undoesBase _).step,
    (undoesBufferDraws h.1 h.2).last]; rfl

/-- An operation decodes to itself when its operand record does. -/
theorem decode_op {sel : Byte} {bs : List Byte} {i : Instr} (h : getOperands sel.toNat bs = .ok (i, [])) :
    decode (.op (sel :: bs)) = .ok i := by
  simp [decode, decodeOp, h]

/-- A reader behind which nothing is left. -/
theorem Undoes.finish {α β : Type} {get : Parser α} {put : α → List Byte} {a : α} (h : Undoes get put a)
    (f : α → Parser β) : get.andThen f (put a) = f a [] := by
  have := h.last f []; simpa using this

end Sys2Proof
end

