-- ==== Sys2Proof/Laws/Memory.lean ====
section
/-! SUPPORT. Laws of DMA memory: the canonical form is kept, a read after a write, memories with equal
reads are equal, and the same for words, addresses and runs of bytes. -/

namespace Sys2Proof.Machine.Memory

theorem wf_nil : wf [] := ⟨List.Pairwise.nil, by simp⟩

theorem wf_cons {b : Nat} {w : Byte} {m : Memory} (h : wf ((b, w) :: m)) :
    wf m ∧ w ≠ unlisted ∧ ∀ c ∈ m, b < c.1 := by
  obtain ⟨hp, hn⟩ := h
  rw [List.pairwise_cons] at hp
  exact ⟨⟨hp.2, fun c hc => hn c (List.mem_cons_of_mem _ hc)⟩, hn _ List.mem_cons_self, hp.1⟩

theorem wf_of_cons {b : Nat} {w : Byte} {m : Memory} (h : wf m) (hw : w ≠ unlisted) (hb : ∀ c ∈ m, b < c.1) :
    wf ((b, w) :: m) := by
  refine ⟨List.pairwise_cons.2 ⟨hb, h.1⟩, fun c hc => ?_⟩
  rcases List.mem_cons.1 hc with rfl | hc
  · exact hw
  · exact h.2 c hc

/-- The addresses of a memory after a write are among the old ones and the one written. -/
theorem mem_write {m : Memory} {a : Nat} {v : Byte} {c : Host.Cell} (h : c ∈ m.write a v) :
    c ∈ m ∨ (c.1 = a ∧ c.2 = v ∧ v ≠ unlisted) := by
  induction m with
  | nil =>
    simp only [write] at h
    split at h
    · simp at h
    · simp only [List.mem_singleton] at h; subst h; exact .inr ⟨rfl, rfl, ‹_›⟩
  | cons d m ih =>
    obtain ⟨b, w⟩ := d
    simp only [write] at h
    split at h
    · split at h
      · exact .inl h
      · rcases List.mem_cons.1 h with rfl | h
        · exact .inr ⟨rfl, rfl, ‹_›⟩
        · exact .inl h
    · split at h
      · split at h
        · exact .inl (List.mem_cons_of_mem _ h)
        · rcases List.mem_cons.1 h with rfl | h
          · exact .inr ⟨rfl, rfl, ‹_›⟩
          · exact .inl (List.mem_cons_of_mem _ h)
      · rcases List.mem_cons.1 h with rfl | h
        · exact .inl List.mem_cons_self
        · exact (ih h).imp_left (List.mem_cons_of_mem _)

theorem wf_write {m : Memory} (h : wf m) (a : Nat) (v : Byte) : wf (m.write a v) := by
  induction m with
  | nil =>
    simp only [write]
    split
    · exact wf_nil
    · exact wf_of_cons wf_nil ‹_› (by simp)
  | cons d m ih =>
    obtain ⟨b, w⟩ := d
    obtain ⟨hm, hw, hb⟩ := wf_cons h
    simp only [write]
    split
    · split
      · exact h
      · refine wf_of_cons h ‹_› fun c hc => ?_
        rcases List.mem_cons.1 hc with rfl | hc
        · assumption
        · exact lt_trans ‹_› (hb c hc)
    · split
      · split
        · exact hm
        · exact wf_of_cons hm ‹_› (by rename_i hab _; rw [hab]; exact hb)
      · refine wf_of_cons (ih hm) hw fun c hc => ?_
        rcases mem_write hc with hc | ⟨hc, -, -⟩
        · exact hb c hc
        · omega

/-- An address below every listed one reads as an unlisted address. -/
theorem read_below {m : Memory} {a : Nat} (h : ∀ c ∈ m, a < c.1) : m.read a = unlisted := by
  induction m with
  | nil => rfl
  | cons d m ih =>
    obtain ⟨b, w⟩ := d
    have hb : a < b := h (b, w) List.mem_cons_self
    simp only [read]
    rw [if_neg (by omega), ih fun c hc => h c (List.mem_cons_of_mem _ hc)]

/-- A read after a write: the value written at its place, the old value anywhere else. -/
theorem read_write {m : Memory} (h : wf m) (a : Nat) (v : Byte) (x : Nat) :
    (m.write a v).read x = if x = a then v else m.read x := by
  induction m with
  | nil => by_cases hv : v = unlisted <;> by_cases hx : x = a <;> simp [write, read, hv, hx]
  | cons d m ih =>
    obtain ⟨b, w⟩ := d
    obtain ⟨hm, -, hb⟩ := wf_cons h
    have hbelow : ∀ y, y < b → read ((b, w) :: m) y = unlisted := fun y hy => read_below fun c hc => by
      rcases List.mem_cons.1 hc with rfl | hc
      · exact hy
      · exact lt_trans hy (hb c hc)
    simp only [write]
    by_cases hab : a < b
    · rw [if_pos hab]
      by_cases hv : v = unlisted
      · rw [if_pos hv]
        split_ifs with hx
        · rw [hx, hv, hbelow a hab]
        · rfl
      · rw [if_neg hv]; rfl
    · rw [if_neg hab]
      by_cases hab' : a = b
      · subst hab'
        rw [if_pos rfl]
        by_cases hv : v = unlisted
        · rw [if_pos hv]
          by_cases hx : x = a
          · rw [if_pos hx, hx, hv, read_below hb]
          · simp [read, hx]
        · rw [if_neg hv]
          by_cases hx : x = a <;> simp [read, hx]
      · rw [if_neg hab']
        simp only [read, ih hm]
        by_cases hx : x = b
        · simp [hx, Ne.symm hab']
        · simp [hx]

/-- Memories in canonical form with equal reads are equal. -/
theorem ext_read {m n : Memory} (hm : wf m) (hn : wf n) (h : ∀ a, m.read a = n.read a) : m = n := by
  induction m generalizing n with
  | nil =>
    cases n with
    | nil => rfl
    | cons d n =>
      obtain ⟨b, w⟩ := d
      exact absurd (by simpa [read] using (h b).symm) (wf_cons hn).2.1
  | cons d m ih =>
    obtain ⟨b, w⟩ := d
    obtain ⟨hm', hw, hb⟩ := wf_cons hm
    cases n with
    | nil => exact absurd (by simpa [read] using h b) hw
    | cons e n =>
      obtain ⟨c, u⟩ := e
      obtain ⟨hn', hu, hc⟩ := wf_cons hn
      have hbc : b = c := by
        rcases lt_trichotomy b c with hlt | heq | hgt
        · have h1 : read ((c, u) :: n) b = unlisted := read_below fun x hx => by
            rcases List.mem_cons.1 hx with rfl | hx
            · exact hlt
            · exact lt_trans hlt (hc x hx)
          have h2 := h b; rw [h1] at h2; exact absurd (by simpa [read] using h2) hw
        · exact heq
        · have h1 : read ((b, w) :: m) c = unlisted := read_below fun x hx => by
            rcases List.mem_cons.1 hx with rfl | hx
            · exact hgt
            · exact lt_trans hgt (hb x hx)
          have h2 := (h c).symm; rw [h1] at h2; exact absurd (by simpa [read] using h2) hu
      subst hbc
      have hwu : w = u := by simpa [read] using h b
      subst hwu
      rw [ih hm' hn' fun a => ?_]
      by_cases hab : a = b
      · subst hab; rw [read_below hb, read_below hc]
      · simpa [read, hab] using h a

/-! ### Words, addresses, runs of bytes -/

theorem wf_write32 {m : Memory} (h : wf m) (a : Nat) (v : Word) : wf (m.write32 a v) :=
  wf_write (wf_write (wf_write (wf_write h _ _) _ _) _ _) _ _

theorem wf_write64 {m : Memory} (h : wf m) (a : Nat) (v : Addr) : wf (m.write64 a v) :=
  wf_write32 (wf_write32 h _ _) _ _

theorem wf_writeBytes {m : Memory} (h : wf m) (a : Nat) (l : List Byte) : wf (m.writeBytes a l) := by
  induction l generalizing m a with
  | nil => exact h
  | cons v l ih => exact ih (wf_write h a v) (a + 1)

/-- A write of a word leaves every byte outside its four alone. -/
theorem read_write32_of_ne {m : Memory} (h : wf m) (a : Nat) (v : Word) {x : Nat} (hx : x < a ∨ a + 4 ≤ x) :
    (m.write32 a v).read x = m.read x := by
  have h1 := wf_write h a (v.extractLsb' 0 8)
  have h2 := wf_write h1 (a + 1) (v.extractLsb' 8 8)
  have h3 := wf_write h2 (a + 2) (v.extractLsb' 16 8)
  simp only [write32, read_write h, read_write h1, read_write h2, read_write h3]
  rw [if_neg (by omega), if_neg (by omega), if_neg (by omega), if_neg (by omega)]

theorem read_write64_of_ne {m : Memory} (h : wf m) (a : Nat) (v : Addr) {x : Nat} (hx : x < a ∨ a + 8 ≤ x) :
    (m.write64 a v).read x = m.read x := by
  rw [write64, read_write32_of_ne (wf_write32 h _ _) _ _ (by omega), read_write32_of_ne h _ _ (by omega)]

theorem read_writeBytes_of_ne {m : Memory} (h : wf m) (a : Nat) (l : List Byte) {x : Nat}
    (hx : x < a ∨ a + l.length ≤ x) : (m.writeBytes a l).read x = m.read x := by
  induction l generalizing m a with
  | nil => rfl
  | cons v l ih =>
    simp only [List.length_cons] at hx
    rw [writeBytes, ih (wf_write h a v) _ (by omega), read_write h, if_neg (by omega)]

/-- The `k`-th byte of a run reads back. -/
theorem read_writeBytes {m : Memory} (h : wf m) (a : Nat) (l : List Byte) (k : Nat) (hk : k < l.length) :
    (m.writeBytes a l).read (a + k) = l[k] := by
  induction l generalizing m a k with
  | nil => simp at hk
  | cons v l ih =>
    cases k with
    | zero =>
      rw [writeBytes, read_writeBytes_of_ne (wf_write h a v) _ _ (by omega), read_write h]
      simp
    | succ k =>
      have := ih (wf_write h a v) (a + 1) k (by simpa using hk)
      rw [writeBytes, show a + (k + 1) = a + 1 + k by omega, this]
      simp

/-- Two reads of a word agree when the four bytes do. -/
theorem read32_congr {m n : Memory} {a : Nat} (h : ∀ x, a ≤ x → x < a + 4 → m.read x = n.read x) :
    m.read32 a = n.read32 a := by
  simp only [read32]
  rw [h a (by omega) (by omega), h (a + 1) (by omega) (by omega), h (a + 2) (by omega) (by omega),
    h (a + 3) (by omega) (by omega)]

theorem read64_congr {m n : Memory} {a : Nat} (h : ∀ x, a ≤ x → x < a + 8 → m.read x = n.read x) :
    m.read64 a = n.read64 a := by
  simp only [read64]
  rw [read32_congr fun x hx hx' => h x hx (by omega), read32_congr fun x hx hx' => h x (by omega) (by omega)]

theorem word_of_bytes (v : Word) :
    v.extractLsb' 24 8 ++ v.extractLsb' 16 8 ++ v.extractLsb' 8 8 ++ v.extractLsb' 0 8 = v := by
  apply BitVec.eq_of_getLsbD_eq
  intro i hi
  simp only [BitVec.getLsbD_append, BitVec.getLsbD_extractLsb']
  by_cases h0 : i < 8
  · simp [h0]
  · by_cases h1 : i - 8 < 8
    · simp only [h0, h1, if_false, if_true, decide_true, Bool.true_and]
      congr 1; omega
    · by_cases h2 : i - 8 - 8 < 8
      · simp only [h0, h1, h2, if_false, if_true, decide_true, Bool.true_and]
        congr 1; omega
      · have h3 : i - 8 - 8 - 8 < 8 := by omega
        simp only [h0, h1, h2, h3, if_false, decide_true, Bool.true_and]
        congr 1; omega

theorem addr_of_words (v : Addr) : v.extractLsb' 32 32 ++ v.extractLsb' 0 32 = v := by
  apply BitVec.eq_of_getLsbD_eq
  intro i hi
  simp only [BitVec.getLsbD_append, BitVec.getLsbD_extractLsb']
  by_cases h0 : i < 32
  · simp [h0]
  · have h1 : i - 32 < 32 := by omega
    simp only [h0, h1, if_false, decide_true, Bool.true_and]
    congr 1; omega

/-- A word reads back. -/
theorem read32_write32 {m : Memory} (h : wf m) (a : Nat) (v : Word) : (m.write32 a v).read32 a = v := by
  have h1 := wf_write h a (v.extractLsb' 0 8)
  have h2 := wf_write h1 (a + 1) (v.extractLsb' 8 8)
  have h3 := wf_write h2 (a + 2) (v.extractLsb' 16 8)
  simp only [read32, write32, read_write h, read_write h1, read_write h2, read_write h3]
  simpa using word_of_bytes v

/-- A word read apart from a word written. -/
theorem read32_write32_of_ne {m : Memory} (h : wf m) (a : Nat) (v : Word) {x : Nat}
    (hx : x + 4 ≤ a ∨ a + 4 ≤ x) : (m.write32 a v).read32 x = m.read32 x :=
  read32_congr fun y hy hy' => read_write32_of_ne h a v (by omega)

theorem read32_write64_of_ne {m : Memory} (h : wf m) (a : Nat) (v : Addr) {x : Nat}
    (hx : x + 4 ≤ a ∨ a + 8 ≤ x) : (m.write64 a v).read32 x = m.read32 x :=
  read32_congr fun y hy hy' => read_write64_of_ne h a v (by omega)

theorem read64_write32_of_ne {m : Memory} (h : wf m) (a : Nat) (v : Word) {x : Nat}
    (hx : x + 8 ≤ a ∨ a + 4 ≤ x) : (m.write32 a v).read64 x = m.read64 x :=
  read64_congr fun y hy hy' => read_write32_of_ne h a v (by omega)

theorem read64_write64_of_ne {m : Memory} (h : wf m) (a : Nat) (v : Addr) {x : Nat}
    (hx : x + 8 ≤ a ∨ a + 8 ≤ x) : (m.write64 a v).read64 x = m.read64 x :=
  read64_congr fun y hy hy' => read_write64_of_ne h a v (by omega)

/-- An address reads back. -/
theorem read64_write64 {m : Memory} (h : wf m) (a : Nat) (v : Addr) : (m.write64 a v).read64 a = v := by
  have h1 := wf_write32 h a (v.extractLsb' 0 32)
  rw [read64, write64, read32_write32 h1, read32_write32_of_ne h1 _ _ (by omega), read32_write32 h]
  exact addr_of_words v

end Sys2Proof.Machine.Memory
end

