-- ==== Sys2Proof/Laws/State.lean ====
section
/-! SUPPORT. One lemma per field and per update of the state: a field an update leaves alone is what it
was, a field it writes is what it writes. Generated from the definitions; every proof is `rfl`. -/

namespace Sys2Proof.Machine

/-! ### `State.emit` -/

@[simp] theorem State.emit_cfg (e : Event) (s : State) : (s.emit e).cfg = s.cfg := rfl
@[simp] theorem State.emit_mem (e : Event) (s : State) : (s.emit e).mem = s.mem := rfl
@[simp] theorem State.emit_txNext (e : Event) (s : State) : (s.emit e).txNext = s.txNext := rfl
@[simp] theorem State.emit_txDirty (e : Event) (s : State) : (s.emit e).txDirty = s.txDirty := rfl
@[simp] theorem State.emit_txFree (e : Event) (s : State) : (s.emit e).txFree = s.txFree := rfl
@[simp] theorem State.emit_rxIndex (e : Event) (s : State) : (s.emit e).rxIndex = s.rxIndex := rfl
@[simp] theorem State.emit_txStalled (e : Event) (s : State) : (s.emit e).txStalled = s.txStalled := rfl
@[simp] theorem State.emit_txqEnabled (e : Event) (s : State) : (s.emit e).txqEnabled = s.txqEnabled := rfl
@[simp] theorem State.emit_txDoneCount (e : Event) (s : State) : (s.emit e).txDoneCount = s.txDoneCount := rfl
@[simp] theorem State.emit_txDoneLast (e : Event) (s : State) : (s.emit e).txDoneLast = s.txDoneLast := rfl
@[simp] theorem State.emit_deadlockWarn (e : Event) (s : State) : (s.emit e).deadlockWarn = s.deadlockWarn := rfl
@[simp] theorem State.emit_enabled (e : Event) (s : State) : (s.emit e).enabled = s.enabled := rfl
@[simp] theorem State.emit_link (e : Event) (s : State) : (s.emit e).link = s.link := rfl
@[simp] theorem State.emit_txSlot (e : Event) (s : State) : (s.emit e).txSlot = s.txSlot := rfl
@[simp] theorem State.emit_rxSlot (e : Event) (s : State) : (s.emit e).rxSlot = s.rxSlot := rfl
@[simp] theorem State.emit_txPending (e : Event) (s : State) : (s.emit e).txPending = s.txPending := rfl
@[simp] theorem State.emit_ctrResourceErrors (e : Event) (s : State) : (s.emit e).ctrResourceErrors = s.ctrResourceErrors := rfl
@[simp] theorem State.emit_ctrFrameTooLong (e : Event) (s : State) : (s.emit e).ctrFrameTooLong = s.ctrFrameTooLong := rfl
@[simp] theorem State.emit_ctrTimeouts (e : Event) (s : State) : (s.emit e).ctrTimeouts = s.ctrTimeouts := rfl
@[simp] theorem State.emit_ctrResets (e : Event) (s : State) : (s.emit e).ctrResets = s.ctrResets := rfl
@[simp] theorem State.emit_ctrTxDrops (e : Event) (s : State) : (s.emit e).ctrTxDrops = s.ctrTxDrops := rfl
@[simp] theorem State.emit_statsPending (e : Event) (s : State) : (s.emit e).statsPending = s.statsPending := rfl
@[simp] theorem State.emit_txMem (e : Event) (s : State) : (s.emit e).txMem = s.txMem := rfl
@[simp] theorem State.emit_rxMem (e : Event) (s : State) : (s.emit e).rxMem = s.rxMem := rfl
@[simp] theorem State.emit_stMem (e : Event) (s : State) : (s.emit e).stMem = s.stMem := rfl
@[simp] theorem State.emit_regs (e : Event) (s : State) : (s.emit e).regs = s.regs := rfl
@[simp] theorem State.emit_timerOn (e : Event) (s : State) : (s.emit e).timerOn = s.timerOn := rfl
@[simp] theorem State.emit_everEnabled (e : Event) (s : State) : (s.emit e).everEnabled = s.everEnabled := rfl
@[simp] theorem State.emit_txUnsubmitted (e : Event) (s : State) : (s.emit e).txUnsubmitted = s.txUnsubmitted := rfl
@[simp] theorem State.emit_heldPackets (e : Event) (s : State) : (s.emit e).heldPackets = s.heldPackets := rfl
@[simp] theorem State.emit_heldBuffers (e : Event) (s : State) : (s.emit e).heldBuffers = s.heldBuffers := rfl
@[simp] theorem State.emit_hostBufs (e : Event) (s : State) : (s.emit e).hostBufs = s.hostBufs := rfl
@[simp] theorem State.emit_nicTxBusy (e : Event) (s : State) : (s.emit e).nicTxBusy = s.nicTxBusy := rfl
@[simp] theorem State.emit_irqPending (e : Event) (s : State) : (s.emit e).irqPending = s.irqPending := rfl
@[simp] theorem State.emit_nicSeen (e : Event) (s : State) : (s.emit e).nicSeen = s.nicSeen := rfl
@[simp] theorem State.emit_input (e : Event) (s : State) : (s.emit e).input = s.input := rfl
@[simp] theorem State.emit_acquisitions (e : Event) (s : State) : (s.emit e).acquisitions = s.acquisitions := rfl
@[simp] theorem State.emit_work (e : Event) (s : State) : (s.emit e).work = s.work := rfl
@[simp] theorem State.emit_caller (e : Event) (s : State) : (s.emit e).caller = s.caller := rfl
@[simp] theorem State.emit_result (e : Event) (s : State) : (s.emit e).result = s.result := rfl
@[simp] theorem State.emit_history (e : Event) (s : State) : (s.emit e).history = s.history ++ [e] := rfl
@[simp] theorem State.emit_freeCount (e : Event) (s : State) : (s.emit e).freeCount = s.freeCount := rfl

/-! ### `State.withResult` -/

@[simp] theorem State.withResult_cfg (r : Result) (s : State) : (s.withResult r).cfg = s.cfg := rfl
@[simp] theorem State.withResult_mem (r : Result) (s : State) : (s.withResult r).mem = s.mem := rfl
@[simp] theorem State.withResult_txNext (r : Result) (s : State) : (s.withResult r).txNext = s.txNext := rfl
@[simp] theorem State.withResult_txDirty (r : Result) (s : State) : (s.withResult r).txDirty = s.txDirty := rfl
@[simp] theorem State.withResult_txFree (r : Result) (s : State) : (s.withResult r).txFree = s.txFree := rfl
@[simp] theorem State.withResult_rxIndex (r : Result) (s : State) : (s.withResult r).rxIndex = s.rxIndex := rfl
@[simp] theorem State.withResult_txStalled (r : Result) (s : State) : (s.withResult r).txStalled = s.txStalled := rfl
@[simp] theorem State.withResult_txqEnabled (r : Result) (s : State) : (s.withResult r).txqEnabled = s.txqEnabled := rfl
@[simp] theorem State.withResult_txDoneCount (r : Result) (s : State) : (s.withResult r).txDoneCount = s.txDoneCount := rfl
@[simp] theorem State.withResult_txDoneLast (r : Result) (s : State) : (s.withResult r).txDoneLast = s.txDoneLast := rfl
@[simp] theorem State.withResult_deadlockWarn (r : Result) (s : State) : (s.withResult r).deadlockWarn = s.deadlockWarn := rfl
@[simp] theorem State.withResult_enabled (r : Result) (s : State) : (s.withResult r).enabled = s.enabled := rfl
@[simp] theorem State.withResult_link (r : Result) (s : State) : (s.withResult r).link = s.link := rfl
@[simp] theorem State.withResult_txSlot (r : Result) (s : State) : (s.withResult r).txSlot = s.txSlot := rfl
@[simp] theorem State.withResult_rxSlot (r : Result) (s : State) : (s.withResult r).rxSlot = s.rxSlot := rfl
@[simp] theorem State.withResult_txPending (r : Result) (s : State) : (s.withResult r).txPending = s.txPending := rfl
@[simp] theorem State.withResult_ctrResourceErrors (r : Result) (s : State) : (s.withResult r).ctrResourceErrors = s.ctrResourceErrors := rfl
@[simp] theorem State.withResult_ctrFrameTooLong (r : Result) (s : State) : (s.withResult r).ctrFrameTooLong = s.ctrFrameTooLong := rfl
@[simp] theorem State.withResult_ctrTimeouts (r : Result) (s : State) : (s.withResult r).ctrTimeouts = s.ctrTimeouts := rfl
@[simp] theorem State.withResult_ctrResets (r : Result) (s : State) : (s.withResult r).ctrResets = s.ctrResets := rfl
@[simp] theorem State.withResult_ctrTxDrops (r : Result) (s : State) : (s.withResult r).ctrTxDrops = s.ctrTxDrops := rfl
@[simp] theorem State.withResult_statsPending (r : Result) (s : State) : (s.withResult r).statsPending = s.statsPending := rfl
@[simp] theorem State.withResult_txMem (r : Result) (s : State) : (s.withResult r).txMem = s.txMem := rfl
@[simp] theorem State.withResult_rxMem (r : Result) (s : State) : (s.withResult r).rxMem = s.rxMem := rfl
@[simp] theorem State.withResult_stMem (r : Result) (s : State) : (s.withResult r).stMem = s.stMem := rfl
@[simp] theorem State.withResult_regs (r : Result) (s : State) : (s.withResult r).regs = s.regs := rfl
@[simp] theorem State.withResult_timerOn (r : Result) (s : State) : (s.withResult r).timerOn = s.timerOn := rfl
@[simp] theorem State.withResult_everEnabled (r : Result) (s : State) : (s.withResult r).everEnabled = s.everEnabled := rfl
@[simp] theorem State.withResult_txUnsubmitted (r : Result) (s : State) : (s.withResult r).txUnsubmitted = s.txUnsubmitted := rfl
@[simp] theorem State.withResult_heldPackets (r : Result) (s : State) : (s.withResult r).heldPackets = s.heldPackets := rfl
@[simp] theorem State.withResult_heldBuffers (r : Result) (s : State) : (s.withResult r).heldBuffers = s.heldBuffers := rfl
@[simp] theorem State.withResult_hostBufs (r : Result) (s : State) : (s.withResult r).hostBufs = s.hostBufs := rfl
@[simp] theorem State.withResult_nicTxBusy (r : Result) (s : State) : (s.withResult r).nicTxBusy = s.nicTxBusy := rfl
@[simp] theorem State.withResult_irqPending (r : Result) (s : State) : (s.withResult r).irqPending = s.irqPending := rfl
@[simp] theorem State.withResult_nicSeen (r : Result) (s : State) : (s.withResult r).nicSeen = s.nicSeen := rfl
@[simp] theorem State.withResult_input (r : Result) (s : State) : (s.withResult r).input = s.input := rfl
@[simp] theorem State.withResult_acquisitions (r : Result) (s : State) : (s.withResult r).acquisitions = s.acquisitions := rfl
@[simp] theorem State.withResult_work (r : Result) (s : State) : (s.withResult r).work = s.work := rfl
@[simp] theorem State.withResult_caller (r : Result) (s : State) : (s.withResult r).caller = s.caller := rfl
@[simp] theorem State.withResult_result (r : Result) (s : State) : (s.withResult r).result = r := rfl
@[simp] theorem State.withResult_history (r : Result) (s : State) : (s.withResult r).history = s.history := rfl
@[simp] theorem State.withResult_freeCount (r : Result) (s : State) : (s.withResult r).freeCount = s.freeCount := rfl

/-! ### `State.raise` -/

@[simp] theorem State.raise_cfg (c : ErrCause) (s : State) : (s.raise c).cfg = s.cfg := rfl
@[simp] theorem State.raise_mem (c : ErrCause) (s : State) : (s.raise c).mem = s.mem := rfl
@[simp] theorem State.raise_txNext (c : ErrCause) (s : State) : (s.raise c).txNext = s.txNext := rfl
@[simp] theorem State.raise_txDirty (c : ErrCause) (s : State) : (s.raise c).txDirty = s.txDirty := rfl
@[simp] theorem State.raise_txFree (c : ErrCause) (s : State) : (s.raise c).txFree = s.txFree := rfl
@[simp] theorem State.raise_rxIndex (c : ErrCause) (s : State) : (s.raise c).rxIndex = s.rxIndex := rfl
@[simp] theorem State.raise_txStalled (c : ErrCause) (s : State) : (s.raise c).txStalled = s.txStalled := rfl
@[simp] theorem State.raise_txqEnabled (c : ErrCause) (s : State) : (s.raise c).txqEnabled = s.txqEnabled := rfl
@[simp] theorem State.raise_txDoneCount (c : ErrCause) (s : State) : (s.raise c).txDoneCount = s.txDoneCount := rfl
@[simp] theorem State.raise_txDoneLast (c : ErrCause) (s : State) : (s.raise c).txDoneLast = s.txDoneLast := rfl
@[simp] theorem State.raise_deadlockWarn (c : ErrCause) (s : State) : (s.raise c).deadlockWarn = s.deadlockWarn := rfl
@[simp] theorem State.raise_enabled (c : ErrCause) (s : State) : (s.raise c).enabled = s.enabled := rfl
@[simp] theorem State.raise_link (c : ErrCause) (s : State) : (s.raise c).link = s.link := rfl
@[simp] theorem State.raise_txSlot (c : ErrCause) (s : State) : (s.raise c).txSlot = s.txSlot := rfl
@[simp] theorem State.raise_rxSlot (c : ErrCause) (s : State) : (s.raise c).rxSlot = s.rxSlot := rfl
@[simp] theorem State.raise_txPending (c : ErrCause) (s : State) : (s.raise c).txPending = s.txPending := rfl
@[simp] theorem State.raise_ctrResourceErrors (c : ErrCause) (s : State) : (s.raise c).ctrResourceErrors = s.ctrResourceErrors := rfl
@[simp] theorem State.raise_ctrFrameTooLong (c : ErrCause) (s : State) : (s.raise c).ctrFrameTooLong = s.ctrFrameTooLong := rfl
@[simp] theorem State.raise_ctrTimeouts (c : ErrCause) (s : State) : (s.raise c).ctrTimeouts = s.ctrTimeouts := rfl
@[simp] theorem State.raise_ctrResets (c : ErrCause) (s : State) : (s.raise c).ctrResets = s.ctrResets := rfl
@[simp] theorem State.raise_ctrTxDrops (c : ErrCause) (s : State) : (s.raise c).ctrTxDrops = s.ctrTxDrops := rfl
@[simp] theorem State.raise_statsPending (c : ErrCause) (s : State) : (s.raise c).statsPending = s.statsPending := rfl
@[simp] theorem State.raise_txMem (c : ErrCause) (s : State) : (s.raise c).txMem = s.txMem := rfl
@[simp] theorem State.raise_rxMem (c : ErrCause) (s : State) : (s.raise c).rxMem = s.rxMem := rfl
@[simp] theorem State.raise_stMem (c : ErrCause) (s : State) : (s.raise c).stMem = s.stMem := rfl
@[simp] theorem State.raise_regs (c : ErrCause) (s : State) : (s.raise c).regs = s.regs := rfl
@[simp] theorem State.raise_timerOn (c : ErrCause) (s : State) : (s.raise c).timerOn = s.timerOn := rfl
@[simp] theorem State.raise_everEnabled (c : ErrCause) (s : State) : (s.raise c).everEnabled = s.everEnabled := rfl
@[simp] theorem State.raise_txUnsubmitted (c : ErrCause) (s : State) : (s.raise c).txUnsubmitted = s.txUnsubmitted := rfl
@[simp] theorem State.raise_heldPackets (c : ErrCause) (s : State) : (s.raise c).heldPackets = s.heldPackets := rfl
@[simp] theorem State.raise_heldBuffers (c : ErrCause) (s : State) : (s.raise c).heldBuffers = s.heldBuffers := rfl
@[simp] theorem State.raise_hostBufs (c : ErrCause) (s : State) : (s.raise c).hostBufs = s.hostBufs := rfl
@[simp] theorem State.raise_nicTxBusy (c : ErrCause) (s : State) : (s.raise c).nicTxBusy = s.nicTxBusy := rfl
@[simp] theorem State.raise_irqPending (c : ErrCause) (s : State) : (s.raise c).irqPending = s.irqPending := rfl
@[simp] theorem State.raise_nicSeen (c : ErrCause) (s : State) : (s.raise c).nicSeen = s.nicSeen := rfl
@[simp] theorem State.raise_input (c : ErrCause) (s : State) : (s.raise c).input = s.input := rfl
@[simp] theorem State.raise_acquisitions (c : ErrCause) (s : State) : (s.raise c).acquisitions = s.acquisitions := rfl
@[simp] theorem State.raise_work (c : ErrCause) (s : State) : (s.raise c).work = s.work := rfl
@[simp] theorem State.raise_caller (c : ErrCause) (s : State) : (s.raise c).caller = s.caller := rfl
@[simp] theorem State.raise_result (c : ErrCause) (s : State) : (s.raise c).result = s.result := rfl
@[simp] theorem State.raise_history (c : ErrCause) (s : State) : (s.raise c).history = s.history ++ [.raised c] := rfl
@[simp] theorem State.raise_freeCount (c : ErrCause) (s : State) : (s.raise c).freeCount = s.freeCount := rfl

/-! ### `State.refuse` -/

@[simp] theorem State.refuse_cfg (r : RefusedReason) (s : State) : (s.refuse r).cfg = s.cfg := rfl
@[simp] theorem State.refuse_mem (r : RefusedReason) (s : State) : (s.refuse r).mem = s.mem := rfl
@[simp] theorem State.refuse_txNext (r : RefusedReason) (s : State) : (s.refuse r).txNext = s.txNext := rfl
@[simp] theorem State.refuse_txDirty (r : RefusedReason) (s : State) : (s.refuse r).txDirty = s.txDirty := rfl
@[simp] theorem State.refuse_txFree (r : RefusedReason) (s : State) : (s.refuse r).txFree = s.txFree := rfl
@[simp] theorem State.refuse_rxIndex (r : RefusedReason) (s : State) : (s.refuse r).rxIndex = s.rxIndex := rfl
@[simp] theorem State.refuse_txStalled (r : RefusedReason) (s : State) : (s.refuse r).txStalled = s.txStalled := rfl
@[simp] theorem State.refuse_txqEnabled (r : RefusedReason) (s : State) : (s.refuse r).txqEnabled = s.txqEnabled := rfl
@[simp] theorem State.refuse_txDoneCount (r : RefusedReason) (s : State) : (s.refuse r).txDoneCount = s.txDoneCount := rfl
@[simp] theorem State.refuse_txDoneLast (r : RefusedReason) (s : State) : (s.refuse r).txDoneLast = s.txDoneLast := rfl
@[simp] theorem State.refuse_deadlockWarn (r : RefusedReason) (s : State) : (s.refuse r).deadlockWarn = s.deadlockWarn := rfl
@[simp] theorem State.refuse_enabled (r : RefusedReason) (s : State) : (s.refuse r).enabled = s.enabled := rfl
@[simp] theorem State.refuse_link (r : RefusedReason) (s : State) : (s.refuse r).link = s.link := rfl
@[simp] theorem State.refuse_txSlot (r : RefusedReason) (s : State) : (s.refuse r).txSlot = s.txSlot := rfl
@[simp] theorem State.refuse_rxSlot (r : RefusedReason) (s : State) : (s.refuse r).rxSlot = s.rxSlot := rfl
@[simp] theorem State.refuse_txPending (r : RefusedReason) (s : State) : (s.refuse r).txPending = s.txPending := rfl
@[simp] theorem State.refuse_ctrResourceErrors (r : RefusedReason) (s : State) : (s.refuse r).ctrResourceErrors = s.ctrResourceErrors := rfl
@[simp] theorem State.refuse_ctrFrameTooLong (r : RefusedReason) (s : State) : (s.refuse r).ctrFrameTooLong = s.ctrFrameTooLong := rfl
@[simp] theorem State.refuse_ctrTimeouts (r : RefusedReason) (s : State) : (s.refuse r).ctrTimeouts = s.ctrTimeouts := rfl
@[simp] theorem State.refuse_ctrResets (r : RefusedReason) (s : State) : (s.refuse r).ctrResets = s.ctrResets := rfl
@[simp] theorem State.refuse_ctrTxDrops (r : RefusedReason) (s : State) : (s.refuse r).ctrTxDrops = s.ctrTxDrops := rfl
@[simp] theorem State.refuse_statsPending (r : RefusedReason) (s : State) : (s.refuse r).statsPending = s.statsPending := rfl
@[simp] theorem State.refuse_txMem (r : RefusedReason) (s : State) : (s.refuse r).txMem = s.txMem := rfl
@[simp] theorem State.refuse_rxMem (r : RefusedReason) (s : State) : (s.refuse r).rxMem = s.rxMem := rfl
@[simp] theorem State.refuse_stMem (r : RefusedReason) (s : State) : (s.refuse r).stMem = s.stMem := rfl
@[simp] theorem State.refuse_regs (r : RefusedReason) (s : State) : (s.refuse r).regs = s.regs := rfl
@[simp] theorem State.refuse_timerOn (r : RefusedReason) (s : State) : (s.refuse r).timerOn = s.timerOn := rfl
@[simp] theorem State.refuse_everEnabled (r : RefusedReason) (s : State) : (s.refuse r).everEnabled = s.everEnabled := rfl
@[simp] theorem State.refuse_txUnsubmitted (r : RefusedReason) (s : State) : (s.refuse r).txUnsubmitted = s.txUnsubmitted := rfl
@[simp] theorem State.refuse_heldPackets (r : RefusedReason) (s : State) : (s.refuse r).heldPackets = s.heldPackets := rfl
@[simp] theorem State.refuse_heldBuffers (r : RefusedReason) (s : State) : (s.refuse r).heldBuffers = s.heldBuffers := rfl
@[simp] theorem State.refuse_hostBufs (r : RefusedReason) (s : State) : (s.refuse r).hostBufs = s.hostBufs := rfl
@[simp] theorem State.refuse_nicTxBusy (r : RefusedReason) (s : State) : (s.refuse r).nicTxBusy = s.nicTxBusy := rfl
@[simp] theorem State.refuse_irqPending (r : RefusedReason) (s : State) : (s.refuse r).irqPending = s.irqPending := rfl
@[simp] theorem State.refuse_nicSeen (r : RefusedReason) (s : State) : (s.refuse r).nicSeen = s.nicSeen := rfl
@[simp] theorem State.refuse_input (r : RefusedReason) (s : State) : (s.refuse r).input = s.input := rfl
@[simp] theorem State.refuse_acquisitions (r : RefusedReason) (s : State) : (s.refuse r).acquisitions = s.acquisitions := rfl
@[simp] theorem State.refuse_work (r : RefusedReason) (s : State) : (s.refuse r).work = s.work := rfl
@[simp] theorem State.refuse_caller (r : RefusedReason) (s : State) : (s.refuse r).caller = s.caller := rfl
@[simp] theorem State.refuse_result (r : RefusedReason) (s : State) : (s.refuse r).result = .refused r := rfl
@[simp] theorem State.refuse_history (r : RefusedReason) (s : State) : (s.refuse r).history = s.history ++ [.refused r] := rfl
@[simp] theorem State.refuse_freeCount (r : RefusedReason) (s : State) : (s.refuse r).freeCount = s.freeCount := rfl

/-! ### `State.noteRead` -/

@[simp] theorem State.noteRead_cfg (ring : Ring) (i : Nat) (f : DescField) (s : State) : (s.noteRead ring i f).cfg = s.cfg := rfl
@[simp] theorem State.noteRead_mem (ring : Ring) (i : Nat) (f : DescField) (s : State) : (s.noteRead ring i f).mem = s.mem := rfl
@[simp] theorem State.noteRead_txNext (ring : Ring) (i : Nat) (f : DescField) (s : State) : (s.noteRead ring i f).txNext = s.txNext := rfl
@[simp] theorem State.noteRead_txDirty (ring : Ring) (i : Nat) (f : DescField) (s : State) : (s.noteRead ring i f).txDirty = s.txDirty := rfl
@[simp] theorem State.noteRead_txFree (ring : Ring) (i : Nat) (f : DescField) (s : State) : (s.noteRead ring i f).txFree = s.txFree := rfl
@[simp] theorem State.noteRead_rxIndex (ring : Ring) (i : Nat) (f : DescField) (s : State) : (s.noteRead ring i f).rxIndex = s.rxIndex := rfl
@[simp] theorem State.noteRead_txStalled (ring : Ring) (i : Nat) (f : DescField) (s : State) : (s.noteRead ring i f).txStalled = s.txStalled := rfl
@[simp] theorem State.noteRead_txqEnabled (ring : Ring) (i : Nat) (f : DescField) (s : State) : (s.noteRead ring i f).txqEnabled = s.txqEnabled := rfl
@[simp] theorem State.noteRead_txDoneCount (ring : Ring) (i : Nat) (f : DescField) (s : State) : (s.noteRead ring i f).txDoneCount = s.txDoneCount := rfl
@[simp] theorem State.noteRead_txDoneLast (ring : Ring) (i : Nat) (f : DescField) (s : State) : (s.noteRead ring i f).txDoneLast = s.txDoneLast := rfl
@[simp] theorem State.noteRead_deadlockWarn (ring : Ring) (i : Nat) (f : DescField) (s : State) : (s.noteRead ring i f).deadlockWarn = s.deadlockWarn := rfl
@[simp] theorem State.noteRead_enabled (ring : Ring) (i : Nat) (f : DescField) (s : State) : (s.noteRead ring i f).enabled = s.enabled := rfl
@[simp] theorem State.noteRead_link (ring : Ring) (i : Nat) (f : DescField) (s : State) : (s.noteRead ring i f).link = s.link := rfl
@[simp] theorem State.noteRead_txSlot (ring : Ring) (i : Nat) (f : DescField) (s : State) : (s.noteRead ring i f).txSlot = s.txSlot := rfl
@[simp] theorem State.noteRead_rxSlot (ring : Ring) (i : Nat) (f : DescField) (s : State) : (s.noteRead ring i f).rxSlot = s.rxSlot := rfl
@[simp] theorem State.noteRead_txPending (ring : Ring) (i : Nat) (f : DescField) (s : State) : (s.noteRead ring i f).txPending = s.txPending := rfl
@[simp] theorem State.noteRead_ctrResourceErrors (ring : Ring) (i : Nat) (f : DescField) (s : State) : (s.noteRead ring i f).ctrResourceErrors = s.ctrResourceErrors := rfl
@[simp] theorem State.noteRead_ctrFrameTooLong (ring : Ring) (i : Nat) (f : DescField) (s : State) : (s.noteRead ring i f).ctrFrameTooLong = s.ctrFrameTooLong := rfl
@[simp] theorem State.noteRead_ctrTimeouts (ring : Ring) (i : Nat) (f : DescField) (s : State) : (s.noteRead ring i f).ctrTimeouts = s.ctrTimeouts := rfl
@[simp] theorem State.noteRead_ctrResets (ring : Ring) (i : Nat) (f : DescField) (s : State) : (s.noteRead ring i f).ctrResets = s.ctrResets := rfl
@[simp] theorem State.noteRead_ctrTxDrops (ring : Ring) (i : Nat) (f : DescField) (s : State) : (s.noteRead ring i f).ctrTxDrops = s.ctrTxDrops := rfl
@[simp] theorem State.noteRead_statsPending (ring : Ring) (i : Nat) (f : DescField) (s : State) : (s.noteRead ring i f).statsPending = s.statsPending := rfl
@[simp] theorem State.noteRead_txMem (ring : Ring) (i : Nat) (f : DescField) (s : State) : (s.noteRead ring i f).txMem = s.txMem := rfl
@[simp] theorem State.noteRead_rxMem (ring : Ring) (i : Nat) (f : DescField) (s : State) : (s.noteRead ring i f).rxMem = s.rxMem := rfl
@[simp] theorem State.noteRead_stMem (ring : Ring) (i : Nat) (f : DescField) (s : State) : (s.noteRead ring i f).stMem = s.stMem := rfl
@[simp] theorem State.noteRead_regs (ring : Ring) (i : Nat) (f : DescField) (s : State) : (s.noteRead ring i f).regs = s.regs := rfl
@[simp] theorem State.noteRead_timerOn (ring : Ring) (i : Nat) (f : DescField) (s : State) : (s.noteRead ring i f).timerOn = s.timerOn := rfl
@[simp] theorem State.noteRead_everEnabled (ring : Ring) (i : Nat) (f : DescField) (s : State) : (s.noteRead ring i f).everEnabled = s.everEnabled := rfl
@[simp] theorem State.noteRead_txUnsubmitted (ring : Ring) (i : Nat) (f : DescField) (s : State) : (s.noteRead ring i f).txUnsubmitted = s.txUnsubmitted := rfl
@[simp] theorem State.noteRead_heldPackets (ring : Ring) (i : Nat) (f : DescField) (s : State) : (s.noteRead ring i f).heldPackets = s.heldPackets := rfl
@[simp] theorem State.noteRead_heldBuffers (ring : Ring) (i : Nat) (f : DescField) (s : State) : (s.noteRead ring i f).heldBuffers = s.heldBuffers := rfl
@[simp] theorem State.noteRead_hostBufs (ring : Ring) (i : Nat) (f : DescField) (s : State) : (s.noteRead ring i f).hostBufs = s.hostBufs := rfl
@[simp] theorem State.noteRead_nicTxBusy (ring : Ring) (i : Nat) (f : DescField) (s : State) : (s.noteRead ring i f).nicTxBusy = s.nicTxBusy := rfl
@[simp] theorem State.noteRead_irqPending (ring : Ring) (i : Nat) (f : DescField) (s : State) : (s.noteRead ring i f).irqPending = s.irqPending := rfl
@[simp] theorem State.noteRead_nicSeen (ring : Ring) (i : Nat) (f : DescField) (s : State) : (s.noteRead ring i f).nicSeen = s.nicSeen := rfl
@[simp] theorem State.noteRead_input (ring : Ring) (i : Nat) (f : DescField) (s : State) : (s.noteRead ring i f).input = s.input := rfl
@[simp] theorem State.noteRead_acquisitions (ring : Ring) (i : Nat) (f : DescField) (s : State) : (s.noteRead ring i f).acquisitions = s.acquisitions := rfl
@[simp] theorem State.noteRead_work (ring : Ring) (i : Nat) (f : DescField) (s : State) : (s.noteRead ring i f).work = s.work := rfl
@[simp] theorem State.noteRead_caller (ring : Ring) (i : Nat) (f : DescField) (s : State) : (s.noteRead ring i f).caller = s.caller := rfl
@[simp] theorem State.noteRead_result (ring : Ring) (i : Nat) (f : DescField) (s : State) : (s.noteRead ring i f).result = s.result := rfl
@[simp] theorem State.noteRead_history (ring : Ring) (i : Nat) (f : DescField) (s : State) : (s.noteRead ring i f).history = s.history ++ [.descRead ring i f] := rfl
@[simp] theorem State.noteRead_freeCount (ring : Ring) (i : Nat) (f : DescField) (s : State) : (s.noteRead ring i f).freeCount = s.freeCount := rfl

/-! ### `State.descWrite32` -/

@[simp] theorem State.descWrite32_cfg (ring : Ring) (i : Nat) (f : DescField) (v : Word) (s : State) : (s.descWrite32 ring i f v).cfg = s.cfg := rfl
@[simp] theorem State.descWrite32_mem (ring : Ring) (i : Nat) (f : DescField) (v : Word) (s : State) : (s.descWrite32 ring i f v).mem = s.mem.write32 (s.descAddr ring i f) v := rfl
@[simp] theorem State.descWrite32_txNext (ring : Ring) (i : Nat) (f : DescField) (v : Word) (s : State) : (s.descWrite32 ring i f v).txNext = s.txNext := rfl
@[simp] theorem State.descWrite32_txDirty (ring : Ring) (i : Nat) (f : DescField) (v : Word) (s : State) : (s.descWrite32 ring i f v).txDirty = s.txDirty := rfl
@[simp] theorem State.descWrite32_txFree (ring : Ring) (i : Nat) (f : DescField) (v : Word) (s : State) : (s.descWrite32 ring i f v).txFree = s.txFree := rfl
@[simp] theorem State.descWrite32_rxIndex (ring : Ring) (i : Nat) (f : DescField) (v : Word) (s : State) : (s.descWrite32 ring i f v).rxIndex = s.rxIndex := rfl
@[simp] theorem State.descWrite32_txStalled (ring : Ring) (i : Nat) (f : DescField) (v : Word) (s : State) : (s.descWrite32 ring i f v).txStalled = s.txStalled := rfl
@[simp] theorem State.descWrite32_txqEnabled (ring : Ring) (i : Nat) (f : DescField) (v : Word) (s : State) : (s.descWrite32 ring i f v).txqEnabled = s.txqEnabled := rfl
@[simp] theorem State.descWrite32_txDoneCount (ring : Ring) (i : Nat) (f : DescField) (v : Word) (s : State) : (s.descWrite32 ring i f v).txDoneCount = s.txDoneCount := rfl
@[simp] theorem State.descWrite32_txDoneLast (ring : Ring) (i : Nat) (f : DescField) (v : Word) (s : State) : (s.descWrite32 ring i f v).txDoneLast = s.txDoneLast := rfl
@[simp] theorem State.descWrite32_deadlockWarn (ring : Ring) (i : Nat) (f : DescField) (v : Word) (s : State) : (s.descWrite32 ring i f v).deadlockWarn = s.deadlockWarn := rfl
@[simp] theorem State.descWrite32_enabled (ring : Ring) (i : Nat) (f : DescField) (v : Word) (s : State) : (s.descWrite32 ring i f v).enabled = s.enabled := rfl
@[simp] theorem State.descWrite32_link (ring : Ring) (i : Nat) (f : DescField) (v : Word) (s : State) : (s.descWrite32 ring i f v).link = s.link := rfl
@[simp] theorem State.descWrite32_txSlot (ring : Ring) (i : Nat) (f : DescField) (v : Word) (s : State) : (s.descWrite32 ring i f v).txSlot = s.txSlot := rfl
@[simp] theorem State.descWrite32_rxSlot (ring : Ring) (i : Nat) (f : DescField) (v : Word) (s : State) : (s.descWrite32 ring i f v).rxSlot = s.rxSlot := rfl
@[simp] theorem State.descWrite32_txPending (ring : Ring) (i : Nat) (f : DescField) (v : Word) (s : State) : (s.descWrite32 ring i f v).txPending = s.txPending := rfl
@[simp] theorem State.descWrite32_ctrResourceErrors (ring : Ring) (i : Nat) (f : DescField) (v : Word) (s : State) : (s.descWrite32 ring i f v).ctrResourceErrors = s.ctrResourceErrors := rfl
@[simp] theorem State.descWrite32_ctrFrameTooLong (ring : Ring) (i : Nat) (f : DescField) (v : Word) (s : State) : (s.descWrite32 ring i f v).ctrFrameTooLong = s.ctrFrameTooLong := rfl
@[simp] theorem State.descWrite32_ctrTimeouts (ring : Ring) (i : Nat) (f : DescField) (v : Word) (s : State) : (s.descWrite32 ring i f v).ctrTimeouts = s.ctrTimeouts := rfl
@[simp] theorem State.descWrite32_ctrResets (ring : Ring) (i : Nat) (f : DescField) (v : Word) (s : State) : (s.descWrite32 ring i f v).ctrResets = s.ctrResets := rfl
@[simp] theorem State.descWrite32_ctrTxDrops (ring : Ring) (i : Nat) (f : DescField) (v : Word) (s : State) : (s.descWrite32 ring i f v).ctrTxDrops = s.ctrTxDrops := rfl
@[simp] theorem State.descWrite32_statsPending (ring : Ring) (i : Nat) (f : DescField) (v : Word) (s : State) : (s.descWrite32 ring i f v).statsPending = s.statsPending := rfl
@[simp] theorem State.descWrite32_txMem (ring : Ring) (i : Nat) (f : DescField) (v : Word) (s : State) : (s.descWrite32 ring i f v).txMem = s.txMem := rfl
@[simp] theorem State.descWrite32_rxMem (ring : Ring) (i : Nat) (f : DescField) (v : Word) (s : State) : (s.descWrite32 ring i f v).rxMem = s.rxMem := rfl
@[simp] theorem State.descWrite32_stMem (ring : Ring) (i : Nat) (f : DescField) (v : Word) (s : State) : (s.descWrite32 ring i f v).stMem = s.stMem := rfl
@[simp] theorem State.descWrite32_regs (ring : Ring) (i : Nat) (f : DescField) (v : Word) (s : State) : (s.descWrite32 ring i f v).regs = s.regs := rfl
@[simp] theorem State.descWrite32_timerOn (ring : Ring) (i : Nat) (f : DescField) (v : Word) (s : State) : (s.descWrite32 ring i f v).timerOn = s.timerOn := rfl
@[simp] theorem State.descWrite32_everEnabled (ring : Ring) (i : Nat) (f : DescField) (v : Word) (s : State) : (s.descWrite32 ring i f v).everEnabled = s.everEnabled := rfl
@[simp] theorem State.descWrite32_txUnsubmitted (ring : Ring) (i : Nat) (f : DescField) (v : Word) (s : State) : (s.descWrite32 ring i f v).txUnsubmitted = s.txUnsubmitted := rfl
@[simp] theorem State.descWrite32_heldPackets (ring : Ring) (i : Nat) (f : DescField) (v : Word) (s : State) : (s.descWrite32 ring i f v).heldPackets = s.heldPackets := rfl
@[simp] theorem State.descWrite32_heldBuffers (ring : Ring) (i : Nat) (f : DescField) (v : Word) (s : State) : (s.descWrite32 ring i f v).heldBuffers = s.heldBuffers := rfl
@[simp] theorem State.descWrite32_hostBufs (ring : Ring) (i : Nat) (f : DescField) (v : Word) (s : State) : (s.descWrite32 ring i f v).hostBufs = s.hostBufs := rfl
@[simp] theorem State.descWrite32_nicTxBusy (ring : Ring) (i : Nat) (f : DescField) (v : Word) (s : State) : (s.descWrite32 ring i f v).nicTxBusy = s.nicTxBusy := rfl
@[simp] theorem State.descWrite32_irqPending (ring : Ring) (i : Nat) (f : DescField) (v : Word) (s : State) : (s.descWrite32 ring i f v).irqPending = s.irqPending := rfl
@[simp] theorem State.descWrite32_nicSeen (ring : Ring) (i : Nat) (f : DescField) (v : Word) (s : State) : (s.descWrite32 ring i f v).nicSeen = s.nicSeen := rfl
@[simp] theorem State.descWrite32_input (ring : Ring) (i : Nat) (f : DescField) (v : Word) (s : State) : (s.descWrite32 ring i f v).input = s.input := rfl
@[simp] theorem State.descWrite32_acquisitions (ring : Ring) (i : Nat) (f : DescField) (v : Word) (s : State) : (s.descWrite32 ring i f v).acquisitions = s.acquisitions := rfl
@[simp] theorem State.descWrite32_work (ring : Ring) (i : Nat) (f : DescField) (v : Word) (s : State) : (s.descWrite32 ring i f v).work = s.work := rfl
@[simp] theorem State.descWrite32_caller (ring : Ring) (i : Nat) (f : DescField) (v : Word) (s : State) : (s.descWrite32 ring i f v).caller = s.caller := rfl
@[simp] theorem State.descWrite32_result (ring : Ring) (i : Nat) (f : DescField) (v : Word) (s : State) : (s.descWrite32 ring i f v).result = s.result := rfl
@[simp] theorem State.descWrite32_history (ring : Ring) (i : Nat) (f : DescField) (v : Word) (s : State) : (s.descWrite32 ring i f v).history = s.history ++ [.descWrite ring i f (v.setWidth 64)] := rfl
@[simp] theorem State.descWrite32_freeCount (ring : Ring) (i : Nat) (f : DescField) (v : Word) (s : State) : (s.descWrite32 ring i f v).freeCount = s.freeCount := rfl

/-! ### `State.descWriteAddr` -/

@[simp] theorem State.descWriteAddr_cfg (ring : Ring) (i : Nat) (v : Addr) (s : State) : (s.descWriteAddr ring i v).cfg = s.cfg := rfl
@[simp] theorem State.descWriteAddr_mem (ring : Ring) (i : Nat) (v : Addr) (s : State) : (s.descWriteAddr ring i v).mem = s.mem.write64 (s.descAddr ring i .addr) v := rfl
@[simp] theorem State.descWriteAddr_txNext (ring : Ring) (i : Nat) (v : Addr) (s : State) : (s.descWriteAddr ring i v).txNext = s.txNext := rfl
@[simp] theorem State.descWriteAddr_txDirty (ring : Ring) (i : Nat) (v : Addr) (s : State) : (s.descWriteAddr ring i v).txDirty = s.txDirty := rfl
@[simp] theorem State.descWriteAddr_txFree (ring : Ring) (i : Nat) (v : Addr) (s : State) : (s.descWriteAddr ring i v).txFree = s.txFree := rfl
@[simp] theorem State.descWriteAddr_rxIndex (ring : Ring) (i : Nat) (v : Addr) (s : State) : (s.descWriteAddr ring i v).rxIndex = s.rxIndex := rfl
@[simp] theorem State.descWriteAddr_txStalled (ring : Ring) (i : Nat) (v : Addr) (s : State) : (s.descWriteAddr ring i v).txStalled = s.txStalled := rfl
@[simp] theorem State.descWriteAddr_txqEnabled (ring : Ring) (i : Nat) (v : Addr) (s : State) : (s.descWriteAddr ring i v).txqEnabled = s.txqEnabled := rfl
@[simp] theorem State.descWriteAddr_txDoneCount (ring : Ring) (i : Nat) (v : Addr) (s : State) : (s.descWriteAddr ring i v).txDoneCount = s.txDoneCount := rfl
@[simp] theorem State.descWriteAddr_txDoneLast (ring : Ring) (i : Nat) (v : Addr) (s : State) : (s.descWriteAddr ring i v).txDoneLast = s.txDoneLast := rfl
@[simp] theorem State.descWriteAddr_deadlockWarn (ring : Ring) (i : Nat) (v : Addr) (s : State) : (s.descWriteAddr ring i v).deadlockWarn = s.deadlockWarn := rfl
@[simp] theorem State.descWriteAddr_enabled (ring : Ring) (i : Nat) (v : Addr) (s : State) : (s.descWriteAddr ring i v).enabled = s.enabled := rfl
@[simp] theorem State.descWriteAddr_link (ring : Ring) (i : Nat) (v : Addr) (s : State) : (s.descWriteAddr ring i v).link = s.link := rfl
@[simp] theorem State.descWriteAddr_txSlot (ring : Ring) (i : Nat) (v : Addr) (s : State) : (s.descWriteAddr ring i v).txSlot = s.txSlot := rfl
@[simp] theorem State.descWriteAddr_rxSlot (ring : Ring) (i : Nat) (v : Addr) (s : State) : (s.descWriteAddr ring i v).rxSlot = s.rxSlot := rfl
@[simp] theorem State.descWriteAddr_txPending (ring : Ring) (i : Nat) (v : Addr) (s : State) : (s.descWriteAddr ring i v).txPending = s.txPending := rfl
@[simp] theorem State.descWriteAddr_ctrResourceErrors (ring : Ring) (i : Nat) (v : Addr) (s : State) : (s.descWriteAddr ring i v).ctrResourceErrors = s.ctrResourceErrors := rfl
@[simp] theorem State.descWriteAddr_ctrFrameTooLong (ring : Ring) (i : Nat) (v : Addr) (s : State) : (s.descWriteAddr ring i v).ctrFrameTooLong = s.ctrFrameTooLong := rfl
@[simp] theorem State.descWriteAddr_ctrTimeouts (ring : Ring) (i : Nat) (v : Addr) (s : State) : (s.descWriteAddr ring i v).ctrTimeouts = s.ctrTimeouts := rfl
@[simp] theorem State.descWriteAddr_ctrResets (ring : Ring) (i : Nat) (v : Addr) (s : State) : (s.descWriteAddr ring i v).ctrResets = s.ctrResets := rfl
@[simp] theorem State.descWriteAddr_ctrTxDrops (ring : Ring) (i : Nat) (v : Addr) (s : State) : (s.descWriteAddr ring i v).ctrTxDrops = s.ctrTxDrops := rfl
@[simp] theorem State.descWriteAddr_statsPending (ring : Ring) (i : Nat) (v : Addr) (s : State) : (s.descWriteAddr ring i v).statsPending = s.statsPending := rfl
@[simp] theorem State.descWriteAddr_txMem (ring : Ring) (i : Nat) (v : Addr) (s : State) : (s.descWriteAddr ring i v).txMem = s.txMem := rfl
@[simp] theorem State.descWriteAddr_rxMem (ring : Ring) (i : Nat) (v : Addr) (s : State) : (s.descWriteAddr ring i v).rxMem = s.rxMem := rfl
@[simp] theorem State.descWriteAddr_stMem (ring : Ring) (i : Nat) (v : Addr) (s : State) : (s.descWriteAddr ring i v).stMem = s.stMem := rfl
@[simp] theorem State.descWriteAddr_regs (ring : Ring) (i : Nat) (v : Addr) (s : State) : (s.descWriteAddr ring i v).regs = s.regs := rfl
@[simp] theorem State.descWriteAddr_timerOn (ring : Ring) (i : Nat) (v : Addr) (s : State) : (s.descWriteAddr ring i v).timerOn = s.timerOn := rfl
@[simp] theorem State.descWriteAddr_everEnabled (ring : Ring) (i : Nat) (v : Addr) (s : State) : (s.descWriteAddr ring i v).everEnabled = s.everEnabled := rfl
@[simp] theorem State.descWriteAddr_txUnsubmitted (ring : Ring) (i : Nat) (v : Addr) (s : State) : (s.descWriteAddr ring i v).txUnsubmitted = s.txUnsubmitted := rfl
@[simp] theorem State.descWriteAddr_heldPackets (ring : Ring) (i : Nat) (v : Addr) (s : State) : (s.descWriteAddr ring i v).heldPackets = s.heldPackets := rfl
@[simp] theorem State.descWriteAddr_heldBuffers (ring : Ring) (i : Nat) (v : Addr) (s : State) : (s.descWriteAddr ring i v).heldBuffers = s.heldBuffers := rfl
@[simp] theorem State.descWriteAddr_hostBufs (ring : Ring) (i : Nat) (v : Addr) (s : State) : (s.descWriteAddr ring i v).hostBufs = s.hostBufs := rfl
@[simp] theorem State.descWriteAddr_nicTxBusy (ring : Ring) (i : Nat) (v : Addr) (s : State) : (s.descWriteAddr ring i v).nicTxBusy = s.nicTxBusy := rfl
@[simp] theorem State.descWriteAddr_irqPending (ring : Ring) (i : Nat) (v : Addr) (s : State) : (s.descWriteAddr ring i v).irqPending = s.irqPending := rfl
@[simp] theorem State.descWriteAddr_nicSeen (ring : Ring) (i : Nat) (v : Addr) (s : State) : (s.descWriteAddr ring i v).nicSeen = s.nicSeen := rfl
@[simp] theorem State.descWriteAddr_input (ring : Ring) (i : Nat) (v : Addr) (s : State) : (s.descWriteAddr ring i v).input = s.input := rfl
@[simp] theorem State.descWriteAddr_acquisitions (ring : Ring) (i : Nat) (v : Addr) (s : State) : (s.descWriteAddr ring i v).acquisitions = s.acquisitions := rfl
@[simp] theorem State.descWriteAddr_work (ring : Ring) (i : Nat) (v : Addr) (s : State) : (s.descWriteAddr ring i v).work = s.work := rfl
@[simp] theorem State.descWriteAddr_caller (ring : Ring) (i : Nat) (v : Addr) (s : State) : (s.descWriteAddr ring i v).caller = s.caller := rfl
@[simp] theorem State.descWriteAddr_result (ring : Ring) (i : Nat) (v : Addr) (s : State) : (s.descWriteAddr ring i v).result = s.result := rfl
@[simp] theorem State.descWriteAddr_history (ring : Ring) (i : Nat) (v : Addr) (s : State) : (s.descWriteAddr ring i v).history = s.history ++ [.descWrite ring i .addr v] := rfl
@[simp] theorem State.descWriteAddr_freeCount (ring : Ring) (i : Nat) (v : Addr) (s : State) : (s.descWriteAddr ring i v).freeCount = s.freeCount := rfl

/-! ### `atomicAdd` -/

@[simp] theorem atomicAdd_cfg (k : Int) (s : State) : (atomicAdd k s).cfg = s.cfg := rfl
@[simp] theorem atomicAdd_mem (k : Int) (s : State) : (atomicAdd k s).mem = s.mem := rfl
@[simp] theorem atomicAdd_txNext (k : Int) (s : State) : (atomicAdd k s).txNext = s.txNext := rfl
@[simp] theorem atomicAdd_txDirty (k : Int) (s : State) : (atomicAdd k s).txDirty = s.txDirty := rfl
@[simp] theorem atomicAdd_txFree (k : Int) (s : State) : (atomicAdd k s).txFree = wrapI32 (s.txFree + k) := rfl
@[simp] theorem atomicAdd_rxIndex (k : Int) (s : State) : (atomicAdd k s).rxIndex = s.rxIndex := rfl
@[simp] theorem atomicAdd_txStalled (k : Int) (s : State) : (atomicAdd k s).txStalled = s.txStalled := rfl
@[simp] theorem atomicAdd_txqEnabled (k : Int) (s : State) : (atomicAdd k s).txqEnabled = s.txqEnabled := rfl
@[simp] theorem atomicAdd_txDoneCount (k : Int) (s : State) : (atomicAdd k s).txDoneCount = s.txDoneCount := rfl
@[simp] theorem atomicAdd_txDoneLast (k : Int) (s : State) : (atomicAdd k s).txDoneLast = s.txDoneLast := rfl
@[simp] theorem atomicAdd_deadlockWarn (k : Int) (s : State) : (atomicAdd k s).deadlockWarn = s.deadlockWarn := rfl
@[simp] theorem atomicAdd_enabled (k : Int) (s : State) : (atomicAdd k s).enabled = s.enabled := rfl
@[simp] theorem atomicAdd_link (k : Int) (s : State) : (atomicAdd k s).link = s.link := rfl
@[simp] theorem atomicAdd_txSlot (k : Int) (s : State) : (atomicAdd k s).txSlot = s.txSlot := rfl
@[simp] theorem atomicAdd_rxSlot (k : Int) (s : State) : (atomicAdd k s).rxSlot = s.rxSlot := rfl
@[simp] theorem atomicAdd_txPending (k : Int) (s : State) : (atomicAdd k s).txPending = s.txPending := rfl
@[simp] theorem atomicAdd_ctrResourceErrors (k : Int) (s : State) : (atomicAdd k s).ctrResourceErrors = s.ctrResourceErrors := rfl
@[simp] theorem atomicAdd_ctrFrameTooLong (k : Int) (s : State) : (atomicAdd k s).ctrFrameTooLong = s.ctrFrameTooLong := rfl
@[simp] theorem atomicAdd_ctrTimeouts (k : Int) (s : State) : (atomicAdd k s).ctrTimeouts = s.ctrTimeouts := rfl
@[simp] theorem atomicAdd_ctrResets (k : Int) (s : State) : (atomicAdd k s).ctrResets = s.ctrResets := rfl
@[simp] theorem atomicAdd_ctrTxDrops (k : Int) (s : State) : (atomicAdd k s).ctrTxDrops = s.ctrTxDrops := rfl
@[simp] theorem atomicAdd_statsPending (k : Int) (s : State) : (atomicAdd k s).statsPending = s.statsPending := rfl
@[simp] theorem atomicAdd_txMem (k : Int) (s : State) : (atomicAdd k s).txMem = s.txMem := rfl
@[simp] theorem atomicAdd_rxMem (k : Int) (s : State) : (atomicAdd k s).rxMem = s.rxMem := rfl
@[simp] theorem atomicAdd_stMem (k : Int) (s : State) : (atomicAdd k s).stMem = s.stMem := rfl
@[simp] theorem atomicAdd_regs (k : Int) (s : State) : (atomicAdd k s).regs = s.regs := rfl
@[simp] theorem atomicAdd_timerOn (k : Int) (s : State) : (atomicAdd k s).timerOn = s.timerOn := rfl
@[simp] theorem atomicAdd_everEnabled (k : Int) (s : State) : (atomicAdd k s).everEnabled = s.everEnabled := rfl
@[simp] theorem atomicAdd_txUnsubmitted (k : Int) (s : State) : (atomicAdd k s).txUnsubmitted = s.txUnsubmitted := rfl
@[simp] theorem atomicAdd_heldPackets (k : Int) (s : State) : (atomicAdd k s).heldPackets = s.heldPackets := rfl
@[simp] theorem atomicAdd_heldBuffers (k : Int) (s : State) : (atomicAdd k s).heldBuffers = s.heldBuffers := rfl
@[simp] theorem atomicAdd_hostBufs (k : Int) (s : State) : (atomicAdd k s).hostBufs = s.hostBufs := rfl
@[simp] theorem atomicAdd_nicTxBusy (k : Int) (s : State) : (atomicAdd k s).nicTxBusy = s.nicTxBusy := rfl
@[simp] theorem atomicAdd_irqPending (k : Int) (s : State) : (atomicAdd k s).irqPending = s.irqPending := rfl
@[simp] theorem atomicAdd_nicSeen (k : Int) (s : State) : (atomicAdd k s).nicSeen = s.nicSeen := rfl
@[simp] theorem atomicAdd_input (k : Int) (s : State) : (atomicAdd k s).input = s.input := rfl
@[simp] theorem atomicAdd_acquisitions (k : Int) (s : State) : (atomicAdd k s).acquisitions = s.acquisitions := rfl
@[simp] theorem atomicAdd_work (k : Int) (s : State) : (atomicAdd k s).work = s.work := rfl
@[simp] theorem atomicAdd_caller (k : Int) (s : State) : (atomicAdd k s).caller = s.caller := rfl
@[simp] theorem atomicAdd_result (k : Int) (s : State) : (atomicAdd k s).result = s.result := rfl
@[simp] theorem atomicAdd_history (k : Int) (s : State) : (atomicAdd k s).history = s.history := rfl
@[simp] theorem atomicAdd_freeCount (k : Int) (s : State) : (atomicAdd k s).freeCount = s.freeCount := rfl

/-! ### `ringDoorbell` -/

@[simp] theorem ringDoorbell_cfg (s : State) : (ringDoorbell s).cfg = s.cfg := rfl
@[simp] theorem ringDoorbell_mem (s : State) : (ringDoorbell s).mem = s.mem := rfl
@[simp] theorem ringDoorbell_txNext (s : State) : (ringDoorbell s).txNext = s.txNext := rfl
@[simp] theorem ringDoorbell_txDirty (s : State) : (ringDoorbell s).txDirty = s.txDirty := rfl
@[simp] theorem ringDoorbell_txFree (s : State) : (ringDoorbell s).txFree = s.txFree := rfl
@[simp] theorem ringDoorbell_rxIndex (s : State) : (ringDoorbell s).rxIndex = s.rxIndex := rfl
@[simp] theorem ringDoorbell_txStalled (s : State) : (ringDoorbell s).txStalled = s.txStalled := rfl
@[simp] theorem ringDoorbell_txqEnabled (s : State) : (ringDoorbell s).txqEnabled = s.txqEnabled := rfl
@[simp] theorem ringDoorbell_txDoneCount (s : State) : (ringDoorbell s).txDoneCount = s.txDoneCount := rfl
@[simp] theorem ringDoorbell_txDoneLast (s : State) : (ringDoorbell s).txDoneLast = s.txDoneLast := rfl
@[simp] theorem ringDoorbell_deadlockWarn (s : State) : (ringDoorbell s).deadlockWarn = s.deadlockWarn := rfl
@[simp] theorem ringDoorbell_enabled (s : State) : (ringDoorbell s).enabled = s.enabled := rfl
@[simp] theorem ringDoorbell_link (s : State) : (ringDoorbell s).link = s.link := rfl
@[simp] theorem ringDoorbell_txSlot (s : State) : (ringDoorbell s).txSlot = s.txSlot := rfl
@[simp] theorem ringDoorbell_rxSlot (s : State) : (ringDoorbell s).rxSlot = s.rxSlot := rfl
@[simp] theorem ringDoorbell_txPending (s : State) : (ringDoorbell s).txPending = s.txPending := rfl
@[simp] theorem ringDoorbell_ctrResourceErrors (s : State) : (ringDoorbell s).ctrResourceErrors = s.ctrResourceErrors := rfl
@[simp] theorem ringDoorbell_ctrFrameTooLong (s : State) : (ringDoorbell s).ctrFrameTooLong = s.ctrFrameTooLong := rfl
@[simp] theorem ringDoorbell_ctrTimeouts (s : State) : (ringDoorbell s).ctrTimeouts = s.ctrTimeouts := rfl
@[simp] theorem ringDoorbell_ctrResets (s : State) : (ringDoorbell s).ctrResets = s.ctrResets := rfl
@[simp] theorem ringDoorbell_ctrTxDrops (s : State) : (ringDoorbell s).ctrTxDrops = s.ctrTxDrops := rfl
@[simp] theorem ringDoorbell_statsPending (s : State) : (ringDoorbell s).statsPending = s.statsPending := rfl
@[simp] theorem ringDoorbell_txMem (s : State) : (ringDoorbell s).txMem = s.txMem := rfl
@[simp] theorem ringDoorbell_rxMem (s : State) : (ringDoorbell s).rxMem = s.rxMem := rfl
@[simp] theorem ringDoorbell_stMem (s : State) : (ringDoorbell s).stMem = s.stMem := rfl
@[simp] theorem ringDoorbell_regs (s : State) : (ringDoorbell s).regs = s.regs := rfl
@[simp] theorem ringDoorbell_timerOn (s : State) : (ringDoorbell s).timerOn = s.timerOn := rfl
@[simp] theorem ringDoorbell_everEnabled (s : State) : (ringDoorbell s).everEnabled = s.everEnabled := rfl
@[simp] theorem ringDoorbell_txUnsubmitted (s : State) : (ringDoorbell s).txUnsubmitted = s.txUnsubmitted := rfl
@[simp] theorem ringDoorbell_heldPackets (s : State) : (ringDoorbell s).heldPackets = s.heldPackets := rfl
@[simp] theorem ringDoorbell_heldBuffers (s : State) : (ringDoorbell s).heldBuffers = s.heldBuffers := rfl
@[simp] theorem ringDoorbell_hostBufs (s : State) : (ringDoorbell s).hostBufs = s.hostBufs := rfl
@[simp] theorem ringDoorbell_nicTxBusy (s : State) : (ringDoorbell s).nicTxBusy = s.nicTxBusy := rfl
@[simp] theorem ringDoorbell_irqPending (s : State) : (ringDoorbell s).irqPending = s.irqPending := rfl
@[simp] theorem ringDoorbell_nicSeen (s : State) : (ringDoorbell s).nicSeen = s.nicSeen := rfl
@[simp] theorem ringDoorbell_input (s : State) : (ringDoorbell s).input = s.input := rfl
@[simp] theorem ringDoorbell_acquisitions (s : State) : (ringDoorbell s).acquisitions = s.acquisitions := rfl
@[simp] theorem ringDoorbell_work (s : State) : (ringDoorbell s).work = s.work := rfl
@[simp] theorem ringDoorbell_caller (s : State) : (ringDoorbell s).caller = s.caller := rfl
@[simp] theorem ringDoorbell_result (s : State) : (ringDoorbell s).result = s.result := rfl
@[simp] theorem ringDoorbell_history (s : State) : (ringDoorbell s).history = s.history ++ [.doorbell s.cfg.reg.txDoorbell s.cfg.reg.doorbellValue] := rfl
@[simp] theorem ringDoorbell_freeCount (s : State) : (ringDoorbell s).freeCount = s.freeCount := rfl

/-! ### `holdPacket` -/

@[simp] theorem holdPacket_cfg (h : Handle) (s : State) : (holdPacket h s).cfg = s.cfg := rfl
@[simp] theorem holdPacket_mem (h : Handle) (s : State) : (holdPacket h s).mem = s.mem := rfl
@[simp] theorem holdPacket_txNext (h : Handle) (s : State) : (holdPacket h s).txNext = s.txNext := rfl
@[simp] theorem holdPacket_txDirty (h : Handle) (s : State) : (holdPacket h s).txDirty = s.txDirty := rfl
@[simp] theorem holdPacket_txFree (h : Handle) (s : State) : (holdPacket h s).txFree = s.txFree := rfl
@[simp] theorem holdPacket_rxIndex (h : Handle) (s : State) : (holdPacket h s).rxIndex = s.rxIndex := rfl
@[simp] theorem holdPacket_txStalled (h : Handle) (s : State) : (holdPacket h s).txStalled = s.txStalled := rfl
@[simp] theorem holdPacket_txqEnabled (h : Handle) (s : State) : (holdPacket h s).txqEnabled = s.txqEnabled := rfl
@[simp] theorem holdPacket_txDoneCount (h : Handle) (s : State) : (holdPacket h s).txDoneCount = s.txDoneCount := rfl
@[simp] theorem holdPacket_txDoneLast (h : Handle) (s : State) : (holdPacket h s).txDoneLast = s.txDoneLast := rfl
@[simp] theorem holdPacket_deadlockWarn (h : Handle) (s : State) : (holdPacket h s).deadlockWarn = s.deadlockWarn := rfl
@[simp] theorem holdPacket_enabled (h : Handle) (s : State) : (holdPacket h s).enabled = s.enabled := rfl
@[simp] theorem holdPacket_link (h : Handle) (s : State) : (holdPacket h s).link = s.link := rfl
@[simp] theorem holdPacket_txSlot (h : Handle) (s : State) : (holdPacket h s).txSlot = s.txSlot := rfl
@[simp] theorem holdPacket_rxSlot (h : Handle) (s : State) : (holdPacket h s).rxSlot = s.rxSlot := rfl
@[simp] theorem holdPacket_txPending (h : Handle) (s : State) : (holdPacket h s).txPending = s.txPending := rfl
@[simp] theorem holdPacket_ctrResourceErrors (h : Handle) (s : State) : (holdPacket h s).ctrResourceErrors = s.ctrResourceErrors := rfl
@[simp] theorem holdPacket_ctrFrameTooLong (h : Handle) (s : State) : (holdPacket h s).ctrFrameTooLong = s.ctrFrameTooLong := rfl
@[simp] theorem holdPacket_ctrTimeouts (h : Handle) (s : State) : (holdPacket h s).ctrTimeouts = s.ctrTimeouts := rfl
@[simp] theorem holdPacket_ctrResets (h : Handle) (s : State) : (holdPacket h s).ctrResets = s.ctrResets := rfl
@[simp] theorem holdPacket_ctrTxDrops (h : Handle) (s : State) : (holdPacket h s).ctrTxDrops = s.ctrTxDrops := rfl
@[simp] theorem holdPacket_statsPending (h : Handle) (s : State) : (holdPacket h s).statsPending = s.statsPending := rfl
@[simp] theorem holdPacket_txMem (h : Handle) (s : State) : (holdPacket h s).txMem = s.txMem := rfl
@[simp] theorem holdPacket_rxMem (h : Handle) (s : State) : (holdPacket h s).rxMem = s.rxMem := rfl
@[simp] theorem holdPacket_stMem (h : Handle) (s : State) : (holdPacket h s).stMem = s.stMem := rfl
@[simp] theorem holdPacket_regs (h : Handle) (s : State) : (holdPacket h s).regs = s.regs := rfl
@[simp] theorem holdPacket_timerOn (h : Handle) (s : State) : (holdPacket h s).timerOn = s.timerOn := rfl
@[simp] theorem holdPacket_everEnabled (h : Handle) (s : State) : (holdPacket h s).everEnabled = s.everEnabled := rfl
@[simp] theorem holdPacket_txUnsubmitted (h : Handle) (s : State) : (holdPacket h s).txUnsubmitted = s.txUnsubmitted := rfl
@[simp] theorem holdPacket_heldPackets (h : Handle) (s : State) : (holdPacket h s).heldPackets = ⟨h, .allocated⟩ :: s.heldPackets := rfl
@[simp] theorem holdPacket_heldBuffers (h : Handle) (s : State) : (holdPacket h s).heldBuffers = s.heldBuffers := rfl
@[simp] theorem holdPacket_hostBufs (h : Handle) (s : State) : (holdPacket h s).hostBufs = s.hostBufs := rfl
@[simp] theorem holdPacket_nicTxBusy (h : Handle) (s : State) : (holdPacket h s).nicTxBusy = s.nicTxBusy := rfl
@[simp] theorem holdPacket_irqPending (h : Handle) (s : State) : (holdPacket h s).irqPending = s.irqPending := rfl
@[simp] theorem holdPacket_nicSeen (h : Handle) (s : State) : (holdPacket h s).nicSeen = s.nicSeen := rfl
@[simp] theorem holdPacket_input (h : Handle) (s : State) : (holdPacket h s).input = s.input := rfl
@[simp] theorem holdPacket_acquisitions (h : Handle) (s : State) : (holdPacket h s).acquisitions = s.acquisitions := rfl
@[simp] theorem holdPacket_work (h : Handle) (s : State) : (holdPacket h s).work = s.work := rfl
@[simp] theorem holdPacket_caller (h : Handle) (s : State) : (holdPacket h s).caller = s.caller := rfl
@[simp] theorem holdPacket_result (h : Handle) (s : State) : (holdPacket h s).result = s.result := rfl
@[simp] theorem holdPacket_history (h : Handle) (s : State) : (holdPacket h s).history = s.history := rfl
@[simp] theorem holdPacket_freeCount (h : Handle) (s : State) : (holdPacket h s).freeCount = s.freeCount := rfl

/-! ### `dropPacket` -/

@[simp] theorem dropPacket_cfg (h : Handle) (s : State) : (dropPacket h s).cfg = s.cfg := rfl
@[simp] theorem dropPacket_mem (h : Handle) (s : State) : (dropPacket h s).mem = s.mem := rfl
@[simp] theorem dropPacket_txNext (h : Handle) (s : State) : (dropPacket h s).txNext = s.txNext := rfl
@[simp] theorem dropPacket_txDirty (h : Handle) (s : State) : (dropPacket h s).txDirty = s.txDirty := rfl
@[simp] theorem dropPacket_txFree (h : Handle) (s : State) : (dropPacket h s).txFree = s.txFree := rfl
@[simp] theorem dropPacket_rxIndex (h : Handle) (s : State) : (dropPacket h s).rxIndex = s.rxIndex := rfl
@[simp] theorem dropPacket_txStalled (h : Handle) (s : State) : (dropPacket h s).txStalled = s.txStalled := rfl
@[simp] theorem dropPacket_txqEnabled (h : Handle) (s : State) : (dropPacket h s).txqEnabled = s.txqEnabled := rfl
@[simp] theorem dropPacket_txDoneCount (h : Handle) (s : State) : (dropPacket h s).txDoneCount = s.txDoneCount := rfl
@[simp] theorem dropPacket_txDoneLast (h : Handle) (s : State) : (dropPacket h s).txDoneLast = s.txDoneLast := rfl
@[simp] theorem dropPacket_deadlockWarn (h : Handle) (s : State) : (dropPacket h s).deadlockWarn = s.deadlockWarn := rfl
@[simp] theorem dropPacket_enabled (h : Handle) (s : State) : (dropPacket h s).enabled = s.enabled := rfl
@[simp] theorem dropPacket_link (h : Handle) (s : State) : (dropPacket h s).link = s.link := rfl
@[simp] theorem dropPacket_txSlot (h : Handle) (s : State) : (dropPacket h s).txSlot = s.txSlot := rfl
@[simp] theorem dropPacket_rxSlot (h : Handle) (s : State) : (dropPacket h s).rxSlot = s.rxSlot := rfl
@[simp] theorem dropPacket_txPending (h : Handle) (s : State) : (dropPacket h s).txPending = s.txPending := rfl
@[simp] theorem dropPacket_ctrResourceErrors (h : Handle) (s : State) : (dropPacket h s).ctrResourceErrors = s.ctrResourceErrors := rfl
@[simp] theorem dropPacket_ctrFrameTooLong (h : Handle) (s : State) : (dropPacket h s).ctrFrameTooLong = s.ctrFrameTooLong := rfl
@[simp] theorem dropPacket_ctrTimeouts (h : Handle) (s : State) : (dropPacket h s).ctrTimeouts = s.ctrTimeouts := rfl
@[simp] theorem dropPacket_ctrResets (h : Handle) (s : State) : (dropPacket h s).ctrResets = s.ctrResets := rfl
@[simp] theorem dropPacket_ctrTxDrops (h : Handle) (s : State) : (dropPacket h s).ctrTxDrops = s.ctrTxDrops := rfl
@[simp] theorem dropPacket_statsPending (h : Handle) (s : State) : (dropPacket h s).statsPending = s.statsPending := rfl
@[simp] theorem dropPacket_txMem (h : Handle) (s : State) : (dropPacket h s).txMem = s.txMem := rfl
@[simp] theorem dropPacket_rxMem (h : Handle) (s : State) : (dropPacket h s).rxMem = s.rxMem := rfl
@[simp] theorem dropPacket_stMem (h : Handle) (s : State) : (dropPacket h s).stMem = s.stMem := rfl
@[simp] theorem dropPacket_regs (h : Handle) (s : State) : (dropPacket h s).regs = s.regs := rfl
@[simp] theorem dropPacket_timerOn (h : Handle) (s : State) : (dropPacket h s).timerOn = s.timerOn := rfl
@[simp] theorem dropPacket_everEnabled (h : Handle) (s : State) : (dropPacket h s).everEnabled = s.everEnabled := rfl
@[simp] theorem dropPacket_txUnsubmitted (h : Handle) (s : State) : (dropPacket h s).txUnsubmitted = s.txUnsubmitted := rfl
@[simp] theorem dropPacket_heldPackets (h : Handle) (s : State) : (dropPacket h s).heldPackets = s.heldPackets.filter (·.h != h) := rfl
@[simp] theorem dropPacket_heldBuffers (h : Handle) (s : State) : (dropPacket h s).heldBuffers = s.heldBuffers := rfl
@[simp] theorem dropPacket_hostBufs (h : Handle) (s : State) : (dropPacket h s).hostBufs = s.hostBufs := rfl
@[simp] theorem dropPacket_nicTxBusy (h : Handle) (s : State) : (dropPacket h s).nicTxBusy = s.nicTxBusy := rfl
@[simp] theorem dropPacket_irqPending (h : Handle) (s : State) : (dropPacket h s).irqPending = s.irqPending := rfl
@[simp] theorem dropPacket_nicSeen (h : Handle) (s : State) : (dropPacket h s).nicSeen = s.nicSeen := rfl
@[simp] theorem dropPacket_input (h : Handle) (s : State) : (dropPacket h s).input = s.input := rfl
@[simp] theorem dropPacket_acquisitions (h : Handle) (s : State) : (dropPacket h s).acquisitions = s.acquisitions := rfl
@[simp] theorem dropPacket_work (h : Handle) (s : State) : (dropPacket h s).work = s.work := rfl
@[simp] theorem dropPacket_caller (h : Handle) (s : State) : (dropPacket h s).caller = s.caller := rfl
@[simp] theorem dropPacket_result (h : Handle) (s : State) : (dropPacket h s).result = s.result := rfl
@[simp] theorem dropPacket_history (h : Handle) (s : State) : (dropPacket h s).history = s.history := rfl
@[simp] theorem dropPacket_freeCount (h : Handle) (s : State) : (dropPacket h s).freeCount = s.freeCount := rfl

/-! ### `preparePacket` -/

@[simp] theorem preparePacket_cfg (h : Handle) (s : State) : (preparePacket h s).cfg = s.cfg := rfl
@[simp] theorem preparePacket_mem (h : Handle) (s : State) : (preparePacket h s).mem = s.mem := rfl
@[simp] theorem preparePacket_txNext (h : Handle) (s : State) : (preparePacket h s).txNext = s.txNext := rfl
@[simp] theorem preparePacket_txDirty (h : Handle) (s : State) : (preparePacket h s).txDirty = s.txDirty := rfl
@[simp] theorem preparePacket_txFree (h : Handle) (s : State) : (preparePacket h s).txFree = s.txFree := rfl
@[simp] theorem preparePacket_rxIndex (h : Handle) (s : State) : (preparePacket h s).rxIndex = s.rxIndex := rfl
@[simp] theorem preparePacket_txStalled (h : Handle) (s : State) : (preparePacket h s).txStalled = s.txStalled := rfl
@[simp] theorem preparePacket_txqEnabled (h : Handle) (s : State) : (preparePacket h s).txqEnabled = s.txqEnabled := rfl
@[simp] theorem preparePacket_txDoneCount (h : Handle) (s : State) : (preparePacket h s).txDoneCount = s.txDoneCount := rfl
@[simp] theorem preparePacket_txDoneLast (h : Handle) (s : State) : (preparePacket h s).txDoneLast = s.txDoneLast := rfl
@[simp] theorem preparePacket_deadlockWarn (h : Handle) (s : State) : (preparePacket h s).deadlockWarn = s.deadlockWarn := rfl
@[simp] theorem preparePacket_enabled (h : Handle) (s : State) : (preparePacket h s).enabled = s.enabled := rfl
@[simp] theorem preparePacket_link (h : Handle) (s : State) : (preparePacket h s).link = s.link := rfl
@[simp] theorem preparePacket_txSlot (h : Handle) (s : State) : (preparePacket h s).txSlot = s.txSlot := rfl
@[simp] theorem preparePacket_rxSlot (h : Handle) (s : State) : (preparePacket h s).rxSlot = s.rxSlot := rfl
@[simp] theorem preparePacket_txPending (h : Handle) (s : State) : (preparePacket h s).txPending = s.txPending := rfl
@[simp] theorem preparePacket_ctrResourceErrors (h : Handle) (s : State) : (preparePacket h s).ctrResourceErrors = s.ctrResourceErrors := rfl
@[simp] theorem preparePacket_ctrFrameTooLong (h : Handle) (s : State) : (preparePacket h s).ctrFrameTooLong = s.ctrFrameTooLong := rfl
@[simp] theorem preparePacket_ctrTimeouts (h : Handle) (s : State) : (preparePacket h s).ctrTimeouts = s.ctrTimeouts := rfl
@[simp] theorem preparePacket_ctrResets (h : Handle) (s : State) : (preparePacket h s).ctrResets = s.ctrResets := rfl
@[simp] theorem preparePacket_ctrTxDrops (h : Handle) (s : State) : (preparePacket h s).ctrTxDrops = s.ctrTxDrops := rfl
@[simp] theorem preparePacket_statsPending (h : Handle) (s : State) : (preparePacket h s).statsPending = s.statsPending := rfl
@[simp] theorem preparePacket_txMem (h : Handle) (s : State) : (preparePacket h s).txMem = s.txMem := rfl
@[simp] theorem preparePacket_rxMem (h : Handle) (s : State) : (preparePacket h s).rxMem = s.rxMem := rfl
@[simp] theorem preparePacket_stMem (h : Handle) (s : State) : (preparePacket h s).stMem = s.stMem := rfl
@[simp] theorem preparePacket_regs (h : Handle) (s : State) : (preparePacket h s).regs = s.regs := rfl
@[simp] theorem preparePacket_timerOn (h : Handle) (s : State) : (preparePacket h s).timerOn = s.timerOn := rfl
@[simp] theorem preparePacket_everEnabled (h : Handle) (s : State) : (preparePacket h s).everEnabled = s.everEnabled := rfl
@[simp] theorem preparePacket_txUnsubmitted (h : Handle) (s : State) : (preparePacket h s).txUnsubmitted = s.txUnsubmitted := rfl
@[simp] theorem preparePacket_heldBuffers (h : Handle) (s : State) : (preparePacket h s).heldBuffers = s.heldBuffers := rfl
@[simp] theorem preparePacket_hostBufs (h : Handle) (s : State) : (preparePacket h s).hostBufs = s.hostBufs := rfl
@[simp] theorem preparePacket_nicTxBusy (h : Handle) (s : State) : (preparePacket h s).nicTxBusy = s.nicTxBusy := rfl
@[simp] theorem preparePacket_irqPending (h : Handle) (s : State) : (preparePacket h s).irqPending = s.irqPending := rfl
@[simp] theorem preparePacket_nicSeen (h : Handle) (s : State) : (preparePacket h s).nicSeen = s.nicSeen := rfl
@[simp] theorem preparePacket_input (h : Handle) (s : State) : (preparePacket h s).input = s.input := rfl
@[simp] theorem preparePacket_acquisitions (h : Handle) (s : State) : (preparePacket h s).acquisitions = s.acquisitions := rfl
@[simp] theorem preparePacket_work (h : Handle) (s : State) : (preparePacket h s).work = s.work := rfl
@[simp] theorem preparePacket_caller (h : Handle) (s : State) : (preparePacket h s).caller = s.caller := rfl
@[simp] theorem preparePacket_result (h : Handle) (s : State) : (preparePacket h s).result = s.result := rfl
@[simp] theorem preparePacket_history (h : Handle) (s : State) : (preparePacket h s).history = s.history ++ [.dmaPrepare (.packet h)] := rfl
@[simp] theorem preparePacket_freeCount (h : Handle) (s : State) : (preparePacket h s).freeCount = s.freeCount := rfl

/-! ### `holdBuffer` -/

@[simp] theorem holdBuffer_cfg (h : Handle) (s : State) : (holdBuffer h s).cfg = s.cfg := rfl
@[simp] theorem holdBuffer_mem (h : Handle) (s : State) : (holdBuffer h s).mem = s.mem := rfl
@[simp] theorem holdBuffer_txNext (h : Handle) (s : State) : (holdBuffer h s).txNext = s.txNext := rfl
@[simp] theorem holdBuffer_txDirty (h : Handle) (s : State) : (holdBuffer h s).txDirty = s.txDirty := rfl
@[simp] theorem holdBuffer_txFree (h : Handle) (s : State) : (holdBuffer h s).txFree = s.txFree := rfl
@[simp] theorem holdBuffer_rxIndex (h : Handle) (s : State) : (holdBuffer h s).rxIndex = s.rxIndex := rfl
@[simp] theorem holdBuffer_txStalled (h : Handle) (s : State) : (holdBuffer h s).txStalled = s.txStalled := rfl
@[simp] theorem holdBuffer_txqEnabled (h : Handle) (s : State) : (holdBuffer h s).txqEnabled = s.txqEnabled := rfl
@[simp] theorem holdBuffer_txDoneCount (h : Handle) (s : State) : (holdBuffer h s).txDoneCount = s.txDoneCount := rfl
@[simp] theorem holdBuffer_txDoneLast (h : Handle) (s : State) : (holdBuffer h s).txDoneLast = s.txDoneLast := rfl
@[simp] theorem holdBuffer_deadlockWarn (h : Handle) (s : State) : (holdBuffer h s).deadlockWarn = s.deadlockWarn := rfl
@[simp] theorem holdBuffer_enabled (h : Handle) (s : State) : (holdBuffer h s).enabled = s.enabled := rfl
@[simp] theorem holdBuffer_link (h : Handle) (s : State) : (holdBuffer h s).link = s.link := rfl
@[simp] theorem holdBuffer_txSlot (h : Handle) (s : State) : (holdBuffer h s).txSlot = s.txSlot := rfl
@[simp] theorem holdBuffer_rxSlot (h : Handle) (s : State) : (holdBuffer h s).rxSlot = s.rxSlot := rfl
@[simp] theorem holdBuffer_txPending (h : Handle) (s : State) : (holdBuffer h s).txPending = s.txPending := rfl
@[simp] theorem holdBuffer_ctrResourceErrors (h : Handle) (s : State) : (holdBuffer h s).ctrResourceErrors = s.ctrResourceErrors := rfl
@[simp] theorem holdBuffer_ctrFrameTooLong (h : Handle) (s : State) : (holdBuffer h s).ctrFrameTooLong = s.ctrFrameTooLong := rfl
@[simp] theorem holdBuffer_ctrTimeouts (h : Handle) (s : State) : (holdBuffer h s).ctrTimeouts = s.ctrTimeouts := rfl
@[simp] theorem holdBuffer_ctrResets (h : Handle) (s : State) : (holdBuffer h s).ctrResets = s.ctrResets := rfl
@[simp] theorem holdBuffer_ctrTxDrops (h : Handle) (s : State) : (holdBuffer h s).ctrTxDrops = s.ctrTxDrops := rfl
@[simp] theorem holdBuffer_statsPending (h : Handle) (s : State) : (holdBuffer h s).statsPending = s.statsPending := rfl
@[simp] theorem holdBuffer_txMem (h : Handle) (s : State) : (holdBuffer h s).txMem = s.txMem := rfl
@[simp] theorem holdBuffer_rxMem (h : Handle) (s : State) : (holdBuffer h s).rxMem = s.rxMem := rfl
@[simp] theorem holdBuffer_stMem (h : Handle) (s : State) : (holdBuffer h s).stMem = s.stMem := rfl
@[simp] theorem holdBuffer_regs (h : Handle) (s : State) : (holdBuffer h s).regs = s.regs := rfl
@[simp] theorem holdBuffer_timerOn (h : Handle) (s : State) : (holdBuffer h s).timerOn = s.timerOn := rfl
@[simp] theorem holdBuffer_everEnabled (h : Handle) (s : State) : (holdBuffer h s).everEnabled = s.everEnabled := rfl
@[simp] theorem holdBuffer_txUnsubmitted (h : Handle) (s : State) : (holdBuffer h s).txUnsubmitted = s.txUnsubmitted := rfl
@[simp] theorem holdBuffer_heldPackets (h : Handle) (s : State) : (holdBuffer h s).heldPackets = s.heldPackets := rfl
@[simp] theorem holdBuffer_heldBuffers (h : Handle) (s : State) : (holdBuffer h s).heldBuffers = h :: s.heldBuffers := rfl
@[simp] theorem holdBuffer_hostBufs (h : Handle) (s : State) : (holdBuffer h s).hostBufs = s.hostBufs := rfl
@[simp] theorem holdBuffer_nicTxBusy (h : Handle) (s : State) : (holdBuffer h s).nicTxBusy = s.nicTxBusy := rfl
@[simp] theorem holdBuffer_irqPending (h : Handle) (s : State) : (holdBuffer h s).irqPending = s.irqPending := rfl
@[simp] theorem holdBuffer_nicSeen (h : Handle) (s : State) : (holdBuffer h s).nicSeen = s.nicSeen := rfl
@[simp] theorem holdBuffer_input (h : Handle) (s : State) : (holdBuffer h s).input = s.input := rfl
@[simp] theorem holdBuffer_acquisitions (h : Handle) (s : State) : (holdBuffer h s).acquisitions = s.acquisitions := rfl
@[simp] theorem holdBuffer_work (h : Handle) (s : State) : (holdBuffer h s).work = s.work := rfl
@[simp] theorem holdBuffer_caller (h : Handle) (s : State) : (holdBuffer h s).caller = s.caller := rfl
@[simp] theorem holdBuffer_result (h : Handle) (s : State) : (holdBuffer h s).result = s.result := rfl
@[simp] theorem holdBuffer_history (h : Handle) (s : State) : (holdBuffer h s).history = s.history ++ [.dmaPrepare (.buffer h)] := rfl
@[simp] theorem holdBuffer_freeCount (h : Handle) (s : State) : (holdBuffer h s).freeCount = s.freeCount := rfl

/-! ### `resetTxRegs` -/

@[simp] theorem resetTxRegs_cfg (s : State) : (resetTxRegs s).cfg = s.cfg := rfl
@[simp] theorem resetTxRegs_mem (s : State) : (resetTxRegs s).mem = s.mem := rfl
@[simp] theorem resetTxRegs_txNext (s : State) : (resetTxRegs s).txNext = 0 := rfl
@[simp] theorem resetTxRegs_txDirty (s : State) : (resetTxRegs s).txDirty = 0 := rfl
@[simp] theorem resetTxRegs_txFree (s : State) : (resetTxRegs s).txFree = s.cfg.nTx := rfl
@[simp] theorem resetTxRegs_rxIndex (s : State) : (resetTxRegs s).rxIndex = s.rxIndex := rfl
@[simp] theorem resetTxRegs_txStalled (s : State) : (resetTxRegs s).txStalled = false := rfl
@[simp] theorem resetTxRegs_txqEnabled (s : State) : (resetTxRegs s).txqEnabled = s.txqEnabled := rfl
@[simp] theorem resetTxRegs_txDoneCount (s : State) : (resetTxRegs s).txDoneCount = 0 := rfl
@[simp] theorem resetTxRegs_txDoneLast (s : State) : (resetTxRegs s).txDoneLast = 0 := rfl
@[simp] theorem resetTxRegs_deadlockWarn (s : State) : (resetTxRegs s).deadlockWarn = 0 := rfl
@[simp] theorem resetTxRegs_enabled (s : State) : (resetTxRegs s).enabled = s.enabled := rfl
@[simp] theorem resetTxRegs_link (s : State) : (resetTxRegs s).link = s.link := rfl
@[simp] theorem resetTxRegs_txSlot (s : State) : (resetTxRegs s).txSlot = s.txSlot := rfl
@[simp] theorem resetTxRegs_rxSlot (s : State) : (resetTxRegs s).rxSlot = s.rxSlot := rfl
@[simp] theorem resetTxRegs_txPending (s : State) : (resetTxRegs s).txPending = none := rfl
@[simp] theorem resetTxRegs_ctrResourceErrors (s : State) : (resetTxRegs s).ctrResourceErrors = s.ctrResourceErrors := rfl
@[simp] theorem resetTxRegs_ctrFrameTooLong (s : State) : (resetTxRegs s).ctrFrameTooLong = s.ctrFrameTooLong := rfl
@[simp] theorem resetTxRegs_ctrTimeouts (s : State) : (resetTxRegs s).ctrTimeouts = s.ctrTimeouts := rfl
@[simp] theorem resetTxRegs_ctrResets (s : State) : (resetTxRegs s).ctrResets = s.ctrResets := rfl
@[simp] theorem resetTxRegs_ctrTxDrops (s : State) : (resetTxRegs s).ctrTxDrops = s.ctrTxDrops := rfl
@[simp] theorem resetTxRegs_statsPending (s : State) : (resetTxRegs s).statsPending = s.statsPending := rfl
@[simp] theorem resetTxRegs_txMem (s : State) : (resetTxRegs s).txMem = s.txMem := rfl
@[simp] theorem resetTxRegs_rxMem (s : State) : (resetTxRegs s).rxMem = s.rxMem := rfl
@[simp] theorem resetTxRegs_stMem (s : State) : (resetTxRegs s).stMem = s.stMem := rfl
@[simp] theorem resetTxRegs_regs (s : State) : (resetTxRegs s).regs = s.regs := rfl
@[simp] theorem resetTxRegs_timerOn (s : State) : (resetTxRegs s).timerOn = s.timerOn := rfl
@[simp] theorem resetTxRegs_everEnabled (s : State) : (resetTxRegs s).everEnabled = s.everEnabled := rfl
@[simp] theorem resetTxRegs_txUnsubmitted (s : State) : (resetTxRegs s).txUnsubmitted = [] := rfl
@[simp] theorem resetTxRegs_heldPackets (s : State) : (resetTxRegs s).heldPackets = s.heldPackets := rfl
@[simp] theorem resetTxRegs_heldBuffers (s : State) : (resetTxRegs s).heldBuffers = s.heldBuffers := rfl
@[simp] theorem resetTxRegs_hostBufs (s : State) : (resetTxRegs s).hostBufs = s.hostBufs := rfl
@[simp] theorem resetTxRegs_nicTxBusy (s : State) : (resetTxRegs s).nicTxBusy = s.nicTxBusy := rfl
@[simp] theorem resetTxRegs_irqPending (s : State) : (resetTxRegs s).irqPending = s.irqPending := rfl
@[simp] theorem resetTxRegs_nicSeen (s : State) : (resetTxRegs s).nicSeen = s.nicSeen := rfl
@[simp] theorem resetTxRegs_input (s : State) : (resetTxRegs s).input = s.input := rfl
@[simp] theorem resetTxRegs_acquisitions (s : State) : (resetTxRegs s).acquisitions = s.acquisitions := rfl
@[simp] theorem resetTxRegs_work (s : State) : (resetTxRegs s).work = s.work := rfl
@[simp] theorem resetTxRegs_caller (s : State) : (resetTxRegs s).caller = s.caller := rfl
@[simp] theorem resetTxRegs_result (s : State) : (resetTxRegs s).result = s.result := rfl
@[simp] theorem resetTxRegs_history (s : State) : (resetTxRegs s).history = s.history := rfl
@[simp] theorem resetTxRegs_freeCount (s : State) : (resetTxRegs s).freeCount = s.freeCount := rfl

/-! ### `noteSeen` -/

@[simp] theorem noteSeen_cfg (ring : Ring) (s : State) : (noteSeen ring s).cfg = s.cfg := rfl
@[simp] theorem noteSeen_mem (ring : Ring) (s : State) : (noteSeen ring s).mem = s.mem := rfl
@[simp] theorem noteSeen_txNext (ring : Ring) (s : State) : (noteSeen ring s).txNext = s.txNext := rfl
@[simp] theorem noteSeen_txDirty (ring : Ring) (s : State) : (noteSeen ring s).txDirty = s.txDirty := rfl
@[simp] theorem noteSeen_txFree (ring : Ring) (s : State) : (noteSeen ring s).txFree = s.txFree := rfl
@[simp] theorem noteSeen_rxIndex (ring : Ring) (s : State) : (noteSeen ring s).rxIndex = s.rxIndex := rfl
@[simp] theorem noteSeen_txStalled (ring : Ring) (s : State) : (noteSeen ring s).txStalled = s.txStalled := rfl
@[simp] theorem noteSeen_txqEnabled (ring : Ring) (s : State) : (noteSeen ring s).txqEnabled = s.txqEnabled := rfl
@[simp] theorem noteSeen_txDoneCount (ring : Ring) (s : State) : (noteSeen ring s).txDoneCount = s.txDoneCount := rfl
@[simp] theorem noteSeen_txDoneLast (ring : Ring) (s : State) : (noteSeen ring s).txDoneLast = s.txDoneLast := rfl
@[simp] theorem noteSeen_deadlockWarn (ring : Ring) (s : State) : (noteSeen ring s).deadlockWarn = s.deadlockWarn := rfl
@[simp] theorem noteSeen_enabled (ring : Ring) (s : State) : (noteSeen ring s).enabled = s.enabled := rfl
@[simp] theorem noteSeen_link (ring : Ring) (s : State) : (noteSeen ring s).link = s.link := rfl
@[simp] theorem noteSeen_txSlot (ring : Ring) (s : State) : (noteSeen ring s).txSlot = s.txSlot := rfl
@[simp] theorem noteSeen_rxSlot (ring : Ring) (s : State) : (noteSeen ring s).rxSlot = s.rxSlot := rfl
@[simp] theorem noteSeen_txPending (ring : Ring) (s : State) : (noteSeen ring s).txPending = s.txPending := rfl
@[simp] theorem noteSeen_ctrResourceErrors (ring : Ring) (s : State) : (noteSeen ring s).ctrResourceErrors = s.ctrResourceErrors := rfl
@[simp] theorem noteSeen_ctrFrameTooLong (ring : Ring) (s : State) : (noteSeen ring s).ctrFrameTooLong = s.ctrFrameTooLong := rfl
@[simp] theorem noteSeen_ctrTimeouts (ring : Ring) (s : State) : (noteSeen ring s).ctrTimeouts = s.ctrTimeouts := rfl
@[simp] theorem noteSeen_ctrResets (ring : Ring) (s : State) : (noteSeen ring s).ctrResets = s.ctrResets := rfl
@[simp] theorem noteSeen_ctrTxDrops (ring : Ring) (s : State) : (noteSeen ring s).ctrTxDrops = s.ctrTxDrops := rfl
@[simp] theorem noteSeen_statsPending (ring : Ring) (s : State) : (noteSeen ring s).statsPending = s.statsPending := rfl
@[simp] theorem noteSeen_txMem (ring : Ring) (s : State) : (noteSeen ring s).txMem = s.txMem := rfl
@[simp] theorem noteSeen_rxMem (ring : Ring) (s : State) : (noteSeen ring s).rxMem = s.rxMem := rfl
@[simp] theorem noteSeen_stMem (ring : Ring) (s : State) : (noteSeen ring s).stMem = s.stMem := rfl
@[simp] theorem noteSeen_regs (ring : Ring) (s : State) : (noteSeen ring s).regs = s.regs := rfl
@[simp] theorem noteSeen_timerOn (ring : Ring) (s : State) : (noteSeen ring s).timerOn = s.timerOn := rfl
@[simp] theorem noteSeen_everEnabled (ring : Ring) (s : State) : (noteSeen ring s).everEnabled = s.everEnabled := rfl
@[simp] theorem noteSeen_txUnsubmitted (ring : Ring) (s : State) : (noteSeen ring s).txUnsubmitted = s.txUnsubmitted := rfl
@[simp] theorem noteSeen_heldPackets (ring : Ring) (s : State) : (noteSeen ring s).heldPackets = s.heldPackets := rfl
@[simp] theorem noteSeen_heldBuffers (ring : Ring) (s : State) : (noteSeen ring s).heldBuffers = s.heldBuffers := rfl
@[simp] theorem noteSeen_hostBufs (ring : Ring) (s : State) : (noteSeen ring s).hostBufs = s.hostBufs := rfl
@[simp] theorem noteSeen_nicTxBusy (ring : Ring) (s : State) : (noteSeen ring s).nicTxBusy = s.nicTxBusy := rfl
@[simp] theorem noteSeen_irqPending (ring : Ring) (s : State) : (noteSeen ring s).irqPending = s.irqPending := rfl
@[simp] theorem noteSeen_input (ring : Ring) (s : State) : (noteSeen ring s).input = s.input := rfl
@[simp] theorem noteSeen_acquisitions (ring : Ring) (s : State) : (noteSeen ring s).acquisitions = s.acquisitions := rfl
@[simp] theorem noteSeen_work (ring : Ring) (s : State) : (noteSeen ring s).work = s.work := rfl
@[simp] theorem noteSeen_caller (ring : Ring) (s : State) : (noteSeen ring s).caller = s.caller := rfl
@[simp] theorem noteSeen_result (ring : Ring) (s : State) : (noteSeen ring s).result = s.result := rfl
@[simp] theorem noteSeen_history (ring : Ring) (s : State) : (noteSeen ring s).history = s.history := rfl
@[simp] theorem noteSeen_freeCount (ring : Ring) (s : State) : (noteSeen ring s).freeCount = s.freeCount := rfl

/-! ### `State.pushWork` -/

@[simp] theorem State.pushWork_cfg (l : List Task) (s : State) : (s.pushWork l).cfg = s.cfg := rfl
@[simp] theorem State.pushWork_mem (l : List Task) (s : State) : (s.pushWork l).mem = s.mem := rfl
@[simp] theorem State.pushWork_txNext (l : List Task) (s : State) : (s.pushWork l).txNext = s.txNext := rfl
@[simp] theorem State.pushWork_txDirty (l : List Task) (s : State) : (s.pushWork l).txDirty = s.txDirty := rfl
@[simp] theorem State.pushWork_txFree (l : List Task) (s : State) : (s.pushWork l).txFree = s.txFree := rfl
@[simp] theorem State.pushWork_rxIndex (l : List Task) (s : State) : (s.pushWork l).rxIndex = s.rxIndex := rfl
@[simp] theorem State.pushWork_txStalled (l : List Task) (s : State) : (s.pushWork l).txStalled = s.txStalled := rfl
@[simp] theorem State.pushWork_txqEnabled (l : List Task) (s : State) : (s.pushWork l).txqEnabled = s.txqEnabled := rfl
@[simp] theorem State.pushWork_txDoneCount (l : List Task) (s : State) : (s.pushWork l).txDoneCount = s.txDoneCount := rfl
@[simp] theorem State.pushWork_txDoneLast (l : List Task) (s : State) : (s.pushWork l).txDoneLast = s.txDoneLast := rfl
@[simp] theorem State.pushWork_deadlockWarn (l : List Task) (s : State) : (s.pushWork l).deadlockWarn = s.deadlockWarn := rfl
@[simp] theorem State.pushWork_enabled (l : List Task) (s : State) : (s.pushWork l).enabled = s.enabled := rfl
@[simp] theorem State.pushWork_link (l : List Task) (s : State) : (s.pushWork l).link = s.link := rfl
@[simp] theorem State.pushWork_txSlot (l : List Task) (s : State) : (s.pushWork l).txSlot = s.txSlot := rfl
@[simp] theorem State.pushWork_rxSlot (l : List Task) (s : State) : (s.pushWork l).rxSlot = s.rxSlot := rfl
@[simp] theorem State.pushWork_txPending (l : List Task) (s : State) : (s.pushWork l).txPending = s.txPending := rfl
@[simp] theorem State.pushWork_ctrResourceErrors (l : List Task) (s : State) : (s.pushWork l).ctrResourceErrors = s.ctrResourceErrors := rfl
@[simp] theorem State.pushWork_ctrFrameTooLong (l : List Task) (s : State) : (s.pushWork l).ctrFrameTooLong = s.ctrFrameTooLong := rfl
@[simp] theorem State.pushWork_ctrTimeouts (l : List Task) (s : State) : (s.pushWork l).ctrTimeouts = s.ctrTimeouts := rfl
@[simp] theorem State.pushWork_ctrResets (l : List Task) (s : State) : (s.pushWork l).ctrResets = s.ctrResets := rfl
@[simp] theorem State.pushWork_ctrTxDrops (l : List Task) (s : State) : (s.pushWork l).ctrTxDrops = s.ctrTxDrops := rfl
@[simp] theorem State.pushWork_statsPending (l : List Task) (s : State) : (s.pushWork l).statsPending = s.statsPending := rfl
@[simp] theorem State.pushWork_txMem (l : List Task) (s : State) : (s.pushWork l).txMem = s.txMem := rfl
@[simp] theorem State.pushWork_rxMem (l : List Task) (s : State) : (s.pushWork l).rxMem = s.rxMem := rfl
@[simp] theorem State.pushWork_stMem (l : List Task) (s : State) : (s.pushWork l).stMem = s.stMem := rfl
@[simp] theorem State.pushWork_regs (l : List Task) (s : State) : (s.pushWork l).regs = s.regs := rfl
@[simp] theorem State.pushWork_timerOn (l : List Task) (s : State) : (s.pushWork l).timerOn = s.timerOn := rfl
@[simp] theorem State.pushWork_everEnabled (l : List Task) (s : State) : (s.pushWork l).everEnabled = s.everEnabled := rfl
@[simp] theorem State.pushWork_txUnsubmitted (l : List Task) (s : State) : (s.pushWork l).txUnsubmitted = s.txUnsubmitted := rfl
@[simp] theorem State.pushWork_heldPackets (l : List Task) (s : State) : (s.pushWork l).heldPackets = s.heldPackets := rfl
@[simp] theorem State.pushWork_heldBuffers (l : List Task) (s : State) : (s.pushWork l).heldBuffers = s.heldBuffers := rfl
@[simp] theorem State.pushWork_hostBufs (l : List Task) (s : State) : (s.pushWork l).hostBufs = s.hostBufs := rfl
@[simp] theorem State.pushWork_nicTxBusy (l : List Task) (s : State) : (s.pushWork l).nicTxBusy = s.nicTxBusy := rfl
@[simp] theorem State.pushWork_irqPending (l : List Task) (s : State) : (s.pushWork l).irqPending = s.irqPending := rfl
@[simp] theorem State.pushWork_nicSeen (l : List Task) (s : State) : (s.pushWork l).nicSeen = s.nicSeen := rfl
@[simp] theorem State.pushWork_input (l : List Task) (s : State) : (s.pushWork l).input = s.input := rfl
@[simp] theorem State.pushWork_acquisitions (l : List Task) (s : State) : (s.pushWork l).acquisitions = s.acquisitions := rfl
@[simp] theorem State.pushWork_work (l : List Task) (s : State) : (s.pushWork l).work = l ++ s.work := rfl
@[simp] theorem State.pushWork_caller (l : List Task) (s : State) : (s.pushWork l).caller = s.caller := rfl
@[simp] theorem State.pushWork_result (l : List Task) (s : State) : (s.pushWork l).result = s.result := rfl
@[simp] theorem State.pushWork_history (l : List Task) (s : State) : (s.pushWork l).history = s.history := rfl
@[simp] theorem State.pushWork_freeCount (l : List Task) (s : State) : (s.pushWork l).freeCount = s.freeCount := rfl

/-! ### `forget` -/

@[simp] theorem forget_cfg (ring : Ring) (i : Nat) (s : State) : (forget ring i s).cfg = s.cfg := rfl
@[simp] theorem forget_mem (ring : Ring) (i : Nat) (s : State) : (forget ring i s).mem = s.mem := rfl
@[simp] theorem forget_txNext (ring : Ring) (i : Nat) (s : State) : (forget ring i s).txNext = s.txNext := rfl
@[simp] theorem forget_txDirty (ring : Ring) (i : Nat) (s : State) : (forget ring i s).txDirty = s.txDirty := rfl
@[simp] theorem forget_txFree (ring : Ring) (i : Nat) (s : State) : (forget ring i s).txFree = s.txFree := rfl
@[simp] theorem forget_rxIndex (ring : Ring) (i : Nat) (s : State) : (forget ring i s).rxIndex = s.rxIndex := rfl
@[simp] theorem forget_txStalled (ring : Ring) (i : Nat) (s : State) : (forget ring i s).txStalled = s.txStalled := rfl
@[simp] theorem forget_txqEnabled (ring : Ring) (i : Nat) (s : State) : (forget ring i s).txqEnabled = s.txqEnabled := rfl
@[simp] theorem forget_txDoneCount (ring : Ring) (i : Nat) (s : State) : (forget ring i s).txDoneCount = s.txDoneCount := rfl
@[simp] theorem forget_txDoneLast (ring : Ring) (i : Nat) (s : State) : (forget ring i s).txDoneLast = s.txDoneLast := rfl
@[simp] theorem forget_deadlockWarn (ring : Ring) (i : Nat) (s : State) : (forget ring i s).deadlockWarn = s.deadlockWarn := rfl
@[simp] theorem forget_enabled (ring : Ring) (i : Nat) (s : State) : (forget ring i s).enabled = s.enabled := rfl
@[simp] theorem forget_link (ring : Ring) (i : Nat) (s : State) : (forget ring i s).link = s.link := rfl
@[simp] theorem forget_txSlot (ring : Ring) (i : Nat) (s : State) : (forget ring i s).txSlot = s.txSlot := rfl
@[simp] theorem forget_rxSlot (ring : Ring) (i : Nat) (s : State) : (forget ring i s).rxSlot = s.rxSlot := rfl
@[simp] theorem forget_txPending (ring : Ring) (i : Nat) (s : State) : (forget ring i s).txPending = s.txPending := rfl
@[simp] theorem forget_ctrResourceErrors (ring : Ring) (i : Nat) (s : State) : (forget ring i s).ctrResourceErrors = s.ctrResourceErrors := rfl
@[simp] theorem forget_ctrFrameTooLong (ring : Ring) (i : Nat) (s : State) : (forget ring i s).ctrFrameTooLong = s.ctrFrameTooLong := rfl
@[simp] theorem forget_ctrTimeouts (ring : Ring) (i : Nat) (s : State) : (forget ring i s).ctrTimeouts = s.ctrTimeouts := rfl
@[simp] theorem forget_ctrResets (ring : Ring) (i : Nat) (s : State) : (forget ring i s).ctrResets = s.ctrResets := rfl
@[simp] theorem forget_ctrTxDrops (ring : Ring) (i : Nat) (s : State) : (forget ring i s).ctrTxDrops = s.ctrTxDrops := rfl
@[simp] theorem forget_statsPending (ring : Ring) (i : Nat) (s : State) : (forget ring i s).statsPending = s.statsPending := rfl
@[simp] theorem forget_txMem (ring : Ring) (i : Nat) (s : State) : (forget ring i s).txMem = s.txMem := rfl
@[simp] theorem forget_rxMem (ring : Ring) (i : Nat) (s : State) : (forget ring i s).rxMem = s.rxMem := rfl
@[simp] theorem forget_stMem (ring : Ring) (i : Nat) (s : State) : (forget ring i s).stMem = s.stMem := rfl
@[simp] theorem forget_regs (ring : Ring) (i : Nat) (s : State) : (forget ring i s).regs = s.regs := rfl
@[simp] theorem forget_timerOn (ring : Ring) (i : Nat) (s : State) : (forget ring i s).timerOn = s.timerOn := rfl
@[simp] theorem forget_everEnabled (ring : Ring) (i : Nat) (s : State) : (forget ring i s).everEnabled = s.everEnabled := rfl
@[simp] theorem forget_txUnsubmitted (ring : Ring) (i : Nat) (s : State) : (forget ring i s).txUnsubmitted = s.txUnsubmitted := rfl
@[simp] theorem forget_heldPackets (ring : Ring) (i : Nat) (s : State) : (forget ring i s).heldPackets = s.heldPackets := rfl
@[simp] theorem forget_heldBuffers (ring : Ring) (i : Nat) (s : State) : (forget ring i s).heldBuffers = s.heldBuffers := rfl
@[simp] theorem forget_hostBufs (ring : Ring) (i : Nat) (s : State) : (forget ring i s).hostBufs = s.hostBufs := rfl
@[simp] theorem forget_nicTxBusy (ring : Ring) (i : Nat) (s : State) : (forget ring i s).nicTxBusy = s.nicTxBusy := rfl
@[simp] theorem forget_irqPending (ring : Ring) (i : Nat) (s : State) : (forget ring i s).irqPending = s.irqPending := rfl
@[simp] theorem forget_input (ring : Ring) (i : Nat) (s : State) : (forget ring i s).input = s.input := rfl
@[simp] theorem forget_acquisitions (ring : Ring) (i : Nat) (s : State) : (forget ring i s).acquisitions = s.acquisitions := rfl
@[simp] theorem forget_work (ring : Ring) (i : Nat) (s : State) : (forget ring i s).work = s.work := rfl
@[simp] theorem forget_caller (ring : Ring) (i : Nat) (s : State) : (forget ring i s).caller = s.caller := rfl
@[simp] theorem forget_result (ring : Ring) (i : Nat) (s : State) : (forget ring i s).result = s.result := rfl
@[simp] theorem forget_history (ring : Ring) (i : Nat) (s : State) : (forget ring i s).history = s.history := rfl
@[simp] theorem forget_freeCount (ring : Ring) (i : Nat) (s : State) : (forget ring i s).freeCount = s.freeCount := rfl

/-! ### `waited` -/

@[simp] theorem waited_cfg (x : Invocation) (rest : List Invocation) (s : State) : (waited x rest s).cfg = s.cfg := rfl
@[simp] theorem waited_mem (x : Invocation) (rest : List Invocation) (s : State) : (waited x rest s).mem = s.mem := rfl
@[simp] theorem waited_txNext (x : Invocation) (rest : List Invocation) (s : State) : (waited x rest s).txNext = s.txNext := rfl
@[simp] theorem waited_txDirty (x : Invocation) (rest : List Invocation) (s : State) : (waited x rest s).txDirty = s.txDirty := rfl
@[simp] theorem waited_txFree (x : Invocation) (rest : List Invocation) (s : State) : (waited x rest s).txFree = s.txFree := rfl
@[simp] theorem waited_rxIndex (x : Invocation) (rest : List Invocation) (s : State) : (waited x rest s).rxIndex = s.rxIndex := rfl
@[simp] theorem waited_txStalled (x : Invocation) (rest : List Invocation) (s : State) : (waited x rest s).txStalled = s.txStalled := rfl
@[simp] theorem waited_txqEnabled (x : Invocation) (rest : List Invocation) (s : State) : (waited x rest s).txqEnabled = s.txqEnabled := rfl
@[simp] theorem waited_txDoneCount (x : Invocation) (rest : List Invocation) (s : State) : (waited x rest s).txDoneCount = s.txDoneCount := rfl
@[simp] theorem waited_txDoneLast (x : Invocation) (rest : List Invocation) (s : State) : (waited x rest s).txDoneLast = s.txDoneLast := rfl
@[simp] theorem waited_deadlockWarn (x : Invocation) (rest : List Invocation) (s : State) : (waited x rest s).deadlockWarn = s.deadlockWarn := rfl
@[simp] theorem waited_enabled (x : Invocation) (rest : List Invocation) (s : State) : (waited x rest s).enabled = s.enabled := rfl
@[simp] theorem waited_link (x : Invocation) (rest : List Invocation) (s : State) : (waited x rest s).link = s.link := rfl
@[simp] theorem waited_txSlot (x : Invocation) (rest : List Invocation) (s : State) : (waited x rest s).txSlot = s.txSlot := rfl
@[simp] theorem waited_rxSlot (x : Invocation) (rest : List Invocation) (s : State) : (waited x rest s).rxSlot = s.rxSlot := rfl
@[simp] theorem waited_txPending (x : Invocation) (rest : List Invocation) (s : State) : (waited x rest s).txPending = s.txPending := rfl
@[simp] theorem waited_ctrResourceErrors (x : Invocation) (rest : List Invocation) (s : State) : (waited x rest s).ctrResourceErrors = s.ctrResourceErrors := rfl
@[simp] theorem waited_ctrFrameTooLong (x : Invocation) (rest : List Invocation) (s : State) : (waited x rest s).ctrFrameTooLong = s.ctrFrameTooLong := rfl
@[simp] theorem waited_ctrTimeouts (x : Invocation) (rest : List Invocation) (s : State) : (waited x rest s).ctrTimeouts = s.ctrTimeouts := rfl
@[simp] theorem waited_ctrResets (x : Invocation) (rest : List Invocation) (s : State) : (waited x rest s).ctrResets = s.ctrResets := rfl
@[simp] theorem waited_ctrTxDrops (x : Invocation) (rest : List Invocation) (s : State) : (waited x rest s).ctrTxDrops = s.ctrTxDrops := rfl
@[simp] theorem waited_statsPending (x : Invocation) (rest : List Invocation) (s : State) : (waited x rest s).statsPending = s.statsPending := rfl
@[simp] theorem waited_txMem (x : Invocation) (rest : List Invocation) (s : State) : (waited x rest s).txMem = s.txMem := rfl
@[simp] theorem waited_rxMem (x : Invocation) (rest : List Invocation) (s : State) : (waited x rest s).rxMem = s.rxMem := rfl
@[simp] theorem waited_stMem (x : Invocation) (rest : List Invocation) (s : State) : (waited x rest s).stMem = s.stMem := rfl
@[simp] theorem waited_regs (x : Invocation) (rest : List Invocation) (s : State) : (waited x rest s).regs = s.regs := rfl
@[simp] theorem waited_timerOn (x : Invocation) (rest : List Invocation) (s : State) : (waited x rest s).timerOn = s.timerOn := rfl
@[simp] theorem waited_everEnabled (x : Invocation) (rest : List Invocation) (s : State) : (waited x rest s).everEnabled = s.everEnabled := rfl
@[simp] theorem waited_txUnsubmitted (x : Invocation) (rest : List Invocation) (s : State) : (waited x rest s).txUnsubmitted = s.txUnsubmitted := rfl
@[simp] theorem waited_heldPackets (x : Invocation) (rest : List Invocation) (s : State) : (waited x rest s).heldPackets = s.heldPackets := rfl
@[simp] theorem waited_heldBuffers (x : Invocation) (rest : List Invocation) (s : State) : (waited x rest s).heldBuffers = s.heldBuffers := rfl
@[simp] theorem waited_hostBufs (x : Invocation) (rest : List Invocation) (s : State) : (waited x rest s).hostBufs = s.hostBufs := rfl
@[simp] theorem waited_nicTxBusy (x : Invocation) (rest : List Invocation) (s : State) : (waited x rest s).nicTxBusy = s.nicTxBusy := rfl
@[simp] theorem waited_irqPending (x : Invocation) (rest : List Invocation) (s : State) : (waited x rest s).irqPending = s.irqPending := rfl
@[simp] theorem waited_nicSeen (x : Invocation) (rest : List Invocation) (s : State) : (waited x rest s).nicSeen = s.nicSeen := rfl
@[simp] theorem waited_acquisitions (x : Invocation) (rest : List Invocation) (s : State) : (waited x rest s).acquisitions = s.acquisitions := rfl
@[simp] theorem waited_work (x : Invocation) (rest : List Invocation) (s : State) : (waited x rest s).work = s.work := rfl
@[simp] theorem waited_caller (x : Invocation) (rest : List Invocation) (s : State) : (waited x rest s).caller = s.caller := rfl
@[simp] theorem waited_result (x : Invocation) (rest : List Invocation) (s : State) : (waited x rest s).result = s.result := rfl
@[simp] theorem waited_history (x : Invocation) (rest : List Invocation) (s : State) : (waited x rest s).history = s.history := rfl
@[simp] theorem waited_freeCount (x : Invocation) (rest : List Invocation) (s : State) : (waited x rest s).freeCount = s.freeCount := rfl

/-! ### `nicReset` -/

@[simp] theorem nicReset_cfg (s : State) : (nicReset s).cfg = s.cfg := rfl
@[simp] theorem nicReset_mem (s : State) : (nicReset s).mem = s.mem := rfl
@[simp] theorem nicReset_txNext (s : State) : (nicReset s).txNext = s.txNext := rfl
@[simp] theorem nicReset_txDirty (s : State) : (nicReset s).txDirty = s.txDirty := rfl
@[simp] theorem nicReset_txFree (s : State) : (nicReset s).txFree = s.txFree := rfl
@[simp] theorem nicReset_rxIndex (s : State) : (nicReset s).rxIndex = s.rxIndex := rfl
@[simp] theorem nicReset_txStalled (s : State) : (nicReset s).txStalled = s.txStalled := rfl
@[simp] theorem nicReset_txqEnabled (s : State) : (nicReset s).txqEnabled = s.txqEnabled := rfl
@[simp] theorem nicReset_txDoneCount (s : State) : (nicReset s).txDoneCount = s.txDoneCount := rfl
@[simp] theorem nicReset_txDoneLast (s : State) : (nicReset s).txDoneLast = s.txDoneLast := rfl
@[simp] theorem nicReset_deadlockWarn (s : State) : (nicReset s).deadlockWarn = s.deadlockWarn := rfl
@[simp] theorem nicReset_enabled (s : State) : (nicReset s).enabled = s.enabled := rfl
@[simp] theorem nicReset_link (s : State) : (nicReset s).link = s.link := rfl
@[simp] theorem nicReset_txSlot (s : State) : (nicReset s).txSlot = s.txSlot := rfl
@[simp] theorem nicReset_rxSlot (s : State) : (nicReset s).rxSlot = s.rxSlot := rfl
@[simp] theorem nicReset_txPending (s : State) : (nicReset s).txPending = s.txPending := rfl
@[simp] theorem nicReset_ctrResourceErrors (s : State) : (nicReset s).ctrResourceErrors = s.ctrResourceErrors := rfl
@[simp] theorem nicReset_ctrFrameTooLong (s : State) : (nicReset s).ctrFrameTooLong = s.ctrFrameTooLong := rfl
@[simp] theorem nicReset_ctrTimeouts (s : State) : (nicReset s).ctrTimeouts = s.ctrTimeouts := rfl
@[simp] theorem nicReset_ctrResets (s : State) : (nicReset s).ctrResets = s.ctrResets := rfl
@[simp] theorem nicReset_ctrTxDrops (s : State) : (nicReset s).ctrTxDrops = s.ctrTxDrops := rfl
@[simp] theorem nicReset_statsPending (s : State) : (nicReset s).statsPending = s.statsPending := rfl
@[simp] theorem nicReset_txMem (s : State) : (nicReset s).txMem = s.txMem := rfl
@[simp] theorem nicReset_rxMem (s : State) : (nicReset s).rxMem = s.rxMem := rfl
@[simp] theorem nicReset_stMem (s : State) : (nicReset s).stMem = s.stMem := rfl
@[simp] theorem nicReset_timerOn (s : State) : (nicReset s).timerOn = s.timerOn := rfl
@[simp] theorem nicReset_everEnabled (s : State) : (nicReset s).everEnabled = s.everEnabled := rfl
@[simp] theorem nicReset_txUnsubmitted (s : State) : (nicReset s).txUnsubmitted = s.txUnsubmitted := rfl
@[simp] theorem nicReset_heldPackets (s : State) : (nicReset s).heldPackets = s.heldPackets := rfl
@[simp] theorem nicReset_heldBuffers (s : State) : (nicReset s).heldBuffers = s.heldBuffers := rfl
@[simp] theorem nicReset_hostBufs (s : State) : (nicReset s).hostBufs = s.hostBufs := rfl
@[simp] theorem nicReset_nicTxBusy (s : State) : (nicReset s).nicTxBusy = none := rfl
@[simp] theorem nicReset_irqPending (s : State) : (nicReset s).irqPending = CauseSet.empty := rfl
@[simp] theorem nicReset_nicSeen (s : State) : (nicReset s).nicSeen = [] := rfl
@[simp] theorem nicReset_input (s : State) : (nicReset s).input = s.input := rfl
@[simp] theorem nicReset_acquisitions (s : State) : (nicReset s).acquisitions = s.acquisitions := rfl
@[simp] theorem nicReset_work (s : State) : (nicReset s).work = s.work := rfl
@[simp] theorem nicReset_caller (s : State) : (nicReset s).caller = s.caller := rfl
@[simp] theorem nicReset_result (s : State) : (nicReset s).result = s.result := rfl
@[simp] theorem nicReset_history (s : State) : (nicReset s).history = s.history ++ [.nicReset] := rfl
@[simp] theorem nicReset_freeCount (s : State) : (nicReset s).freeCount = s.freeCount + 3 := rfl

/-! ### `writeIntrMask` -/

@[simp] theorem writeIntrMask_cfg (v : Half) (s : State) : (writeIntrMask v s).cfg = s.cfg := rfl
@[simp] theorem writeIntrMask_mem (v : Half) (s : State) : (writeIntrMask v s).mem = s.mem := rfl
@[simp] theorem writeIntrMask_txNext (v : Half) (s : State) : (writeIntrMask v s).txNext = s.txNext := rfl
@[simp] theorem writeIntrMask_txDirty (v : Half) (s : State) : (writeIntrMask v s).txDirty = s.txDirty := rfl
@[simp] theorem writeIntrMask_txFree (v : Half) (s : State) : (writeIntrMask v s).txFree = s.txFree := rfl
@[simp] theorem writeIntrMask_rxIndex (v : Half) (s : State) : (writeIntrMask v s).rxIndex = s.rxIndex := rfl
@[simp] theorem writeIntrMask_txStalled (v : Half) (s : State) : (writeIntrMask v s).txStalled = s.txStalled := rfl
@[simp] theorem writeIntrMask_txqEnabled (v : Half) (s : State) : (writeIntrMask v s).txqEnabled = s.txqEnabled := rfl
@[simp] theorem writeIntrMask_txDoneCount (v : Half) (s : State) : (writeIntrMask v s).txDoneCount = s.txDoneCount := rfl
@[simp] theorem writeIntrMask_txDoneLast (v : Half) (s : State) : (writeIntrMask v s).txDoneLast = s.txDoneLast := rfl
@[simp] theorem writeIntrMask_deadlockWarn (v : Half) (s : State) : (writeIntrMask v s).deadlockWarn = s.deadlockWarn := rfl
@[simp] theorem writeIntrMask_enabled (v : Half) (s : State) : (writeIntrMask v s).enabled = s.enabled := rfl
@[simp] theorem writeIntrMask_link (v : Half) (s : State) : (writeIntrMask v s).link = s.link := rfl
@[simp] theorem writeIntrMask_txSlot (v : Half) (s : State) : (writeIntrMask v s).txSlot = s.txSlot := rfl
@[simp] theorem writeIntrMask_rxSlot (v : Half) (s : State) : (writeIntrMask v s).rxSlot = s.rxSlot := rfl
@[simp] theorem writeIntrMask_txPending (v : Half) (s : State) : (writeIntrMask v s).txPending = s.txPending := rfl
@[simp] theorem writeIntrMask_ctrResourceErrors (v : Half) (s : State) : (writeIntrMask v s).ctrResourceErrors = s.ctrResourceErrors := rfl
@[simp] theorem writeIntrMask_ctrFrameTooLong (v : Half) (s : State) : (writeIntrMask v s).ctrFrameTooLong = s.ctrFrameTooLong := rfl
@[simp] theorem writeIntrMask_ctrTimeouts (v : Half) (s : State) : (writeIntrMask v s).ctrTimeouts = s.ctrTimeouts := rfl
@[simp] theorem writeIntrMask_ctrResets (v : Half) (s : State) : (writeIntrMask v s).ctrResets = s.ctrResets := rfl
@[simp] theorem writeIntrMask_ctrTxDrops (v : Half) (s : State) : (writeIntrMask v s).ctrTxDrops = s.ctrTxDrops := rfl
@[simp] theorem writeIntrMask_statsPending (v : Half) (s : State) : (writeIntrMask v s).statsPending = s.statsPending := rfl
@[simp] theorem writeIntrMask_txMem (v : Half) (s : State) : (writeIntrMask v s).txMem = s.txMem := rfl
@[simp] theorem writeIntrMask_rxMem (v : Half) (s : State) : (writeIntrMask v s).rxMem = s.rxMem := rfl
@[simp] theorem writeIntrMask_stMem (v : Half) (s : State) : (writeIntrMask v s).stMem = s.stMem := rfl
@[simp] theorem writeIntrMask_timerOn (v : Half) (s : State) : (writeIntrMask v s).timerOn = s.timerOn := rfl
@[simp] theorem writeIntrMask_everEnabled (v : Half) (s : State) : (writeIntrMask v s).everEnabled = s.everEnabled := rfl
@[simp] theorem writeIntrMask_txUnsubmitted (v : Half) (s : State) : (writeIntrMask v s).txUnsubmitted = s.txUnsubmitted := rfl
@[simp] theorem writeIntrMask_heldPackets (v : Half) (s : State) : (writeIntrMask v s).heldPackets = s.heldPackets := rfl
@[simp] theorem writeIntrMask_heldBuffers (v : Half) (s : State) : (writeIntrMask v s).heldBuffers = s.heldBuffers := rfl
@[simp] theorem writeIntrMask_hostBufs (v : Half) (s : State) : (writeIntrMask v s).hostBufs = s.hostBufs := rfl
@[simp] theorem writeIntrMask_nicTxBusy (v : Half) (s : State) : (writeIntrMask v s).nicTxBusy = s.nicTxBusy := rfl
@[simp] theorem writeIntrMask_irqPending (v : Half) (s : State) : (writeIntrMask v s).irqPending = s.irqPending := rfl
@[simp] theorem writeIntrMask_nicSeen (v : Half) (s : State) : (writeIntrMask v s).nicSeen = s.nicSeen := rfl
@[simp] theorem writeIntrMask_input (v : Half) (s : State) : (writeIntrMask v s).input = s.input := rfl
@[simp] theorem writeIntrMask_acquisitions (v : Half) (s : State) : (writeIntrMask v s).acquisitions = s.acquisitions := rfl
@[simp] theorem writeIntrMask_work (v : Half) (s : State) : (writeIntrMask v s).work = s.work := rfl
@[simp] theorem writeIntrMask_caller (v : Half) (s : State) : (writeIntrMask v s).caller = s.caller := rfl
@[simp] theorem writeIntrMask_result (v : Half) (s : State) : (writeIntrMask v s).result = s.result := rfl
@[simp] theorem writeIntrMask_freeCount (v : Half) (s : State) : (writeIntrMask v s).freeCount = s.freeCount := rfl

/-! ### `writeStatsBase` -/

@[simp] theorem writeStatsBase_cfg (v : BitVec 64) (s : State) : (writeStatsBase v s).cfg = s.cfg := rfl
@[simp] theorem writeStatsBase_mem (v : BitVec 64) (s : State) : (writeStatsBase v s).mem = s.mem := rfl
@[simp] theorem writeStatsBase_txNext (v : BitVec 64) (s : State) : (writeStatsBase v s).txNext = s.txNext := rfl
@[simp] theorem writeStatsBase_txDirty (v : BitVec 64) (s : State) : (writeStatsBase v s).txDirty = s.txDirty := rfl
@[simp] theorem writeStatsBase_txFree (v : BitVec 64) (s : State) : (writeStatsBase v s).txFree = s.txFree := rfl
@[simp] theorem writeStatsBase_rxIndex (v : BitVec 64) (s : State) : (writeStatsBase v s).rxIndex = s.rxIndex := rfl
@[simp] theorem writeStatsBase_txStalled (v : BitVec 64) (s : State) : (writeStatsBase v s).txStalled = s.txStalled := rfl
@[simp] theorem writeStatsBase_txqEnabled (v : BitVec 64) (s : State) : (writeStatsBase v s).txqEnabled = s.txqEnabled := rfl
@[simp] theorem writeStatsBase_txDoneCount (v : BitVec 64) (s : State) : (writeStatsBase v s).txDoneCount = s.txDoneCount := rfl
@[simp] theorem writeStatsBase_txDoneLast (v : BitVec 64) (s : State) : (writeStatsBase v s).txDoneLast = s.txDoneLast := rfl
@[simp] theorem writeStatsBase_deadlockWarn (v : BitVec 64) (s : State) : (writeStatsBase v s).deadlockWarn = s.deadlockWarn := rfl
@[simp] theorem writeStatsBase_enabled (v : BitVec 64) (s : State) : (writeStatsBase v s).enabled = s.enabled := rfl
@[simp] theorem writeStatsBase_link (v : BitVec 64) (s : State) : (writeStatsBase v s).link = s.link := rfl
@[simp] theorem writeStatsBase_txSlot (v : BitVec 64) (s : State) : (writeStatsBase v s).txSlot = s.txSlot := rfl
@[simp] theorem writeStatsBase_rxSlot (v : BitVec 64) (s : State) : (writeStatsBase v s).rxSlot = s.rxSlot := rfl
@[simp] theorem writeStatsBase_txPending (v : BitVec 64) (s : State) : (writeStatsBase v s).txPending = s.txPending := rfl
@[simp] theorem writeStatsBase_ctrResourceErrors (v : BitVec 64) (s : State) : (writeStatsBase v s).ctrResourceErrors = s.ctrResourceErrors := rfl
@[simp] theorem writeStatsBase_ctrFrameTooLong (v : BitVec 64) (s : State) : (writeStatsBase v s).ctrFrameTooLong = s.ctrFrameTooLong := rfl
@[simp] theorem writeStatsBase_ctrTimeouts (v : BitVec 64) (s : State) : (writeStatsBase v s).ctrTimeouts = s.ctrTimeouts := rfl
@[simp] theorem writeStatsBase_ctrResets (v : BitVec 64) (s : State) : (writeStatsBase v s).ctrResets = s.ctrResets := rfl
@[simp] theorem writeStatsBase_ctrTxDrops (v : BitVec 64) (s : State) : (writeStatsBase v s).ctrTxDrops = s.ctrTxDrops := rfl
@[simp] theorem writeStatsBase_statsPending (v : BitVec 64) (s : State) : (writeStatsBase v s).statsPending = s.statsPending := rfl
@[simp] theorem writeStatsBase_txMem (v : BitVec 64) (s : State) : (writeStatsBase v s).txMem = s.txMem := rfl
@[simp] theorem writeStatsBase_rxMem (v : BitVec 64) (s : State) : (writeStatsBase v s).rxMem = s.rxMem := rfl
@[simp] theorem writeStatsBase_stMem (v : BitVec 64) (s : State) : (writeStatsBase v s).stMem = s.stMem := rfl
@[simp] theorem writeStatsBase_regs (v : BitVec 64) (s : State) : (writeStatsBase v s).regs = { s.regs with statsBase := v } := rfl
@[simp] theorem writeStatsBase_timerOn (v : BitVec 64) (s : State) : (writeStatsBase v s).timerOn = s.timerOn := rfl
@[simp] theorem writeStatsBase_everEnabled (v : BitVec 64) (s : State) : (writeStatsBase v s).everEnabled = s.everEnabled := rfl
@[simp] theorem writeStatsBase_txUnsubmitted (v : BitVec 64) (s : State) : (writeStatsBase v s).txUnsubmitted = s.txUnsubmitted := rfl
@[simp] theorem writeStatsBase_heldPackets (v : BitVec 64) (s : State) : (writeStatsBase v s).heldPackets = s.heldPackets := rfl
@[simp] theorem writeStatsBase_heldBuffers (v : BitVec 64) (s : State) : (writeStatsBase v s).heldBuffers = s.heldBuffers := rfl
@[simp] theorem writeStatsBase_hostBufs (v : BitVec 64) (s : State) : (writeStatsBase v s).hostBufs = s.hostBufs := rfl
@[simp] theorem writeStatsBase_nicTxBusy (v : BitVec 64) (s : State) : (writeStatsBase v s).nicTxBusy = s.nicTxBusy := rfl
@[simp] theorem writeStatsBase_irqPending (v : BitVec 64) (s : State) : (writeStatsBase v s).irqPending = s.irqPending := rfl
@[simp] theorem writeStatsBase_nicSeen (v : BitVec 64) (s : State) : (writeStatsBase v s).nicSeen = s.nicSeen := rfl
@[simp] theorem writeStatsBase_input (v : BitVec 64) (s : State) : (writeStatsBase v s).input = s.input := rfl
@[simp] theorem writeStatsBase_acquisitions (v : BitVec 64) (s : State) : (writeStatsBase v s).acquisitions = s.acquisitions := rfl
@[simp] theorem writeStatsBase_work (v : BitVec 64) (s : State) : (writeStatsBase v s).work = s.work := rfl
@[simp] theorem writeStatsBase_caller (v : BitVec 64) (s : State) : (writeStatsBase v s).caller = s.caller := rfl
@[simp] theorem writeStatsBase_result (v : BitVec 64) (s : State) : (writeStatsBase v s).result = s.result := rfl
@[simp] theorem writeStatsBase_history (v : BitVec 64) (s : State) : (writeStatsBase v s).history = s.history ++ halves s.cfg.reg s.cfg.reg.statsBase v := rfl
@[simp] theorem writeStatsBase_freeCount (v : BitVec 64) (s : State) : (writeStatsBase v s).freeCount = s.freeCount := rfl

/-! ### `closeQueue` -/

@[simp] theorem closeQueue_cfg (s : State) : (closeQueue s).cfg = s.cfg := rfl
@[simp] theorem closeQueue_mem (s : State) : (closeQueue s).mem = s.mem := rfl
@[simp] theorem closeQueue_txNext (s : State) : (closeQueue s).txNext = s.txNext := rfl
@[simp] theorem closeQueue_txDirty (s : State) : (closeQueue s).txDirty = s.txDirty := rfl
@[simp] theorem closeQueue_txFree (s : State) : (closeQueue s).txFree = s.txFree := rfl
@[simp] theorem closeQueue_rxIndex (s : State) : (closeQueue s).rxIndex = s.rxIndex := rfl
@[simp] theorem closeQueue_txStalled (s : State) : (closeQueue s).txStalled = s.txStalled := rfl
@[simp] theorem closeQueue_txqEnabled (s : State) : (closeQueue s).txqEnabled = false := rfl
@[simp] theorem closeQueue_txDoneCount (s : State) : (closeQueue s).txDoneCount = s.txDoneCount := rfl
@[simp] theorem closeQueue_txDoneLast (s : State) : (closeQueue s).txDoneLast = s.txDoneLast := rfl
@[simp] theorem closeQueue_deadlockWarn (s : State) : (closeQueue s).deadlockWarn = s.deadlockWarn := rfl
@[simp] theorem closeQueue_enabled (s : State) : (closeQueue s).enabled = s.enabled := rfl
@[simp] theorem closeQueue_link (s : State) : (closeQueue s).link = s.link := rfl
@[simp] theorem closeQueue_txSlot (s : State) : (closeQueue s).txSlot = s.txSlot := rfl
@[simp] theorem closeQueue_rxSlot (s : State) : (closeQueue s).rxSlot = s.rxSlot := rfl
@[simp] theorem closeQueue_txPending (s : State) : (closeQueue s).txPending = s.txPending := rfl
@[simp] theorem closeQueue_ctrResourceErrors (s : State) : (closeQueue s).ctrResourceErrors = s.ctrResourceErrors := rfl
@[simp] theorem closeQueue_ctrFrameTooLong (s : State) : (closeQueue s).ctrFrameTooLong = s.ctrFrameTooLong := rfl
@[simp] theorem closeQueue_ctrTimeouts (s : State) : (closeQueue s).ctrTimeouts = s.ctrTimeouts := rfl
@[simp] theorem closeQueue_ctrResets (s : State) : (closeQueue s).ctrResets = s.ctrResets := rfl
@[simp] theorem closeQueue_ctrTxDrops (s : State) : (closeQueue s).ctrTxDrops = s.ctrTxDrops := rfl
@[simp] theorem closeQueue_statsPending (s : State) : (closeQueue s).statsPending = s.statsPending := rfl
@[simp] theorem closeQueue_txMem (s : State) : (closeQueue s).txMem = s.txMem := rfl
@[simp] theorem closeQueue_rxMem (s : State) : (closeQueue s).rxMem = s.rxMem := rfl
@[simp] theorem closeQueue_stMem (s : State) : (closeQueue s).stMem = s.stMem := rfl
@[simp] theorem closeQueue_regs (s : State) : (closeQueue s).regs = s.regs := rfl
@[simp] theorem closeQueue_timerOn (s : State) : (closeQueue s).timerOn = s.timerOn := rfl
@[simp] theorem closeQueue_everEnabled (s : State) : (closeQueue s).everEnabled = s.everEnabled := rfl
@[simp] theorem closeQueue_txUnsubmitted (s : State) : (closeQueue s).txUnsubmitted = s.txUnsubmitted := rfl
@[simp] theorem closeQueue_heldPackets (s : State) : (closeQueue s).heldPackets = s.heldPackets := rfl
@[simp] theorem closeQueue_heldBuffers (s : State) : (closeQueue s).heldBuffers = s.heldBuffers := rfl
@[simp] theorem closeQueue_hostBufs (s : State) : (closeQueue s).hostBufs = s.hostBufs := rfl
@[simp] theorem closeQueue_nicTxBusy (s : State) : (closeQueue s).nicTxBusy = s.nicTxBusy := rfl
@[simp] theorem closeQueue_irqPending (s : State) : (closeQueue s).irqPending = s.irqPending := rfl
@[simp] theorem closeQueue_nicSeen (s : State) : (closeQueue s).nicSeen = s.nicSeen := rfl
@[simp] theorem closeQueue_input (s : State) : (closeQueue s).input = s.input := rfl
@[simp] theorem closeQueue_acquisitions (s : State) : (closeQueue s).acquisitions = s.acquisitions := rfl
@[simp] theorem closeQueue_work (s : State) : (closeQueue s).work = s.work := rfl
@[simp] theorem closeQueue_caller (s : State) : (closeQueue s).caller = s.caller := rfl
@[simp] theorem closeQueue_result (s : State) : (closeQueue s).result = s.result := rfl
@[simp] theorem closeQueue_history (s : State) : (closeQueue s).history = s.history := rfl
@[simp] theorem closeQueue_freeCount (s : State) : (closeQueue s).freeCount = s.freeCount := rfl

/-! ### `flushQueue` -/

@[simp] theorem flushQueue_cfg (s : State) : (flushQueue s).cfg = s.cfg := rfl
@[simp] theorem flushQueue_mem (s : State) : (flushQueue s).mem = s.mem := rfl
@[simp] theorem flushQueue_txNext (s : State) : (flushQueue s).txNext = s.txNext := rfl
@[simp] theorem flushQueue_txDirty (s : State) : (flushQueue s).txDirty = s.txDirty := rfl
@[simp] theorem flushQueue_txFree (s : State) : (flushQueue s).txFree = s.txFree := rfl
@[simp] theorem flushQueue_rxIndex (s : State) : (flushQueue s).rxIndex = s.rxIndex := rfl
@[simp] theorem flushQueue_txStalled (s : State) : (flushQueue s).txStalled = s.txStalled := rfl
@[simp] theorem flushQueue_txqEnabled (s : State) : (flushQueue s).txqEnabled = s.txqEnabled := rfl
@[simp] theorem flushQueue_txDoneCount (s : State) : (flushQueue s).txDoneCount = s.txDoneCount := rfl
@[simp] theorem flushQueue_txDoneLast (s : State) : (flushQueue s).txDoneLast = s.txDoneLast := rfl
@[simp] theorem flushQueue_deadlockWarn (s : State) : (flushQueue s).deadlockWarn = s.deadlockWarn := rfl
@[simp] theorem flushQueue_enabled (s : State) : (flushQueue s).enabled = s.enabled := rfl
@[simp] theorem flushQueue_link (s : State) : (flushQueue s).link = s.link := rfl
@[simp] theorem flushQueue_txSlot (s : State) : (flushQueue s).txSlot = s.txSlot := rfl
@[simp] theorem flushQueue_rxSlot (s : State) : (flushQueue s).rxSlot = s.rxSlot := rfl
@[simp] theorem flushQueue_txPending (s : State) : (flushQueue s).txPending = s.txPending := rfl
@[simp] theorem flushQueue_ctrResourceErrors (s : State) : (flushQueue s).ctrResourceErrors = s.ctrResourceErrors := rfl
@[simp] theorem flushQueue_ctrFrameTooLong (s : State) : (flushQueue s).ctrFrameTooLong = s.ctrFrameTooLong := rfl
@[simp] theorem flushQueue_ctrTimeouts (s : State) : (flushQueue s).ctrTimeouts = s.ctrTimeouts := rfl
@[simp] theorem flushQueue_ctrResets (s : State) : (flushQueue s).ctrResets = s.ctrResets := rfl
@[simp] theorem flushQueue_ctrTxDrops (s : State) : (flushQueue s).ctrTxDrops = s.ctrTxDrops := rfl
@[simp] theorem flushQueue_statsPending (s : State) : (flushQueue s).statsPending = s.statsPending := rfl
@[simp] theorem flushQueue_txMem (s : State) : (flushQueue s).txMem = s.txMem := rfl
@[simp] theorem flushQueue_rxMem (s : State) : (flushQueue s).rxMem = s.rxMem := rfl
@[simp] theorem flushQueue_stMem (s : State) : (flushQueue s).stMem = s.stMem := rfl
@[simp] theorem flushQueue_regs (s : State) : (flushQueue s).regs = s.regs := rfl
@[simp] theorem flushQueue_timerOn (s : State) : (flushQueue s).timerOn = s.timerOn := rfl
@[simp] theorem flushQueue_everEnabled (s : State) : (flushQueue s).everEnabled = s.everEnabled := rfl
@[simp] theorem flushQueue_txUnsubmitted (s : State) : (flushQueue s).txUnsubmitted = s.txUnsubmitted := rfl
@[simp] theorem flushQueue_heldPackets (s : State) : (flushQueue s).heldPackets = s.heldPackets := rfl
@[simp] theorem flushQueue_heldBuffers (s : State) : (flushQueue s).heldBuffers = s.heldBuffers := rfl
@[simp] theorem flushQueue_hostBufs (s : State) : (flushQueue s).hostBufs = s.hostBufs := rfl
@[simp] theorem flushQueue_nicTxBusy (s : State) : (flushQueue s).nicTxBusy = s.nicTxBusy := rfl
@[simp] theorem flushQueue_irqPending (s : State) : (flushQueue s).irqPending = s.irqPending := rfl
@[simp] theorem flushQueue_nicSeen (s : State) : (flushQueue s).nicSeen = s.nicSeen := rfl
@[simp] theorem flushQueue_input (s : State) : (flushQueue s).input = s.input := rfl
@[simp] theorem flushQueue_acquisitions (s : State) : (flushQueue s).acquisitions = s.acquisitions := rfl
@[simp] theorem flushQueue_work (s : State) : (flushQueue s).work = s.work := rfl
@[simp] theorem flushQueue_caller (s : State) : (flushQueue s).caller = s.caller := rfl
@[simp] theorem flushQueue_result (s : State) : (flushQueue s).result = s.result := rfl
@[simp] theorem flushQueue_history (s : State) : (flushQueue s).history = s.history ++ [.stopAndFlushQueue] := rfl
@[simp] theorem flushQueue_freeCount (s : State) : (flushQueue s).freeCount = s.freeCount := rfl

/-! ### `tickRest` -/

@[simp] theorem tickRest_cfg (s : State) : (tickRest s).cfg = s.cfg := rfl
@[simp] theorem tickRest_mem (s : State) : (tickRest s).mem = s.mem := rfl
@[simp] theorem tickRest_txNext (s : State) : (tickRest s).txNext = s.txNext := rfl
@[simp] theorem tickRest_txDirty (s : State) : (tickRest s).txDirty = s.txDirty := rfl
@[simp] theorem tickRest_txFree (s : State) : (tickRest s).txFree = s.txFree := rfl
@[simp] theorem tickRest_rxIndex (s : State) : (tickRest s).rxIndex = s.rxIndex := rfl
@[simp] theorem tickRest_txStalled (s : State) : (tickRest s).txStalled = s.txStalled := rfl
@[simp] theorem tickRest_txqEnabled (s : State) : (tickRest s).txqEnabled = s.txqEnabled := rfl
@[simp] theorem tickRest_txDoneCount (s : State) : (tickRest s).txDoneCount = s.txDoneCount := rfl
@[simp] theorem tickRest_txDoneLast (s : State) : (tickRest s).txDoneLast = s.txDoneLast := rfl
@[simp] theorem tickRest_deadlockWarn (s : State) : (tickRest s).deadlockWarn = s.deadlockWarn := rfl
@[simp] theorem tickRest_enabled (s : State) : (tickRest s).enabled = s.enabled := rfl
@[simp] theorem tickRest_link (s : State) : (tickRest s).link = s.link := rfl
@[simp] theorem tickRest_txSlot (s : State) : (tickRest s).txSlot = s.txSlot := rfl
@[simp] theorem tickRest_rxSlot (s : State) : (tickRest s).rxSlot = s.rxSlot := rfl
@[simp] theorem tickRest_txPending (s : State) : (tickRest s).txPending = s.txPending := rfl
@[simp] theorem tickRest_ctrResourceErrors (s : State) : (tickRest s).ctrResourceErrors = s.ctrResourceErrors := rfl
@[simp] theorem tickRest_ctrFrameTooLong (s : State) : (tickRest s).ctrFrameTooLong = s.ctrFrameTooLong := rfl
@[simp] theorem tickRest_ctrTimeouts (s : State) : (tickRest s).ctrTimeouts = s.ctrTimeouts := rfl
@[simp] theorem tickRest_ctrResets (s : State) : (tickRest s).ctrResets = s.ctrResets := rfl
@[simp] theorem tickRest_ctrTxDrops (s : State) : (tickRest s).ctrTxDrops = s.ctrTxDrops := rfl
@[simp] theorem tickRest_statsPending (s : State) : (tickRest s).statsPending = s.statsPending := rfl
@[simp] theorem tickRest_txMem (s : State) : (tickRest s).txMem = s.txMem := rfl
@[simp] theorem tickRest_rxMem (s : State) : (tickRest s).rxMem = s.rxMem := rfl
@[simp] theorem tickRest_stMem (s : State) : (tickRest s).stMem = s.stMem := rfl
@[simp] theorem tickRest_regs (s : State) : (tickRest s).regs = s.regs := rfl
@[simp] theorem tickRest_timerOn (s : State) : (tickRest s).timerOn = s.timerOn := rfl
@[simp] theorem tickRest_everEnabled (s : State) : (tickRest s).everEnabled = s.everEnabled := rfl
@[simp] theorem tickRest_txUnsubmitted (s : State) : (tickRest s).txUnsubmitted = s.txUnsubmitted := rfl
@[simp] theorem tickRest_heldPackets (s : State) : (tickRest s).heldPackets = s.heldPackets := rfl
@[simp] theorem tickRest_heldBuffers (s : State) : (tickRest s).heldBuffers = s.heldBuffers := rfl
@[simp] theorem tickRest_hostBufs (s : State) : (tickRest s).hostBufs = s.hostBufs := rfl
@[simp] theorem tickRest_nicTxBusy (s : State) : (tickRest s).nicTxBusy = s.nicTxBusy := rfl
@[simp] theorem tickRest_irqPending (s : State) : (tickRest s).irqPending = s.irqPending := rfl
@[simp] theorem tickRest_nicSeen (s : State) : (tickRest s).nicSeen = s.nicSeen := rfl
@[simp] theorem tickRest_input (s : State) : (tickRest s).input = s.input := rfl
@[simp] theorem tickRest_acquisitions (s : State) : (tickRest s).acquisitions = s.acquisitions := rfl
@[simp] theorem tickRest_work (s : State) : (tickRest s).work = s.work ++ [.tickRelease, .tickCheck] := rfl
@[simp] theorem tickRest_caller (s : State) : (tickRest s).caller = s.caller := rfl
@[simp] theorem tickRest_result (s : State) : (tickRest s).result = s.result := rfl
@[simp] theorem tickRest_history (s : State) : (tickRest s).history = s.history := rfl
@[simp] theorem tickRest_freeCount (s : State) : (tickRest s).freeCount = s.freeCount := rfl

/-! ### `beginReset` -/

@[simp] theorem beginReset_cfg (ends : Result) (s : State) : (beginReset ends s).cfg = s.cfg := rfl
@[simp] theorem beginReset_mem (ends : Result) (s : State) : (beginReset ends s).mem = s.mem := rfl
@[simp] theorem beginReset_txNext (ends : Result) (s : State) : (beginReset ends s).txNext = s.txNext := rfl
@[simp] theorem beginReset_txDirty (ends : Result) (s : State) : (beginReset ends s).txDirty = s.txDirty := rfl
@[simp] theorem beginReset_txFree (ends : Result) (s : State) : (beginReset ends s).txFree = s.txFree := rfl
@[simp] theorem beginReset_rxIndex (ends : Result) (s : State) : (beginReset ends s).rxIndex = s.rxIndex := rfl
@[simp] theorem beginReset_txStalled (ends : Result) (s : State) : (beginReset ends s).txStalled = s.txStalled := rfl
@[simp] theorem beginReset_txqEnabled (ends : Result) (s : State) : (beginReset ends s).txqEnabled = false := rfl
@[simp] theorem beginReset_txDoneCount (ends : Result) (s : State) : (beginReset ends s).txDoneCount = s.txDoneCount := rfl
@[simp] theorem beginReset_txDoneLast (ends : Result) (s : State) : (beginReset ends s).txDoneLast = s.txDoneLast := rfl
@[simp] theorem beginReset_deadlockWarn (ends : Result) (s : State) : (beginReset ends s).deadlockWarn = s.deadlockWarn := rfl
@[simp] theorem beginReset_enabled (ends : Result) (s : State) : (beginReset ends s).enabled = s.enabled := rfl
@[simp] theorem beginReset_link (ends : Result) (s : State) : (beginReset ends s).link = s.link := rfl
@[simp] theorem beginReset_txSlot (ends : Result) (s : State) : (beginReset ends s).txSlot = s.txSlot := rfl
@[simp] theorem beginReset_rxSlot (ends : Result) (s : State) : (beginReset ends s).rxSlot = s.rxSlot := rfl
@[simp] theorem beginReset_txPending (ends : Result) (s : State) : (beginReset ends s).txPending = s.txPending := rfl
@[simp] theorem beginReset_ctrResourceErrors (ends : Result) (s : State) : (beginReset ends s).ctrResourceErrors = s.ctrResourceErrors := rfl
@[simp] theorem beginReset_ctrFrameTooLong (ends : Result) (s : State) : (beginReset ends s).ctrFrameTooLong = s.ctrFrameTooLong := rfl
@[simp] theorem beginReset_ctrTimeouts (ends : Result) (s : State) : (beginReset ends s).ctrTimeouts = s.ctrTimeouts := rfl
@[simp] theorem beginReset_ctrResets (ends : Result) (s : State) : (beginReset ends s).ctrResets = s.ctrResets := rfl
@[simp] theorem beginReset_ctrTxDrops (ends : Result) (s : State) : (beginReset ends s).ctrTxDrops = s.ctrTxDrops := rfl
@[simp] theorem beginReset_statsPending (ends : Result) (s : State) : (beginReset ends s).statsPending = s.statsPending := rfl
@[simp] theorem beginReset_txMem (ends : Result) (s : State) : (beginReset ends s).txMem = s.txMem := rfl
@[simp] theorem beginReset_rxMem (ends : Result) (s : State) : (beginReset ends s).rxMem = s.rxMem := rfl
@[simp] theorem beginReset_stMem (ends : Result) (s : State) : (beginReset ends s).stMem = s.stMem := rfl
@[simp] theorem beginReset_regs (ends : Result) (s : State) : (beginReset ends s).regs = s.regs := rfl
@[simp] theorem beginReset_timerOn (ends : Result) (s : State) : (beginReset ends s).timerOn = s.timerOn := rfl
@[simp] theorem beginReset_everEnabled (ends : Result) (s : State) : (beginReset ends s).everEnabled = s.everEnabled := rfl
@[simp] theorem beginReset_txUnsubmitted (ends : Result) (s : State) : (beginReset ends s).txUnsubmitted = s.txUnsubmitted := rfl
@[simp] theorem beginReset_heldPackets (ends : Result) (s : State) : (beginReset ends s).heldPackets = s.heldPackets := rfl
@[simp] theorem beginReset_heldBuffers (ends : Result) (s : State) : (beginReset ends s).heldBuffers = s.heldBuffers := rfl
@[simp] theorem beginReset_hostBufs (ends : Result) (s : State) : (beginReset ends s).hostBufs = s.hostBufs := rfl
@[simp] theorem beginReset_nicTxBusy (ends : Result) (s : State) : (beginReset ends s).nicTxBusy = s.nicTxBusy := rfl
@[simp] theorem beginReset_irqPending (ends : Result) (s : State) : (beginReset ends s).irqPending = s.irqPending := rfl
@[simp] theorem beginReset_nicSeen (ends : Result) (s : State) : (beginReset ends s).nicSeen = s.nicSeen := rfl
@[simp] theorem beginReset_input (ends : Result) (s : State) : (beginReset ends s).input = s.input := rfl
@[simp] theorem beginReset_acquisitions (ends : Result) (s : State) : (beginReset ends s).acquisitions = s.acquisitions := rfl
@[simp] theorem beginReset_work (ends : Result) (s : State) : (beginReset ends s).work = .resetRest ends :: s.work := rfl
@[simp] theorem beginReset_caller (ends : Result) (s : State) : (beginReset ends s).caller = s.caller := rfl
@[simp] theorem beginReset_result (ends : Result) (s : State) : (beginReset ends s).result = s.result := rfl
@[simp] theorem beginReset_history (ends : Result) (s : State) : (beginReset ends s).history = s.history := rfl
@[simp] theorem beginReset_freeCount (ends : Result) (s : State) : (beginReset ends s).freeCount = s.freeCount := rfl

/-! ### `beginLinkDown` -/

@[simp] theorem beginLinkDown_cfg (s : State) : (beginLinkDown s).cfg = s.cfg := rfl
@[simp] theorem beginLinkDown_mem (s : State) : (beginLinkDown s).mem = s.mem := rfl
@[simp] theorem beginLinkDown_txNext (s : State) : (beginLinkDown s).txNext = s.txNext := rfl
@[simp] theorem beginLinkDown_txDirty (s : State) : (beginLinkDown s).txDirty = s.txDirty := rfl
@[simp] theorem beginLinkDown_txFree (s : State) : (beginLinkDown s).txFree = s.txFree := rfl
@[simp] theorem beginLinkDown_rxIndex (s : State) : (beginLinkDown s).rxIndex = s.rxIndex := rfl
@[simp] theorem beginLinkDown_txStalled (s : State) : (beginLinkDown s).txStalled = s.txStalled := rfl
@[simp] theorem beginLinkDown_txqEnabled (s : State) : (beginLinkDown s).txqEnabled = false := rfl
@[simp] theorem beginLinkDown_txDoneCount (s : State) : (beginLinkDown s).txDoneCount = s.txDoneCount := rfl
@[simp] theorem beginLinkDown_txDoneLast (s : State) : (beginLinkDown s).txDoneLast = s.txDoneLast := rfl
@[simp] theorem beginLinkDown_deadlockWarn (s : State) : (beginLinkDown s).deadlockWarn = s.deadlockWarn := rfl
@[simp] theorem beginLinkDown_enabled (s : State) : (beginLinkDown s).enabled = s.enabled := rfl
@[simp] theorem beginLinkDown_link (s : State) : (beginLinkDown s).link = s.link := rfl
@[simp] theorem beginLinkDown_txSlot (s : State) : (beginLinkDown s).txSlot = s.txSlot := rfl
@[simp] theorem beginLinkDown_rxSlot (s : State) : (beginLinkDown s).rxSlot = s.rxSlot := rfl
@[simp] theorem beginLinkDown_txPending (s : State) : (beginLinkDown s).txPending = s.txPending := rfl
@[simp] theorem beginLinkDown_ctrResourceErrors (s : State) : (beginLinkDown s).ctrResourceErrors = s.ctrResourceErrors := rfl
@[simp] theorem beginLinkDown_ctrFrameTooLong (s : State) : (beginLinkDown s).ctrFrameTooLong = s.ctrFrameTooLong := rfl
@[simp] theorem beginLinkDown_ctrTimeouts (s : State) : (beginLinkDown s).ctrTimeouts = s.ctrTimeouts := rfl
@[simp] theorem beginLinkDown_ctrResets (s : State) : (beginLinkDown s).ctrResets = s.ctrResets := rfl
@[simp] theorem beginLinkDown_ctrTxDrops (s : State) : (beginLinkDown s).ctrTxDrops = s.ctrTxDrops := rfl
@[simp] theorem beginLinkDown_statsPending (s : State) : (beginLinkDown s).statsPending = s.statsPending := rfl
@[simp] theorem beginLinkDown_txMem (s : State) : (beginLinkDown s).txMem = s.txMem := rfl
@[simp] theorem beginLinkDown_rxMem (s : State) : (beginLinkDown s).rxMem = s.rxMem := rfl
@[simp] theorem beginLinkDown_stMem (s : State) : (beginLinkDown s).stMem = s.stMem := rfl
@[simp] theorem beginLinkDown_regs (s : State) : (beginLinkDown s).regs = s.regs := rfl
@[simp] theorem beginLinkDown_timerOn (s : State) : (beginLinkDown s).timerOn = s.timerOn := rfl
@[simp] theorem beginLinkDown_everEnabled (s : State) : (beginLinkDown s).everEnabled = s.everEnabled := rfl
@[simp] theorem beginLinkDown_txUnsubmitted (s : State) : (beginLinkDown s).txUnsubmitted = s.txUnsubmitted := rfl
@[simp] theorem beginLinkDown_heldPackets (s : State) : (beginLinkDown s).heldPackets = s.heldPackets := rfl
@[simp] theorem beginLinkDown_heldBuffers (s : State) : (beginLinkDown s).heldBuffers = s.heldBuffers := rfl
@[simp] theorem beginLinkDown_hostBufs (s : State) : (beginLinkDown s).hostBufs = s.hostBufs := rfl
@[simp] theorem beginLinkDown_nicTxBusy (s : State) : (beginLinkDown s).nicTxBusy = s.nicTxBusy := rfl
@[simp] theorem beginLinkDown_irqPending (s : State) : (beginLinkDown s).irqPending = s.irqPending := rfl
@[simp] theorem beginLinkDown_nicSeen (s : State) : (beginLinkDown s).nicSeen = s.nicSeen := rfl
@[simp] theorem beginLinkDown_input (s : State) : (beginLinkDown s).input = s.input := rfl
@[simp] theorem beginLinkDown_acquisitions (s : State) : (beginLinkDown s).acquisitions = s.acquisitions := rfl
@[simp] theorem beginLinkDown_work (s : State) : (beginLinkDown s).work = .linkDownRest :: s.work := rfl
@[simp] theorem beginLinkDown_caller (s : State) : (beginLinkDown s).caller = s.caller := rfl
@[simp] theorem beginLinkDown_result (s : State) : (beginLinkDown s).result = s.result := rfl
@[simp] theorem beginLinkDown_history (s : State) : (beginLinkDown s).history = s.history := rfl
@[simp] theorem beginLinkDown_freeCount (s : State) : (beginLinkDown s).freeCount = s.freeCount := rfl

/-! ### `stopQueue` -/

@[simp] theorem stopQueue_cfg (s : State) : (stopQueue s).cfg = s.cfg := rfl
@[simp] theorem stopQueue_mem (s : State) : (stopQueue s).mem = s.mem := rfl
@[simp] theorem stopQueue_txNext (s : State) : (stopQueue s).txNext = s.txNext := rfl
@[simp] theorem stopQueue_txDirty (s : State) : (stopQueue s).txDirty = s.txDirty := rfl
@[simp] theorem stopQueue_txFree (s : State) : (stopQueue s).txFree = s.txFree := rfl
@[simp] theorem stopQueue_rxIndex (s : State) : (stopQueue s).rxIndex = s.rxIndex := rfl
@[simp] theorem stopQueue_txStalled (s : State) : (stopQueue s).txStalled = s.txStalled := rfl
@[simp] theorem stopQueue_txqEnabled (s : State) : (stopQueue s).txqEnabled = false := rfl
@[simp] theorem stopQueue_txDoneCount (s : State) : (stopQueue s).txDoneCount = s.txDoneCount := rfl
@[simp] theorem stopQueue_txDoneLast (s : State) : (stopQueue s).txDoneLast = s.txDoneLast := rfl
@[simp] theorem stopQueue_deadlockWarn (s : State) : (stopQueue s).deadlockWarn = s.deadlockWarn := rfl
@[simp] theorem stopQueue_enabled (s : State) : (stopQueue s).enabled = s.enabled := rfl
@[simp] theorem stopQueue_link (s : State) : (stopQueue s).link = s.link := rfl
@[simp] theorem stopQueue_txSlot (s : State) : (stopQueue s).txSlot = s.txSlot := rfl
@[simp] theorem stopQueue_rxSlot (s : State) : (stopQueue s).rxSlot = s.rxSlot := rfl
@[simp] theorem stopQueue_txPending (s : State) : (stopQueue s).txPending = s.txPending := rfl
@[simp] theorem stopQueue_ctrResourceErrors (s : State) : (stopQueue s).ctrResourceErrors = s.ctrResourceErrors := rfl
@[simp] theorem stopQueue_ctrFrameTooLong (s : State) : (stopQueue s).ctrFrameTooLong = s.ctrFrameTooLong := rfl
@[simp] theorem stopQueue_ctrTimeouts (s : State) : (stopQueue s).ctrTimeouts = s.ctrTimeouts := rfl
@[simp] theorem stopQueue_ctrResets (s : State) : (stopQueue s).ctrResets = s.ctrResets := rfl
@[simp] theorem stopQueue_ctrTxDrops (s : State) : (stopQueue s).ctrTxDrops = s.ctrTxDrops := rfl
@[simp] theorem stopQueue_statsPending (s : State) : (stopQueue s).statsPending = s.statsPending := rfl
@[simp] theorem stopQueue_txMem (s : State) : (stopQueue s).txMem = s.txMem := rfl
@[simp] theorem stopQueue_rxMem (s : State) : (stopQueue s).rxMem = s.rxMem := rfl
@[simp] theorem stopQueue_stMem (s : State) : (stopQueue s).stMem = s.stMem := rfl
@[simp] theorem stopQueue_regs (s : State) : (stopQueue s).regs = s.regs := rfl
@[simp] theorem stopQueue_timerOn (s : State) : (stopQueue s).timerOn = s.timerOn := rfl
@[simp] theorem stopQueue_everEnabled (s : State) : (stopQueue s).everEnabled = s.everEnabled := rfl
@[simp] theorem stopQueue_txUnsubmitted (s : State) : (stopQueue s).txUnsubmitted = s.txUnsubmitted := rfl
@[simp] theorem stopQueue_heldPackets (s : State) : (stopQueue s).heldPackets = s.heldPackets := rfl
@[simp] theorem stopQueue_heldBuffers (s : State) : (stopQueue s).heldBuffers = s.heldBuffers := rfl
@[simp] theorem stopQueue_hostBufs (s : State) : (stopQueue s).hostBufs = s.hostBufs := rfl
@[simp] theorem stopQueue_nicTxBusy (s : State) : (stopQueue s).nicTxBusy = s.nicTxBusy := rfl
@[simp] theorem stopQueue_irqPending (s : State) : (stopQueue s).irqPending = s.irqPending := rfl
@[simp] theorem stopQueue_nicSeen (s : State) : (stopQueue s).nicSeen = s.nicSeen := rfl
@[simp] theorem stopQueue_input (s : State) : (stopQueue s).input = s.input := rfl
@[simp] theorem stopQueue_acquisitions (s : State) : (stopQueue s).acquisitions = s.acquisitions := rfl
@[simp] theorem stopQueue_work (s : State) : (stopQueue s).work = s.work := rfl
@[simp] theorem stopQueue_caller (s : State) : (stopQueue s).caller = s.caller := rfl
@[simp] theorem stopQueue_result (s : State) : (stopQueue s).result = s.result := rfl
@[simp] theorem stopQueue_history (s : State) : (stopQueue s).history = s.history ++ [.stopAndFlushQueue] := rfl
@[simp] theorem stopQueue_freeCount (s : State) : (stopQueue s).freeCount = s.freeCount := rfl

/-! ### `resumeQueue` -/

@[simp] theorem resumeQueue_cfg (s : State) : (resumeQueue s).cfg = s.cfg := rfl
@[simp] theorem resumeQueue_mem (s : State) : (resumeQueue s).mem = s.mem := rfl
@[simp] theorem resumeQueue_txNext (s : State) : (resumeQueue s).txNext = s.txNext := rfl
@[simp] theorem resumeQueue_txDirty (s : State) : (resumeQueue s).txDirty = s.txDirty := rfl
@[simp] theorem resumeQueue_txFree (s : State) : (resumeQueue s).txFree = s.txFree := rfl
@[simp] theorem resumeQueue_rxIndex (s : State) : (resumeQueue s).rxIndex = s.rxIndex := rfl
@[simp] theorem resumeQueue_txStalled (s : State) : (resumeQueue s).txStalled = s.txStalled := rfl
@[simp] theorem resumeQueue_txqEnabled (s : State) : (resumeQueue s).txqEnabled = true := rfl
@[simp] theorem resumeQueue_txDoneCount (s : State) : (resumeQueue s).txDoneCount = s.txDoneCount := rfl
@[simp] theorem resumeQueue_txDoneLast (s : State) : (resumeQueue s).txDoneLast = s.txDoneLast := rfl
@[simp] theorem resumeQueue_deadlockWarn (s : State) : (resumeQueue s).deadlockWarn = s.deadlockWarn := rfl
@[simp] theorem resumeQueue_enabled (s : State) : (resumeQueue s).enabled = s.enabled := rfl
@[simp] theorem resumeQueue_link (s : State) : (resumeQueue s).link = s.link := rfl
@[simp] theorem resumeQueue_txSlot (s : State) : (resumeQueue s).txSlot = s.txSlot := rfl
@[simp] theorem resumeQueue_rxSlot (s : State) : (resumeQueue s).rxSlot = s.rxSlot := rfl
@[simp] theorem resumeQueue_txPending (s : State) : (resumeQueue s).txPending = s.txPending := rfl
@[simp] theorem resumeQueue_ctrResourceErrors (s : State) : (resumeQueue s).ctrResourceErrors = s.ctrResourceErrors := rfl
@[simp] theorem resumeQueue_ctrFrameTooLong (s : State) : (resumeQueue s).ctrFrameTooLong = s.ctrFrameTooLong := rfl
@[simp] theorem resumeQueue_ctrTimeouts (s : State) : (resumeQueue s).ctrTimeouts = s.ctrTimeouts := rfl
@[simp] theorem resumeQueue_ctrResets (s : State) : (resumeQueue s).ctrResets = s.ctrResets := rfl
@[simp] theorem resumeQueue_ctrTxDrops (s : State) : (resumeQueue s).ctrTxDrops = s.ctrTxDrops := rfl
@[simp] theorem resumeQueue_statsPending (s : State) : (resumeQueue s).statsPending = s.statsPending := rfl
@[simp] theorem resumeQueue_txMem (s : State) : (resumeQueue s).txMem = s.txMem := rfl
@[simp] theorem resumeQueue_rxMem (s : State) : (resumeQueue s).rxMem = s.rxMem := rfl
@[simp] theorem resumeQueue_stMem (s : State) : (resumeQueue s).stMem = s.stMem := rfl
@[simp] theorem resumeQueue_regs (s : State) : (resumeQueue s).regs = s.regs := rfl
@[simp] theorem resumeQueue_timerOn (s : State) : (resumeQueue s).timerOn = s.timerOn := rfl
@[simp] theorem resumeQueue_everEnabled (s : State) : (resumeQueue s).everEnabled = s.everEnabled := rfl
@[simp] theorem resumeQueue_txUnsubmitted (s : State) : (resumeQueue s).txUnsubmitted = s.txUnsubmitted := rfl
@[simp] theorem resumeQueue_heldPackets (s : State) : (resumeQueue s).heldPackets = s.heldPackets := rfl
@[simp] theorem resumeQueue_heldBuffers (s : State) : (resumeQueue s).heldBuffers = s.heldBuffers := rfl
@[simp] theorem resumeQueue_hostBufs (s : State) : (resumeQueue s).hostBufs = s.hostBufs := rfl
@[simp] theorem resumeQueue_nicTxBusy (s : State) : (resumeQueue s).nicTxBusy = s.nicTxBusy := rfl
@[simp] theorem resumeQueue_irqPending (s : State) : (resumeQueue s).irqPending = s.irqPending := rfl
@[simp] theorem resumeQueue_nicSeen (s : State) : (resumeQueue s).nicSeen = s.nicSeen := rfl
@[simp] theorem resumeQueue_input (s : State) : (resumeQueue s).input = s.input := rfl
@[simp] theorem resumeQueue_acquisitions (s : State) : (resumeQueue s).acquisitions = s.acquisitions := rfl
@[simp] theorem resumeQueue_work (s : State) : (resumeQueue s).work = s.work := rfl
@[simp] theorem resumeQueue_caller (s : State) : (resumeQueue s).caller = s.caller := rfl
@[simp] theorem resumeQueue_result (s : State) : (resumeQueue s).result = s.result := rfl
@[simp] theorem resumeQueue_history (s : State) : (resumeQueue s).history = s.history ++ [.resumeQueue] := rfl
@[simp] theorem resumeQueue_freeCount (s : State) : (resumeQueue s).freeCount = s.freeCount := rfl

/-! ### `countResourceErrors` -/

@[simp] theorem countResourceErrors_cfg (s : State) : (countResourceErrors s).cfg = s.cfg := rfl
@[simp] theorem countResourceErrors_mem (s : State) : (countResourceErrors s).mem = s.mem := rfl
@[simp] theorem countResourceErrors_txNext (s : State) : (countResourceErrors s).txNext = s.txNext := rfl
@[simp] theorem countResourceErrors_txDirty (s : State) : (countResourceErrors s).txDirty = s.txDirty := rfl
@[simp] theorem countResourceErrors_txFree (s : State) : (countResourceErrors s).txFree = s.txFree := rfl
@[simp] theorem countResourceErrors_rxIndex (s : State) : (countResourceErrors s).rxIndex = s.rxIndex := rfl
@[simp] theorem countResourceErrors_txStalled (s : State) : (countResourceErrors s).txStalled = s.txStalled := rfl
@[simp] theorem countResourceErrors_txqEnabled (s : State) : (countResourceErrors s).txqEnabled = s.txqEnabled := rfl
@[simp] theorem countResourceErrors_txDoneCount (s : State) : (countResourceErrors s).txDoneCount = s.txDoneCount := rfl
@[simp] theorem countResourceErrors_txDoneLast (s : State) : (countResourceErrors s).txDoneLast = s.txDoneLast := rfl
@[simp] theorem countResourceErrors_deadlockWarn (s : State) : (countResourceErrors s).deadlockWarn = s.deadlockWarn := rfl
@[simp] theorem countResourceErrors_enabled (s : State) : (countResourceErrors s).enabled = s.enabled := rfl
@[simp] theorem countResourceErrors_link (s : State) : (countResourceErrors s).link = s.link := rfl
@[simp] theorem countResourceErrors_txSlot (s : State) : (countResourceErrors s).txSlot = s.txSlot := rfl
@[simp] theorem countResourceErrors_rxSlot (s : State) : (countResourceErrors s).rxSlot = s.rxSlot := rfl
@[simp] theorem countResourceErrors_txPending (s : State) : (countResourceErrors s).txPending = s.txPending := rfl
@[simp] theorem countResourceErrors_ctrResourceErrors (s : State) : (countResourceErrors s).ctrResourceErrors = countUp s.cfg s.ctrResourceErrors := rfl
@[simp] theorem countResourceErrors_ctrFrameTooLong (s : State) : (countResourceErrors s).ctrFrameTooLong = s.ctrFrameTooLong := rfl
@[simp] theorem countResourceErrors_ctrTimeouts (s : State) : (countResourceErrors s).ctrTimeouts = s.ctrTimeouts := rfl
@[simp] theorem countResourceErrors_ctrResets (s : State) : (countResourceErrors s).ctrResets = s.ctrResets := rfl
@[simp] theorem countResourceErrors_ctrTxDrops (s : State) : (countResourceErrors s).ctrTxDrops = s.ctrTxDrops := rfl
@[simp] theorem countResourceErrors_statsPending (s : State) : (countResourceErrors s).statsPending = s.statsPending := rfl
@[simp] theorem countResourceErrors_txMem (s : State) : (countResourceErrors s).txMem = s.txMem := rfl
@[simp] theorem countResourceErrors_rxMem (s : State) : (countResourceErrors s).rxMem = s.rxMem := rfl
@[simp] theorem countResourceErrors_stMem (s : State) : (countResourceErrors s).stMem = s.stMem := rfl
@[simp] theorem countResourceErrors_regs (s : State) : (countResourceErrors s).regs = s.regs := rfl
@[simp] theorem countResourceErrors_timerOn (s : State) : (countResourceErrors s).timerOn = s.timerOn := rfl
@[simp] theorem countResourceErrors_everEnabled (s : State) : (countResourceErrors s).everEnabled = s.everEnabled := rfl
@[simp] theorem countResourceErrors_txUnsubmitted (s : State) : (countResourceErrors s).txUnsubmitted = s.txUnsubmitted := rfl
@[simp] theorem countResourceErrors_heldPackets (s : State) : (countResourceErrors s).heldPackets = s.heldPackets := rfl
@[simp] theorem countResourceErrors_heldBuffers (s : State) : (countResourceErrors s).heldBuffers = s.heldBuffers := rfl
@[simp] theorem countResourceErrors_hostBufs (s : State) : (countResourceErrors s).hostBufs = s.hostBufs := rfl
@[simp] theorem countResourceErrors_nicTxBusy (s : State) : (countResourceErrors s).nicTxBusy = s.nicTxBusy := rfl
@[simp] theorem countResourceErrors_irqPending (s : State) : (countResourceErrors s).irqPending = s.irqPending := rfl
@[simp] theorem countResourceErrors_nicSeen (s : State) : (countResourceErrors s).nicSeen = s.nicSeen := rfl
@[simp] theorem countResourceErrors_input (s : State) : (countResourceErrors s).input = s.input := rfl
@[simp] theorem countResourceErrors_acquisitions (s : State) : (countResourceErrors s).acquisitions = s.acquisitions := rfl
@[simp] theorem countResourceErrors_work (s : State) : (countResourceErrors s).work = s.work := rfl
@[simp] theorem countResourceErrors_caller (s : State) : (countResourceErrors s).caller = s.caller := rfl
@[simp] theorem countResourceErrors_result (s : State) : (countResourceErrors s).result = s.result := rfl
@[simp] theorem countResourceErrors_history (s : State) : (countResourceErrors s).history = s.history := rfl
@[simp] theorem countResourceErrors_freeCount (s : State) : (countResourceErrors s).freeCount = s.freeCount := rfl

/-! ### `countFrameTooLong` -/

@[simp] theorem countFrameTooLong_cfg (s : State) : (countFrameTooLong s).cfg = s.cfg := rfl
@[simp] theorem countFrameTooLong_mem (s : State) : (countFrameTooLong s).mem = s.mem := rfl
@[simp] theorem countFrameTooLong_txNext (s : State) : (countFrameTooLong s).txNext = s.txNext := rfl
@[simp] theorem countFrameTooLong_txDirty (s : State) : (countFrameTooLong s).txDirty = s.txDirty := rfl
@[simp] theorem countFrameTooLong_txFree (s : State) : (countFrameTooLong s).txFree = s.txFree := rfl
@[simp] theorem countFrameTooLong_rxIndex (s : State) : (countFrameTooLong s).rxIndex = s.rxIndex := rfl
@[simp] theorem countFrameTooLong_txStalled (s : State) : (countFrameTooLong s).txStalled = s.txStalled := rfl
@[simp] theorem countFrameTooLong_txqEnabled (s : State) : (countFrameTooLong s).txqEnabled = s.txqEnabled := rfl
@[simp] theorem countFrameTooLong_txDoneCount (s : State) : (countFrameTooLong s).txDoneCount = s.txDoneCount := rfl
@[simp] theorem countFrameTooLong_txDoneLast (s : State) : (countFrameTooLong s).txDoneLast = s.txDoneLast := rfl
@[simp] theorem countFrameTooLong_deadlockWarn (s : State) : (countFrameTooLong s).deadlockWarn = s.deadlockWarn := rfl
@[simp] theorem countFrameTooLong_enabled (s : State) : (countFrameTooLong s).enabled = s.enabled := rfl
@[simp] theorem countFrameTooLong_link (s : State) : (countFrameTooLong s).link = s.link := rfl
@[simp] theorem countFrameTooLong_txSlot (s : State) : (countFrameTooLong s).txSlot = s.txSlot := rfl
@[simp] theorem countFrameTooLong_rxSlot (s : State) : (countFrameTooLong s).rxSlot = s.rxSlot := rfl
@[simp] theorem countFrameTooLong_txPending (s : State) : (countFrameTooLong s).txPending = s.txPending := rfl
@[simp] theorem countFrameTooLong_ctrResourceErrors (s : State) : (countFrameTooLong s).ctrResourceErrors = s.ctrResourceErrors := rfl
@[simp] theorem countFrameTooLong_ctrFrameTooLong (s : State) : (countFrameTooLong s).ctrFrameTooLong = countUp s.cfg s.ctrFrameTooLong := rfl
@[simp] theorem countFrameTooLong_ctrTimeouts (s : State) : (countFrameTooLong s).ctrTimeouts = s.ctrTimeouts := rfl
@[simp] theorem countFrameTooLong_ctrResets (s : State) : (countFrameTooLong s).ctrResets = s.ctrResets := rfl
@[simp] theorem countFrameTooLong_ctrTxDrops (s : State) : (countFrameTooLong s).ctrTxDrops = s.ctrTxDrops := rfl
@[simp] theorem countFrameTooLong_statsPending (s : State) : (countFrameTooLong s).statsPending = s.statsPending := rfl
@[simp] theorem countFrameTooLong_txMem (s : State) : (countFrameTooLong s).txMem = s.txMem := rfl
@[simp] theorem countFrameTooLong_rxMem (s : State) : (countFrameTooLong s).rxMem = s.rxMem := rfl
@[simp] theorem countFrameTooLong_stMem (s : State) : (countFrameTooLong s).stMem = s.stMem := rfl
@[simp] theorem countFrameTooLong_regs (s : State) : (countFrameTooLong s).regs = s.regs := rfl
@[simp] theorem countFrameTooLong_timerOn (s : State) : (countFrameTooLong s).timerOn = s.timerOn := rfl
@[simp] theorem countFrameTooLong_everEnabled (s : State) : (countFrameTooLong s).everEnabled = s.everEnabled := rfl
@[simp] theorem countFrameTooLong_txUnsubmitted (s : State) : (countFrameTooLong s).txUnsubmitted = s.txUnsubmitted := rfl
@[simp] theorem countFrameTooLong_heldPackets (s : State) : (countFrameTooLong s).heldPackets = s.heldPackets := rfl
@[simp] theorem countFrameTooLong_heldBuffers (s : State) : (countFrameTooLong s).heldBuffers = s.heldBuffers := rfl
@[simp] theorem countFrameTooLong_hostBufs (s : State) : (countFrameTooLong s).hostBufs = s.hostBufs := rfl
@[simp] theorem countFrameTooLong_nicTxBusy (s : State) : (countFrameTooLong s).nicTxBusy = s.nicTxBusy := rfl
@[simp] theorem countFrameTooLong_irqPending (s : State) : (countFrameTooLong s).irqPending = s.irqPending := rfl
@[simp] theorem countFrameTooLong_nicSeen (s : State) : (countFrameTooLong s).nicSeen = s.nicSeen := rfl
@[simp] theorem countFrameTooLong_input (s : State) : (countFrameTooLong s).input = s.input := rfl
@[simp] theorem countFrameTooLong_acquisitions (s : State) : (countFrameTooLong s).acquisitions = s.acquisitions := rfl
@[simp] theorem countFrameTooLong_work (s : State) : (countFrameTooLong s).work = s.work := rfl
@[simp] theorem countFrameTooLong_caller (s : State) : (countFrameTooLong s).caller = s.caller := rfl
@[simp] theorem countFrameTooLong_result (s : State) : (countFrameTooLong s).result = s.result := rfl
@[simp] theorem countFrameTooLong_history (s : State) : (countFrameTooLong s).history = s.history := rfl
@[simp] theorem countFrameTooLong_freeCount (s : State) : (countFrameTooLong s).freeCount = s.freeCount := rfl

/-! ### `countTimeouts` -/

@[simp] theorem countTimeouts_cfg (s : State) : (countTimeouts s).cfg = s.cfg := rfl
@[simp] theorem countTimeouts_mem (s : State) : (countTimeouts s).mem = s.mem := rfl
@[simp] theorem countTimeouts_txNext (s : State) : (countTimeouts s).txNext = s.txNext := rfl
@[simp] theorem countTimeouts_txDirty (s : State) : (countTimeouts s).txDirty = s.txDirty := rfl
@[simp] theorem countTimeouts_txFree (s : State) : (countTimeouts s).txFree = s.txFree := rfl
@[simp] theorem countTimeouts_rxIndex (s : State) : (countTimeouts s).rxIndex = s.rxIndex := rfl
@[simp] theorem countTimeouts_txStalled (s : State) : (countTimeouts s).txStalled = s.txStalled := rfl
@[simp] theorem countTimeouts_txqEnabled (s : State) : (countTimeouts s).txqEnabled = s.txqEnabled := rfl
@[simp] theorem countTimeouts_txDoneCount (s : State) : (countTimeouts s).txDoneCount = s.txDoneCount := rfl
@[simp] theorem countTimeouts_txDoneLast (s : State) : (countTimeouts s).txDoneLast = s.txDoneLast := rfl
@[simp] theorem countTimeouts_deadlockWarn (s : State) : (countTimeouts s).deadlockWarn = s.deadlockWarn := rfl
@[simp] theorem countTimeouts_enabled (s : State) : (countTimeouts s).enabled = s.enabled := rfl
@[simp] theorem countTimeouts_link (s : State) : (countTimeouts s).link = s.link := rfl
@[simp] theorem countTimeouts_txSlot (s : State) : (countTimeouts s).txSlot = s.txSlot := rfl
@[simp] theorem countTimeouts_rxSlot (s : State) : (countTimeouts s).rxSlot = s.rxSlot := rfl
@[simp] theorem countTimeouts_txPending (s : State) : (countTimeouts s).txPending = s.txPending := rfl
@[simp] theorem countTimeouts_ctrResourceErrors (s : State) : (countTimeouts s).ctrResourceErrors = s.ctrResourceErrors := rfl
@[simp] theorem countTimeouts_ctrFrameTooLong (s : State) : (countTimeouts s).ctrFrameTooLong = s.ctrFrameTooLong := rfl
@[simp] theorem countTimeouts_ctrTimeouts (s : State) : (countTimeouts s).ctrTimeouts = countUp s.cfg s.ctrTimeouts := rfl
@[simp] theorem countTimeouts_ctrResets (s : State) : (countTimeouts s).ctrResets = s.ctrResets := rfl
@[simp] theorem countTimeouts_ctrTxDrops (s : State) : (countTimeouts s).ctrTxDrops = s.ctrTxDrops := rfl
@[simp] theorem countTimeouts_statsPending (s : State) : (countTimeouts s).statsPending = s.statsPending := rfl
@[simp] theorem countTimeouts_txMem (s : State) : (countTimeouts s).txMem = s.txMem := rfl
@[simp] theorem countTimeouts_rxMem (s : State) : (countTimeouts s).rxMem = s.rxMem := rfl
@[simp] theorem countTimeouts_stMem (s : State) : (countTimeouts s).stMem = s.stMem := rfl
@[simp] theorem countTimeouts_regs (s : State) : (countTimeouts s).regs = s.regs := rfl
@[simp] theorem countTimeouts_timerOn (s : State) : (countTimeouts s).timerOn = s.timerOn := rfl
@[simp] theorem countTimeouts_everEnabled (s : State) : (countTimeouts s).everEnabled = s.everEnabled := rfl
@[simp] theorem countTimeouts_txUnsubmitted (s : State) : (countTimeouts s).txUnsubmitted = s.txUnsubmitted := rfl
@[simp] theorem countTimeouts_heldPackets (s : State) : (countTimeouts s).heldPackets = s.heldPackets := rfl
@[simp] theorem countTimeouts_heldBuffers (s : State) : (countTimeouts s).heldBuffers = s.heldBuffers := rfl
@[simp] theorem countTimeouts_hostBufs (s : State) : (countTimeouts s).hostBufs = s.hostBufs := rfl
@[simp] theorem countTimeouts_nicTxBusy (s : State) : (countTimeouts s).nicTxBusy = s.nicTxBusy := rfl
@[simp] theorem countTimeouts_irqPending (s : State) : (countTimeouts s).irqPending = s.irqPending := rfl
@[simp] theorem countTimeouts_nicSeen (s : State) : (countTimeouts s).nicSeen = s.nicSeen := rfl
@[simp] theorem countTimeouts_input (s : State) : (countTimeouts s).input = s.input := rfl
@[simp] theorem countTimeouts_acquisitions (s : State) : (countTimeouts s).acquisitions = s.acquisitions := rfl
@[simp] theorem countTimeouts_work (s : State) : (countTimeouts s).work = s.work := rfl
@[simp] theorem countTimeouts_caller (s : State) : (countTimeouts s).caller = s.caller := rfl
@[simp] theorem countTimeouts_result (s : State) : (countTimeouts s).result = s.result := rfl
@[simp] theorem countTimeouts_history (s : State) : (countTimeouts s).history = s.history := rfl
@[simp] theorem countTimeouts_freeCount (s : State) : (countTimeouts s).freeCount = s.freeCount := rfl

/-! ### `countResets` -/

@[simp] theorem countResets_cfg (s : State) : (countResets s).cfg = s.cfg := rfl
@[simp] theorem countResets_mem (s : State) : (countResets s).mem = s.mem := rfl
@[simp] theorem countResets_txNext (s : State) : (countResets s).txNext = s.txNext := rfl
@[simp] theorem countResets_txDirty (s : State) : (countResets s).txDirty = s.txDirty := rfl
@[simp] theorem countResets_txFree (s : State) : (countResets s).txFree = s.txFree := rfl
@[simp] theorem countResets_rxIndex (s : State) : (countResets s).rxIndex = s.rxIndex := rfl
@[simp] theorem countResets_txStalled (s : State) : (countResets s).txStalled = s.txStalled := rfl
@[simp] theorem countResets_txqEnabled (s : State) : (countResets s).txqEnabled = s.txqEnabled := rfl
@[simp] theorem countResets_txDoneCount (s : State) : (countResets s).txDoneCount = s.txDoneCount := rfl
@[simp] theorem countResets_txDoneLast (s : State) : (countResets s).txDoneLast = s.txDoneLast := rfl
@[simp] theorem countResets_deadlockWarn (s : State) : (countResets s).deadlockWarn = s.deadlockWarn := rfl
@[simp] theorem countResets_enabled (s : State) : (countResets s).enabled = s.enabled := rfl
@[simp] theorem countResets_link (s : State) : (countResets s).link = s.link := rfl
@[simp] theorem countResets_txSlot (s : State) : (countResets s).txSlot = s.txSlot := rfl
@[simp] theorem countResets_rxSlot (s : State) : (countResets s).rxSlot = s.rxSlot := rfl
@[simp] theorem countResets_txPending (s : State) : (countResets s).txPending = s.txPending := rfl
@[simp] theorem countResets_ctrResourceErrors (s : State) : (countResets s).ctrResourceErrors = s.ctrResourceErrors := rfl
@[simp] theorem countResets_ctrFrameTooLong (s : State) : (countResets s).ctrFrameTooLong = s.ctrFrameTooLong := rfl
@[simp] theorem countResets_ctrTimeouts (s : State) : (countResets s).ctrTimeouts = s.ctrTimeouts := rfl
@[simp] theorem countResets_ctrResets (s : State) : (countResets s).ctrResets = countUp s.cfg s.ctrResets := rfl
@[simp] theorem countResets_ctrTxDrops (s : State) : (countResets s).ctrTxDrops = s.ctrTxDrops := rfl
@[simp] theorem countResets_statsPending (s : State) : (countResets s).statsPending = s.statsPending := rfl
@[simp] theorem countResets_txMem (s : State) : (countResets s).txMem = s.txMem := rfl
@[simp] theorem countResets_rxMem (s : State) : (countResets s).rxMem = s.rxMem := rfl
@[simp] theorem countResets_stMem (s : State) : (countResets s).stMem = s.stMem := rfl
@[simp] theorem countResets_regs (s : State) : (countResets s).regs = s.regs := rfl
@[simp] theorem countResets_timerOn (s : State) : (countResets s).timerOn = s.timerOn := rfl
@[simp] theorem countResets_everEnabled (s : State) : (countResets s).everEnabled = s.everEnabled := rfl
@[simp] theorem countResets_txUnsubmitted (s : State) : (countResets s).txUnsubmitted = s.txUnsubmitted := rfl
@[simp] theorem countResets_heldPackets (s : State) : (countResets s).heldPackets = s.heldPackets := rfl
@[simp] theorem countResets_heldBuffers (s : State) : (countResets s).heldBuffers = s.heldBuffers := rfl
@[simp] theorem countResets_hostBufs (s : State) : (countResets s).hostBufs = s.hostBufs := rfl
@[simp] theorem countResets_nicTxBusy (s : State) : (countResets s).nicTxBusy = s.nicTxBusy := rfl
@[simp] theorem countResets_irqPending (s : State) : (countResets s).irqPending = s.irqPending := rfl
@[simp] theorem countResets_nicSeen (s : State) : (countResets s).nicSeen = s.nicSeen := rfl
@[simp] theorem countResets_input (s : State) : (countResets s).input = s.input := rfl
@[simp] theorem countResets_acquisitions (s : State) : (countResets s).acquisitions = s.acquisitions := rfl
@[simp] theorem countResets_work (s : State) : (countResets s).work = s.work := rfl
@[simp] theorem countResets_caller (s : State) : (countResets s).caller = s.caller := rfl
@[simp] theorem countResets_result (s : State) : (countResets s).result = s.result := rfl
@[simp] theorem countResets_history (s : State) : (countResets s).history = s.history := rfl
@[simp] theorem countResets_freeCount (s : State) : (countResets s).freeCount = s.freeCount := rfl

/-! ### `countTxDrops` -/

@[simp] theorem countTxDrops_cfg (s : State) : (countTxDrops s).cfg = s.cfg := rfl
@[simp] theorem countTxDrops_mem (s : State) : (countTxDrops s).mem = s.mem := rfl
@[simp] theorem countTxDrops_txNext (s : State) : (countTxDrops s).txNext = s.txNext := rfl
@[simp] theorem countTxDrops_txDirty (s : State) : (countTxDrops s).txDirty = s.txDirty := rfl
@[simp] theorem countTxDrops_txFree (s : State) : (countTxDrops s).txFree = s.txFree := rfl
@[simp] theorem countTxDrops_rxIndex (s : State) : (countTxDrops s).rxIndex = s.rxIndex := rfl
@[simp] theorem countTxDrops_txStalled (s : State) : (countTxDrops s).txStalled = s.txStalled := rfl
@[simp] theorem countTxDrops_txqEnabled (s : State) : (countTxDrops s).txqEnabled = s.txqEnabled := rfl
@[simp] theorem countTxDrops_txDoneCount (s : State) : (countTxDrops s).txDoneCount = s.txDoneCount := rfl
@[simp] theorem countTxDrops_txDoneLast (s : State) : (countTxDrops s).txDoneLast = s.txDoneLast := rfl
@[simp] theorem countTxDrops_deadlockWarn (s : State) : (countTxDrops s).deadlockWarn = s.deadlockWarn := rfl
@[simp] theorem countTxDrops_enabled (s : State) : (countTxDrops s).enabled = s.enabled := rfl
@[simp] theorem countTxDrops_link (s : State) : (countTxDrops s).link = s.link := rfl
@[simp] theorem countTxDrops_txSlot (s : State) : (countTxDrops s).txSlot = s.txSlot := rfl
@[simp] theorem countTxDrops_rxSlot (s : State) : (countTxDrops s).rxSlot = s.rxSlot := rfl
@[simp] theorem countTxDrops_txPending (s : State) : (countTxDrops s).txPending = s.txPending := rfl
@[simp] theorem countTxDrops_ctrResourceErrors (s : State) : (countTxDrops s).ctrResourceErrors = s.ctrResourceErrors := rfl
@[simp] theorem countTxDrops_ctrFrameTooLong (s : State) : (countTxDrops s).ctrFrameTooLong = s.ctrFrameTooLong := rfl
@[simp] theorem countTxDrops_ctrTimeouts (s : State) : (countTxDrops s).ctrTimeouts = s.ctrTimeouts := rfl
@[simp] theorem countTxDrops_ctrResets (s : State) : (countTxDrops s).ctrResets = s.ctrResets := rfl
@[simp] theorem countTxDrops_ctrTxDrops (s : State) : (countTxDrops s).ctrTxDrops = countUp s.cfg s.ctrTxDrops := rfl
@[simp] theorem countTxDrops_statsPending (s : State) : (countTxDrops s).statsPending = s.statsPending := rfl
@[simp] theorem countTxDrops_txMem (s : State) : (countTxDrops s).txMem = s.txMem := rfl
@[simp] theorem countTxDrops_rxMem (s : State) : (countTxDrops s).rxMem = s.rxMem := rfl
@[simp] theorem countTxDrops_stMem (s : State) : (countTxDrops s).stMem = s.stMem := rfl
@[simp] theorem countTxDrops_regs (s : State) : (countTxDrops s).regs = s.regs := rfl
@[simp] theorem countTxDrops_timerOn (s : State) : (countTxDrops s).timerOn = s.timerOn := rfl
@[simp] theorem countTxDrops_everEnabled (s : State) : (countTxDrops s).everEnabled = s.everEnabled := rfl
@[simp] theorem countTxDrops_txUnsubmitted (s : State) : (countTxDrops s).txUnsubmitted = s.txUnsubmitted := rfl
@[simp] theorem countTxDrops_heldPackets (s : State) : (countTxDrops s).heldPackets = s.heldPackets := rfl
@[simp] theorem countTxDrops_heldBuffers (s : State) : (countTxDrops s).heldBuffers = s.heldBuffers := rfl
@[simp] theorem countTxDrops_hostBufs (s : State) : (countTxDrops s).hostBufs = s.hostBufs := rfl
@[simp] theorem countTxDrops_nicTxBusy (s : State) : (countTxDrops s).nicTxBusy = s.nicTxBusy := rfl
@[simp] theorem countTxDrops_irqPending (s : State) : (countTxDrops s).irqPending = s.irqPending := rfl
@[simp] theorem countTxDrops_nicSeen (s : State) : (countTxDrops s).nicSeen = s.nicSeen := rfl
@[simp] theorem countTxDrops_input (s : State) : (countTxDrops s).input = s.input := rfl
@[simp] theorem countTxDrops_acquisitions (s : State) : (countTxDrops s).acquisitions = s.acquisitions := rfl
@[simp] theorem countTxDrops_work (s : State) : (countTxDrops s).work = s.work := rfl
@[simp] theorem countTxDrops_caller (s : State) : (countTxDrops s).caller = s.caller := rfl
@[simp] theorem countTxDrops_result (s : State) : (countTxDrops s).result = s.result := rfl
@[simp] theorem countTxDrops_history (s : State) : (countTxDrops s).history = s.history := rfl
@[simp] theorem countTxDrops_freeCount (s : State) : (countTxDrops s).freeCount = s.freeCount := rfl

/-! ### `takeInput` -/

@[simp] theorem takeInput_cfg (x : Invocation) (rest : List Invocation) (s : State) : (takeInput x rest s).cfg = s.cfg := rfl
@[simp] theorem takeInput_mem (x : Invocation) (rest : List Invocation) (s : State) : (takeInput x rest s).mem = s.mem := rfl
@[simp] theorem takeInput_txNext (x : Invocation) (rest : List Invocation) (s : State) : (takeInput x rest s).txNext = s.txNext := rfl
@[simp] theorem takeInput_txDirty (x : Invocation) (rest : List Invocation) (s : State) : (takeInput x rest s).txDirty = s.txDirty := rfl
@[simp] theorem takeInput_txFree (x : Invocation) (rest : List Invocation) (s : State) : (takeInput x rest s).txFree = s.txFree := rfl
@[simp] theorem takeInput_rxIndex (x : Invocation) (rest : List Invocation) (s : State) : (takeInput x rest s).rxIndex = s.rxIndex := rfl
@[simp] theorem takeInput_txStalled (x : Invocation) (rest : List Invocation) (s : State) : (takeInput x rest s).txStalled = s.txStalled := rfl
@[simp] theorem takeInput_txqEnabled (x : Invocation) (rest : List Invocation) (s : State) : (takeInput x rest s).txqEnabled = s.txqEnabled := rfl
@[simp] theorem takeInput_txDoneCount (x : Invocation) (rest : List Invocation) (s : State) : (takeInput x rest s).txDoneCount = s.txDoneCount := rfl
@[simp] theorem takeInput_txDoneLast (x : Invocation) (rest : List Invocation) (s : State) : (takeInput x rest s).txDoneLast = s.txDoneLast := rfl
@[simp] theorem takeInput_deadlockWarn (x : Invocation) (rest : List Invocation) (s : State) : (takeInput x rest s).deadlockWarn = s.deadlockWarn := rfl
@[simp] theorem takeInput_enabled (x : Invocation) (rest : List Invocation) (s : State) : (takeInput x rest s).enabled = s.enabled := rfl
@[simp] theorem takeInput_link (x : Invocation) (rest : List Invocation) (s : State) : (takeInput x rest s).link = s.link := rfl
@[simp] theorem takeInput_txSlot (x : Invocation) (rest : List Invocation) (s : State) : (takeInput x rest s).txSlot = s.txSlot := rfl
@[simp] theorem takeInput_rxSlot (x : Invocation) (rest : List Invocation) (s : State) : (takeInput x rest s).rxSlot = s.rxSlot := rfl
@[simp] theorem takeInput_txPending (x : Invocation) (rest : List Invocation) (s : State) : (takeInput x rest s).txPending = s.txPending := rfl
@[simp] theorem takeInput_ctrResourceErrors (x : Invocation) (rest : List Invocation) (s : State) : (takeInput x rest s).ctrResourceErrors = s.ctrResourceErrors := rfl
@[simp] theorem takeInput_ctrFrameTooLong (x : Invocation) (rest : List Invocation) (s : State) : (takeInput x rest s).ctrFrameTooLong = s.ctrFrameTooLong := rfl
@[simp] theorem takeInput_ctrTimeouts (x : Invocation) (rest : List Invocation) (s : State) : (takeInput x rest s).ctrTimeouts = s.ctrTimeouts := rfl
@[simp] theorem takeInput_ctrResets (x : Invocation) (rest : List Invocation) (s : State) : (takeInput x rest s).ctrResets = s.ctrResets := rfl
@[simp] theorem takeInput_ctrTxDrops (x : Invocation) (rest : List Invocation) (s : State) : (takeInput x rest s).ctrTxDrops = s.ctrTxDrops := rfl
@[simp] theorem takeInput_statsPending (x : Invocation) (rest : List Invocation) (s : State) : (takeInput x rest s).statsPending = s.statsPending := rfl
@[simp] theorem takeInput_txMem (x : Invocation) (rest : List Invocation) (s : State) : (takeInput x rest s).txMem = s.txMem := rfl
@[simp] theorem takeInput_rxMem (x : Invocation) (rest : List Invocation) (s : State) : (takeInput x rest s).rxMem = s.rxMem := rfl
@[simp] theorem takeInput_stMem (x : Invocation) (rest : List Invocation) (s : State) : (takeInput x rest s).stMem = s.stMem := rfl
@[simp] theorem takeInput_regs (x : Invocation) (rest : List Invocation) (s : State) : (takeInput x rest s).regs = s.regs := rfl
@[simp] theorem takeInput_timerOn (x : Invocation) (rest : List Invocation) (s : State) : (takeInput x rest s).timerOn = s.timerOn := rfl
@[simp] theorem takeInput_everEnabled (x : Invocation) (rest : List Invocation) (s : State) : (takeInput x rest s).everEnabled = s.everEnabled := rfl
@[simp] theorem takeInput_txUnsubmitted (x : Invocation) (rest : List Invocation) (s : State) : (takeInput x rest s).txUnsubmitted = s.txUnsubmitted := rfl
@[simp] theorem takeInput_heldPackets (x : Invocation) (rest : List Invocation) (s : State) : (takeInput x rest s).heldPackets = s.heldPackets := rfl
@[simp] theorem takeInput_heldBuffers (x : Invocation) (rest : List Invocation) (s : State) : (takeInput x rest s).heldBuffers = s.heldBuffers := rfl
@[simp] theorem takeInput_hostBufs (x : Invocation) (rest : List Invocation) (s : State) : (takeInput x rest s).hostBufs = s.hostBufs := rfl
@[simp] theorem takeInput_nicTxBusy (x : Invocation) (rest : List Invocation) (s : State) : (takeInput x rest s).nicTxBusy = s.nicTxBusy := rfl
@[simp] theorem takeInput_irqPending (x : Invocation) (rest : List Invocation) (s : State) : (takeInput x rest s).irqPending = s.irqPending := rfl
@[simp] theorem takeInput_nicSeen (x : Invocation) (rest : List Invocation) (s : State) : (takeInput x rest s).nicSeen = s.nicSeen := rfl
@[simp] theorem takeInput_input (x : Invocation) (rest : List Invocation) (s : State) : (takeInput x rest s).input = rest := rfl
@[simp] theorem takeInput_acquisitions (x : Invocation) (rest : List Invocation) (s : State) : (takeInput x rest s).acquisitions = s.acquisitions := rfl
@[simp] theorem takeInput_work (x : Invocation) (rest : List Invocation) (s : State) : (takeInput x rest s).work = s.work := rfl
@[simp] theorem takeInput_caller (x : Invocation) (rest : List Invocation) (s : State) : (takeInput x rest s).caller = x.agent := rfl
@[simp] theorem takeInput_result (x : Invocation) (rest : List Invocation) (s : State) : (takeInput x rest s).result = s.result := rfl
@[simp] theorem takeInput_history (x : Invocation) (rest : List Invocation) (s : State) : (takeInput x rest s).history = s.history := rfl
@[simp] theorem takeInput_freeCount (x : Invocation) (rest : List Invocation) (s : State) : (takeInput x rest s).freeCount = s.freeCount := rfl

/-! ### `takeTask` -/

@[simp] theorem takeTask_cfg (rest : List Task) (s : State) : (takeTask rest s).cfg = s.cfg := rfl
@[simp] theorem takeTask_mem (rest : List Task) (s : State) : (takeTask rest s).mem = s.mem := rfl
@[simp] theorem takeTask_txNext (rest : List Task) (s : State) : (takeTask rest s).txNext = s.txNext := rfl
@[simp] theorem takeTask_txDirty (rest : List Task) (s : State) : (takeTask rest s).txDirty = s.txDirty := rfl
@[simp] theorem takeTask_txFree (rest : List Task) (s : State) : (takeTask rest s).txFree = s.txFree := rfl
@[simp] theorem takeTask_rxIndex (rest : List Task) (s : State) : (takeTask rest s).rxIndex = s.rxIndex := rfl
@[simp] theorem takeTask_txStalled (rest : List Task) (s : State) : (takeTask rest s).txStalled = s.txStalled := rfl
@[simp] theorem takeTask_txqEnabled (rest : List Task) (s : State) : (takeTask rest s).txqEnabled = s.txqEnabled := rfl
@[simp] theorem takeTask_txDoneCount (rest : List Task) (s : State) : (takeTask rest s).txDoneCount = s.txDoneCount := rfl
@[simp] theorem takeTask_txDoneLast (rest : List Task) (s : State) : (takeTask rest s).txDoneLast = s.txDoneLast := rfl
@[simp] theorem takeTask_deadlockWarn (rest : List Task) (s : State) : (takeTask rest s).deadlockWarn = s.deadlockWarn := rfl
@[simp] theorem takeTask_enabled (rest : List Task) (s : State) : (takeTask rest s).enabled = s.enabled := rfl
@[simp] theorem takeTask_link (rest : List Task) (s : State) : (takeTask rest s).link = s.link := rfl
@[simp] theorem takeTask_txSlot (rest : List Task) (s : State) : (takeTask rest s).txSlot = s.txSlot := rfl
@[simp] theorem takeTask_rxSlot (rest : List Task) (s : State) : (takeTask rest s).rxSlot = s.rxSlot := rfl
@[simp] theorem takeTask_txPending (rest : List Task) (s : State) : (takeTask rest s).txPending = s.txPending := rfl
@[simp] theorem takeTask_ctrResourceErrors (rest : List Task) (s : State) : (takeTask rest s).ctrResourceErrors = s.ctrResourceErrors := rfl
@[simp] theorem takeTask_ctrFrameTooLong (rest : List Task) (s : State) : (takeTask rest s).ctrFrameTooLong = s.ctrFrameTooLong := rfl
@[simp] theorem takeTask_ctrTimeouts (rest : List Task) (s : State) : (takeTask rest s).ctrTimeouts = s.ctrTimeouts := rfl
@[simp] theorem takeTask_ctrResets (rest : List Task) (s : State) : (takeTask rest s).ctrResets = s.ctrResets := rfl
@[simp] theorem takeTask_ctrTxDrops (rest : List Task) (s : State) : (takeTask rest s).ctrTxDrops = s.ctrTxDrops := rfl
@[simp] theorem takeTask_statsPending (rest : List Task) (s : State) : (takeTask rest s).statsPending = s.statsPending := rfl
@[simp] theorem takeTask_txMem (rest : List Task) (s : State) : (takeTask rest s).txMem = s.txMem := rfl
@[simp] theorem takeTask_rxMem (rest : List Task) (s : State) : (takeTask rest s).rxMem = s.rxMem := rfl
@[simp] theorem takeTask_stMem (rest : List Task) (s : State) : (takeTask rest s).stMem = s.stMem := rfl
@[simp] theorem takeTask_regs (rest : List Task) (s : State) : (takeTask rest s).regs = s.regs := rfl
@[simp] theorem takeTask_timerOn (rest : List Task) (s : State) : (takeTask rest s).timerOn = s.timerOn := rfl
@[simp] theorem takeTask_everEnabled (rest : List Task) (s : State) : (takeTask rest s).everEnabled = s.everEnabled := rfl
@[simp] theorem takeTask_txUnsubmitted (rest : List Task) (s : State) : (takeTask rest s).txUnsubmitted = s.txUnsubmitted := rfl
@[simp] theorem takeTask_heldPackets (rest : List Task) (s : State) : (takeTask rest s).heldPackets = s.heldPackets := rfl
@[simp] theorem takeTask_heldBuffers (rest : List Task) (s : State) : (takeTask rest s).heldBuffers = s.heldBuffers := rfl
@[simp] theorem takeTask_hostBufs (rest : List Task) (s : State) : (takeTask rest s).hostBufs = s.hostBufs := rfl
@[simp] theorem takeTask_nicTxBusy (rest : List Task) (s : State) : (takeTask rest s).nicTxBusy = s.nicTxBusy := rfl
@[simp] theorem takeTask_irqPending (rest : List Task) (s : State) : (takeTask rest s).irqPending = s.irqPending := rfl
@[simp] theorem takeTask_nicSeen (rest : List Task) (s : State) : (takeTask rest s).nicSeen = s.nicSeen := rfl
@[simp] theorem takeTask_input (rest : List Task) (s : State) : (takeTask rest s).input = s.input := rfl
@[simp] theorem takeTask_acquisitions (rest : List Task) (s : State) : (takeTask rest s).acquisitions = s.acquisitions := rfl
@[simp] theorem takeTask_work (rest : List Task) (s : State) : (takeTask rest s).work = rest := rfl
@[simp] theorem takeTask_caller (rest : List Task) (s : State) : (takeTask rest s).caller = .serialized := rfl
@[simp] theorem takeTask_result (rest : List Task) (s : State) : (takeTask rest s).result = s.result := rfl
@[simp] theorem takeTask_history (rest : List Task) (s : State) : (takeTask rest s).history = s.history := rfl
@[simp] theorem takeTask_freeCount (rest : List Task) (s : State) : (takeTask rest s).freeCount = s.freeCount := rfl

/-! ### `takeDraws` -/

@[simp] theorem takeDraws_cfg (draws : List Acquisition) (s : State) : (takeDraws draws s).cfg = s.cfg := rfl
@[simp] theorem takeDraws_mem (draws : List Acquisition) (s : State) : (takeDraws draws s).mem = s.mem := rfl
@[simp] theorem takeDraws_txNext (draws : List Acquisition) (s : State) : (takeDraws draws s).txNext = s.txNext := rfl
@[simp] theorem takeDraws_txDirty (draws : List Acquisition) (s : State) : (takeDraws draws s).txDirty = s.txDirty := rfl
@[simp] theorem takeDraws_txFree (draws : List Acquisition) (s : State) : (takeDraws draws s).txFree = s.txFree := rfl
@[simp] theorem takeDraws_rxIndex (draws : List Acquisition) (s : State) : (takeDraws draws s).rxIndex = s.rxIndex := rfl
@[simp] theorem takeDraws_txStalled (draws : List Acquisition) (s : State) : (takeDraws draws s).txStalled = s.txStalled := rfl
@[simp] theorem takeDraws_txqEnabled (draws : List Acquisition) (s : State) : (takeDraws draws s).txqEnabled = s.txqEnabled := rfl
@[simp] theorem takeDraws_txDoneCount (draws : List Acquisition) (s : State) : (takeDraws draws s).txDoneCount = s.txDoneCount := rfl
@[simp] theorem takeDraws_txDoneLast (draws : List Acquisition) (s : State) : (takeDraws draws s).txDoneLast = s.txDoneLast := rfl
@[simp] theorem takeDraws_deadlockWarn (draws : List Acquisition) (s : State) : (takeDraws draws s).deadlockWarn = s.deadlockWarn := rfl
@[simp] theorem takeDraws_enabled (draws : List Acquisition) (s : State) : (takeDraws draws s).enabled = s.enabled := rfl
@[simp] theorem takeDraws_link (draws : List Acquisition) (s : State) : (takeDraws draws s).link = s.link := rfl
@[simp] theorem takeDraws_txSlot (draws : List Acquisition) (s : State) : (takeDraws draws s).txSlot = s.txSlot := rfl
@[simp] theorem takeDraws_rxSlot (draws : List Acquisition) (s : State) : (takeDraws draws s).rxSlot = s.rxSlot := rfl
@[simp] theorem takeDraws_txPending (draws : List Acquisition) (s : State) : (takeDraws draws s).txPending = s.txPending := rfl
@[simp] theorem takeDraws_ctrResourceErrors (draws : List Acquisition) (s : State) : (takeDraws draws s).ctrResourceErrors = s.ctrResourceErrors := rfl
@[simp] theorem takeDraws_ctrFrameTooLong (draws : List Acquisition) (s : State) : (takeDraws draws s).ctrFrameTooLong = s.ctrFrameTooLong := rfl
@[simp] theorem takeDraws_ctrTimeouts (draws : List Acquisition) (s : State) : (takeDraws draws s).ctrTimeouts = s.ctrTimeouts := rfl
@[simp] theorem takeDraws_ctrResets (draws : List Acquisition) (s : State) : (takeDraws draws s).ctrResets = s.ctrResets := rfl
@[simp] theorem takeDraws_ctrTxDrops (draws : List Acquisition) (s : State) : (takeDraws draws s).ctrTxDrops = s.ctrTxDrops := rfl
@[simp] theorem takeDraws_statsPending (draws : List Acquisition) (s : State) : (takeDraws draws s).statsPending = s.statsPending := rfl
@[simp] theorem takeDraws_txMem (draws : List Acquisition) (s : State) : (takeDraws draws s).txMem = s.txMem := rfl
@[simp] theorem takeDraws_rxMem (draws : List Acquisition) (s : State) : (takeDraws draws s).rxMem = s.rxMem := rfl
@[simp] theorem takeDraws_stMem (draws : List Acquisition) (s : State) : (takeDraws draws s).stMem = s.stMem := rfl
@[simp] theorem takeDraws_regs (draws : List Acquisition) (s : State) : (takeDraws draws s).regs = s.regs := rfl
@[simp] theorem takeDraws_timerOn (draws : List Acquisition) (s : State) : (takeDraws draws s).timerOn = s.timerOn := rfl
@[simp] theorem takeDraws_everEnabled (draws : List Acquisition) (s : State) : (takeDraws draws s).everEnabled = s.everEnabled := rfl
@[simp] theorem takeDraws_txUnsubmitted (draws : List Acquisition) (s : State) : (takeDraws draws s).txUnsubmitted = s.txUnsubmitted := rfl
@[simp] theorem takeDraws_heldPackets (draws : List Acquisition) (s : State) : (takeDraws draws s).heldPackets = s.heldPackets := rfl
@[simp] theorem takeDraws_heldBuffers (draws : List Acquisition) (s : State) : (takeDraws draws s).heldBuffers = s.heldBuffers := rfl
@[simp] theorem takeDraws_hostBufs (draws : List Acquisition) (s : State) : (takeDraws draws s).hostBufs = s.hostBufs := rfl
@[simp] theorem takeDraws_nicTxBusy (draws : List Acquisition) (s : State) : (takeDraws draws s).nicTxBusy = s.nicTxBusy := rfl
@[simp] theorem takeDraws_irqPending (draws : List Acquisition) (s : State) : (takeDraws draws s).irqPending = s.irqPending := rfl
@[simp] theorem takeDraws_nicSeen (draws : List Acquisition) (s : State) : (takeDraws draws s).nicSeen = s.nicSeen := rfl
@[simp] theorem takeDraws_input (draws : List Acquisition) (s : State) : (takeDraws draws s).input = s.input := rfl
@[simp] theorem takeDraws_acquisitions (draws : List Acquisition) (s : State) : (takeDraws draws s).acquisitions = draws := rfl
@[simp] theorem takeDraws_work (draws : List Acquisition) (s : State) : (takeDraws draws s).work = s.work := rfl
@[simp] theorem takeDraws_caller (draws : List Acquisition) (s : State) : (takeDraws draws s).caller = s.caller := rfl
@[simp] theorem takeDraws_result (draws : List Acquisition) (s : State) : (takeDraws draws s).result = s.result := rfl
@[simp] theorem takeDraws_history (draws : List Acquisition) (s : State) : (takeDraws draws s).history = s.history := rfl
@[simp] theorem takeDraws_freeCount (draws : List Acquisition) (s : State) : (takeDraws draws s).freeCount = s.freeCount := rfl

/-! ### `takeDescs` -/

@[simp] theorem takeDescs_cfg (n : Nat) (s : State) : (takeDescs n s).cfg = s.cfg := rfl
@[simp] theorem takeDescs_mem (n : Nat) (s : State) : (takeDescs n s).mem = s.mem := rfl
@[simp] theorem takeDescs_txNext (n : Nat) (s : State) : (takeDescs n s).txNext = txIdx s.cfg s.txNext n := rfl
@[simp] theorem takeDescs_txDirty (n : Nat) (s : State) : (takeDescs n s).txDirty = s.txDirty := rfl
@[simp] theorem takeDescs_txFree (n : Nat) (s : State) : (takeDescs n s).txFree = wrapI32 (s.txFree + -(n : Int)) := rfl
@[simp] theorem takeDescs_rxIndex (n : Nat) (s : State) : (takeDescs n s).rxIndex = s.rxIndex := rfl
@[simp] theorem takeDescs_txStalled (n : Nat) (s : State) : (takeDescs n s).txStalled = s.txStalled := rfl
@[simp] theorem takeDescs_txqEnabled (n : Nat) (s : State) : (takeDescs n s).txqEnabled = s.txqEnabled := rfl
@[simp] theorem takeDescs_txDoneCount (n : Nat) (s : State) : (takeDescs n s).txDoneCount = s.txDoneCount := rfl
@[simp] theorem takeDescs_txDoneLast (n : Nat) (s : State) : (takeDescs n s).txDoneLast = s.txDoneLast := rfl
@[simp] theorem takeDescs_deadlockWarn (n : Nat) (s : State) : (takeDescs n s).deadlockWarn = s.deadlockWarn := rfl
@[simp] theorem takeDescs_enabled (n : Nat) (s : State) : (takeDescs n s).enabled = s.enabled := rfl
@[simp] theorem takeDescs_link (n : Nat) (s : State) : (takeDescs n s).link = s.link := rfl
@[simp] theorem takeDescs_txSlot (n : Nat) (s : State) : (takeDescs n s).txSlot = s.txSlot := rfl
@[simp] theorem takeDescs_rxSlot (n : Nat) (s : State) : (takeDescs n s).rxSlot = s.rxSlot := rfl
@[simp] theorem takeDescs_txPending (n : Nat) (s : State) : (takeDescs n s).txPending = s.txPending := rfl
@[simp] theorem takeDescs_ctrResourceErrors (n : Nat) (s : State) : (takeDescs n s).ctrResourceErrors = s.ctrResourceErrors := rfl
@[simp] theorem takeDescs_ctrFrameTooLong (n : Nat) (s : State) : (takeDescs n s).ctrFrameTooLong = s.ctrFrameTooLong := rfl
@[simp] theorem takeDescs_ctrTimeouts (n : Nat) (s : State) : (takeDescs n s).ctrTimeouts = s.ctrTimeouts := rfl
@[simp] theorem takeDescs_ctrResets (n : Nat) (s : State) : (takeDescs n s).ctrResets = s.ctrResets := rfl
@[simp] theorem takeDescs_ctrTxDrops (n : Nat) (s : State) : (takeDescs n s).ctrTxDrops = s.ctrTxDrops := rfl
@[simp] theorem takeDescs_statsPending (n : Nat) (s : State) : (takeDescs n s).statsPending = s.statsPending := rfl
@[simp] theorem takeDescs_txMem (n : Nat) (s : State) : (takeDescs n s).txMem = s.txMem := rfl
@[simp] theorem takeDescs_rxMem (n : Nat) (s : State) : (takeDescs n s).rxMem = s.rxMem := rfl
@[simp] theorem takeDescs_stMem (n : Nat) (s : State) : (takeDescs n s).stMem = s.stMem := rfl
@[simp] theorem takeDescs_regs (n : Nat) (s : State) : (takeDescs n s).regs = s.regs := rfl
@[simp] theorem takeDescs_timerOn (n : Nat) (s : State) : (takeDescs n s).timerOn = s.timerOn := rfl
@[simp] theorem takeDescs_everEnabled (n : Nat) (s : State) : (takeDescs n s).everEnabled = s.everEnabled := rfl
@[simp] theorem takeDescs_txUnsubmitted (n : Nat) (s : State) : (takeDescs n s).txUnsubmitted = s.txUnsubmitted ++ txRange s.cfg s.txNext n := rfl
@[simp] theorem takeDescs_heldPackets (n : Nat) (s : State) : (takeDescs n s).heldPackets = s.heldPackets := rfl
@[simp] theorem takeDescs_heldBuffers (n : Nat) (s : State) : (takeDescs n s).heldBuffers = s.heldBuffers := rfl
@[simp] theorem takeDescs_hostBufs (n : Nat) (s : State) : (takeDescs n s).hostBufs = s.hostBufs := rfl
@[simp] theorem takeDescs_nicTxBusy (n : Nat) (s : State) : (takeDescs n s).nicTxBusy = s.nicTxBusy := rfl
@[simp] theorem takeDescs_irqPending (n : Nat) (s : State) : (takeDescs n s).irqPending = s.irqPending := rfl
@[simp] theorem takeDescs_nicSeen (n : Nat) (s : State) : (takeDescs n s).nicSeen = s.nicSeen := rfl
@[simp] theorem takeDescs_input (n : Nat) (s : State) : (takeDescs n s).input = s.input := rfl
@[simp] theorem takeDescs_acquisitions (n : Nat) (s : State) : (takeDescs n s).acquisitions = s.acquisitions := rfl
@[simp] theorem takeDescs_work (n : Nat) (s : State) : (takeDescs n s).work = s.work := rfl
@[simp] theorem takeDescs_caller (n : Nat) (s : State) : (takeDescs n s).caller = s.caller := rfl
@[simp] theorem takeDescs_result (n : Nat) (s : State) : (takeDescs n s).result = s.result := rfl
@[simp] theorem takeDescs_history (n : Nat) (s : State) : (takeDescs n s).history = s.history := rfl
@[simp] theorem takeDescs_freeCount (n : Nat) (s : State) : (takeDescs n s).freeCount = s.freeCount := rfl

/-! ### `submitIndex` -/

@[simp] theorem submitIndex_cfg (i : Nat) (s : State) : (submitIndex i s).cfg = s.cfg := rfl
@[simp] theorem submitIndex_mem (i : Nat) (s : State) : (submitIndex i s).mem = s.mem := rfl
@[simp] theorem submitIndex_txNext (i : Nat) (s : State) : (submitIndex i s).txNext = s.txNext := rfl
@[simp] theorem submitIndex_txDirty (i : Nat) (s : State) : (submitIndex i s).txDirty = s.txDirty := rfl
@[simp] theorem submitIndex_txFree (i : Nat) (s : State) : (submitIndex i s).txFree = s.txFree := rfl
@[simp] theorem submitIndex_rxIndex (i : Nat) (s : State) : (submitIndex i s).rxIndex = s.rxIndex := rfl
@[simp] theorem submitIndex_txStalled (i : Nat) (s : State) : (submitIndex i s).txStalled = s.txStalled := rfl
@[simp] theorem submitIndex_txqEnabled (i : Nat) (s : State) : (submitIndex i s).txqEnabled = s.txqEnabled := rfl
@[simp] theorem submitIndex_txDoneCount (i : Nat) (s : State) : (submitIndex i s).txDoneCount = s.txDoneCount := rfl
@[simp] theorem submitIndex_txDoneLast (i : Nat) (s : State) : (submitIndex i s).txDoneLast = s.txDoneLast := rfl
@[simp] theorem submitIndex_deadlockWarn (i : Nat) (s : State) : (submitIndex i s).deadlockWarn = s.deadlockWarn := rfl
@[simp] theorem submitIndex_enabled (i : Nat) (s : State) : (submitIndex i s).enabled = s.enabled := rfl
@[simp] theorem submitIndex_link (i : Nat) (s : State) : (submitIndex i s).link = s.link := rfl
@[simp] theorem submitIndex_txSlot (i : Nat) (s : State) : (submitIndex i s).txSlot = s.txSlot := rfl
@[simp] theorem submitIndex_rxSlot (i : Nat) (s : State) : (submitIndex i s).rxSlot = s.rxSlot := rfl
@[simp] theorem submitIndex_txPending (i : Nat) (s : State) : (submitIndex i s).txPending = s.txPending := rfl
@[simp] theorem submitIndex_ctrResourceErrors (i : Nat) (s : State) : (submitIndex i s).ctrResourceErrors = s.ctrResourceErrors := rfl
@[simp] theorem submitIndex_ctrFrameTooLong (i : Nat) (s : State) : (submitIndex i s).ctrFrameTooLong = s.ctrFrameTooLong := rfl
@[simp] theorem submitIndex_ctrTimeouts (i : Nat) (s : State) : (submitIndex i s).ctrTimeouts = s.ctrTimeouts := rfl
@[simp] theorem submitIndex_ctrResets (i : Nat) (s : State) : (submitIndex i s).ctrResets = s.ctrResets := rfl
@[simp] theorem submitIndex_ctrTxDrops (i : Nat) (s : State) : (submitIndex i s).ctrTxDrops = s.ctrTxDrops := rfl
@[simp] theorem submitIndex_statsPending (i : Nat) (s : State) : (submitIndex i s).statsPending = s.statsPending := rfl
@[simp] theorem submitIndex_txMem (i : Nat) (s : State) : (submitIndex i s).txMem = s.txMem := rfl
@[simp] theorem submitIndex_rxMem (i : Nat) (s : State) : (submitIndex i s).rxMem = s.rxMem := rfl
@[simp] theorem submitIndex_stMem (i : Nat) (s : State) : (submitIndex i s).stMem = s.stMem := rfl
@[simp] theorem submitIndex_regs (i : Nat) (s : State) : (submitIndex i s).regs = s.regs := rfl
@[simp] theorem submitIndex_timerOn (i : Nat) (s : State) : (submitIndex i s).timerOn = s.timerOn := rfl
@[simp] theorem submitIndex_everEnabled (i : Nat) (s : State) : (submitIndex i s).everEnabled = s.everEnabled := rfl
@[simp] theorem submitIndex_txUnsubmitted (i : Nat) (s : State) : (submitIndex i s).txUnsubmitted = s.txUnsubmitted.filter (· != i) := rfl
@[simp] theorem submitIndex_heldPackets (i : Nat) (s : State) : (submitIndex i s).heldPackets = s.heldPackets := rfl
@[simp] theorem submitIndex_heldBuffers (i : Nat) (s : State) : (submitIndex i s).heldBuffers = s.heldBuffers := rfl
@[simp] theorem submitIndex_hostBufs (i : Nat) (s : State) : (submitIndex i s).hostBufs = s.hostBufs := rfl
@[simp] theorem submitIndex_nicTxBusy (i : Nat) (s : State) : (submitIndex i s).nicTxBusy = s.nicTxBusy := rfl
@[simp] theorem submitIndex_irqPending (i : Nat) (s : State) : (submitIndex i s).irqPending = s.irqPending := rfl
@[simp] theorem submitIndex_nicSeen (i : Nat) (s : State) : (submitIndex i s).nicSeen = s.nicSeen := rfl
@[simp] theorem submitIndex_input (i : Nat) (s : State) : (submitIndex i s).input = s.input := rfl
@[simp] theorem submitIndex_acquisitions (i : Nat) (s : State) : (submitIndex i s).acquisitions = s.acquisitions := rfl
@[simp] theorem submitIndex_work (i : Nat) (s : State) : (submitIndex i s).work = s.work := rfl
@[simp] theorem submitIndex_caller (i : Nat) (s : State) : (submitIndex i s).caller = s.caller := rfl
@[simp] theorem submitIndex_result (i : Nat) (s : State) : (submitIndex i s).result = s.result := rfl
@[simp] theorem submitIndex_history (i : Nat) (s : State) : (submitIndex i s).history = s.history := rfl
@[simp] theorem submitIndex_freeCount (i : Nat) (s : State) : (submitIndex i s).freeCount = s.freeCount := rfl

/-! ### `submitRange` -/

@[simp] theorem submitRange_cfg (first n : Nat) (s : State) : (submitRange first n s).cfg = s.cfg := rfl
@[simp] theorem submitRange_mem (first n : Nat) (s : State) : (submitRange first n s).mem = s.mem := rfl
@[simp] theorem submitRange_txNext (first n : Nat) (s : State) : (submitRange first n s).txNext = s.txNext := rfl
@[simp] theorem submitRange_txDirty (first n : Nat) (s : State) : (submitRange first n s).txDirty = s.txDirty := rfl
@[simp] theorem submitRange_txFree (first n : Nat) (s : State) : (submitRange first n s).txFree = s.txFree := rfl
@[simp] theorem submitRange_rxIndex (first n : Nat) (s : State) : (submitRange first n s).rxIndex = s.rxIndex := rfl
@[simp] theorem submitRange_txStalled (first n : Nat) (s : State) : (submitRange first n s).txStalled = s.txStalled := rfl
@[simp] theorem submitRange_txqEnabled (first n : Nat) (s : State) : (submitRange first n s).txqEnabled = s.txqEnabled := rfl
@[simp] theorem submitRange_txDoneCount (first n : Nat) (s : State) : (submitRange first n s).txDoneCount = s.txDoneCount := rfl
@[simp] theorem submitRange_txDoneLast (first n : Nat) (s : State) : (submitRange first n s).txDoneLast = s.txDoneLast := rfl
@[simp] theorem submitRange_deadlockWarn (first n : Nat) (s : State) : (submitRange first n s).deadlockWarn = s.deadlockWarn := rfl
@[simp] theorem submitRange_enabled (first n : Nat) (s : State) : (submitRange first n s).enabled = s.enabled := rfl
@[simp] theorem submitRange_link (first n : Nat) (s : State) : (submitRange first n s).link = s.link := rfl
@[simp] theorem submitRange_txSlot (first n : Nat) (s : State) : (submitRange first n s).txSlot = s.txSlot := rfl
@[simp] theorem submitRange_rxSlot (first n : Nat) (s : State) : (submitRange first n s).rxSlot = s.rxSlot := rfl
@[simp] theorem submitRange_txPending (first n : Nat) (s : State) : (submitRange first n s).txPending = s.txPending := rfl
@[simp] theorem submitRange_ctrResourceErrors (first n : Nat) (s : State) : (submitRange first n s).ctrResourceErrors = s.ctrResourceErrors := rfl
@[simp] theorem submitRange_ctrFrameTooLong (first n : Nat) (s : State) : (submitRange first n s).ctrFrameTooLong = s.ctrFrameTooLong := rfl
@[simp] theorem submitRange_ctrTimeouts (first n : Nat) (s : State) : (submitRange first n s).ctrTimeouts = s.ctrTimeouts := rfl
@[simp] theorem submitRange_ctrResets (first n : Nat) (s : State) : (submitRange first n s).ctrResets = s.ctrResets := rfl
@[simp] theorem submitRange_ctrTxDrops (first n : Nat) (s : State) : (submitRange first n s).ctrTxDrops = s.ctrTxDrops := rfl
@[simp] theorem submitRange_statsPending (first n : Nat) (s : State) : (submitRange first n s).statsPending = s.statsPending := rfl
@[simp] theorem submitRange_txMem (first n : Nat) (s : State) : (submitRange first n s).txMem = s.txMem := rfl
@[simp] theorem submitRange_rxMem (first n : Nat) (s : State) : (submitRange first n s).rxMem = s.rxMem := rfl
@[simp] theorem submitRange_stMem (first n : Nat) (s : State) : (submitRange first n s).stMem = s.stMem := rfl
@[simp] theorem submitRange_regs (first n : Nat) (s : State) : (submitRange first n s).regs = s.regs := rfl
@[simp] theorem submitRange_timerOn (first n : Nat) (s : State) : (submitRange first n s).timerOn = s.timerOn := rfl
@[simp] theorem submitRange_everEnabled (first n : Nat) (s : State) : (submitRange first n s).everEnabled = s.everEnabled := rfl
@[simp] theorem submitRange_heldPackets (first n : Nat) (s : State) : (submitRange first n s).heldPackets = s.heldPackets := rfl
@[simp] theorem submitRange_heldBuffers (first n : Nat) (s : State) : (submitRange first n s).heldBuffers = s.heldBuffers := rfl
@[simp] theorem submitRange_hostBufs (first n : Nat) (s : State) : (submitRange first n s).hostBufs = s.hostBufs := rfl
@[simp] theorem submitRange_nicTxBusy (first n : Nat) (s : State) : (submitRange first n s).nicTxBusy = s.nicTxBusy := rfl
@[simp] theorem submitRange_irqPending (first n : Nat) (s : State) : (submitRange first n s).irqPending = s.irqPending := rfl
@[simp] theorem submitRange_nicSeen (first n : Nat) (s : State) : (submitRange first n s).nicSeen = s.nicSeen := rfl
@[simp] theorem submitRange_input (first n : Nat) (s : State) : (submitRange first n s).input = s.input := rfl
@[simp] theorem submitRange_acquisitions (first n : Nat) (s : State) : (submitRange first n s).acquisitions = s.acquisitions := rfl
@[simp] theorem submitRange_work (first n : Nat) (s : State) : (submitRange first n s).work = s.work := rfl
@[simp] theorem submitRange_caller (first n : Nat) (s : State) : (submitRange first n s).caller = s.caller := rfl
@[simp] theorem submitRange_result (first n : Nat) (s : State) : (submitRange first n s).result = s.result := rfl
@[simp] theorem submitRange_history (first n : Nat) (s : State) : (submitRange first n s).history = s.history := rfl
@[simp] theorem submitRange_freeCount (first n : Nat) (s : State) : (submitRange first n s).freeCount = s.freeCount := rfl

/-! ### `storeSlot` -/

@[simp] theorem storeSlot_cfg (i : Nat) (h : Handle) (s : State) : (storeSlot i h s).cfg = s.cfg := rfl
@[simp] theorem storeSlot_mem (i : Nat) (h : Handle) (s : State) : (storeSlot i h s).mem = s.mem := rfl
@[simp] theorem storeSlot_txNext (i : Nat) (h : Handle) (s : State) : (storeSlot i h s).txNext = s.txNext := rfl
@[simp] theorem storeSlot_txDirty (i : Nat) (h : Handle) (s : State) : (storeSlot i h s).txDirty = s.txDirty := rfl
@[simp] theorem storeSlot_txFree (i : Nat) (h : Handle) (s : State) : (storeSlot i h s).txFree = s.txFree := rfl
@[simp] theorem storeSlot_rxIndex (i : Nat) (h : Handle) (s : State) : (storeSlot i h s).rxIndex = s.rxIndex := rfl
@[simp] theorem storeSlot_txStalled (i : Nat) (h : Handle) (s : State) : (storeSlot i h s).txStalled = s.txStalled := rfl
@[simp] theorem storeSlot_txqEnabled (i : Nat) (h : Handle) (s : State) : (storeSlot i h s).txqEnabled = s.txqEnabled := rfl
@[simp] theorem storeSlot_txDoneCount (i : Nat) (h : Handle) (s : State) : (storeSlot i h s).txDoneCount = s.txDoneCount := rfl
@[simp] theorem storeSlot_txDoneLast (i : Nat) (h : Handle) (s : State) : (storeSlot i h s).txDoneLast = s.txDoneLast := rfl
@[simp] theorem storeSlot_deadlockWarn (i : Nat) (h : Handle) (s : State) : (storeSlot i h s).deadlockWarn = s.deadlockWarn := rfl
@[simp] theorem storeSlot_enabled (i : Nat) (h : Handle) (s : State) : (storeSlot i h s).enabled = s.enabled := rfl
@[simp] theorem storeSlot_link (i : Nat) (h : Handle) (s : State) : (storeSlot i h s).link = s.link := rfl
@[simp] theorem storeSlot_txSlot (i : Nat) (h : Handle) (s : State) : (storeSlot i h s).txSlot = s.txSlot.set i (some h) := rfl
@[simp] theorem storeSlot_rxSlot (i : Nat) (h : Handle) (s : State) : (storeSlot i h s).rxSlot = s.rxSlot := rfl
@[simp] theorem storeSlot_txPending (i : Nat) (h : Handle) (s : State) : (storeSlot i h s).txPending = s.txPending := rfl
@[simp] theorem storeSlot_ctrResourceErrors (i : Nat) (h : Handle) (s : State) : (storeSlot i h s).ctrResourceErrors = s.ctrResourceErrors := rfl
@[simp] theorem storeSlot_ctrFrameTooLong (i : Nat) (h : Handle) (s : State) : (storeSlot i h s).ctrFrameTooLong = s.ctrFrameTooLong := rfl
@[simp] theorem storeSlot_ctrTimeouts (i : Nat) (h : Handle) (s : State) : (storeSlot i h s).ctrTimeouts = s.ctrTimeouts := rfl
@[simp] theorem storeSlot_ctrResets (i : Nat) (h : Handle) (s : State) : (storeSlot i h s).ctrResets = s.ctrResets := rfl
@[simp] theorem storeSlot_ctrTxDrops (i : Nat) (h : Handle) (s : State) : (storeSlot i h s).ctrTxDrops = s.ctrTxDrops := rfl
@[simp] theorem storeSlot_statsPending (i : Nat) (h : Handle) (s : State) : (storeSlot i h s).statsPending = s.statsPending := rfl
@[simp] theorem storeSlot_txMem (i : Nat) (h : Handle) (s : State) : (storeSlot i h s).txMem = s.txMem := rfl
@[simp] theorem storeSlot_rxMem (i : Nat) (h : Handle) (s : State) : (storeSlot i h s).rxMem = s.rxMem := rfl
@[simp] theorem storeSlot_stMem (i : Nat) (h : Handle) (s : State) : (storeSlot i h s).stMem = s.stMem := rfl
@[simp] theorem storeSlot_regs (i : Nat) (h : Handle) (s : State) : (storeSlot i h s).regs = s.regs := rfl
@[simp] theorem storeSlot_timerOn (i : Nat) (h : Handle) (s : State) : (storeSlot i h s).timerOn = s.timerOn := rfl
@[simp] theorem storeSlot_everEnabled (i : Nat) (h : Handle) (s : State) : (storeSlot i h s).everEnabled = s.everEnabled := rfl
@[simp] theorem storeSlot_txUnsubmitted (i : Nat) (h : Handle) (s : State) : (storeSlot i h s).txUnsubmitted = s.txUnsubmitted := rfl
@[simp] theorem storeSlot_heldPackets (i : Nat) (h : Handle) (s : State) : (storeSlot i h s).heldPackets = s.heldPackets := rfl
@[simp] theorem storeSlot_heldBuffers (i : Nat) (h : Handle) (s : State) : (storeSlot i h s).heldBuffers = s.heldBuffers := rfl
@[simp] theorem storeSlot_hostBufs (i : Nat) (h : Handle) (s : State) : (storeSlot i h s).hostBufs = s.hostBufs := rfl
@[simp] theorem storeSlot_nicTxBusy (i : Nat) (h : Handle) (s : State) : (storeSlot i h s).nicTxBusy = s.nicTxBusy := rfl
@[simp] theorem storeSlot_irqPending (i : Nat) (h : Handle) (s : State) : (storeSlot i h s).irqPending = s.irqPending := rfl
@[simp] theorem storeSlot_nicSeen (i : Nat) (h : Handle) (s : State) : (storeSlot i h s).nicSeen = s.nicSeen := rfl
@[simp] theorem storeSlot_input (i : Nat) (h : Handle) (s : State) : (storeSlot i h s).input = s.input := rfl
@[simp] theorem storeSlot_acquisitions (i : Nat) (h : Handle) (s : State) : (storeSlot i h s).acquisitions = s.acquisitions := rfl
@[simp] theorem storeSlot_work (i : Nat) (h : Handle) (s : State) : (storeSlot i h s).work = s.work := rfl
@[simp] theorem storeSlot_caller (i : Nat) (h : Handle) (s : State) : (storeSlot i h s).caller = s.caller := rfl
@[simp] theorem storeSlot_result (i : Nat) (h : Handle) (s : State) : (storeSlot i h s).result = s.result := rfl
@[simp] theorem storeSlot_history (i : Nat) (h : Handle) (s : State) : (storeSlot i h s).history = s.history ++ [.slotStore i h] := rfl
@[simp] theorem storeSlot_freeCount (i : Nat) (h : Handle) (s : State) : (storeSlot i h s).freeCount = s.freeCount := rfl

/-! ### `advanceDirty` -/

@[simp] theorem advanceDirty_cfg (s : State) : (advanceDirty s).cfg = s.cfg := rfl
@[simp] theorem advanceDirty_mem (s : State) : (advanceDirty s).mem = s.mem := rfl
@[simp] theorem advanceDirty_txNext (s : State) : (advanceDirty s).txNext = s.txNext := rfl
@[simp] theorem advanceDirty_txDirty (s : State) : (advanceDirty s).txDirty = txIdx s.cfg s.txDirty 1 := rfl
@[simp] theorem advanceDirty_txFree (s : State) : (advanceDirty s).txFree = wrapI32 (s.txFree + 1) := rfl
@[simp] theorem advanceDirty_rxIndex (s : State) : (advanceDirty s).rxIndex = s.rxIndex := rfl
@[simp] theorem advanceDirty_txStalled (s : State) : (advanceDirty s).txStalled = s.txStalled := rfl
@[simp] theorem advanceDirty_txqEnabled (s : State) : (advanceDirty s).txqEnabled = s.txqEnabled := rfl
@[simp] theorem advanceDirty_txDoneCount (s : State) : (advanceDirty s).txDoneCount = countUp s.cfg s.txDoneCount := rfl
@[simp] theorem advanceDirty_txDoneLast (s : State) : (advanceDirty s).txDoneLast = s.txDoneLast := rfl
@[simp] theorem advanceDirty_deadlockWarn (s : State) : (advanceDirty s).deadlockWarn = s.deadlockWarn := rfl
@[simp] theorem advanceDirty_enabled (s : State) : (advanceDirty s).enabled = s.enabled := rfl
@[simp] theorem advanceDirty_link (s : State) : (advanceDirty s).link = s.link := rfl
@[simp] theorem advanceDirty_txSlot (s : State) : (advanceDirty s).txSlot = s.txSlot := rfl
@[simp] theorem advanceDirty_rxSlot (s : State) : (advanceDirty s).rxSlot = s.rxSlot := rfl
@[simp] theorem advanceDirty_txPending (s : State) : (advanceDirty s).txPending = s.txPending := rfl
@[simp] theorem advanceDirty_ctrResourceErrors (s : State) : (advanceDirty s).ctrResourceErrors = s.ctrResourceErrors := rfl
@[simp] theorem advanceDirty_ctrFrameTooLong (s : State) : (advanceDirty s).ctrFrameTooLong = s.ctrFrameTooLong := rfl
@[simp] theorem advanceDirty_ctrTimeouts (s : State) : (advanceDirty s).ctrTimeouts = s.ctrTimeouts := rfl
@[simp] theorem advanceDirty_ctrResets (s : State) : (advanceDirty s).ctrResets = s.ctrResets := rfl
@[simp] theorem advanceDirty_ctrTxDrops (s : State) : (advanceDirty s).ctrTxDrops = s.ctrTxDrops := rfl
@[simp] theorem advanceDirty_statsPending (s : State) : (advanceDirty s).statsPending = s.statsPending := rfl
@[simp] theorem advanceDirty_txMem (s : State) : (advanceDirty s).txMem = s.txMem := rfl
@[simp] theorem advanceDirty_rxMem (s : State) : (advanceDirty s).rxMem = s.rxMem := rfl
@[simp] theorem advanceDirty_stMem (s : State) : (advanceDirty s).stMem = s.stMem := rfl
@[simp] theorem advanceDirty_regs (s : State) : (advanceDirty s).regs = s.regs := rfl
@[simp] theorem advanceDirty_timerOn (s : State) : (advanceDirty s).timerOn = s.timerOn := rfl
@[simp] theorem advanceDirty_everEnabled (s : State) : (advanceDirty s).everEnabled = s.everEnabled := rfl
@[simp] theorem advanceDirty_txUnsubmitted (s : State) : (advanceDirty s).txUnsubmitted = s.txUnsubmitted.filter (· != s.txDirty) := rfl
@[simp] theorem advanceDirty_heldPackets (s : State) : (advanceDirty s).heldPackets = s.heldPackets := rfl
@[simp] theorem advanceDirty_heldBuffers (s : State) : (advanceDirty s).heldBuffers = s.heldBuffers := rfl
@[simp] theorem advanceDirty_hostBufs (s : State) : (advanceDirty s).hostBufs = s.hostBufs := rfl
@[simp] theorem advanceDirty_nicTxBusy (s : State) : (advanceDirty s).nicTxBusy = s.nicTxBusy := rfl
@[simp] theorem advanceDirty_irqPending (s : State) : (advanceDirty s).irqPending = s.irqPending := rfl
@[simp] theorem advanceDirty_nicSeen (s : State) : (advanceDirty s).nicSeen = s.nicSeen := rfl
@[simp] theorem advanceDirty_input (s : State) : (advanceDirty s).input = s.input := rfl
@[simp] theorem advanceDirty_acquisitions (s : State) : (advanceDirty s).acquisitions = s.acquisitions := rfl
@[simp] theorem advanceDirty_work (s : State) : (advanceDirty s).work = s.work := rfl
@[simp] theorem advanceDirty_caller (s : State) : (advanceDirty s).caller = s.caller := rfl
@[simp] theorem advanceDirty_result (s : State) : (advanceDirty s).result = s.result := rfl
@[simp] theorem advanceDirty_history (s : State) : (advanceDirty s).history = s.history := rfl
@[simp] theorem advanceDirty_freeCount (s : State) : (advanceDirty s).freeCount = s.freeCount := rfl

/-! ### `snapshotDone` -/

@[simp] theorem snapshotDone_cfg (s : State) : (snapshotDone s).cfg = s.cfg := rfl
@[simp] theorem snapshotDone_mem (s : State) : (snapshotDone s).mem = s.mem := rfl
@[simp] theorem snapshotDone_txNext (s : State) : (snapshotDone s).txNext = s.txNext := rfl
@[simp] theorem snapshotDone_txDirty (s : State) : (snapshotDone s).txDirty = s.txDirty := rfl
@[simp] theorem snapshotDone_txFree (s : State) : (snapshotDone s).txFree = s.txFree := rfl
@[simp] theorem snapshotDone_rxIndex (s : State) : (snapshotDone s).rxIndex = s.rxIndex := rfl
@[simp] theorem snapshotDone_txStalled (s : State) : (snapshotDone s).txStalled = s.txStalled := rfl
@[simp] theorem snapshotDone_txqEnabled (s : State) : (snapshotDone s).txqEnabled = s.txqEnabled := rfl
@[simp] theorem snapshotDone_txDoneCount (s : State) : (snapshotDone s).txDoneCount = s.txDoneCount := rfl
@[simp] theorem snapshotDone_txDoneLast (s : State) : (snapshotDone s).txDoneLast = s.txDoneCount := rfl
@[simp] theorem snapshotDone_deadlockWarn (s : State) : (snapshotDone s).deadlockWarn = s.deadlockWarn := rfl
@[simp] theorem snapshotDone_enabled (s : State) : (snapshotDone s).enabled = s.enabled := rfl
@[simp] theorem snapshotDone_link (s : State) : (snapshotDone s).link = s.link := rfl
@[simp] theorem snapshotDone_txSlot (s : State) : (snapshotDone s).txSlot = s.txSlot := rfl
@[simp] theorem snapshotDone_rxSlot (s : State) : (snapshotDone s).rxSlot = s.rxSlot := rfl
@[simp] theorem snapshotDone_txPending (s : State) : (snapshotDone s).txPending = s.txPending := rfl
@[simp] theorem snapshotDone_ctrResourceErrors (s : State) : (snapshotDone s).ctrResourceErrors = s.ctrResourceErrors := rfl
@[simp] theorem snapshotDone_ctrFrameTooLong (s : State) : (snapshotDone s).ctrFrameTooLong = s.ctrFrameTooLong := rfl
@[simp] theorem snapshotDone_ctrTimeouts (s : State) : (snapshotDone s).ctrTimeouts = s.ctrTimeouts := rfl
@[simp] theorem snapshotDone_ctrResets (s : State) : (snapshotDone s).ctrResets = s.ctrResets := rfl
@[simp] theorem snapshotDone_ctrTxDrops (s : State) : (snapshotDone s).ctrTxDrops = s.ctrTxDrops := rfl
@[simp] theorem snapshotDone_statsPending (s : State) : (snapshotDone s).statsPending = s.statsPending := rfl
@[simp] theorem snapshotDone_txMem (s : State) : (snapshotDone s).txMem = s.txMem := rfl
@[simp] theorem snapshotDone_rxMem (s : State) : (snapshotDone s).rxMem = s.rxMem := rfl
@[simp] theorem snapshotDone_stMem (s : State) : (snapshotDone s).stMem = s.stMem := rfl
@[simp] theorem snapshotDone_regs (s : State) : (snapshotDone s).regs = s.regs := rfl
@[simp] theorem snapshotDone_timerOn (s : State) : (snapshotDone s).timerOn = s.timerOn := rfl
@[simp] theorem snapshotDone_everEnabled (s : State) : (snapshotDone s).everEnabled = s.everEnabled := rfl
@[simp] theorem snapshotDone_txUnsubmitted (s : State) : (snapshotDone s).txUnsubmitted = s.txUnsubmitted := rfl
@[simp] theorem snapshotDone_heldPackets (s : State) : (snapshotDone s).heldPackets = s.heldPackets := rfl
@[simp] theorem snapshotDone_heldBuffers (s : State) : (snapshotDone s).heldBuffers = s.heldBuffers := rfl
@[simp] theorem snapshotDone_hostBufs (s : State) : (snapshotDone s).hostBufs = s.hostBufs := rfl
@[simp] theorem snapshotDone_nicTxBusy (s : State) : (snapshotDone s).nicTxBusy = s.nicTxBusy := rfl
@[simp] theorem snapshotDone_irqPending (s : State) : (snapshotDone s).irqPending = s.irqPending := rfl
@[simp] theorem snapshotDone_nicSeen (s : State) : (snapshotDone s).nicSeen = s.nicSeen := rfl
@[simp] theorem snapshotDone_input (s : State) : (snapshotDone s).input = s.input := rfl
@[simp] theorem snapshotDone_acquisitions (s : State) : (snapshotDone s).acquisitions = s.acquisitions := rfl
@[simp] theorem snapshotDone_work (s : State) : (snapshotDone s).work = s.work := rfl
@[simp] theorem snapshotDone_caller (s : State) : (snapshotDone s).caller = s.caller := rfl
@[simp] theorem snapshotDone_result (s : State) : (snapshotDone s).result = s.result := rfl
@[simp] theorem snapshotDone_history (s : State) : (snapshotDone s).history = s.history := rfl
@[simp] theorem snapshotDone_freeCount (s : State) : (snapshotDone s).freeCount = s.freeCount := rfl

/-! ### `latchCause` -/

@[simp] theorem latchCause_cfg (c : Cause) (s : State) : (latchCause c s).cfg = s.cfg := rfl
@[simp] theorem latchCause_mem (c : Cause) (s : State) : (latchCause c s).mem = s.mem := rfl
@[simp] theorem latchCause_txNext (c : Cause) (s : State) : (latchCause c s).txNext = s.txNext := rfl
@[simp] theorem latchCause_txDirty (c : Cause) (s : State) : (latchCause c s).txDirty = s.txDirty := rfl
@[simp] theorem latchCause_txFree (c : Cause) (s : State) : (latchCause c s).txFree = s.txFree := rfl
@[simp] theorem latchCause_rxIndex (c : Cause) (s : State) : (latchCause c s).rxIndex = s.rxIndex := rfl
@[simp] theorem latchCause_txStalled (c : Cause) (s : State) : (latchCause c s).txStalled = s.txStalled := rfl
@[simp] theorem latchCause_txqEnabled (c : Cause) (s : State) : (latchCause c s).txqEnabled = s.txqEnabled := rfl
@[simp] theorem latchCause_txDoneCount (c : Cause) (s : State) : (latchCause c s).txDoneCount = s.txDoneCount := rfl
@[simp] theorem latchCause_txDoneLast (c : Cause) (s : State) : (latchCause c s).txDoneLast = s.txDoneLast := rfl
@[simp] theorem latchCause_deadlockWarn (c : Cause) (s : State) : (latchCause c s).deadlockWarn = s.deadlockWarn := rfl
@[simp] theorem latchCause_enabled (c : Cause) (s : State) : (latchCause c s).enabled = s.enabled := rfl
@[simp] theorem latchCause_link (c : Cause) (s : State) : (latchCause c s).link = s.link := rfl
@[simp] theorem latchCause_txSlot (c : Cause) (s : State) : (latchCause c s).txSlot = s.txSlot := rfl
@[simp] theorem latchCause_rxSlot (c : Cause) (s : State) : (latchCause c s).rxSlot = s.rxSlot := rfl
@[simp] theorem latchCause_txPending (c : Cause) (s : State) : (latchCause c s).txPending = s.txPending := rfl
@[simp] theorem latchCause_ctrResourceErrors (c : Cause) (s : State) : (latchCause c s).ctrResourceErrors = s.ctrResourceErrors := rfl
@[simp] theorem latchCause_ctrFrameTooLong (c : Cause) (s : State) : (latchCause c s).ctrFrameTooLong = s.ctrFrameTooLong := rfl
@[simp] theorem latchCause_ctrTimeouts (c : Cause) (s : State) : (latchCause c s).ctrTimeouts = s.ctrTimeouts := rfl
@[simp] theorem latchCause_ctrResets (c : Cause) (s : State) : (latchCause c s).ctrResets = s.ctrResets := rfl
@[simp] theorem latchCause_ctrTxDrops (c : Cause) (s : State) : (latchCause c s).ctrTxDrops = s.ctrTxDrops := rfl
@[simp] theorem latchCause_statsPending (c : Cause) (s : State) : (latchCause c s).statsPending = s.statsPending := rfl
@[simp] theorem latchCause_txMem (c : Cause) (s : State) : (latchCause c s).txMem = s.txMem := rfl
@[simp] theorem latchCause_rxMem (c : Cause) (s : State) : (latchCause c s).rxMem = s.rxMem := rfl
@[simp] theorem latchCause_stMem (c : Cause) (s : State) : (latchCause c s).stMem = s.stMem := rfl
@[simp] theorem latchCause_regs (c : Cause) (s : State) : (latchCause c s).regs = s.regs := rfl
@[simp] theorem latchCause_timerOn (c : Cause) (s : State) : (latchCause c s).timerOn = s.timerOn := rfl
@[simp] theorem latchCause_everEnabled (c : Cause) (s : State) : (latchCause c s).everEnabled = s.everEnabled := rfl
@[simp] theorem latchCause_txUnsubmitted (c : Cause) (s : State) : (latchCause c s).txUnsubmitted = s.txUnsubmitted := rfl
@[simp] theorem latchCause_heldPackets (c : Cause) (s : State) : (latchCause c s).heldPackets = s.heldPackets := rfl
@[simp] theorem latchCause_heldBuffers (c : Cause) (s : State) : (latchCause c s).heldBuffers = s.heldBuffers := rfl
@[simp] theorem latchCause_hostBufs (c : Cause) (s : State) : (latchCause c s).hostBufs = s.hostBufs := rfl
@[simp] theorem latchCause_nicTxBusy (c : Cause) (s : State) : (latchCause c s).nicTxBusy = s.nicTxBusy := rfl
@[simp] theorem latchCause_irqPending (c : Cause) (s : State) : (latchCause c s).irqPending = s.irqPending.add c := rfl
@[simp] theorem latchCause_nicSeen (c : Cause) (s : State) : (latchCause c s).nicSeen = s.nicSeen := rfl
@[simp] theorem latchCause_input (c : Cause) (s : State) : (latchCause c s).input = s.input := rfl
@[simp] theorem latchCause_acquisitions (c : Cause) (s : State) : (latchCause c s).acquisitions = s.acquisitions := rfl
@[simp] theorem latchCause_work (c : Cause) (s : State) : (latchCause c s).work = s.work := rfl
@[simp] theorem latchCause_caller (c : Cause) (s : State) : (latchCause c s).caller = s.caller := rfl
@[simp] theorem latchCause_result (c : Cause) (s : State) : (latchCause c s).result = s.result := rfl
@[simp] theorem latchCause_history (c : Cause) (s : State) : (latchCause c s).history = s.history := rfl
@[simp] theorem latchCause_freeCount (c : Cause) (s : State) : (latchCause c s).freeCount = s.freeCount := rfl

/-! ### `nicWrite32` -/

@[simp] theorem nicWrite32_cfg (ring : Ring) (i : Nat) (f : DescField) (v : Word) (s : State) : (nicWrite32 ring i f v s).cfg = s.cfg := rfl
@[simp] theorem nicWrite32_mem (ring : Ring) (i : Nat) (f : DescField) (v : Word) (s : State) : (nicWrite32 ring i f v s).mem = s.mem.write32 (s.descAddr ring i f) v := rfl
@[simp] theorem nicWrite32_txNext (ring : Ring) (i : Nat) (f : DescField) (v : Word) (s : State) : (nicWrite32 ring i f v s).txNext = s.txNext := rfl
@[simp] theorem nicWrite32_txDirty (ring : Ring) (i : Nat) (f : DescField) (v : Word) (s : State) : (nicWrite32 ring i f v s).txDirty = s.txDirty := rfl
@[simp] theorem nicWrite32_txFree (ring : Ring) (i : Nat) (f : DescField) (v : Word) (s : State) : (nicWrite32 ring i f v s).txFree = s.txFree := rfl
@[simp] theorem nicWrite32_rxIndex (ring : Ring) (i : Nat) (f : DescField) (v : Word) (s : State) : (nicWrite32 ring i f v s).rxIndex = s.rxIndex := rfl
@[simp] theorem nicWrite32_txStalled (ring : Ring) (i : Nat) (f : DescField) (v : Word) (s : State) : (nicWrite32 ring i f v s).txStalled = s.txStalled := rfl
@[simp] theorem nicWrite32_txqEnabled (ring : Ring) (i : Nat) (f : DescField) (v : Word) (s : State) : (nicWrite32 ring i f v s).txqEnabled = s.txqEnabled := rfl
@[simp] theorem nicWrite32_txDoneCount (ring : Ring) (i : Nat) (f : DescField) (v : Word) (s : State) : (nicWrite32 ring i f v s).txDoneCount = s.txDoneCount := rfl
@[simp] theorem nicWrite32_txDoneLast (ring : Ring) (i : Nat) (f : DescField) (v : Word) (s : State) : (nicWrite32 ring i f v s).txDoneLast = s.txDoneLast := rfl
@[simp] theorem nicWrite32_deadlockWarn (ring : Ring) (i : Nat) (f : DescField) (v : Word) (s : State) : (nicWrite32 ring i f v s).deadlockWarn = s.deadlockWarn := rfl
@[simp] theorem nicWrite32_enabled (ring : Ring) (i : Nat) (f : DescField) (v : Word) (s : State) : (nicWrite32 ring i f v s).enabled = s.enabled := rfl
@[simp] theorem nicWrite32_link (ring : Ring) (i : Nat) (f : DescField) (v : Word) (s : State) : (nicWrite32 ring i f v s).link = s.link := rfl
@[simp] theorem nicWrite32_txSlot (ring : Ring) (i : Nat) (f : DescField) (v : Word) (s : State) : (nicWrite32 ring i f v s).txSlot = s.txSlot := rfl
@[simp] theorem nicWrite32_rxSlot (ring : Ring) (i : Nat) (f : DescField) (v : Word) (s : State) : (nicWrite32 ring i f v s).rxSlot = s.rxSlot := rfl
@[simp] theorem nicWrite32_txPending (ring : Ring) (i : Nat) (f : DescField) (v : Word) (s : State) : (nicWrite32 ring i f v s).txPending = s.txPending := rfl
@[simp] theorem nicWrite32_ctrResourceErrors (ring : Ring) (i : Nat) (f : DescField) (v : Word) (s : State) : (nicWrite32 ring i f v s).ctrResourceErrors = s.ctrResourceErrors := rfl
@[simp] theorem nicWrite32_ctrFrameTooLong (ring : Ring) (i : Nat) (f : DescField) (v : Word) (s : State) : (nicWrite32 ring i f v s).ctrFrameTooLong = s.ctrFrameTooLong := rfl
@[simp] theorem nicWrite32_ctrTimeouts (ring : Ring) (i : Nat) (f : DescField) (v : Word) (s : State) : (nicWrite32 ring i f v s).ctrTimeouts = s.ctrTimeouts := rfl
@[simp] theorem nicWrite32_ctrResets (ring : Ring) (i : Nat) (f : DescField) (v : Word) (s : State) : (nicWrite32 ring i f v s).ctrResets = s.ctrResets := rfl
@[simp] theorem nicWrite32_ctrTxDrops (ring : Ring) (i : Nat) (f : DescField) (v : Word) (s : State) : (nicWrite32 ring i f v s).ctrTxDrops = s.ctrTxDrops := rfl
@[simp] theorem nicWrite32_statsPending (ring : Ring) (i : Nat) (f : DescField) (v : Word) (s : State) : (nicWrite32 ring i f v s).statsPending = s.statsPending := rfl
@[simp] theorem nicWrite32_txMem (ring : Ring) (i : Nat) (f : DescField) (v : Word) (s : State) : (nicWrite32 ring i f v s).txMem = s.txMem := rfl
@[simp] theorem nicWrite32_rxMem (ring : Ring) (i : Nat) (f : DescField) (v : Word) (s : State) : (nicWrite32 ring i f v s).rxMem = s.rxMem := rfl
@[simp] theorem nicWrite32_stMem (ring : Ring) (i : Nat) (f : DescField) (v : Word) (s : State) : (nicWrite32 ring i f v s).stMem = s.stMem := rfl
@[simp] theorem nicWrite32_regs (ring : Ring) (i : Nat) (f : DescField) (v : Word) (s : State) : (nicWrite32 ring i f v s).regs = s.regs := rfl
@[simp] theorem nicWrite32_timerOn (ring : Ring) (i : Nat) (f : DescField) (v : Word) (s : State) : (nicWrite32 ring i f v s).timerOn = s.timerOn := rfl
@[simp] theorem nicWrite32_everEnabled (ring : Ring) (i : Nat) (f : DescField) (v : Word) (s : State) : (nicWrite32 ring i f v s).everEnabled = s.everEnabled := rfl
@[simp] theorem nicWrite32_txUnsubmitted (ring : Ring) (i : Nat) (f : DescField) (v : Word) (s : State) : (nicWrite32 ring i f v s).txUnsubmitted = s.txUnsubmitted := rfl
@[simp] theorem nicWrite32_heldPackets (ring : Ring) (i : Nat) (f : DescField) (v : Word) (s : State) : (nicWrite32 ring i f v s).heldPackets = s.heldPackets := rfl
@[simp] theorem nicWrite32_heldBuffers (ring : Ring) (i : Nat) (f : DescField) (v : Word) (s : State) : (nicWrite32 ring i f v s).heldBuffers = s.heldBuffers := rfl
@[simp] theorem nicWrite32_hostBufs (ring : Ring) (i : Nat) (f : DescField) (v : Word) (s : State) : (nicWrite32 ring i f v s).hostBufs = s.hostBufs := rfl
@[simp] theorem nicWrite32_nicTxBusy (ring : Ring) (i : Nat) (f : DescField) (v : Word) (s : State) : (nicWrite32 ring i f v s).nicTxBusy = s.nicTxBusy := rfl
@[simp] theorem nicWrite32_irqPending (ring : Ring) (i : Nat) (f : DescField) (v : Word) (s : State) : (nicWrite32 ring i f v s).irqPending = s.irqPending := rfl
@[simp] theorem nicWrite32_nicSeen (ring : Ring) (i : Nat) (f : DescField) (v : Word) (s : State) : (nicWrite32 ring i f v s).nicSeen = s.nicSeen := rfl
@[simp] theorem nicWrite32_input (ring : Ring) (i : Nat) (f : DescField) (v : Word) (s : State) : (nicWrite32 ring i f v s).input = s.input := rfl
@[simp] theorem nicWrite32_acquisitions (ring : Ring) (i : Nat) (f : DescField) (v : Word) (s : State) : (nicWrite32 ring i f v s).acquisitions = s.acquisitions := rfl
@[simp] theorem nicWrite32_work (ring : Ring) (i : Nat) (f : DescField) (v : Word) (s : State) : (nicWrite32 ring i f v s).work = s.work := rfl
@[simp] theorem nicWrite32_caller (ring : Ring) (i : Nat) (f : DescField) (v : Word) (s : State) : (nicWrite32 ring i f v s).caller = s.caller := rfl
@[simp] theorem nicWrite32_result (ring : Ring) (i : Nat) (f : DescField) (v : Word) (s : State) : (nicWrite32 ring i f v s).result = s.result := rfl
@[simp] theorem nicWrite32_history (ring : Ring) (i : Nat) (f : DescField) (v : Word) (s : State) : (nicWrite32 ring i f v s).history = s.history ++ [.nicDescWrite ring i f (v.setWidth 64)] := rfl
@[simp] theorem nicWrite32_freeCount (ring : Ring) (i : Nat) (f : DescField) (v : Word) (s : State) : (nicWrite32 ring i f v s).freeCount = s.freeCount := rfl

/-! ### `nicStoreFrame` -/

@[simp] theorem nicStoreFrame_cfg (a : Nat) (frame : List Byte) (s : State) : (nicStoreFrame a frame s).cfg = s.cfg := rfl
@[simp] theorem nicStoreFrame_mem (a : Nat) (frame : List Byte) (s : State) : (nicStoreFrame a frame s).mem = s.mem.writeBytes a frame := rfl
@[simp] theorem nicStoreFrame_txNext (a : Nat) (frame : List Byte) (s : State) : (nicStoreFrame a frame s).txNext = s.txNext := rfl
@[simp] theorem nicStoreFrame_txDirty (a : Nat) (frame : List Byte) (s : State) : (nicStoreFrame a frame s).txDirty = s.txDirty := rfl
@[simp] theorem nicStoreFrame_txFree (a : Nat) (frame : List Byte) (s : State) : (nicStoreFrame a frame s).txFree = s.txFree := rfl
@[simp] theorem nicStoreFrame_rxIndex (a : Nat) (frame : List Byte) (s : State) : (nicStoreFrame a frame s).rxIndex = s.rxIndex := rfl
@[simp] theorem nicStoreFrame_txStalled (a : Nat) (frame : List Byte) (s : State) : (nicStoreFrame a frame s).txStalled = s.txStalled := rfl
@[simp] theorem nicStoreFrame_txqEnabled (a : Nat) (frame : List Byte) (s : State) : (nicStoreFrame a frame s).txqEnabled = s.txqEnabled := rfl
@[simp] theorem nicStoreFrame_txDoneCount (a : Nat) (frame : List Byte) (s : State) : (nicStoreFrame a frame s).txDoneCount = s.txDoneCount := rfl
@[simp] theorem nicStoreFrame_txDoneLast (a : Nat) (frame : List Byte) (s : State) : (nicStoreFrame a frame s).txDoneLast = s.txDoneLast := rfl
@[simp] theorem nicStoreFrame_deadlockWarn (a : Nat) (frame : List Byte) (s : State) : (nicStoreFrame a frame s).deadlockWarn = s.deadlockWarn := rfl
@[simp] theorem nicStoreFrame_enabled (a : Nat) (frame : List Byte) (s : State) : (nicStoreFrame a frame s).enabled = s.enabled := rfl
@[simp] theorem nicStoreFrame_link (a : Nat) (frame : List Byte) (s : State) : (nicStoreFrame a frame s).link = s.link := rfl
@[simp] theorem nicStoreFrame_txSlot (a : Nat) (frame : List Byte) (s : State) : (nicStoreFrame a frame s).txSlot = s.txSlot := rfl
@[simp] theorem nicStoreFrame_rxSlot (a : Nat) (frame : List Byte) (s : State) : (nicStoreFrame a frame s).rxSlot = s.rxSlot := rfl
@[simp] theorem nicStoreFrame_txPending (a : Nat) (frame : List Byte) (s : State) : (nicStoreFrame a frame s).txPending = s.txPending := rfl
@[simp] theorem nicStoreFrame_ctrResourceErrors (a : Nat) (frame : List Byte) (s : State) : (nicStoreFrame a frame s).ctrResourceErrors = s.ctrResourceErrors := rfl
@[simp] theorem nicStoreFrame_ctrFrameTooLong (a : Nat) (frame : List Byte) (s : State) : (nicStoreFrame a frame s).ctrFrameTooLong = s.ctrFrameTooLong := rfl
@[simp] theorem nicStoreFrame_ctrTimeouts (a : Nat) (frame : List Byte) (s : State) : (nicStoreFrame a frame s).ctrTimeouts = s.ctrTimeouts := rfl
@[simp] theorem nicStoreFrame_ctrResets (a : Nat) (frame : List Byte) (s : State) : (nicStoreFrame a frame s).ctrResets = s.ctrResets := rfl
@[simp] theorem nicStoreFrame_ctrTxDrops (a : Nat) (frame : List Byte) (s : State) : (nicStoreFrame a frame s).ctrTxDrops = s.ctrTxDrops := rfl
@[simp] theorem nicStoreFrame_statsPending (a : Nat) (frame : List Byte) (s : State) : (nicStoreFrame a frame s).statsPending = s.statsPending := rfl
@[simp] theorem nicStoreFrame_txMem (a : Nat) (frame : List Byte) (s : State) : (nicStoreFrame a frame s).txMem = s.txMem := rfl
@[simp] theorem nicStoreFrame_rxMem (a : Nat) (frame : List Byte) (s : State) : (nicStoreFrame a frame s).rxMem = s.rxMem := rfl
@[simp] theorem nicStoreFrame_stMem (a : Nat) (frame : List Byte) (s : State) : (nicStoreFrame a frame s).stMem = s.stMem := rfl
@[simp] theorem nicStoreFrame_regs (a : Nat) (frame : List Byte) (s : State) : (nicStoreFrame a frame s).regs = s.regs := rfl
@[simp] theorem nicStoreFrame_timerOn (a : Nat) (frame : List Byte) (s : State) : (nicStoreFrame a frame s).timerOn = s.timerOn := rfl
@[simp] theorem nicStoreFrame_everEnabled (a : Nat) (frame : List Byte) (s : State) : (nicStoreFrame a frame s).everEnabled = s.everEnabled := rfl
@[simp] theorem nicStoreFrame_txUnsubmitted (a : Nat) (frame : List Byte) (s : State) : (nicStoreFrame a frame s).txUnsubmitted = s.txUnsubmitted := rfl
@[simp] theorem nicStoreFrame_heldPackets (a : Nat) (frame : List Byte) (s : State) : (nicStoreFrame a frame s).heldPackets = s.heldPackets := rfl
@[simp] theorem nicStoreFrame_heldBuffers (a : Nat) (frame : List Byte) (s : State) : (nicStoreFrame a frame s).heldBuffers = s.heldBuffers := rfl
@[simp] theorem nicStoreFrame_hostBufs (a : Nat) (frame : List Byte) (s : State) : (nicStoreFrame a frame s).hostBufs = s.hostBufs := rfl
@[simp] theorem nicStoreFrame_nicTxBusy (a : Nat) (frame : List Byte) (s : State) : (nicStoreFrame a frame s).nicTxBusy = s.nicTxBusy := rfl
@[simp] theorem nicStoreFrame_irqPending (a : Nat) (frame : List Byte) (s : State) : (nicStoreFrame a frame s).irqPending = s.irqPending := rfl
@[simp] theorem nicStoreFrame_nicSeen (a : Nat) (frame : List Byte) (s : State) : (nicStoreFrame a frame s).nicSeen = s.nicSeen := rfl
@[simp] theorem nicStoreFrame_input (a : Nat) (frame : List Byte) (s : State) : (nicStoreFrame a frame s).input = s.input := rfl
@[simp] theorem nicStoreFrame_acquisitions (a : Nat) (frame : List Byte) (s : State) : (nicStoreFrame a frame s).acquisitions = s.acquisitions := rfl
@[simp] theorem nicStoreFrame_work (a : Nat) (frame : List Byte) (s : State) : (nicStoreFrame a frame s).work = s.work := rfl
@[simp] theorem nicStoreFrame_caller (a : Nat) (frame : List Byte) (s : State) : (nicStoreFrame a frame s).caller = s.caller := rfl
@[simp] theorem nicStoreFrame_result (a : Nat) (frame : List Byte) (s : State) : (nicStoreFrame a frame s).result = s.result := rfl
@[simp] theorem nicStoreFrame_history (a : Nat) (frame : List Byte) (s : State) : (nicStoreFrame a frame s).history = s.history ++ [.nicMemWrite a frame.length] := rfl
@[simp] theorem nicStoreFrame_freeCount (a : Nat) (frame : List Byte) (s : State) : (nicStoreFrame a frame s).freeCount = s.freeCount := rfl

/-! ### `acknowledge` -/

@[simp] theorem acknowledge_cfg (s : State) : (acknowledge s).cfg = s.cfg := rfl
@[simp] theorem acknowledge_mem (s : State) : (acknowledge s).mem = s.mem := rfl
@[simp] theorem acknowledge_txNext (s : State) : (acknowledge s).txNext = s.txNext := rfl
@[simp] theorem acknowledge_txDirty (s : State) : (acknowledge s).txDirty = s.txDirty := rfl
@[simp] theorem acknowledge_txFree (s : State) : (acknowledge s).txFree = s.txFree := rfl
@[simp] theorem acknowledge_rxIndex (s : State) : (acknowledge s).rxIndex = s.rxIndex := rfl
@[simp] theorem acknowledge_txStalled (s : State) : (acknowledge s).txStalled = s.txStalled := rfl
@[simp] theorem acknowledge_txqEnabled (s : State) : (acknowledge s).txqEnabled = s.txqEnabled := rfl
@[simp] theorem acknowledge_txDoneCount (s : State) : (acknowledge s).txDoneCount = s.txDoneCount := rfl
@[simp] theorem acknowledge_txDoneLast (s : State) : (acknowledge s).txDoneLast = s.txDoneLast := rfl
@[simp] theorem acknowledge_deadlockWarn (s : State) : (acknowledge s).deadlockWarn = s.deadlockWarn := rfl
@[simp] theorem acknowledge_enabled (s : State) : (acknowledge s).enabled = s.enabled := rfl
@[simp] theorem acknowledge_link (s : State) : (acknowledge s).link = s.link := rfl
@[simp] theorem acknowledge_txSlot (s : State) : (acknowledge s).txSlot = s.txSlot := rfl
@[simp] theorem acknowledge_rxSlot (s : State) : (acknowledge s).rxSlot = s.rxSlot := rfl
@[simp] theorem acknowledge_txPending (s : State) : (acknowledge s).txPending = s.txPending := rfl
@[simp] theorem acknowledge_ctrResourceErrors (s : State) : (acknowledge s).ctrResourceErrors = s.ctrResourceErrors := rfl
@[simp] theorem acknowledge_ctrFrameTooLong (s : State) : (acknowledge s).ctrFrameTooLong = s.ctrFrameTooLong := rfl
@[simp] theorem acknowledge_ctrTimeouts (s : State) : (acknowledge s).ctrTimeouts = s.ctrTimeouts := rfl
@[simp] theorem acknowledge_ctrResets (s : State) : (acknowledge s).ctrResets = s.ctrResets := rfl
@[simp] theorem acknowledge_ctrTxDrops (s : State) : (acknowledge s).ctrTxDrops = s.ctrTxDrops := rfl
@[simp] theorem acknowledge_statsPending (s : State) : (acknowledge s).statsPending = s.statsPending := rfl
@[simp] theorem acknowledge_txMem (s : State) : (acknowledge s).txMem = s.txMem := rfl
@[simp] theorem acknowledge_rxMem (s : State) : (acknowledge s).rxMem = s.rxMem := rfl
@[simp] theorem acknowledge_stMem (s : State) : (acknowledge s).stMem = s.stMem := rfl
@[simp] theorem acknowledge_regs (s : State) : (acknowledge s).regs = s.regs := rfl
@[simp] theorem acknowledge_timerOn (s : State) : (acknowledge s).timerOn = s.timerOn := rfl
@[simp] theorem acknowledge_everEnabled (s : State) : (acknowledge s).everEnabled = s.everEnabled := rfl
@[simp] theorem acknowledge_txUnsubmitted (s : State) : (acknowledge s).txUnsubmitted = s.txUnsubmitted := rfl
@[simp] theorem acknowledge_heldPackets (s : State) : (acknowledge s).heldPackets = s.heldPackets := rfl
@[simp] theorem acknowledge_heldBuffers (s : State) : (acknowledge s).heldBuffers = s.heldBuffers := rfl
@[simp] theorem acknowledge_hostBufs (s : State) : (acknowledge s).hostBufs = s.hostBufs := rfl
@[simp] theorem acknowledge_nicTxBusy (s : State) : (acknowledge s).nicTxBusy = s.nicTxBusy := rfl
@[simp] theorem acknowledge_irqPending (s : State) : (acknowledge s).irqPending = s.irqPending.diff (causesIn s.cfg.reg (intrStatus s)) := rfl
@[simp] theorem acknowledge_nicSeen (s : State) : (acknowledge s).nicSeen = s.nicSeen := rfl
@[simp] theorem acknowledge_input (s : State) : (acknowledge s).input = s.input := rfl
@[simp] theorem acknowledge_acquisitions (s : State) : (acknowledge s).acquisitions = s.acquisitions := rfl
@[simp] theorem acknowledge_work (s : State) : (acknowledge s).work = s.work := rfl
@[simp] theorem acknowledge_caller (s : State) : (acknowledge s).caller = s.caller := rfl
@[simp] theorem acknowledge_result (s : State) : (acknowledge s).result = s.result := rfl
@[simp] theorem acknowledge_freeCount (s : State) : (acknowledge s).freeCount = s.freeCount + 1 := rfl

/-! ### `copyFrame` -/

@[simp] theorem copyFrame_cfg (src dst : Handle) (a len : Nat) (s : State) : (copyFrame src dst a len s).cfg = s.cfg := rfl
@[simp] theorem copyFrame_mem (src dst : Handle) (a len : Nat) (s : State) : (copyFrame src dst a len s).mem = s.mem := rfl
@[simp] theorem copyFrame_txNext (src dst : Handle) (a len : Nat) (s : State) : (copyFrame src dst a len s).txNext = s.txNext := rfl
@[simp] theorem copyFrame_txDirty (src dst : Handle) (a len : Nat) (s : State) : (copyFrame src dst a len s).txDirty = s.txDirty := rfl
@[simp] theorem copyFrame_txFree (src dst : Handle) (a len : Nat) (s : State) : (copyFrame src dst a len s).txFree = s.txFree := rfl
@[simp] theorem copyFrame_rxIndex (src dst : Handle) (a len : Nat) (s : State) : (copyFrame src dst a len s).rxIndex = s.rxIndex := rfl
@[simp] theorem copyFrame_txStalled (src dst : Handle) (a len : Nat) (s : State) : (copyFrame src dst a len s).txStalled = s.txStalled := rfl
@[simp] theorem copyFrame_txqEnabled (src dst : Handle) (a len : Nat) (s : State) : (copyFrame src dst a len s).txqEnabled = s.txqEnabled := rfl
@[simp] theorem copyFrame_txDoneCount (src dst : Handle) (a len : Nat) (s : State) : (copyFrame src dst a len s).txDoneCount = s.txDoneCount := rfl
@[simp] theorem copyFrame_txDoneLast (src dst : Handle) (a len : Nat) (s : State) : (copyFrame src dst a len s).txDoneLast = s.txDoneLast := rfl
@[simp] theorem copyFrame_deadlockWarn (src dst : Handle) (a len : Nat) (s : State) : (copyFrame src dst a len s).deadlockWarn = s.deadlockWarn := rfl
@[simp] theorem copyFrame_enabled (src dst : Handle) (a len : Nat) (s : State) : (copyFrame src dst a len s).enabled = s.enabled := rfl
@[simp] theorem copyFrame_link (src dst : Handle) (a len : Nat) (s : State) : (copyFrame src dst a len s).link = s.link := rfl
@[simp] theorem copyFrame_txSlot (src dst : Handle) (a len : Nat) (s : State) : (copyFrame src dst a len s).txSlot = s.txSlot := rfl
@[simp] theorem copyFrame_rxSlot (src dst : Handle) (a len : Nat) (s : State) : (copyFrame src dst a len s).rxSlot = s.rxSlot := rfl
@[simp] theorem copyFrame_txPending (src dst : Handle) (a len : Nat) (s : State) : (copyFrame src dst a len s).txPending = s.txPending := rfl
@[simp] theorem copyFrame_ctrResourceErrors (src dst : Handle) (a len : Nat) (s : State) : (copyFrame src dst a len s).ctrResourceErrors = s.ctrResourceErrors := rfl
@[simp] theorem copyFrame_ctrFrameTooLong (src dst : Handle) (a len : Nat) (s : State) : (copyFrame src dst a len s).ctrFrameTooLong = s.ctrFrameTooLong := rfl
@[simp] theorem copyFrame_ctrTimeouts (src dst : Handle) (a len : Nat) (s : State) : (copyFrame src dst a len s).ctrTimeouts = s.ctrTimeouts := rfl
@[simp] theorem copyFrame_ctrResets (src dst : Handle) (a len : Nat) (s : State) : (copyFrame src dst a len s).ctrResets = s.ctrResets := rfl
@[simp] theorem copyFrame_ctrTxDrops (src dst : Handle) (a len : Nat) (s : State) : (copyFrame src dst a len s).ctrTxDrops = s.ctrTxDrops := rfl
@[simp] theorem copyFrame_statsPending (src dst : Handle) (a len : Nat) (s : State) : (copyFrame src dst a len s).statsPending = s.statsPending := rfl
@[simp] theorem copyFrame_txMem (src dst : Handle) (a len : Nat) (s : State) : (copyFrame src dst a len s).txMem = s.txMem := rfl
@[simp] theorem copyFrame_rxMem (src dst : Handle) (a len : Nat) (s : State) : (copyFrame src dst a len s).rxMem = s.rxMem := rfl
@[simp] theorem copyFrame_stMem (src dst : Handle) (a len : Nat) (s : State) : (copyFrame src dst a len s).stMem = s.stMem := rfl
@[simp] theorem copyFrame_regs (src dst : Handle) (a len : Nat) (s : State) : (copyFrame src dst a len s).regs = s.regs := rfl
@[simp] theorem copyFrame_timerOn (src dst : Handle) (a len : Nat) (s : State) : (copyFrame src dst a len s).timerOn = s.timerOn := rfl
@[simp] theorem copyFrame_everEnabled (src dst : Handle) (a len : Nat) (s : State) : (copyFrame src dst a len s).everEnabled = s.everEnabled := rfl
@[simp] theorem copyFrame_txUnsubmitted (src dst : Handle) (a len : Nat) (s : State) : (copyFrame src dst a len s).txUnsubmitted = s.txUnsubmitted := rfl
@[simp] theorem copyFrame_heldPackets (src dst : Handle) (a len : Nat) (s : State) : (copyFrame src dst a len s).heldPackets = s.heldPackets := rfl
@[simp] theorem copyFrame_heldBuffers (src dst : Handle) (a len : Nat) (s : State) : (copyFrame src dst a len s).heldBuffers = s.heldBuffers := rfl
@[simp] theorem copyFrame_nicTxBusy (src dst : Handle) (a len : Nat) (s : State) : (copyFrame src dst a len s).nicTxBusy = s.nicTxBusy := rfl
@[simp] theorem copyFrame_irqPending (src dst : Handle) (a len : Nat) (s : State) : (copyFrame src dst a len s).irqPending = s.irqPending := rfl
@[simp] theorem copyFrame_nicSeen (src dst : Handle) (a len : Nat) (s : State) : (copyFrame src dst a len s).nicSeen = s.nicSeen := rfl
@[simp] theorem copyFrame_input (src dst : Handle) (a len : Nat) (s : State) : (copyFrame src dst a len s).input = s.input := rfl
@[simp] theorem copyFrame_acquisitions (src dst : Handle) (a len : Nat) (s : State) : (copyFrame src dst a len s).acquisitions = s.acquisitions := rfl
@[simp] theorem copyFrame_work (src dst : Handle) (a len : Nat) (s : State) : (copyFrame src dst a len s).work = s.work := rfl
@[simp] theorem copyFrame_caller (src dst : Handle) (a len : Nat) (s : State) : (copyFrame src dst a len s).caller = s.caller := rfl
@[simp] theorem copyFrame_result (src dst : Handle) (a len : Nat) (s : State) : (copyFrame src dst a len s).result = s.result := rfl
@[simp] theorem copyFrame_history (src dst : Handle) (a len : Nat) (s : State) : (copyFrame src dst a len s).history = s.history ++ [.copyBytes src dst len] := rfl
@[simp] theorem copyFrame_freeCount (src dst : Handle) (a len : Nat) (s : State) : (copyFrame src dst a len s).freeCount = s.freeCount := rfl

/-! ### `dropUnspecified` -/

@[simp] theorem dropUnspecified_cfg (s : State) : (dropUnspecified s).cfg = s.cfg := rfl
@[simp] theorem dropUnspecified_mem (s : State) : (dropUnspecified s).mem = s.mem := rfl
@[simp] theorem dropUnspecified_txNext (s : State) : (dropUnspecified s).txNext = s.txNext := rfl
@[simp] theorem dropUnspecified_txDirty (s : State) : (dropUnspecified s).txDirty = s.txDirty := rfl
@[simp] theorem dropUnspecified_txFree (s : State) : (dropUnspecified s).txFree = s.txFree := rfl
@[simp] theorem dropUnspecified_rxIndex (s : State) : (dropUnspecified s).rxIndex = s.rxIndex := rfl
@[simp] theorem dropUnspecified_txStalled (s : State) : (dropUnspecified s).txStalled = s.txStalled := rfl
@[simp] theorem dropUnspecified_txqEnabled (s : State) : (dropUnspecified s).txqEnabled = s.txqEnabled := rfl
@[simp] theorem dropUnspecified_txDoneCount (s : State) : (dropUnspecified s).txDoneCount = s.txDoneCount := rfl
@[simp] theorem dropUnspecified_txDoneLast (s : State) : (dropUnspecified s).txDoneLast = s.txDoneLast := rfl
@[simp] theorem dropUnspecified_deadlockWarn (s : State) : (dropUnspecified s).deadlockWarn = s.deadlockWarn := rfl
@[simp] theorem dropUnspecified_enabled (s : State) : (dropUnspecified s).enabled = s.enabled := rfl
@[simp] theorem dropUnspecified_link (s : State) : (dropUnspecified s).link = s.link := rfl
@[simp] theorem dropUnspecified_txSlot (s : State) : (dropUnspecified s).txSlot = s.txSlot := rfl
@[simp] theorem dropUnspecified_rxSlot (s : State) : (dropUnspecified s).rxSlot = [] := rfl
@[simp] theorem dropUnspecified_txPending (s : State) : (dropUnspecified s).txPending = s.txPending := rfl
@[simp] theorem dropUnspecified_ctrResourceErrors (s : State) : (dropUnspecified s).ctrResourceErrors = s.ctrResourceErrors := rfl
@[simp] theorem dropUnspecified_ctrFrameTooLong (s : State) : (dropUnspecified s).ctrFrameTooLong = s.ctrFrameTooLong := rfl
@[simp] theorem dropUnspecified_ctrTimeouts (s : State) : (dropUnspecified s).ctrTimeouts = s.ctrTimeouts := rfl
@[simp] theorem dropUnspecified_ctrResets (s : State) : (dropUnspecified s).ctrResets = s.ctrResets := rfl
@[simp] theorem dropUnspecified_ctrTxDrops (s : State) : (dropUnspecified s).ctrTxDrops = s.ctrTxDrops := rfl
@[simp] theorem dropUnspecified_statsPending (s : State) : (dropUnspecified s).statsPending = s.statsPending := rfl
@[simp] theorem dropUnspecified_txMem (s : State) : (dropUnspecified s).txMem = none := rfl
@[simp] theorem dropUnspecified_rxMem (s : State) : (dropUnspecified s).rxMem = none := rfl
@[simp] theorem dropUnspecified_stMem (s : State) : (dropUnspecified s).stMem = none := rfl
@[simp] theorem dropUnspecified_regs (s : State) : (dropUnspecified s).regs = s.regs := rfl
@[simp] theorem dropUnspecified_timerOn (s : State) : (dropUnspecified s).timerOn = s.timerOn := rfl
@[simp] theorem dropUnspecified_everEnabled (s : State) : (dropUnspecified s).everEnabled = s.everEnabled := rfl
@[simp] theorem dropUnspecified_txUnsubmitted (s : State) : (dropUnspecified s).txUnsubmitted = s.txUnsubmitted := rfl
@[simp] theorem dropUnspecified_heldPackets (s : State) : (dropUnspecified s).heldPackets = s.heldPackets := rfl
@[simp] theorem dropUnspecified_heldBuffers (s : State) : (dropUnspecified s).heldBuffers = [] := rfl
@[simp] theorem dropUnspecified_hostBufs (s : State) : (dropUnspecified s).hostBufs = s.hostBufs := rfl
@[simp] theorem dropUnspecified_nicTxBusy (s : State) : (dropUnspecified s).nicTxBusy = s.nicTxBusy := rfl
@[simp] theorem dropUnspecified_irqPending (s : State) : (dropUnspecified s).irqPending = s.irqPending := rfl
@[simp] theorem dropUnspecified_nicSeen (s : State) : (dropUnspecified s).nicSeen = s.nicSeen := rfl
@[simp] theorem dropUnspecified_input (s : State) : (dropUnspecified s).input = s.input := rfl
@[simp] theorem dropUnspecified_acquisitions (s : State) : (dropUnspecified s).acquisitions = s.acquisitions := rfl
@[simp] theorem dropUnspecified_work (s : State) : (dropUnspecified s).work = s.work := rfl
@[simp] theorem dropUnspecified_caller (s : State) : (dropUnspecified s).caller = s.caller := rfl
@[simp] theorem dropUnspecified_result (s : State) : (dropUnspecified s).result = s.result := rfl
@[simp] theorem dropUnspecified_history (s : State) : (dropUnspecified s).history = s.history := rfl
@[simp] theorem dropUnspecified_freeCount (s : State) : (dropUnspecified s).freeCount = s.freeCount := rfl
/-- States with equal fields are equal. -/
theorem State.eq_of_fields {s t : State}
    (h0 : s.cfg = t.cfg)
    (h1 : s.mem = t.mem)
    (h2 : s.txNext = t.txNext)
    (h3 : s.txDirty = t.txDirty)
    (h4 : s.txFree = t.txFree)
    (h5 : s.rxIndex = t.rxIndex)
    (h6 : s.txStalled = t.txStalled)
    (h7 : s.txqEnabled = t.txqEnabled)
    (h8 : s.txDoneCount = t.txDoneCount)
    (h9 : s.txDoneLast = t.txDoneLast)
    (h10 : s.deadlockWarn = t.deadlockWarn)
    (h11 : s.enabled = t.enabled)
    (h12 : s.link = t.link)
    (h13 : s.txSlot = t.txSlot)
    (h14 : s.rxSlot = t.rxSlot)
    (h15 : s.txPending = t.txPending)
    (h16 : s.ctrResourceErrors = t.ctrResourceErrors)
    (h17 : s.ctrFrameTooLong = t.ctrFrameTooLong)
    (h18 : s.ctrTimeouts = t.ctrTimeouts)
    (h19 : s.ctrResets = t.ctrResets)
    (h20 : s.ctrTxDrops = t.ctrTxDrops)
    (h21 : s.statsPending = t.statsPending)
    (h22 : s.txMem = t.txMem)
    (h23 : s.rxMem = t.rxMem)
    (h24 : s.stMem = t.stMem)
    (h25 : s.regs = t.regs)
    (h26 : s.timerOn = t.timerOn)
    (h27 : s.everEnabled = t.everEnabled)
    (h28 : s.txUnsubmitted = t.txUnsubmitted)
    (h29 : s.heldPackets = t.heldPackets)
    (h30 : s.heldBuffers = t.heldBuffers)
    (h31 : s.hostBufs = t.hostBufs)
    (h32 : s.nicTxBusy = t.nicTxBusy)
    (h33 : s.irqPending = t.irqPending)
    (h34 : s.nicSeen = t.nicSeen)
    (h35 : s.input = t.input)
    (h36 : s.acquisitions = t.acquisitions)
    (h37 : s.work = t.work)
    (h38 : s.caller = t.caller)
    (h39 : s.result = t.result)
    (h40 : s.history = t.history)
    (h41 : s.freeCount = t.freeCount) : s = t := by
  cases s; cases t; simp only [State.mk.injEq]; exact ⟨h0, h1, h2, h3, h4, h5, h6, h7, h8, h9, h10, h11, h12, h13, h14, h15, h16, h17, h18, h19, h20, h21, h22, h23, h24, h25, h26, h27, h28, h29, h30, h31, h32, h33, h34, h35, h36, h37, h38, h39, h40, h41⟩

/-! ### `writeDesc` -/

@[simp] theorem writeDesc_cfg (ring : Ring) (i : Nat) (seg : Segment) (flags1 flags2 : Word) (own : Bool) (s : State) : (writeDesc ring i seg flags1 flags2 own s).cfg = s.cfg := by
  cases own <;> simp [writeDesc]
@[simp] theorem writeDesc_txNext (ring : Ring) (i : Nat) (seg : Segment) (flags1 flags2 : Word) (own : Bool) (s : State) : (writeDesc ring i seg flags1 flags2 own s).txNext = s.txNext := by
  cases own <;> simp [writeDesc]
@[simp] theorem writeDesc_txDirty (ring : Ring) (i : Nat) (seg : Segment) (flags1 flags2 : Word) (own : Bool) (s : State) : (writeDesc ring i seg flags1 flags2 own s).txDirty = s.txDirty := by
  cases own <;> simp [writeDesc]
@[simp] theorem writeDesc_txFree (ring : Ring) (i : Nat) (seg : Segment) (flags1 flags2 : Word) (own : Bool) (s : State) : (writeDesc ring i seg flags1 flags2 own s).txFree = s.txFree := by
  cases own <;> simp [writeDesc]
@[simp] theorem writeDesc_rxIndex (ring : Ring) (i : Nat) (seg : Segment) (flags1 flags2 : Word) (own : Bool) (s : State) : (writeDesc ring i seg flags1 flags2 own s).rxIndex = s.rxIndex := by
  cases own <;> simp [writeDesc]
@[simp] theorem writeDesc_txStalled (ring : Ring) (i : Nat) (seg : Segment) (flags1 flags2 : Word) (own : Bool) (s : State) : (writeDesc ring i seg flags1 flags2 own s).txStalled = s.txStalled := by
  cases own <;> simp [writeDesc]
@[simp] theorem writeDesc_txqEnabled (ring : Ring) (i : Nat) (seg : Segment) (flags1 flags2 : Word) (own : Bool) (s : State) : (writeDesc ring i seg flags1 flags2 own s).txqEnabled = s.txqEnabled := by
  cases own <;> simp [writeDesc]
@[simp] theorem writeDesc_txDoneCount (ring : Ring) (i : Nat) (seg : Segment) (flags1 flags2 : Word) (own : Bool) (s : State) : (writeDesc ring i seg flags1 flags2 own s).txDoneCount = s.txDoneCount := by
  cases own <;> simp [writeDesc]
@[simp] theorem writeDesc_txDoneLast (ring : Ring) (i : Nat) (seg : Segment) (flags1 flags2 : Word) (own : Bool) (s : State) : (writeDesc ring i seg flags1 flags2 own s).txDoneLast = s.txDoneLast := by
  cases own <;> simp [writeDesc]
@[simp] theorem writeDesc_deadlockWarn (ring : Ring) (i : Nat) (seg : Segment) (flags1 flags2 : Word) (own : Bool) (s : State) : (writeDesc ring i seg flags1 flags2 own s).deadlockWarn = s.deadlockWarn := by
  cases own <;> simp [writeDesc]
@[simp] theorem writeDesc_enabled (ring : Ring) (i : Nat) (seg : Segment) (flags1 flags2 : Word) (own : Bool) (s : State) : (writeDesc ring i seg flags1 flags2 own s).enabled = s.enabled := by
  cases own <;> simp [writeDesc]
@[simp] theorem writeDesc_link (ring : Ring) (i : Nat) (seg : Segment) (flags1 flags2 : Word) (own : Bool) (s : State) : (writeDesc ring i seg flags1 flags2 own s).link = s.link := by
  cases own <;> simp [writeDesc]
@[simp] theorem writeDesc_txSlot (ring : Ring) (i : Nat) (seg : Segment) (flags1 flags2 : Word) (own : Bool) (s : State) : (writeDesc ring i seg flags1 flags2 own s).txSlot = s.txSlot := by
  cases own <;> simp [writeDesc]
@[simp] theorem writeDesc_rxSlot (ring : Ring) (i : Nat) (seg : Segment) (flags1 flags2 : Word) (own : Bool) (s : State) : (writeDesc ring i seg flags1 flags2 own s).rxSlot = s.rxSlot := by
  cases own <;> simp [writeDesc]
@[simp] theorem writeDesc_txPending (ring : Ring) (i : Nat) (seg : Segment) (flags1 flags2 : Word) (own : Bool) (s : State) : (writeDesc ring i seg flags1 flags2 own s).txPending = s.txPending := by
  cases own <;> simp [writeDesc]
@[simp] theorem writeDesc_ctrResourceErrors (ring : Ring) (i : Nat) (seg : Segment) (flags1 flags2 : Word) (own : Bool) (s : State) : (writeDesc ring i seg flags1 flags2 own s).ctrResourceErrors = s.ctrResourceErrors := by
  cases own <;> simp [writeDesc]
@[simp] theorem writeDesc_ctrFrameTooLong (ring : Ring) (i : Nat) (seg : Segment) (flags1 flags2 : Word) (own : Bool) (s : State) : (writeDesc ring i seg flags1 flags2 own s).ctrFrameTooLong = s.ctrFrameTooLong := by
  cases own <;> simp [writeDesc]
@[simp] theorem writeDesc_ctrTimeouts (ring : Ring) (i : Nat) (seg : Segment) (flags1 flags2 : Word) (own : Bool) (s : State) : (writeDesc ring i seg flags1 flags2 own s).ctrTimeouts = s.ctrTimeouts := by
  cases own <;> simp [writeDesc]
@[simp] theorem writeDesc_ctrResets (ring : Ring) (i : Nat) (seg : Segment) (flags1 flags2 : Word) (own : Bool) (s : State) : (writeDesc ring i seg flags1 flags2 own s).ctrResets = s.ctrResets := by
  cases own <;> simp [writeDesc]
@[simp] theorem writeDesc_ctrTxDrops (ring : Ring) (i : Nat) (seg : Segment) (flags1 flags2 : Word) (own : Bool) (s : State) : (writeDesc ring i seg flags1 flags2 own s).ctrTxDrops = s.ctrTxDrops := by
  cases own <;> simp [writeDesc]
@[simp] theorem writeDesc_statsPending (ring : Ring) (i : Nat) (seg : Segment) (flags1 flags2 : Word) (own : Bool) (s : State) : (writeDesc ring i seg flags1 flags2 own s).statsPending = s.statsPending := by
  cases own <;> simp [writeDesc]
@[simp] theorem writeDesc_txMem (ring : Ring) (i : Nat) (seg : Segment) (flags1 flags2 : Word) (own : Bool) (s : State) : (writeDesc ring i seg flags1 flags2 own s).txMem = s.txMem := by
  cases own <;> simp [writeDesc]
@[simp] theorem writeDesc_rxMem (ring : Ring) (i : Nat) (seg : Segment) (flags1 flags2 : Word) (own : Bool) (s : State) : (writeDesc ring i seg flags1 flags2 own s).rxMem = s.rxMem := by
  cases own <;> simp [writeDesc]
@[simp] theorem writeDesc_stMem (ring : Ring) (i : Nat) (seg : Segment) (flags1 flags2 : Word) (own : Bool) (s : State) : (writeDesc ring i seg flags1 flags2 own s).stMem = s.stMem := by
  cases own <;> simp [writeDesc]
@[simp] theorem writeDesc_regs (ring : Ring) (i : Nat) (seg : Segment) (flags1 flags2 : Word) (own : Bool) (s : State) : (writeDesc ring i seg flags1 flags2 own s).regs = s.regs := by
  cases own <;> simp [writeDesc]
@[simp] theorem writeDesc_timerOn (ring : Ring) (i : Nat) (seg : Segment) (flags1 flags2 : Word) (own : Bool) (s : State) : (writeDesc ring i seg flags1 flags2 own s).timerOn = s.timerOn := by
  cases own <;> simp [writeDesc]
@[simp] theorem writeDesc_everEnabled (ring : Ring) (i : Nat) (seg : Segment) (flags1 flags2 : Word) (own : Bool) (s : State) : (writeDesc ring i seg flags1 flags2 own s).everEnabled = s.everEnabled := by
  cases own <;> simp [writeDesc]
@[simp] theorem writeDesc_txUnsubmitted (ring : Ring) (i : Nat) (seg : Segment) (flags1 flags2 : Word) (own : Bool) (s : State) : (writeDesc ring i seg flags1 flags2 own s).txUnsubmitted = s.txUnsubmitted := by
  cases own <;> simp [writeDesc]
@[simp] theorem writeDesc_heldPackets (ring : Ring) (i : Nat) (seg : Segment) (flags1 flags2 : Word) (own : Bool) (s : State) : (writeDesc ring i seg flags1 flags2 own s).heldPackets = s.heldPackets := by
  cases own <;> simp [writeDesc]
@[simp] theorem writeDesc_heldBuffers (ring : Ring) (i : Nat) (seg : Segment) (flags1 flags2 : Word) (own : Bool) (s : State) : (writeDesc ring i seg flags1 flags2 own s).heldBuffers = s.heldBuffers := by
  cases own <;> simp [writeDesc]
@[simp] theorem writeDesc_hostBufs (ring : Ring) (i : Nat) (seg : Segment) (flags1 flags2 : Word) (own : Bool) (s : State) : (writeDesc ring i seg flags1 flags2 own s).hostBufs = s.hostBufs := by
  cases own <;> simp [writeDesc]
@[simp] theorem writeDesc_nicTxBusy (ring : Ring) (i : Nat) (seg : Segment) (flags1 flags2 : Word) (own : Bool) (s : State) : (writeDesc ring i seg flags1 flags2 own s).nicTxBusy = s.nicTxBusy := by
  cases own <;> simp [writeDesc]
@[simp] theorem writeDesc_irqPending (ring : Ring) (i : Nat) (seg : Segment) (flags1 flags2 : Word) (own : Bool) (s : State) : (writeDesc ring i seg flags1 flags2 own s).irqPending = s.irqPending := by
  cases own <;> simp [writeDesc]
@[simp] theorem writeDesc_nicSeen (ring : Ring) (i : Nat) (seg : Segment) (flags1 flags2 : Word) (own : Bool) (s : State) : (writeDesc ring i seg flags1 flags2 own s).nicSeen = s.nicSeen := by
  cases own <;> simp [writeDesc]
@[simp] theorem writeDesc_input (ring : Ring) (i : Nat) (seg : Segment) (flags1 flags2 : Word) (own : Bool) (s : State) : (writeDesc ring i seg flags1 flags2 own s).input = s.input := by
  cases own <;> simp [writeDesc]
@[simp] theorem writeDesc_acquisitions (ring : Ring) (i : Nat) (seg : Segment) (flags1 flags2 : Word) (own : Bool) (s : State) : (writeDesc ring i seg flags1 flags2 own s).acquisitions = s.acquisitions := by
  cases own <;> simp [writeDesc]
@[simp] theorem writeDesc_work (ring : Ring) (i : Nat) (seg : Segment) (flags1 flags2 : Word) (own : Bool) (s : State) : (writeDesc ring i seg flags1 flags2 own s).work = s.work := by
  cases own <;> simp [writeDesc]
@[simp] theorem writeDesc_caller (ring : Ring) (i : Nat) (seg : Segment) (flags1 flags2 : Word) (own : Bool) (s : State) : (writeDesc ring i seg flags1 flags2 own s).caller = s.caller := by
  cases own <;> simp [writeDesc]
@[simp] theorem writeDesc_result (ring : Ring) (i : Nat) (seg : Segment) (flags1 flags2 : Word) (own : Bool) (s : State) : (writeDesc ring i seg flags1 flags2 own s).result = s.result := by
  cases own <;> simp [writeDesc]
@[simp] theorem writeDesc_freeCount (ring : Ring) (i : Nat) (seg : Segment) (flags1 flags2 : Word) (own : Bool) (s : State) : (writeDesc ring i seg flags1 flags2 own s).freeCount = s.freeCount := by
  cases own <;> simp [writeDesc]

/-! ### `rearm` -/

@[simp] theorem rearm_cfg (i : Nat) (s : State) : (rearm i s).cfg = s.cfg := by
  simp [rearm]
@[simp] theorem rearm_txNext (i : Nat) (s : State) : (rearm i s).txNext = s.txNext := by
  simp [rearm]
@[simp] theorem rearm_txDirty (i : Nat) (s : State) : (rearm i s).txDirty = s.txDirty := by
  simp [rearm]
@[simp] theorem rearm_txFree (i : Nat) (s : State) : (rearm i s).txFree = s.txFree := by
  simp [rearm]
@[simp] theorem rearm_rxIndex (i : Nat) (s : State) : (rearm i s).rxIndex = s.rxIndex := by
  simp [rearm]
@[simp] theorem rearm_txStalled (i : Nat) (s : State) : (rearm i s).txStalled = s.txStalled := by
  simp [rearm]
@[simp] theorem rearm_txqEnabled (i : Nat) (s : State) : (rearm i s).txqEnabled = s.txqEnabled := by
  simp [rearm]
@[simp] theorem rearm_txDoneCount (i : Nat) (s : State) : (rearm i s).txDoneCount = s.txDoneCount := by
  simp [rearm]
@[simp] theorem rearm_txDoneLast (i : Nat) (s : State) : (rearm i s).txDoneLast = s.txDoneLast := by
  simp [rearm]
@[simp] theorem rearm_deadlockWarn (i : Nat) (s : State) : (rearm i s).deadlockWarn = s.deadlockWarn := by
  simp [rearm]
@[simp] theorem rearm_enabled (i : Nat) (s : State) : (rearm i s).enabled = s.enabled := by
  simp [rearm]
@[simp] theorem rearm_link (i : Nat) (s : State) : (rearm i s).link = s.link := by
  simp [rearm]
@[simp] theorem rearm_txSlot (i : Nat) (s : State) : (rearm i s).txSlot = s.txSlot := by
  simp [rearm]
@[simp] theorem rearm_rxSlot (i : Nat) (s : State) : (rearm i s).rxSlot = s.rxSlot := by
  simp [rearm]
@[simp] theorem rearm_txPending (i : Nat) (s : State) : (rearm i s).txPending = s.txPending := by
  simp [rearm]
@[simp] theorem rearm_ctrResourceErrors (i : Nat) (s : State) : (rearm i s).ctrResourceErrors = s.ctrResourceErrors := by
  simp [rearm]
@[simp] theorem rearm_ctrFrameTooLong (i : Nat) (s : State) : (rearm i s).ctrFrameTooLong = s.ctrFrameTooLong := by
  simp [rearm]
@[simp] theorem rearm_ctrTimeouts (i : Nat) (s : State) : (rearm i s).ctrTimeouts = s.ctrTimeouts := by
  simp [rearm]
@[simp] theorem rearm_ctrResets (i : Nat) (s : State) : (rearm i s).ctrResets = s.ctrResets := by
  simp [rearm]
@[simp] theorem rearm_ctrTxDrops (i : Nat) (s : State) : (rearm i s).ctrTxDrops = s.ctrTxDrops := by
  simp [rearm]
@[simp] theorem rearm_statsPending (i : Nat) (s : State) : (rearm i s).statsPending = s.statsPending := by
  simp [rearm]
@[simp] theorem rearm_txMem (i : Nat) (s : State) : (rearm i s).txMem = s.txMem := by
  simp [rearm]
@[simp] theorem rearm_rxMem (i : Nat) (s : State) : (rearm i s).rxMem = s.rxMem := by
  simp [rearm]
@[simp] theorem rearm_stMem (i : Nat) (s : State) : (rearm i s).stMem = s.stMem := by
  simp [rearm]
@[simp] theorem rearm_regs (i : Nat) (s : State) : (rearm i s).regs = s.regs := by
  simp [rearm]
@[simp] theorem rearm_timerOn (i : Nat) (s : State) : (rearm i s).timerOn = s.timerOn := by
  simp [rearm]
@[simp] theorem rearm_everEnabled (i : Nat) (s : State) : (rearm i s).everEnabled = s.everEnabled := by
  simp [rearm]
@[simp] theorem rearm_txUnsubmitted (i : Nat) (s : State) : (rearm i s).txUnsubmitted = s.txUnsubmitted := by
  simp [rearm]
@[simp] theorem rearm_heldPackets (i : Nat) (s : State) : (rearm i s).heldPackets = s.heldPackets := by
  simp [rearm]
@[simp] theorem rearm_heldBuffers (i : Nat) (s : State) : (rearm i s).heldBuffers = s.heldBuffers := by
  simp [rearm]
@[simp] theorem rearm_hostBufs (i : Nat) (s : State) : (rearm i s).hostBufs = s.hostBufs := by
  simp [rearm]
@[simp] theorem rearm_nicTxBusy (i : Nat) (s : State) : (rearm i s).nicTxBusy = s.nicTxBusy := by
  simp [rearm]
@[simp] theorem rearm_irqPending (i : Nat) (s : State) : (rearm i s).irqPending = s.irqPending := by
  simp [rearm]
@[simp] theorem rearm_nicSeen (i : Nat) (s : State) : (rearm i s).nicSeen = s.nicSeen := by
  simp [rearm]
@[simp] theorem rearm_input (i : Nat) (s : State) : (rearm i s).input = s.input := by
  simp [rearm]
@[simp] theorem rearm_acquisitions (i : Nat) (s : State) : (rearm i s).acquisitions = s.acquisitions := by
  simp [rearm]
@[simp] theorem rearm_work (i : Nat) (s : State) : (rearm i s).work = s.work := by
  simp [rearm]
@[simp] theorem rearm_caller (i : Nat) (s : State) : (rearm i s).caller = s.caller := by
  simp [rearm]
@[simp] theorem rearm_result (i : Nat) (s : State) : (rearm i s).result = s.result := by
  simp [rearm]
@[simp] theorem rearm_freeCount (i : Nat) (s : State) : (rearm i s).freeCount = s.freeCount := by
  simp [rearm]

/-! ### `clearRxLoop` -/

@[simp] theorem clearRxLoop_cfg (k i : Nat) (s : State) : (clearRxLoop k i s).cfg = s.cfg := by
  induction k generalizing i s with
  | zero => rfl
  | succ k ih => simp [clearRxLoop, ih]
@[simp] theorem clearRxLoop_txNext (k i : Nat) (s : State) : (clearRxLoop k i s).txNext = s.txNext := by
  induction k generalizing i s with
  | zero => rfl
  | succ k ih => simp [clearRxLoop, ih]
@[simp] theorem clearRxLoop_txDirty (k i : Nat) (s : State) : (clearRxLoop k i s).txDirty = s.txDirty := by
  induction k generalizing i s with
  | zero => rfl
  | succ k ih => simp [clearRxLoop, ih]
@[simp] theorem clearRxLoop_txFree (k i : Nat) (s : State) : (clearRxLoop k i s).txFree = s.txFree := by
  induction k generalizing i s with
  | zero => rfl
  | succ k ih => simp [clearRxLoop, ih]
@[simp] theorem clearRxLoop_rxIndex (k i : Nat) (s : State) : (clearRxLoop k i s).rxIndex = s.rxIndex := by
  induction k generalizing i s with
  | zero => rfl
  | succ k ih => simp [clearRxLoop, ih]
@[simp] theorem clearRxLoop_txStalled (k i : Nat) (s : State) : (clearRxLoop k i s).txStalled = s.txStalled := by
  induction k generalizing i s with
  | zero => rfl
  | succ k ih => simp [clearRxLoop, ih]
@[simp] theorem clearRxLoop_txqEnabled (k i : Nat) (s : State) : (clearRxLoop k i s).txqEnabled = s.txqEnabled := by
  induction k generalizing i s with
  | zero => rfl
  | succ k ih => simp [clearRxLoop, ih]
@[simp] theorem clearRxLoop_txDoneCount (k i : Nat) (s : State) : (clearRxLoop k i s).txDoneCount = s.txDoneCount := by
  induction k generalizing i s with
  | zero => rfl
  | succ k ih => simp [clearRxLoop, ih]
@[simp] theorem clearRxLoop_txDoneLast (k i : Nat) (s : State) : (clearRxLoop k i s).txDoneLast = s.txDoneLast := by
  induction k generalizing i s with
  | zero => rfl
  | succ k ih => simp [clearRxLoop, ih]
@[simp] theorem clearRxLoop_deadlockWarn (k i : Nat) (s : State) : (clearRxLoop k i s).deadlockWarn = s.deadlockWarn := by
  induction k generalizing i s with
  | zero => rfl
  | succ k ih => simp [clearRxLoop, ih]
@[simp] theorem clearRxLoop_enabled (k i : Nat) (s : State) : (clearRxLoop k i s).enabled = s.enabled := by
  induction k generalizing i s with
  | zero => rfl
  | succ k ih => simp [clearRxLoop, ih]
@[simp] theorem clearRxLoop_link (k i : Nat) (s : State) : (clearRxLoop k i s).link = s.link := by
  induction k generalizing i s with
  | zero => rfl
  | succ k ih => simp [clearRxLoop, ih]
@[simp] theorem clearRxLoop_txSlot (k i : Nat) (s : State) : (clearRxLoop k i s).txSlot = s.txSlot := by
  induction k generalizing i s with
  | zero => rfl
  | succ k ih => simp [clearRxLoop, ih]
@[simp] theorem clearRxLoop_rxSlot (k i : Nat) (s : State) : (clearRxLoop k i s).rxSlot = s.rxSlot := by
  induction k generalizing i s with
  | zero => rfl
  | succ k ih => simp [clearRxLoop, ih]
@[simp] theorem clearRxLoop_txPending (k i : Nat) (s : State) : (clearRxLoop k i s).txPending = s.txPending := by
  induction k generalizing i s with
  | zero => rfl
  | succ k ih => simp [clearRxLoop, ih]
@[simp] theorem clearRxLoop_ctrResourceErrors (k i : Nat) (s : State) : (clearRxLoop k i s).ctrResourceErrors = s.ctrResourceErrors := by
  induction k generalizing i s with
  | zero => rfl
  | succ k ih => simp [clearRxLoop, ih]
@[simp] theorem clearRxLoop_ctrFrameTooLong (k i : Nat) (s : State) : (clearRxLoop k i s).ctrFrameTooLong = s.ctrFrameTooLong := by
  induction k generalizing i s with
  | zero => rfl
  | succ k ih => simp [clearRxLoop, ih]
@[simp] theorem clearRxLoop_ctrTimeouts (k i : Nat) (s : State) : (clearRxLoop k i s).ctrTimeouts = s.ctrTimeouts := by
  induction k generalizing i s with
  | zero => rfl
  | succ k ih => simp [clearRxLoop, ih]
@[simp] theorem clearRxLoop_ctrResets (k i : Nat) (s : State) : (clearRxLoop k i s).ctrResets = s.ctrResets := by
  induction k generalizing i s with
  | zero => rfl
  | succ k ih => simp [clearRxLoop, ih]
@[simp] theorem clearRxLoop_ctrTxDrops (k i : Nat) (s : State) : (clearRxLoop k i s).ctrTxDrops = s.ctrTxDrops := by
  induction k generalizing i s with
  | zero => rfl
  | succ k ih => simp [clearRxLoop, ih]
@[simp] theorem clearRxLoop_statsPending (k i : Nat) (s : State) : (clearRxLoop k i s).statsPending = s.statsPending := by
  induction k generalizing i s with
  | zero => rfl
  | succ k ih => simp [clearRxLoop, ih]
@[simp] theorem clearRxLoop_txMem (k i : Nat) (s : State) : (clearRxLoop k i s).txMem = s.txMem := by
  induction k generalizing i s with
  | zero => rfl
  | succ k ih => simp [clearRxLoop, ih]
@[simp] theorem clearRxLoop_rxMem (k i : Nat) (s : State) : (clearRxLoop k i s).rxMem = s.rxMem := by
  induction k generalizing i s with
  | zero => rfl
  | succ k ih => simp [clearRxLoop, ih]
@[simp] theorem clearRxLoop_stMem (k i : Nat) (s : State) : (clearRxLoop k i s).stMem = s.stMem := by
  induction k generalizing i s with
  | zero => rfl
  | succ k ih => simp [clearRxLoop, ih]
@[simp] theorem clearRxLoop_regs (k i : Nat) (s : State) : (clearRxLoop k i s).regs = s.regs := by
  induction k generalizing i s with
  | zero => rfl
  | succ k ih => simp [clearRxLoop, ih]
@[simp] theorem clearRxLoop_timerOn (k i : Nat) (s : State) : (clearRxLoop k i s).timerOn = s.timerOn := by
  induction k generalizing i s with
  | zero => rfl
  | succ k ih => simp [clearRxLoop, ih]
@[simp] theorem clearRxLoop_everEnabled (k i : Nat) (s : State) : (clearRxLoop k i s).everEnabled = s.everEnabled := by
  induction k generalizing i s with
  | zero => rfl
  | succ k ih => simp [clearRxLoop, ih]
@[simp] theorem clearRxLoop_txUnsubmitted (k i : Nat) (s : State) : (clearRxLoop k i s).txUnsubmitted = s.txUnsubmitted := by
  induction k generalizing i s with
  | zero => rfl
  | succ k ih => simp [clearRxLoop, ih]
@[simp] theorem clearRxLoop_heldPackets (k i : Nat) (s : State) : (clearRxLoop k i s).heldPackets = s.heldPackets := by
  induction k generalizing i s with
  | zero => rfl
  | succ k ih => simp [clearRxLoop, ih]
@[simp] theorem clearRxLoop_heldBuffers (k i : Nat) (s : State) : (clearRxLoop k i s).heldBuffers = s.heldBuffers := by
  induction k generalizing i s with
  | zero => rfl
  | succ k ih => simp [clearRxLoop, ih]
@[simp] theorem clearRxLoop_hostBufs (k i : Nat) (s : State) : (clearRxLoop k i s).hostBufs = s.hostBufs := by
  induction k generalizing i s with
  | zero => rfl
  | succ k ih => simp [clearRxLoop, ih]
@[simp] theorem clearRxLoop_nicTxBusy (k i : Nat) (s : State) : (clearRxLoop k i s).nicTxBusy = s.nicTxBusy := by
  induction k generalizing i s with
  | zero => rfl
  | succ k ih => simp [clearRxLoop, ih]
@[simp] theorem clearRxLoop_irqPending (k i : Nat) (s : State) : (clearRxLoop k i s).irqPending = s.irqPending := by
  induction k generalizing i s with
  | zero => rfl
  | succ k ih => simp [clearRxLoop, ih]
@[simp] theorem clearRxLoop_nicSeen (k i : Nat) (s : State) : (clearRxLoop k i s).nicSeen = s.nicSeen := by
  induction k generalizing i s with
  | zero => rfl
  | succ k ih => simp [clearRxLoop, ih]
@[simp] theorem clearRxLoop_input (k i : Nat) (s : State) : (clearRxLoop k i s).input = s.input := by
  induction k generalizing i s with
  | zero => rfl
  | succ k ih => simp [clearRxLoop, ih]
@[simp] theorem clearRxLoop_acquisitions (k i : Nat) (s : State) : (clearRxLoop k i s).acquisitions = s.acquisitions := by
  induction k generalizing i s with
  | zero => rfl
  | succ k ih => simp [clearRxLoop, ih]
@[simp] theorem clearRxLoop_work (k i : Nat) (s : State) : (clearRxLoop k i s).work = s.work := by
  induction k generalizing i s with
  | zero => rfl
  | succ k ih => simp [clearRxLoop, ih]
@[simp] theorem clearRxLoop_caller (k i : Nat) (s : State) : (clearRxLoop k i s).caller = s.caller := by
  induction k generalizing i s with
  | zero => rfl
  | succ k ih => simp [clearRxLoop, ih]
@[simp] theorem clearRxLoop_result (k i : Nat) (s : State) : (clearRxLoop k i s).result = s.result := by
  induction k generalizing i s with
  | zero => rfl
  | succ k ih => simp [clearRxLoop, ih]
@[simp] theorem clearRxLoop_freeCount (k i : Nat) (s : State) : (clearRxLoop k i s).freeCount = s.freeCount := by
  induction k generalizing i s with
  | zero => rfl
  | succ k ih => simp [clearRxLoop, ih]

/-! ### `clearRx` -/

@[simp] theorem clearRx_cfg (s : State) : (clearRx s).cfg = s.cfg := by
  simp [clearRx]
@[simp] theorem clearRx_txNext (s : State) : (clearRx s).txNext = s.txNext := by
  simp [clearRx]
@[simp] theorem clearRx_txDirty (s : State) : (clearRx s).txDirty = s.txDirty := by
  simp [clearRx]
@[simp] theorem clearRx_txFree (s : State) : (clearRx s).txFree = s.txFree := by
  simp [clearRx]
@[simp] theorem clearRx_txStalled (s : State) : (clearRx s).txStalled = s.txStalled := by
  simp [clearRx]
@[simp] theorem clearRx_txqEnabled (s : State) : (clearRx s).txqEnabled = s.txqEnabled := by
  simp [clearRx]
@[simp] theorem clearRx_txDoneCount (s : State) : (clearRx s).txDoneCount = s.txDoneCount := by
  simp [clearRx]
@[simp] theorem clearRx_txDoneLast (s : State) : (clearRx s).txDoneLast = s.txDoneLast := by
  simp [clearRx]
@[simp] theorem clearRx_deadlockWarn (s : State) : (clearRx s).deadlockWarn = s.deadlockWarn := by
  simp [clearRx]
@[simp] theorem clearRx_enabled (s : State) : (clearRx s).enabled = s.enabled := by
  simp [clearRx]
@[simp] theorem clearRx_link (s : State) : (clearRx s).link = s.link := by
  simp [clearRx]
@[simp] theorem clearRx_txSlot (s : State) : (clearRx s).txSlot = s.txSlot := by
  simp [clearRx]
@[simp] theorem clearRx_rxSlot (s : State) : (clearRx s).rxSlot = s.rxSlot := by
  simp [clearRx]
@[simp] theorem clearRx_txPending (s : State) : (clearRx s).txPending = s.txPending := by
  simp [clearRx]
@[simp] theorem clearRx_ctrResourceErrors (s : State) : (clearRx s).ctrResourceErrors = s.ctrResourceErrors := by
  simp [clearRx]
@[simp] theorem clearRx_ctrFrameTooLong (s : State) : (clearRx s).ctrFrameTooLong = s.ctrFrameTooLong := by
  simp [clearRx]
@[simp] theorem clearRx_ctrTimeouts (s : State) : (clearRx s).ctrTimeouts = s.ctrTimeouts := by
  simp [clearRx]
@[simp] theorem clearRx_ctrResets (s : State) : (clearRx s).ctrResets = s.ctrResets := by
  simp [clearRx]
@[simp] theorem clearRx_ctrTxDrops (s : State) : (clearRx s).ctrTxDrops = s.ctrTxDrops := by
  simp [clearRx]
@[simp] theorem clearRx_statsPending (s : State) : (clearRx s).statsPending = s.statsPending := by
  simp [clearRx]
@[simp] theorem clearRx_txMem (s : State) : (clearRx s).txMem = s.txMem := by
  simp [clearRx]
@[simp] theorem clearRx_rxMem (s : State) : (clearRx s).rxMem = s.rxMem := by
  simp [clearRx]
@[simp] theorem clearRx_stMem (s : State) : (clearRx s).stMem = s.stMem := by
  simp [clearRx]
@[simp] theorem clearRx_regs (s : State) : (clearRx s).regs = s.regs := by
  simp [clearRx]
@[simp] theorem clearRx_timerOn (s : State) : (clearRx s).timerOn = s.timerOn := by
  simp [clearRx]
@[simp] theorem clearRx_everEnabled (s : State) : (clearRx s).everEnabled = s.everEnabled := by
  simp [clearRx]
@[simp] theorem clearRx_txUnsubmitted (s : State) : (clearRx s).txUnsubmitted = s.txUnsubmitted := by
  simp [clearRx]
@[simp] theorem clearRx_heldPackets (s : State) : (clearRx s).heldPackets = s.heldPackets := by
  simp [clearRx]
@[simp] theorem clearRx_heldBuffers (s : State) : (clearRx s).heldBuffers = s.heldBuffers := by
  simp [clearRx]
@[simp] theorem clearRx_hostBufs (s : State) : (clearRx s).hostBufs = s.hostBufs := by
  simp [clearRx]
@[simp] theorem clearRx_nicTxBusy (s : State) : (clearRx s).nicTxBusy = s.nicTxBusy := by
  simp [clearRx]
@[simp] theorem clearRx_irqPending (s : State) : (clearRx s).irqPending = s.irqPending := by
  simp [clearRx]
@[simp] theorem clearRx_nicSeen (s : State) : (clearRx s).nicSeen = s.nicSeen := by
  simp [clearRx]
@[simp] theorem clearRx_input (s : State) : (clearRx s).input = s.input := by
  simp [clearRx]
@[simp] theorem clearRx_acquisitions (s : State) : (clearRx s).acquisitions = s.acquisitions := by
  simp [clearRx]
@[simp] theorem clearRx_work (s : State) : (clearRx s).work = s.work := by
  simp [clearRx]
@[simp] theorem clearRx_caller (s : State) : (clearRx s).caller = s.caller := by
  simp [clearRx]
@[simp] theorem clearRx_result (s : State) : (clearRx s).result = s.result := by
  simp [clearRx]
@[simp] theorem clearRx_freeCount (s : State) : (clearRx s).freeCount = s.freeCount := by
  simp [clearRx]

/-! ### `passStats` -/

@[simp] theorem passStats_cfg (s : State) : (passStats s).cfg = s.cfg := by
  unfold passStats; split <;> rfl
@[simp] theorem passStats_mem (s : State) : (passStats s).mem = s.mem := by
  unfold passStats; split <;> rfl
@[simp] theorem passStats_txNext (s : State) : (passStats s).txNext = s.txNext := by
  unfold passStats; split <;> rfl
@[simp] theorem passStats_txDirty (s : State) : (passStats s).txDirty = s.txDirty := by
  unfold passStats; split <;> rfl
@[simp] theorem passStats_txFree (s : State) : (passStats s).txFree = s.txFree := by
  unfold passStats; split <;> rfl
@[simp] theorem passStats_rxIndex (s : State) : (passStats s).rxIndex = s.rxIndex := by
  unfold passStats; split <;> rfl
@[simp] theorem passStats_txStalled (s : State) : (passStats s).txStalled = s.txStalled := by
  unfold passStats; split <;> rfl
@[simp] theorem passStats_txqEnabled (s : State) : (passStats s).txqEnabled = s.txqEnabled := by
  unfold passStats; split <;> rfl
@[simp] theorem passStats_txDoneCount (s : State) : (passStats s).txDoneCount = s.txDoneCount := by
  unfold passStats; split <;> rfl
@[simp] theorem passStats_txDoneLast (s : State) : (passStats s).txDoneLast = s.txDoneLast := by
  unfold passStats; split <;> rfl
@[simp] theorem passStats_deadlockWarn (s : State) : (passStats s).deadlockWarn = s.deadlockWarn := by
  unfold passStats; split <;> rfl
@[simp] theorem passStats_enabled (s : State) : (passStats s).enabled = s.enabled := by
  unfold passStats; split <;> rfl
@[simp] theorem passStats_link (s : State) : (passStats s).link = s.link := by
  unfold passStats; split <;> rfl
@[simp] theorem passStats_txSlot (s : State) : (passStats s).txSlot = s.txSlot := by
  unfold passStats; split <;> rfl
@[simp] theorem passStats_rxSlot (s : State) : (passStats s).rxSlot = s.rxSlot := by
  unfold passStats; split <;> rfl
@[simp] theorem passStats_txPending (s : State) : (passStats s).txPending = s.txPending := by
  unfold passStats; split <;> rfl
@[simp] theorem passStats_ctrResourceErrors (s : State) : (passStats s).ctrResourceErrors = s.ctrResourceErrors := by
  unfold passStats; split <;> rfl
@[simp] theorem passStats_ctrFrameTooLong (s : State) : (passStats s).ctrFrameTooLong = s.ctrFrameTooLong := by
  unfold passStats; split <;> rfl
@[simp] theorem passStats_ctrTimeouts (s : State) : (passStats s).ctrTimeouts = s.ctrTimeouts := by
  unfold passStats; split <;> rfl
@[simp] theorem passStats_ctrResets (s : State) : (passStats s).ctrResets = s.ctrResets := by
  unfold passStats; split <;> rfl
@[simp] theorem passStats_ctrTxDrops (s : State) : (passStats s).ctrTxDrops = s.ctrTxDrops := by
  unfold passStats; split <;> rfl
@[simp] theorem passStats_statsPending (s : State) : (passStats s).statsPending = s.statsPending := by
  unfold passStats; split <;> rfl
@[simp] theorem passStats_txMem (s : State) : (passStats s).txMem = s.txMem := by
  unfold passStats; split <;> rfl
@[simp] theorem passStats_rxMem (s : State) : (passStats s).rxMem = s.rxMem := by
  unfold passStats; split <;> rfl
@[simp] theorem passStats_stMem (s : State) : (passStats s).stMem = s.stMem := by
  unfold passStats; split <;> rfl
@[simp] theorem passStats_timerOn (s : State) : (passStats s).timerOn = s.timerOn := by
  unfold passStats; split <;> rfl
@[simp] theorem passStats_everEnabled (s : State) : (passStats s).everEnabled = s.everEnabled := by
  unfold passStats; split <;> rfl
@[simp] theorem passStats_txUnsubmitted (s : State) : (passStats s).txUnsubmitted = s.txUnsubmitted := by
  unfold passStats; split <;> rfl
@[simp] theorem passStats_heldPackets (s : State) : (passStats s).heldPackets = s.heldPackets := by
  unfold passStats; split <;> rfl
@[simp] theorem passStats_heldBuffers (s : State) : (passStats s).heldBuffers = s.heldBuffers := by
  unfold passStats; split <;> rfl
@[simp] theorem passStats_hostBufs (s : State) : (passStats s).hostBufs = s.hostBufs := by
  unfold passStats; split <;> rfl
@[simp] theorem passStats_nicTxBusy (s : State) : (passStats s).nicTxBusy = s.nicTxBusy := by
  unfold passStats; split <;> rfl
@[simp] theorem passStats_irqPending (s : State) : (passStats s).irqPending = s.irqPending := by
  unfold passStats; split <;> rfl
@[simp] theorem passStats_nicSeen (s : State) : (passStats s).nicSeen = s.nicSeen := by
  unfold passStats; split <;> rfl
@[simp] theorem passStats_input (s : State) : (passStats s).input = s.input := by
  unfold passStats; split <;> rfl
@[simp] theorem passStats_acquisitions (s : State) : (passStats s).acquisitions = s.acquisitions := by
  unfold passStats; split <;> rfl
@[simp] theorem passStats_work (s : State) : (passStats s).work = s.work := by
  unfold passStats; split <;> rfl
@[simp] theorem passStats_caller (s : State) : (passStats s).caller = s.caller := by
  unfold passStats; split <;> rfl
@[simp] theorem passStats_result (s : State) : (passStats s).result = s.result := by
  unfold passStats; split <;> rfl
@[simp] theorem passStats_freeCount (s : State) : (passStats s).freeCount = s.freeCount := by
  unfold passStats; split <;> rfl

/-! ### `reinitRegs` -/

@[simp] theorem reinitRegs_cfg (s : State) : (reinitRegs s).cfg = s.cfg := by
  simp [reinitRegs]
@[simp] theorem reinitRegs_mem (s : State) : (reinitRegs s).mem = s.mem := by
  simp [reinitRegs]
@[simp] theorem reinitRegs_txNext (s : State) : (reinitRegs s).txNext = s.txNext := by
  simp [reinitRegs]
@[simp] theorem reinitRegs_txDirty (s : State) : (reinitRegs s).txDirty = s.txDirty := by
  simp [reinitRegs]
@[simp] theorem reinitRegs_txFree (s : State) : (reinitRegs s).txFree = s.txFree := by
  simp [reinitRegs]
@[simp] theorem reinitRegs_rxIndex (s : State) : (reinitRegs s).rxIndex = s.rxIndex := by
  simp [reinitRegs]
@[simp] theorem reinitRegs_txStalled (s : State) : (reinitRegs s).txStalled = s.txStalled := by
  simp [reinitRegs]
@[simp] theorem reinitRegs_txqEnabled (s : State) : (reinitRegs s).txqEnabled = s.txqEnabled := by
  simp [reinitRegs]
@[simp] theorem reinitRegs_txDoneCount (s : State) : (reinitRegs s).txDoneCount = s.txDoneCount := by
  simp [reinitRegs]
@[simp] theorem reinitRegs_txDoneLast (s : State) : (reinitRegs s).txDoneLast = s.txDoneLast := by
  simp [reinitRegs]
@[simp] theorem reinitRegs_deadlockWarn (s : State) : (reinitRegs s).deadlockWarn = s.deadlockWarn := by
  simp [reinitRegs]
@[simp] theorem reinitRegs_enabled (s : State) : (reinitRegs s).enabled = s.enabled := by
  simp [reinitRegs]
@[simp] theorem reinitRegs_link (s : State) : (reinitRegs s).link = s.link := by
  simp [reinitRegs]
@[simp] theorem reinitRegs_txSlot (s : State) : (reinitRegs s).txSlot = s.txSlot := by
  simp [reinitRegs]
@[simp] theorem reinitRegs_rxSlot (s : State) : (reinitRegs s).rxSlot = s.rxSlot := by
  simp [reinitRegs]
@[simp] theorem reinitRegs_txPending (s : State) : (reinitRegs s).txPending = s.txPending := by
  simp [reinitRegs]
@[simp] theorem reinitRegs_ctrResourceErrors (s : State) : (reinitRegs s).ctrResourceErrors = s.ctrResourceErrors := by
  simp [reinitRegs]
@[simp] theorem reinitRegs_ctrFrameTooLong (s : State) : (reinitRegs s).ctrFrameTooLong = s.ctrFrameTooLong := by
  simp [reinitRegs]
@[simp] theorem reinitRegs_ctrTimeouts (s : State) : (reinitRegs s).ctrTimeouts = s.ctrTimeouts := by
  simp [reinitRegs]
@[simp] theorem reinitRegs_ctrResets (s : State) : (reinitRegs s).ctrResets = s.ctrResets := by
  simp [reinitRegs]
@[simp] theorem reinitRegs_ctrTxDrops (s : State) : (reinitRegs s).ctrTxDrops = s.ctrTxDrops := by
  simp [reinitRegs]
@[simp] theorem reinitRegs_statsPending (s : State) : (reinitRegs s).statsPending = s.statsPending := by
  simp [reinitRegs]
@[simp] theorem reinitRegs_txMem (s : State) : (reinitRegs s).txMem = s.txMem := by
  simp [reinitRegs]
@[simp] theorem reinitRegs_rxMem (s : State) : (reinitRegs s).rxMem = s.rxMem := by
  simp [reinitRegs]
@[simp] theorem reinitRegs_stMem (s : State) : (reinitRegs s).stMem = s.stMem := by
  simp [reinitRegs]
@[simp] theorem reinitRegs_timerOn (s : State) : (reinitRegs s).timerOn = s.timerOn := by
  simp [reinitRegs]
@[simp] theorem reinitRegs_everEnabled (s : State) : (reinitRegs s).everEnabled = s.everEnabled := by
  simp [reinitRegs]
@[simp] theorem reinitRegs_txUnsubmitted (s : State) : (reinitRegs s).txUnsubmitted = s.txUnsubmitted := by
  simp [reinitRegs]
@[simp] theorem reinitRegs_heldPackets (s : State) : (reinitRegs s).heldPackets = s.heldPackets := by
  simp [reinitRegs]
@[simp] theorem reinitRegs_heldBuffers (s : State) : (reinitRegs s).heldBuffers = s.heldBuffers := by
  simp [reinitRegs]
@[simp] theorem reinitRegs_hostBufs (s : State) : (reinitRegs s).hostBufs = s.hostBufs := by
  simp [reinitRegs]
@[simp] theorem reinitRegs_nicTxBusy (s : State) : (reinitRegs s).nicTxBusy = s.nicTxBusy := by
  simp [reinitRegs]
@[simp] theorem reinitRegs_irqPending (s : State) : (reinitRegs s).irqPending = s.irqPending := by
  simp [reinitRegs]
@[simp] theorem reinitRegs_nicSeen (s : State) : (reinitRegs s).nicSeen = s.nicSeen := by
  simp [reinitRegs]
@[simp] theorem reinitRegs_input (s : State) : (reinitRegs s).input = s.input := by
  simp [reinitRegs]
@[simp] theorem reinitRegs_acquisitions (s : State) : (reinitRegs s).acquisitions = s.acquisitions := by
  simp [reinitRegs]
@[simp] theorem reinitRegs_work (s : State) : (reinitRegs s).work = s.work := by
  simp [reinitRegs]
@[simp] theorem reinitRegs_caller (s : State) : (reinitRegs s).caller = s.caller := by
  simp [reinitRegs]
@[simp] theorem reinitRegs_result (s : State) : (reinitRegs s).result = s.result := by
  simp [reinitRegs]
@[simp] theorem reinitRegs_freeCount (s : State) : (reinitRegs s).freeCount = s.freeCount := by
  simp [reinitRegs]

/-! ### `completePacket` -/

@[simp] theorem completePacket_cfg (h : Handle) (s : State) : (completePacket h s).cfg = s.cfg := by
  unfold completePacket; split <;> rfl
@[simp] theorem completePacket_mem (h : Handle) (s : State) : (completePacket h s).mem = s.mem := by
  unfold completePacket; split <;> rfl
@[simp] theorem completePacket_txNext (h : Handle) (s : State) : (completePacket h s).txNext = s.txNext := by
  unfold completePacket; split <;> rfl
@[simp] theorem completePacket_txDirty (h : Handle) (s : State) : (completePacket h s).txDirty = s.txDirty := by
  unfold completePacket; split <;> rfl
@[simp] theorem completePacket_txFree (h : Handle) (s : State) : (completePacket h s).txFree = s.txFree := by
  unfold completePacket; split <;> rfl
@[simp] theorem completePacket_rxIndex (h : Handle) (s : State) : (completePacket h s).rxIndex = s.rxIndex := by
  unfold completePacket; split <;> rfl
@[simp] theorem completePacket_txStalled (h : Handle) (s : State) : (completePacket h s).txStalled = s.txStalled := by
  unfold completePacket; split <;> rfl
@[simp] theorem completePacket_txqEnabled (h : Handle) (s : State) : (completePacket h s).txqEnabled = s.txqEnabled := by
  unfold completePacket; split <;> rfl
@[simp] theorem completePacket_txDoneCount (h : Handle) (s : State) : (completePacket h s).txDoneCount = s.txDoneCount := by
  unfold completePacket; split <;> rfl
@[simp] theorem completePacket_txDoneLast (h : Handle) (s : State) : (completePacket h s).txDoneLast = s.txDoneLast := by
  unfold completePacket; split <;> rfl
@[simp] theorem completePacket_deadlockWarn (h : Handle) (s : State) : (completePacket h s).deadlockWarn = s.deadlockWarn := by
  unfold completePacket; split <;> rfl
@[simp] theorem completePacket_enabled (h : Handle) (s : State) : (completePacket h s).enabled = s.enabled := by
  unfold completePacket; split <;> rfl
@[simp] theorem completePacket_link (h : Handle) (s : State) : (completePacket h s).link = s.link := by
  unfold completePacket; split <;> rfl
@[simp] theorem completePacket_txSlot (h : Handle) (s : State) : (completePacket h s).txSlot = s.txSlot := by
  unfold completePacket; split <;> rfl
@[simp] theorem completePacket_rxSlot (h : Handle) (s : State) : (completePacket h s).rxSlot = s.rxSlot := by
  unfold completePacket; split <;> rfl
@[simp] theorem completePacket_txPending (h : Handle) (s : State) : (completePacket h s).txPending = s.txPending := by
  unfold completePacket; split <;> rfl
@[simp] theorem completePacket_ctrResourceErrors (h : Handle) (s : State) : (completePacket h s).ctrResourceErrors = s.ctrResourceErrors := by
  unfold completePacket; split <;> rfl
@[simp] theorem completePacket_ctrFrameTooLong (h : Handle) (s : State) : (completePacket h s).ctrFrameTooLong = s.ctrFrameTooLong := by
  unfold completePacket; split <;> rfl
@[simp] theorem completePacket_ctrTimeouts (h : Handle) (s : State) : (completePacket h s).ctrTimeouts = s.ctrTimeouts := by
  unfold completePacket; split <;> rfl
@[simp] theorem completePacket_ctrResets (h : Handle) (s : State) : (completePacket h s).ctrResets = s.ctrResets := by
  unfold completePacket; split <;> rfl
@[simp] theorem completePacket_ctrTxDrops (h : Handle) (s : State) : (completePacket h s).ctrTxDrops = s.ctrTxDrops := by
  unfold completePacket; split <;> rfl
@[simp] theorem completePacket_statsPending (h : Handle) (s : State) : (completePacket h s).statsPending = s.statsPending := by
  unfold completePacket; split <;> rfl
@[simp] theorem completePacket_txMem (h : Handle) (s : State) : (completePacket h s).txMem = s.txMem := by
  unfold completePacket; split <;> rfl
@[simp] theorem completePacket_rxMem (h : Handle) (s : State) : (completePacket h s).rxMem = s.rxMem := by
  unfold completePacket; split <;> rfl
@[simp] theorem completePacket_stMem (h : Handle) (s : State) : (completePacket h s).stMem = s.stMem := by
  unfold completePacket; split <;> rfl
@[simp] theorem completePacket_regs (h : Handle) (s : State) : (completePacket h s).regs = s.regs := by
  unfold completePacket; split <;> rfl
@[simp] theorem completePacket_timerOn (h : Handle) (s : State) : (completePacket h s).timerOn = s.timerOn := by
  unfold completePacket; split <;> rfl
@[simp] theorem completePacket_everEnabled (h : Handle) (s : State) : (completePacket h s).everEnabled = s.everEnabled := by
  unfold completePacket; split <;> rfl
@[simp] theorem completePacket_txUnsubmitted (h : Handle) (s : State) : (completePacket h s).txUnsubmitted = s.txUnsubmitted := by
  unfold completePacket; split <;> rfl
@[simp] theorem completePacket_heldPackets (h : Handle) (s : State) : (completePacket h s).heldPackets = s.heldPackets := by
  unfold completePacket; split <;> rfl
@[simp] theorem completePacket_heldBuffers (h : Handle) (s : State) : (completePacket h s).heldBuffers = s.heldBuffers := by
  unfold completePacket; split <;> rfl
@[simp] theorem completePacket_hostBufs (h : Handle) (s : State) : (completePacket h s).hostBufs = s.hostBufs := by
  unfold completePacket; split <;> rfl
@[simp] theorem completePacket_nicTxBusy (h : Handle) (s : State) : (completePacket h s).nicTxBusy = s.nicTxBusy := by
  unfold completePacket; split <;> rfl
@[simp] theorem completePacket_irqPending (h : Handle) (s : State) : (completePacket h s).irqPending = s.irqPending := by
  unfold completePacket; split <;> rfl
@[simp] theorem completePacket_nicSeen (h : Handle) (s : State) : (completePacket h s).nicSeen = s.nicSeen := by
  unfold completePacket; split <;> rfl
@[simp] theorem completePacket_input (h : Handle) (s : State) : (completePacket h s).input = s.input := by
  unfold completePacket; split <;> rfl
@[simp] theorem completePacket_acquisitions (h : Handle) (s : State) : (completePacket h s).acquisitions = s.acquisitions := by
  unfold completePacket; split <;> rfl
@[simp] theorem completePacket_work (h : Handle) (s : State) : (completePacket h s).work = s.work := by
  unfold completePacket; split <;> rfl
@[simp] theorem completePacket_caller (h : Handle) (s : State) : (completePacket h s).caller = s.caller := by
  unfold completePacket; split <;> rfl
@[simp] theorem completePacket_result (h : Handle) (s : State) : (completePacket h s).result = s.result := by
  unfold completePacket; split <;> rfl
@[simp] theorem completePacket_freeCount (h : Handle) (s : State) : (completePacket h s).freeCount = s.freeCount := by
  unfold completePacket; split <;> rfl

/-! ### `writePacket` -/

@[simp] theorem writePacket_cfg (first n : Nat) (cmd : Cmd) (vlan : Option Half) (j : Nat) (segs : List Segment) (s : State) : (writePacket first n cmd vlan j segs s).cfg = s.cfg := by
  induction segs generalizing j s with
  | nil => rfl
  | cons seg rest ih => simp [writePacket, ih]
@[simp] theorem writePacket_txNext (first n : Nat) (cmd : Cmd) (vlan : Option Half) (j : Nat) (segs : List Segment) (s : State) : (writePacket first n cmd vlan j segs s).txNext = s.txNext := by
  induction segs generalizing j s with
  | nil => rfl
  | cons seg rest ih => simp [writePacket, ih]
@[simp] theorem writePacket_txDirty (first n : Nat) (cmd : Cmd) (vlan : Option Half) (j : Nat) (segs : List Segment) (s : State) : (writePacket first n cmd vlan j segs s).txDirty = s.txDirty := by
  induction segs generalizing j s with
  | nil => rfl
  | cons seg rest ih => simp [writePacket, ih]
@[simp] theorem writePacket_txFree (first n : Nat) (cmd : Cmd) (vlan : Option Half) (j : Nat) (segs : List Segment) (s : State) : (writePacket first n cmd vlan j segs s).txFree = s.txFree := by
  induction segs generalizing j s with
  | nil => rfl
  | cons seg rest ih => simp [writePacket, ih]
@[simp] theorem writePacket_rxIndex (first n : Nat) (cmd : Cmd) (vlan : Option Half) (j : Nat) (segs : List Segment) (s : State) : (writePacket first n cmd vlan j segs s).rxIndex = s.rxIndex := by
  induction segs generalizing j s with
  | nil => rfl
  | cons seg rest ih => simp [writePacket, ih]
@[simp] theorem writePacket_txStalled (first n : Nat) (cmd : Cmd) (vlan : Option Half) (j : Nat) (segs : List Segment) (s : State) : (writePacket first n cmd vlan j segs s).txStalled = s.txStalled := by
  induction segs generalizing j s with
  | nil => rfl
  | cons seg rest ih => simp [writePacket, ih]
@[simp] theorem writePacket_txqEnabled (first n : Nat) (cmd : Cmd) (vlan : Option Half) (j : Nat) (segs : List Segment) (s : State) : (writePacket first n cmd vlan j segs s).txqEnabled = s.txqEnabled := by
  induction segs generalizing j s with
  | nil => rfl
  | cons seg rest ih => simp [writePacket, ih]
@[simp] theorem writePacket_txDoneCount (first n : Nat) (cmd : Cmd) (vlan : Option Half) (j : Nat) (segs : List Segment) (s : State) : (writePacket first n cmd vlan j segs s).txDoneCount = s.txDoneCount := by
  induction segs generalizing j s with
  | nil => rfl
  | cons seg rest ih => simp [writePacket, ih]
@[simp] theorem writePacket_txDoneLast (first n : Nat) (cmd : Cmd) (vlan : Option Half) (j : Nat) (segs : List Segment) (s : State) : (writePacket first n cmd vlan j segs s).txDoneLast = s.txDoneLast := by
  induction segs generalizing j s with
  | nil => rfl
  | cons seg rest ih => simp [writePacket, ih]
@[simp] theorem writePacket_deadlockWarn (first n : Nat) (cmd : Cmd) (vlan : Option Half) (j : Nat) (segs : List Segment) (s : State) : (writePacket first n cmd vlan j segs s).deadlockWarn = s.deadlockWarn := by
  induction segs generalizing j s with
  | nil => rfl
  | cons seg rest ih => simp [writePacket, ih]
@[simp] theorem writePacket_enabled (first n : Nat) (cmd : Cmd) (vlan : Option Half) (j : Nat) (segs : List Segment) (s : State) : (writePacket first n cmd vlan j segs s).enabled = s.enabled := by
  induction segs generalizing j s with
  | nil => rfl
  | cons seg rest ih => simp [writePacket, ih]
@[simp] theorem writePacket_link (first n : Nat) (cmd : Cmd) (vlan : Option Half) (j : Nat) (segs : List Segment) (s : State) : (writePacket first n cmd vlan j segs s).link = s.link := by
  induction segs generalizing j s with
  | nil => rfl
  | cons seg rest ih => simp [writePacket, ih]
@[simp] theorem writePacket_txSlot (first n : Nat) (cmd : Cmd) (vlan : Option Half) (j : Nat) (segs : List Segment) (s : State) : (writePacket first n cmd vlan j segs s).txSlot = s.txSlot := by
  induction segs generalizing j s with
  | nil => rfl
  | cons seg rest ih => simp [writePacket, ih]
@[simp] theorem writePacket_rxSlot (first n : Nat) (cmd : Cmd) (vlan : Option Half) (j : Nat) (segs : List Segment) (s : State) : (writePacket first n cmd vlan j segs s).rxSlot = s.rxSlot := by
  induction segs generalizing j s with
  | nil => rfl
  | cons seg rest ih => simp [writePacket, ih]
@[simp] theorem writePacket_txPending (first n : Nat) (cmd : Cmd) (vlan : Option Half) (j : Nat) (segs : List Segment) (s : State) : (writePacket first n cmd vlan j segs s).txPending = s.txPending := by
  induction segs generalizing j s with
  | nil => rfl
  | cons seg rest ih => simp [writePacket, ih]
@[simp] theorem writePacket_ctrResourceErrors (first n : Nat) (cmd : Cmd) (vlan : Option Half) (j : Nat) (segs : List Segment) (s : State) : (writePacket first n cmd vlan j segs s).ctrResourceErrors = s.ctrResourceErrors := by
  induction segs generalizing j s with
  | nil => rfl
  | cons seg rest ih => simp [writePacket, ih]
@[simp] theorem writePacket_ctrFrameTooLong (first n : Nat) (cmd : Cmd) (vlan : Option Half) (j : Nat) (segs : List Segment) (s : State) : (writePacket first n cmd vlan j segs s).ctrFrameTooLong = s.ctrFrameTooLong := by
  induction segs generalizing j s with
  | nil => rfl
  | cons seg rest ih => simp [writePacket, ih]
@[simp] theorem writePacket_ctrTimeouts (first n : Nat) (cmd : Cmd) (vlan : Option Half) (j : Nat) (segs : List Segment) (s : State) : (writePacket first n cmd vlan j segs s).ctrTimeouts = s.ctrTimeouts := by
  induction segs generalizing j s with
  | nil => rfl
  | cons seg rest ih => simp [writePacket, ih]
@[simp] theorem writePacket_ctrResets (first n : Nat) (cmd : Cmd) (vlan : Option Half) (j : Nat) (segs : List Segment) (s : State) : (writePacket first n cmd vlan j segs s).ctrResets = s.ctrResets := by
  induction segs generalizing j s with
  | nil => rfl
  | cons seg rest ih => simp [writePacket, ih]
@[simp] theorem writePacket_ctrTxDrops (first n : Nat) (cmd : Cmd) (vlan : Option Half) (j : Nat) (segs : List Segment) (s : State) : (writePacket first n cmd vlan j segs s).ctrTxDrops = s.ctrTxDrops := by
  induction segs generalizing j s with
  | nil => rfl
  | cons seg rest ih => simp [writePacket, ih]
@[simp] theorem writePacket_statsPending (first n : Nat) (cmd : Cmd) (vlan : Option Half) (j : Nat) (segs : List Segment) (s : State) : (writePacket first n cmd vlan j segs s).statsPending = s.statsPending := by
  induction segs generalizing j s with
  | nil => rfl
  | cons seg rest ih => simp [writePacket, ih]
@[simp] theorem writePacket_txMem (first n : Nat) (cmd : Cmd) (vlan : Option Half) (j : Nat) (segs : List Segment) (s : State) : (writePacket first n cmd vlan j segs s).txMem = s.txMem := by
  induction segs generalizing j s with
  | nil => rfl
  | cons seg rest ih => simp [writePacket, ih]
@[simp] theorem writePacket_rxMem (first n : Nat) (cmd : Cmd) (vlan : Option Half) (j : Nat) (segs : List Segment) (s : State) : (writePacket first n cmd vlan j segs s).rxMem = s.rxMem := by
  induction segs generalizing j s with
  | nil => rfl
  | cons seg rest ih => simp [writePacket, ih]
@[simp] theorem writePacket_stMem (first n : Nat) (cmd : Cmd) (vlan : Option Half) (j : Nat) (segs : List Segment) (s : State) : (writePacket first n cmd vlan j segs s).stMem = s.stMem := by
  induction segs generalizing j s with
  | nil => rfl
  | cons seg rest ih => simp [writePacket, ih]
@[simp] theorem writePacket_regs (first n : Nat) (cmd : Cmd) (vlan : Option Half) (j : Nat) (segs : List Segment) (s : State) : (writePacket first n cmd vlan j segs s).regs = s.regs := by
  induction segs generalizing j s with
  | nil => rfl
  | cons seg rest ih => simp [writePacket, ih]
@[simp] theorem writePacket_timerOn (first n : Nat) (cmd : Cmd) (vlan : Option Half) (j : Nat) (segs : List Segment) (s : State) : (writePacket first n cmd vlan j segs s).timerOn = s.timerOn := by
  induction segs generalizing j s with
  | nil => rfl
  | cons seg rest ih => simp [writePacket, ih]
@[simp] theorem writePacket_everEnabled (first n : Nat) (cmd : Cmd) (vlan : Option Half) (j : Nat) (segs : List Segment) (s : State) : (writePacket first n cmd vlan j segs s).everEnabled = s.everEnabled := by
  induction segs generalizing j s with
  | nil => rfl
  | cons seg rest ih => simp [writePacket, ih]
@[simp] theorem writePacket_txUnsubmitted (first n : Nat) (cmd : Cmd) (vlan : Option Half) (j : Nat) (segs : List Segment) (s : State) : (writePacket first n cmd vlan j segs s).txUnsubmitted = s.txUnsubmitted := by
  induction segs generalizing j s with
  | nil => rfl
  | cons seg rest ih => simp [writePacket, ih]
@[simp] theorem writePacket_heldPackets (first n : Nat) (cmd : Cmd) (vlan : Option Half) (j : Nat) (segs : List Segment) (s : State) : (writePacket first n cmd vlan j segs s).heldPackets = s.heldPackets := by
  induction segs generalizing j s with
  | nil => rfl
  | cons seg rest ih => simp [writePacket, ih]
@[simp] theorem writePacket_heldBuffers (first n : Nat) (cmd : Cmd) (vlan : Option Half) (j : Nat) (segs : List Segment) (s : State) : (writePacket first n cmd vlan j segs s).heldBuffers = s.heldBuffers := by
  induction segs generalizing j s with
  | nil => rfl
  | cons seg rest ih => simp [writePacket, ih]
@[simp] theorem writePacket_hostBufs (first n : Nat) (cmd : Cmd) (vlan : Option Half) (j : Nat) (segs : List Segment) (s : State) : (writePacket first n cmd vlan j segs s).hostBufs = s.hostBufs := by
  induction segs generalizing j s with
  | nil => rfl
  | cons seg rest ih => simp [writePacket, ih]
@[simp] theorem writePacket_nicTxBusy (first n : Nat) (cmd : Cmd) (vlan : Option Half) (j : Nat) (segs : List Segment) (s : State) : (writePacket first n cmd vlan j segs s).nicTxBusy = s.nicTxBusy := by
  induction segs generalizing j s with
  | nil => rfl
  | cons seg rest ih => simp [writePacket, ih]
@[simp] theorem writePacket_irqPending (first n : Nat) (cmd : Cmd) (vlan : Option Half) (j : Nat) (segs : List Segment) (s : State) : (writePacket first n cmd vlan j segs s).irqPending = s.irqPending := by
  induction segs generalizing j s with
  | nil => rfl
  | cons seg rest ih => simp [writePacket, ih]
@[simp] theorem writePacket_nicSeen (first n : Nat) (cmd : Cmd) (vlan : Option Half) (j : Nat) (segs : List Segment) (s : State) : (writePacket first n cmd vlan j segs s).nicSeen = s.nicSeen := by
  induction segs generalizing j s with
  | nil => rfl
  | cons seg rest ih => simp [writePacket, ih]
@[simp] theorem writePacket_input (first n : Nat) (cmd : Cmd) (vlan : Option Half) (j : Nat) (segs : List Segment) (s : State) : (writePacket first n cmd vlan j segs s).input = s.input := by
  induction segs generalizing j s with
  | nil => rfl
  | cons seg rest ih => simp [writePacket, ih]
@[simp] theorem writePacket_acquisitions (first n : Nat) (cmd : Cmd) (vlan : Option Half) (j : Nat) (segs : List Segment) (s : State) : (writePacket first n cmd vlan j segs s).acquisitions = s.acquisitions := by
  induction segs generalizing j s with
  | nil => rfl
  | cons seg rest ih => simp [writePacket, ih]
@[simp] theorem writePacket_work (first n : Nat) (cmd : Cmd) (vlan : Option Half) (j : Nat) (segs : List Segment) (s : State) : (writePacket first n cmd vlan j segs s).work = s.work := by
  induction segs generalizing j s with
  | nil => rfl
  | cons seg rest ih => simp [writePacket, ih]
@[simp] theorem writePacket_caller (first n : Nat) (cmd : Cmd) (vlan : Option Half) (j : Nat) (segs : List Segment) (s : State) : (writePacket first n cmd vlan j segs s).caller = s.caller := by
  induction segs generalizing j s with
  | nil => rfl
  | cons seg rest ih => simp [writePacket, ih]
@[simp] theorem writePacket_result (first n : Nat) (cmd : Cmd) (vlan : Option Half) (j : Nat) (segs : List Segment) (s : State) : (writePacket first n cmd vlan j segs s).result = s.result := by
  induction segs generalizing j s with
  | nil => rfl
  | cons seg rest ih => simp [writePacket, ih]
@[simp] theorem writePacket_freeCount (first n : Nat) (cmd : Cmd) (vlan : Option Half) (j : Nat) (segs : List Segment) (s : State) : (writePacket first n cmd vlan j segs s).freeCount = s.freeCount := by
  induction segs generalizing j s with
  | nil => rfl
  | cons seg rest ih => simp [writePacket, ih]

/-! ### `ownFirst` -/

@[simp] theorem ownFirst_cfg (first : Nat) (flags1 : Word) (len : Nat) (s : State) : (ownFirst first flags1 len s).cfg = s.cfg := by
  simp [ownFirst]
@[simp] theorem ownFirst_txNext (first : Nat) (flags1 : Word) (len : Nat) (s : State) : (ownFirst first flags1 len s).txNext = s.txNext := by
  simp [ownFirst]
@[simp] theorem ownFirst_txDirty (first : Nat) (flags1 : Word) (len : Nat) (s : State) : (ownFirst first flags1 len s).txDirty = s.txDirty := by
  simp [ownFirst]
@[simp] theorem ownFirst_txFree (first : Nat) (flags1 : Word) (len : Nat) (s : State) : (ownFirst first flags1 len s).txFree = s.txFree := by
  simp [ownFirst]
@[simp] theorem ownFirst_rxIndex (first : Nat) (flags1 : Word) (len : Nat) (s : State) : (ownFirst first flags1 len s).rxIndex = s.rxIndex := by
  simp [ownFirst]
@[simp] theorem ownFirst_txStalled (first : Nat) (flags1 : Word) (len : Nat) (s : State) : (ownFirst first flags1 len s).txStalled = s.txStalled := by
  simp [ownFirst]
@[simp] theorem ownFirst_txqEnabled (first : Nat) (flags1 : Word) (len : Nat) (s : State) : (ownFirst first flags1 len s).txqEnabled = s.txqEnabled := by
  simp [ownFirst]
@[simp] theorem ownFirst_txDoneCount (first : Nat) (flags1 : Word) (len : Nat) (s : State) : (ownFirst first flags1 len s).txDoneCount = s.txDoneCount := by
  simp [ownFirst]
@[simp] theorem ownFirst_txDoneLast (first : Nat) (flags1 : Word) (len : Nat) (s : State) : (ownFirst first flags1 len s).txDoneLast = s.txDoneLast := by
  simp [ownFirst]
@[simp] theorem ownFirst_deadlockWarn (first : Nat) (flags1 : Word) (len : Nat) (s : State) : (ownFirst first flags1 len s).deadlockWarn = s.deadlockWarn := by
  simp [ownFirst]
@[simp] theorem ownFirst_enabled (first : Nat) (flags1 : Word) (len : Nat) (s : State) : (ownFirst first flags1 len s).enabled = s.enabled := by
  simp [ownFirst]
@[simp] theorem ownFirst_link (first : Nat) (flags1 : Word) (len : Nat) (s : State) : (ownFirst first flags1 len s).link = s.link := by
  simp [ownFirst]
@[simp] theorem ownFirst_txSlot (first : Nat) (flags1 : Word) (len : Nat) (s : State) : (ownFirst first flags1 len s).txSlot = s.txSlot := by
  simp [ownFirst]
@[simp] theorem ownFirst_rxSlot (first : Nat) (flags1 : Word) (len : Nat) (s : State) : (ownFirst first flags1 len s).rxSlot = s.rxSlot := by
  simp [ownFirst]
@[simp] theorem ownFirst_txPending (first : Nat) (flags1 : Word) (len : Nat) (s : State) : (ownFirst first flags1 len s).txPending = s.txPending := by
  simp [ownFirst]
@[simp] theorem ownFirst_ctrResourceErrors (first : Nat) (flags1 : Word) (len : Nat) (s : State) : (ownFirst first flags1 len s).ctrResourceErrors = s.ctrResourceErrors := by
  simp [ownFirst]
@[simp] theorem ownFirst_ctrFrameTooLong (first : Nat) (flags1 : Word) (len : Nat) (s : State) : (ownFirst first flags1 len s).ctrFrameTooLong = s.ctrFrameTooLong := by
  simp [ownFirst]
@[simp] theorem ownFirst_ctrTimeouts (first : Nat) (flags1 : Word) (len : Nat) (s : State) : (ownFirst first flags1 len s).ctrTimeouts = s.ctrTimeouts := by
  simp [ownFirst]
@[simp] theorem ownFirst_ctrResets (first : Nat) (flags1 : Word) (len : Nat) (s : State) : (ownFirst first flags1 len s).ctrResets = s.ctrResets := by
  simp [ownFirst]
@[simp] theorem ownFirst_ctrTxDrops (first : Nat) (flags1 : Word) (len : Nat) (s : State) : (ownFirst first flags1 len s).ctrTxDrops = s.ctrTxDrops := by
  simp [ownFirst]
@[simp] theorem ownFirst_statsPending (first : Nat) (flags1 : Word) (len : Nat) (s : State) : (ownFirst first flags1 len s).statsPending = s.statsPending := by
  simp [ownFirst]
@[simp] theorem ownFirst_txMem (first : Nat) (flags1 : Word) (len : Nat) (s : State) : (ownFirst first flags1 len s).txMem = s.txMem := by
  simp [ownFirst]
@[simp] theorem ownFirst_rxMem (first : Nat) (flags1 : Word) (len : Nat) (s : State) : (ownFirst first flags1 len s).rxMem = s.rxMem := by
  simp [ownFirst]
@[simp] theorem ownFirst_stMem (first : Nat) (flags1 : Word) (len : Nat) (s : State) : (ownFirst first flags1 len s).stMem = s.stMem := by
  simp [ownFirst]
@[simp] theorem ownFirst_regs (first : Nat) (flags1 : Word) (len : Nat) (s : State) : (ownFirst first flags1 len s).regs = s.regs := by
  simp [ownFirst]
@[simp] theorem ownFirst_timerOn (first : Nat) (flags1 : Word) (len : Nat) (s : State) : (ownFirst first flags1 len s).timerOn = s.timerOn := by
  simp [ownFirst]
@[simp] theorem ownFirst_everEnabled (first : Nat) (flags1 : Word) (len : Nat) (s : State) : (ownFirst first flags1 len s).everEnabled = s.everEnabled := by
  simp [ownFirst]
@[simp] theorem ownFirst_txUnsubmitted (first : Nat) (flags1 : Word) (len : Nat) (s : State) : (ownFirst first flags1 len s).txUnsubmitted = s.txUnsubmitted := by
  simp [ownFirst]
@[simp] theorem ownFirst_heldPackets (first : Nat) (flags1 : Word) (len : Nat) (s : State) : (ownFirst first flags1 len s).heldPackets = s.heldPackets := by
  simp [ownFirst]
@[simp] theorem ownFirst_heldBuffers (first : Nat) (flags1 : Word) (len : Nat) (s : State) : (ownFirst first flags1 len s).heldBuffers = s.heldBuffers := by
  simp [ownFirst]
@[simp] theorem ownFirst_hostBufs (first : Nat) (flags1 : Word) (len : Nat) (s : State) : (ownFirst first flags1 len s).hostBufs = s.hostBufs := by
  simp [ownFirst]
@[simp] theorem ownFirst_nicTxBusy (first : Nat) (flags1 : Word) (len : Nat) (s : State) : (ownFirst first flags1 len s).nicTxBusy = s.nicTxBusy := by
  simp [ownFirst]
@[simp] theorem ownFirst_irqPending (first : Nat) (flags1 : Word) (len : Nat) (s : State) : (ownFirst first flags1 len s).irqPending = s.irqPending := by
  simp [ownFirst]
@[simp] theorem ownFirst_nicSeen (first : Nat) (flags1 : Word) (len : Nat) (s : State) : (ownFirst first flags1 len s).nicSeen = s.nicSeen := by
  simp [ownFirst]
@[simp] theorem ownFirst_input (first : Nat) (flags1 : Word) (len : Nat) (s : State) : (ownFirst first flags1 len s).input = s.input := by
  simp [ownFirst]
@[simp] theorem ownFirst_acquisitions (first : Nat) (flags1 : Word) (len : Nat) (s : State) : (ownFirst first flags1 len s).acquisitions = s.acquisitions := by
  simp [ownFirst]
@[simp] theorem ownFirst_work (first : Nat) (flags1 : Word) (len : Nat) (s : State) : (ownFirst first flags1 len s).work = s.work := by
  simp [ownFirst]
@[simp] theorem ownFirst_caller (first : Nat) (flags1 : Word) (len : Nat) (s : State) : (ownFirst first flags1 len s).caller = s.caller := by
  simp [ownFirst]
@[simp] theorem ownFirst_result (first : Nat) (flags1 : Word) (len : Nat) (s : State) : (ownFirst first flags1 len s).result = s.result := by
  simp [ownFirst]
@[simp] theorem ownFirst_freeCount (first : Nat) (flags1 : Word) (len : Nat) (s : State) : (ownFirst first flags1 len s).freeCount = s.freeCount := by
  simp [ownFirst]

/-! ### `unstall` -/

@[simp] theorem unstall_cfg (s : State) : (unstall s).cfg = s.cfg := by
  unfold unstall; split <;> rfl
@[simp] theorem unstall_mem (s : State) : (unstall s).mem = s.mem := by
  unfold unstall; split <;> rfl
@[simp] theorem unstall_txNext (s : State) : (unstall s).txNext = s.txNext := by
  unfold unstall; split <;> rfl
@[simp] theorem unstall_txDirty (s : State) : (unstall s).txDirty = s.txDirty := by
  unfold unstall; split <;> rfl
@[simp] theorem unstall_txFree (s : State) : (unstall s).txFree = s.txFree := by
  unfold unstall; split <;> rfl
@[simp] theorem unstall_rxIndex (s : State) : (unstall s).rxIndex = s.rxIndex := by
  unfold unstall; split <;> rfl
@[simp] theorem unstall_txqEnabled (s : State) : (unstall s).txqEnabled = s.txqEnabled := by
  unfold unstall; split <;> rfl
@[simp] theorem unstall_txDoneCount (s : State) : (unstall s).txDoneCount = s.txDoneCount := by
  unfold unstall; split <;> rfl
@[simp] theorem unstall_txDoneLast (s : State) : (unstall s).txDoneLast = s.txDoneLast := by
  unfold unstall; split <;> rfl
@[simp] theorem unstall_deadlockWarn (s : State) : (unstall s).deadlockWarn = s.deadlockWarn := by
  unfold unstall; split <;> rfl
@[simp] theorem unstall_enabled (s : State) : (unstall s).enabled = s.enabled := by
  unfold unstall; split <;> rfl
@[simp] theorem unstall_link (s : State) : (unstall s).link = s.link := by
  unfold unstall; split <;> rfl
@[simp] theorem unstall_txSlot (s : State) : (unstall s).txSlot = s.txSlot := by
  unfold unstall; split <;> rfl
@[simp] theorem unstall_rxSlot (s : State) : (unstall s).rxSlot = s.rxSlot := by
  unfold unstall; split <;> rfl
@[simp] theorem unstall_txPending (s : State) : (unstall s).txPending = s.txPending := by
  unfold unstall; split <;> rfl
@[simp] theorem unstall_ctrResourceErrors (s : State) : (unstall s).ctrResourceErrors = s.ctrResourceErrors := by
  unfold unstall; split <;> rfl
@[simp] theorem unstall_ctrFrameTooLong (s : State) : (unstall s).ctrFrameTooLong = s.ctrFrameTooLong := by
  unfold unstall; split <;> rfl
@[simp] theorem unstall_ctrTimeouts (s : State) : (unstall s).ctrTimeouts = s.ctrTimeouts := by
  unfold unstall; split <;> rfl
@[simp] theorem unstall_ctrResets (s : State) : (unstall s).ctrResets = s.ctrResets := by
  unfold unstall; split <;> rfl
@[simp] theorem unstall_ctrTxDrops (s : State) : (unstall s).ctrTxDrops = s.ctrTxDrops := by
  unfold unstall; split <;> rfl
@[simp] theorem unstall_statsPending (s : State) : (unstall s).statsPending = s.statsPending := by
  unfold unstall; split <;> rfl
@[simp] theorem unstall_txMem (s : State) : (unstall s).txMem = s.txMem := by
  unfold unstall; split <;> rfl
@[simp] theorem unstall_rxMem (s : State) : (unstall s).rxMem = s.rxMem := by
  unfold unstall; split <;> rfl
@[simp] theorem unstall_stMem (s : State) : (unstall s).stMem = s.stMem := by
  unfold unstall; split <;> rfl
@[simp] theorem unstall_regs (s : State) : (unstall s).regs = s.regs := by
  unfold unstall; split <;> rfl
@[simp] theorem unstall_timerOn (s : State) : (unstall s).timerOn = s.timerOn := by
  unfold unstall; split <;> rfl
@[simp] theorem unstall_everEnabled (s : State) : (unstall s).everEnabled = s.everEnabled := by
  unfold unstall; split <;> rfl
@[simp] theorem unstall_txUnsubmitted (s : State) : (unstall s).txUnsubmitted = s.txUnsubmitted := by
  unfold unstall; split <;> rfl
@[simp] theorem unstall_heldPackets (s : State) : (unstall s).heldPackets = s.heldPackets := by
  unfold unstall; split <;> rfl
@[simp] theorem unstall_heldBuffers (s : State) : (unstall s).heldBuffers = s.heldBuffers := by
  unfold unstall; split <;> rfl
@[simp] theorem unstall_hostBufs (s : State) : (unstall s).hostBufs = s.hostBufs := by
  unfold unstall; split <;> rfl
@[simp] theorem unstall_nicTxBusy (s : State) : (unstall s).nicTxBusy = s.nicTxBusy := by
  unfold unstall; split <;> rfl
@[simp] theorem unstall_irqPending (s : State) : (unstall s).irqPending = s.irqPending := by
  unfold unstall; split <;> rfl
@[simp] theorem unstall_nicSeen (s : State) : (unstall s).nicSeen = s.nicSeen := by
  unfold unstall; split <;> rfl
@[simp] theorem unstall_input (s : State) : (unstall s).input = s.input := by
  unfold unstall; split <;> rfl
@[simp] theorem unstall_acquisitions (s : State) : (unstall s).acquisitions = s.acquisitions := by
  unfold unstall; split <;> rfl
@[simp] theorem unstall_work (s : State) : (unstall s).work = s.work := by
  unfold unstall; split <;> rfl
@[simp] theorem unstall_caller (s : State) : (unstall s).caller = s.caller := by
  unfold unstall; split <;> rfl
@[simp] theorem unstall_result (s : State) : (unstall s).result = s.result := by
  unfold unstall; split <;> rfl
@[simp] theorem unstall_freeCount (s : State) : (unstall s).freeCount = s.freeCount := by
  unfold unstall; split <;> rfl

/-! ### `endTxPass` -/

@[simp] theorem endTxPass_cfg (old : Nat) (s : State) : (endTxPass old s).cfg = s.cfg := by
  unfold endTxPass; simp only []; split <;> simp
@[simp] theorem endTxPass_mem (old : Nat) (s : State) : (endTxPass old s).mem = s.mem := by
  unfold endTxPass; simp only []; split <;> simp
@[simp] theorem endTxPass_txNext (old : Nat) (s : State) : (endTxPass old s).txNext = s.txNext := by
  unfold endTxPass; simp only []; split <;> simp
@[simp] theorem endTxPass_txDirty (old : Nat) (s : State) : (endTxPass old s).txDirty = s.txDirty := by
  unfold endTxPass; simp only []; split <;> simp
@[simp] theorem endTxPass_txFree (old : Nat) (s : State) : (endTxPass old s).txFree = s.txFree := by
  unfold endTxPass; simp only []; split <;> simp
@[simp] theorem endTxPass_rxIndex (old : Nat) (s : State) : (endTxPass old s).rxIndex = s.rxIndex := by
  unfold endTxPass; simp only []; split <;> simp
@[simp] theorem endTxPass_txqEnabled (old : Nat) (s : State) : (endTxPass old s).txqEnabled = s.txqEnabled := by
  unfold endTxPass; simp only []; split <;> simp
@[simp] theorem endTxPass_txDoneCount (old : Nat) (s : State) : (endTxPass old s).txDoneCount = s.txDoneCount := by
  unfold endTxPass; simp only []; split <;> simp
@[simp] theorem endTxPass_txDoneLast (old : Nat) (s : State) : (endTxPass old s).txDoneLast = s.txDoneLast := by
  unfold endTxPass; simp only []; split <;> simp
@[simp] theorem endTxPass_deadlockWarn (old : Nat) (s : State) : (endTxPass old s).deadlockWarn = s.deadlockWarn := by
  unfold endTxPass; simp only []; split <;> simp
@[simp] theorem endTxPass_enabled (old : Nat) (s : State) : (endTxPass old s).enabled = s.enabled := by
  unfold endTxPass; simp only []; split <;> simp
@[simp] theorem endTxPass_link (old : Nat) (s : State) : (endTxPass old s).link = s.link := by
  unfold endTxPass; simp only []; split <;> simp
@[simp] theorem endTxPass_txSlot (old : Nat) (s : State) : (endTxPass old s).txSlot = s.txSlot := by
  unfold endTxPass; simp only []; split <;> simp
@[simp] theorem endTxPass_rxSlot (old : Nat) (s : State) : (endTxPass old s).rxSlot = s.rxSlot := by
  unfold endTxPass; simp only []; split <;> simp
@[simp] theorem endTxPass_txPending (old : Nat) (s : State) : (endTxPass old s).txPending = s.txPending := by
  unfold endTxPass; simp only []; split <;> simp
@[simp] theorem endTxPass_ctrResourceErrors (old : Nat) (s : State) : (endTxPass old s).ctrResourceErrors = s.ctrResourceErrors := by
  unfold endTxPass; simp only []; split <;> simp
@[simp] theorem endTxPass_ctrFrameTooLong (old : Nat) (s : State) : (endTxPass old s).ctrFrameTooLong = s.ctrFrameTooLong := by
  unfold endTxPass; simp only []; split <;> simp
@[simp] theorem endTxPass_ctrTimeouts (old : Nat) (s : State) : (endTxPass old s).ctrTimeouts = s.ctrTimeouts := by
  unfold endTxPass; simp only []; split <;> simp
@[simp] theorem endTxPass_ctrResets (old : Nat) (s : State) : (endTxPass old s).ctrResets = s.ctrResets := by
  unfold endTxPass; simp only []; split <;> simp
@[simp] theorem endTxPass_ctrTxDrops (old : Nat) (s : State) : (endTxPass old s).ctrTxDrops = s.ctrTxDrops := by
  unfold endTxPass; simp only []; split <;> simp
@[simp] theorem endTxPass_statsPending (old : Nat) (s : State) : (endTxPass old s).statsPending = s.statsPending := by
  unfold endTxPass; simp only []; split <;> simp
@[simp] theorem endTxPass_txMem (old : Nat) (s : State) : (endTxPass old s).txMem = s.txMem := by
  unfold endTxPass; simp only []; split <;> simp
@[simp] theorem endTxPass_rxMem (old : Nat) (s : State) : (endTxPass old s).rxMem = s.rxMem := by
  unfold endTxPass; simp only []; split <;> simp
@[simp] theorem endTxPass_stMem (old : Nat) (s : State) : (endTxPass old s).stMem = s.stMem := by
  unfold endTxPass; simp only []; split <;> simp
@[simp] theorem endTxPass_regs (old : Nat) (s : State) : (endTxPass old s).regs = s.regs := by
  unfold endTxPass; simp only []; split <;> simp
@[simp] theorem endTxPass_timerOn (old : Nat) (s : State) : (endTxPass old s).timerOn = s.timerOn := by
  unfold endTxPass; simp only []; split <;> simp
@[simp] theorem endTxPass_everEnabled (old : Nat) (s : State) : (endTxPass old s).everEnabled = s.everEnabled := by
  unfold endTxPass; simp only []; split <;> simp
@[simp] theorem endTxPass_txUnsubmitted (old : Nat) (s : State) : (endTxPass old s).txUnsubmitted = s.txUnsubmitted := by
  unfold endTxPass; simp only []; split <;> simp
@[simp] theorem endTxPass_heldPackets (old : Nat) (s : State) : (endTxPass old s).heldPackets = s.heldPackets := by
  unfold endTxPass; simp only []; split <;> simp
@[simp] theorem endTxPass_heldBuffers (old : Nat) (s : State) : (endTxPass old s).heldBuffers = s.heldBuffers := by
  unfold endTxPass; simp only []; split <;> simp
@[simp] theorem endTxPass_hostBufs (old : Nat) (s : State) : (endTxPass old s).hostBufs = s.hostBufs := by
  unfold endTxPass; simp only []; split <;> simp
@[simp] theorem endTxPass_nicTxBusy (old : Nat) (s : State) : (endTxPass old s).nicTxBusy = s.nicTxBusy := by
  unfold endTxPass; simp only []; split <;> simp
@[simp] theorem endTxPass_irqPending (old : Nat) (s : State) : (endTxPass old s).irqPending = s.irqPending := by
  unfold endTxPass; simp only []; split <;> simp
@[simp] theorem endTxPass_nicSeen (old : Nat) (s : State) : (endTxPass old s).nicSeen = s.nicSeen := by
  unfold endTxPass; simp only []; split <;> simp
@[simp] theorem endTxPass_input (old : Nat) (s : State) : (endTxPass old s).input = s.input := by
  unfold endTxPass; simp only []; split <;> simp
@[simp] theorem endTxPass_acquisitions (old : Nat) (s : State) : (endTxPass old s).acquisitions = s.acquisitions := by
  unfold endTxPass; simp only []; split <;> simp
@[simp] theorem endTxPass_work (old : Nat) (s : State) : (endTxPass old s).work = s.work := by
  unfold endTxPass; simp only []; split <;> simp
@[simp] theorem endTxPass_caller (old : Nat) (s : State) : (endTxPass old s).caller = s.caller := by
  unfold endTxPass; simp only []; split <;> simp
@[simp] theorem endTxPass_result (old : Nat) (s : State) : (endTxPass old s).result = s.result := by
  unfold endTxPass; simp only []; split <;> simp
@[simp] theorem endTxPass_freeCount (old : Nat) (s : State) : (endTxPass old s).freeCount = s.freeCount := by
  unfold endTxPass; simp only []; split <;> simp

/-! ### `fillDesc` -/

@[simp] theorem fillDesc_cfg (i : Nat) (frame : List Byte) (x : RxStatus) (w : Word) (a : Addr) (s : State) : (fillDesc i frame x w a s).cfg = s.cfg := by
  simp [fillDesc]
@[simp] theorem fillDesc_txNext (i : Nat) (frame : List Byte) (x : RxStatus) (w : Word) (a : Addr) (s : State) : (fillDesc i frame x w a s).txNext = s.txNext := by
  simp [fillDesc]
@[simp] theorem fillDesc_txDirty (i : Nat) (frame : List Byte) (x : RxStatus) (w : Word) (a : Addr) (s : State) : (fillDesc i frame x w a s).txDirty = s.txDirty := by
  simp [fillDesc]
@[simp] theorem fillDesc_txFree (i : Nat) (frame : List Byte) (x : RxStatus) (w : Word) (a : Addr) (s : State) : (fillDesc i frame x w a s).txFree = s.txFree := by
  simp [fillDesc]
@[simp] theorem fillDesc_rxIndex (i : Nat) (frame : List Byte) (x : RxStatus) (w : Word) (a : Addr) (s : State) : (fillDesc i frame x w a s).rxIndex = s.rxIndex := by
  simp [fillDesc]
@[simp] theorem fillDesc_txStalled (i : Nat) (frame : List Byte) (x : RxStatus) (w : Word) (a : Addr) (s : State) : (fillDesc i frame x w a s).txStalled = s.txStalled := by
  simp [fillDesc]
@[simp] theorem fillDesc_txqEnabled (i : Nat) (frame : List Byte) (x : RxStatus) (w : Word) (a : Addr) (s : State) : (fillDesc i frame x w a s).txqEnabled = s.txqEnabled := by
  simp [fillDesc]
@[simp] theorem fillDesc_txDoneCount (i : Nat) (frame : List Byte) (x : RxStatus) (w : Word) (a : Addr) (s : State) : (fillDesc i frame x w a s).txDoneCount = s.txDoneCount := by
  simp [fillDesc]
@[simp] theorem fillDesc_txDoneLast (i : Nat) (frame : List Byte) (x : RxStatus) (w : Word) (a : Addr) (s : State) : (fillDesc i frame x w a s).txDoneLast = s.txDoneLast := by
  simp [fillDesc]
@[simp] theorem fillDesc_deadlockWarn (i : Nat) (frame : List Byte) (x : RxStatus) (w : Word) (a : Addr) (s : State) : (fillDesc i frame x w a s).deadlockWarn = s.deadlockWarn := by
  simp [fillDesc]
@[simp] theorem fillDesc_enabled (i : Nat) (frame : List Byte) (x : RxStatus) (w : Word) (a : Addr) (s : State) : (fillDesc i frame x w a s).enabled = s.enabled := by
  simp [fillDesc]
@[simp] theorem fillDesc_link (i : Nat) (frame : List Byte) (x : RxStatus) (w : Word) (a : Addr) (s : State) : (fillDesc i frame x w a s).link = s.link := by
  simp [fillDesc]
@[simp] theorem fillDesc_txSlot (i : Nat) (frame : List Byte) (x : RxStatus) (w : Word) (a : Addr) (s : State) : (fillDesc i frame x w a s).txSlot = s.txSlot := by
  simp [fillDesc]
@[simp] theorem fillDesc_rxSlot (i : Nat) (frame : List Byte) (x : RxStatus) (w : Word) (a : Addr) (s : State) : (fillDesc i frame x w a s).rxSlot = s.rxSlot := by
  simp [fillDesc]
@[simp] theorem fillDesc_txPending (i : Nat) (frame : List Byte) (x : RxStatus) (w : Word) (a : Addr) (s : State) : (fillDesc i frame x w a s).txPending = s.txPending := by
  simp [fillDesc]
@[simp] theorem fillDesc_ctrResourceErrors (i : Nat) (frame : List Byte) (x : RxStatus) (w : Word) (a : Addr) (s : State) : (fillDesc i frame x w a s).ctrResourceErrors = s.ctrResourceErrors := by
  simp [fillDesc]
@[simp] theorem fillDesc_ctrFrameTooLong (i : Nat) (frame : List Byte) (x : RxStatus) (w : Word) (a : Addr) (s : State) : (fillDesc i frame x w a s).ctrFrameTooLong = s.ctrFrameTooLong := by
  simp [fillDesc]
@[simp] theorem fillDesc_ctrTimeouts (i : Nat) (frame : List Byte) (x : RxStatus) (w : Word) (a : Addr) (s : State) : (fillDesc i frame x w a s).ctrTimeouts = s.ctrTimeouts := by
  simp [fillDesc]
@[simp] theorem fillDesc_ctrResets (i : Nat) (frame : List Byte) (x : RxStatus) (w : Word) (a : Addr) (s : State) : (fillDesc i frame x w a s).ctrResets = s.ctrResets := by
  simp [fillDesc]
@[simp] theorem fillDesc_ctrTxDrops (i : Nat) (frame : List Byte) (x : RxStatus) (w : Word) (a : Addr) (s : State) : (fillDesc i frame x w a s).ctrTxDrops = s.ctrTxDrops := by
  simp [fillDesc]
@[simp] theorem fillDesc_statsPending (i : Nat) (frame : List Byte) (x : RxStatus) (w : Word) (a : Addr) (s : State) : (fillDesc i frame x w a s).statsPending = s.statsPending := by
  simp [fillDesc]
@[simp] theorem fillDesc_txMem (i : Nat) (frame : List Byte) (x : RxStatus) (w : Word) (a : Addr) (s : State) : (fillDesc i frame x w a s).txMem = s.txMem := by
  simp [fillDesc]
@[simp] theorem fillDesc_rxMem (i : Nat) (frame : List Byte) (x : RxStatus) (w : Word) (a : Addr) (s : State) : (fillDesc i frame x w a s).rxMem = s.rxMem := by
  simp [fillDesc]
@[simp] theorem fillDesc_stMem (i : Nat) (frame : List Byte) (x : RxStatus) (w : Word) (a : Addr) (s : State) : (fillDesc i frame x w a s).stMem = s.stMem := by
  simp [fillDesc]
@[simp] theorem fillDesc_regs (i : Nat) (frame : List Byte) (x : RxStatus) (w : Word) (a : Addr) (s : State) : (fillDesc i frame x w a s).regs = s.regs := by
  simp [fillDesc]
@[simp] theorem fillDesc_timerOn (i : Nat) (frame : List Byte) (x : RxStatus) (w : Word) (a : Addr) (s : State) : (fillDesc i frame x w a s).timerOn = s.timerOn := by
  simp [fillDesc]
@[simp] theorem fillDesc_everEnabled (i : Nat) (frame : List Byte) (x : RxStatus) (w : Word) (a : Addr) (s : State) : (fillDesc i frame x w a s).everEnabled = s.everEnabled := by
  simp [fillDesc]
@[simp] theorem fillDesc_txUnsubmitted (i : Nat) (frame : List Byte) (x : RxStatus) (w : Word) (a : Addr) (s : State) : (fillDesc i frame x w a s).txUnsubmitted = s.txUnsubmitted := by
  simp [fillDesc]
@[simp] theorem fillDesc_heldPackets (i : Nat) (frame : List Byte) (x : RxStatus) (w : Word) (a : Addr) (s : State) : (fillDesc i frame x w a s).heldPackets = s.heldPackets := by
  simp [fillDesc]
@[simp] theorem fillDesc_heldBuffers (i : Nat) (frame : List Byte) (x : RxStatus) (w : Word) (a : Addr) (s : State) : (fillDesc i frame x w a s).heldBuffers = s.heldBuffers := by
  simp [fillDesc]
@[simp] theorem fillDesc_hostBufs (i : Nat) (frame : List Byte) (x : RxStatus) (w : Word) (a : Addr) (s : State) : (fillDesc i frame x w a s).hostBufs = s.hostBufs := by
  simp [fillDesc]
@[simp] theorem fillDesc_nicTxBusy (i : Nat) (frame : List Byte) (x : RxStatus) (w : Word) (a : Addr) (s : State) : (fillDesc i frame x w a s).nicTxBusy = s.nicTxBusy := by
  simp [fillDesc]
@[simp] theorem fillDesc_irqPending (i : Nat) (frame : List Byte) (x : RxStatus) (w : Word) (a : Addr) (s : State) : (fillDesc i frame x w a s).irqPending = s.irqPending := by
  simp [fillDesc]
@[simp] theorem fillDesc_nicSeen (i : Nat) (frame : List Byte) (x : RxStatus) (w : Word) (a : Addr) (s : State) : (fillDesc i frame x w a s).nicSeen = s.nicSeen := by
  simp [fillDesc]
@[simp] theorem fillDesc_input (i : Nat) (frame : List Byte) (x : RxStatus) (w : Word) (a : Addr) (s : State) : (fillDesc i frame x w a s).input = s.input := by
  simp [fillDesc]
@[simp] theorem fillDesc_acquisitions (i : Nat) (frame : List Byte) (x : RxStatus) (w : Word) (a : Addr) (s : State) : (fillDesc i frame x w a s).acquisitions = s.acquisitions := by
  simp [fillDesc]
@[simp] theorem fillDesc_work (i : Nat) (frame : List Byte) (x : RxStatus) (w : Word) (a : Addr) (s : State) : (fillDesc i frame x w a s).work = s.work := by
  simp [fillDesc]
@[simp] theorem fillDesc_caller (i : Nat) (frame : List Byte) (x : RxStatus) (w : Word) (a : Addr) (s : State) : (fillDesc i frame x w a s).caller = s.caller := by
  simp [fillDesc]
@[simp] theorem fillDesc_result (i : Nat) (frame : List Byte) (x : RxStatus) (w : Word) (a : Addr) (s : State) : (fillDesc i frame x w a s).result = s.result := by
  simp [fillDesc]
@[simp] theorem fillDesc_freeCount (i : Nat) (frame : List Byte) (x : RxStatus) (w : Word) (a : Addr) (s : State) : (fillDesc i frame x w a s).freeCount = s.freeCount := by
  simp [fillDesc]

/-! ### `requestStats` -/

@[simp] theorem requestStats_cfg (s : State) : (requestStats s).cfg = s.cfg := by
  unfold requestStats; split <;> rfl
@[simp] theorem requestStats_mem (s : State) : (requestStats s).mem = s.mem := by
  unfold requestStats; split <;> rfl
@[simp] theorem requestStats_txNext (s : State) : (requestStats s).txNext = s.txNext := by
  unfold requestStats; split <;> rfl
@[simp] theorem requestStats_txDirty (s : State) : (requestStats s).txDirty = s.txDirty := by
  unfold requestStats; split <;> rfl
@[simp] theorem requestStats_txFree (s : State) : (requestStats s).txFree = s.txFree := by
  unfold requestStats; split <;> rfl
@[simp] theorem requestStats_rxIndex (s : State) : (requestStats s).rxIndex = s.rxIndex := by
  unfold requestStats; split <;> rfl
@[simp] theorem requestStats_txStalled (s : State) : (requestStats s).txStalled = s.txStalled := by
  unfold requestStats; split <;> rfl
@[simp] theorem requestStats_txqEnabled (s : State) : (requestStats s).txqEnabled = s.txqEnabled := by
  unfold requestStats; split <;> rfl
@[simp] theorem requestStats_txDoneCount (s : State) : (requestStats s).txDoneCount = s.txDoneCount := by
  unfold requestStats; split <;> rfl
@[simp] theorem requestStats_txDoneLast (s : State) : (requestStats s).txDoneLast = s.txDoneLast := by
  unfold requestStats; split <;> rfl
@[simp] theorem requestStats_deadlockWarn (s : State) : (requestStats s).deadlockWarn = s.deadlockWarn := by
  unfold requestStats; split <;> rfl
@[simp] theorem requestStats_enabled (s : State) : (requestStats s).enabled = s.enabled := by
  unfold requestStats; split <;> rfl
@[simp] theorem requestStats_link (s : State) : (requestStats s).link = s.link := by
  unfold requestStats; split <;> rfl
@[simp] theorem requestStats_txSlot (s : State) : (requestStats s).txSlot = s.txSlot := by
  unfold requestStats; split <;> rfl
@[simp] theorem requestStats_rxSlot (s : State) : (requestStats s).rxSlot = s.rxSlot := by
  unfold requestStats; split <;> rfl
@[simp] theorem requestStats_txPending (s : State) : (requestStats s).txPending = s.txPending := by
  unfold requestStats; split <;> rfl
@[simp] theorem requestStats_ctrResourceErrors (s : State) : (requestStats s).ctrResourceErrors = s.ctrResourceErrors := by
  unfold requestStats; split <;> rfl
@[simp] theorem requestStats_ctrFrameTooLong (s : State) : (requestStats s).ctrFrameTooLong = s.ctrFrameTooLong := by
  unfold requestStats; split <;> rfl
@[simp] theorem requestStats_ctrTimeouts (s : State) : (requestStats s).ctrTimeouts = s.ctrTimeouts := by
  unfold requestStats; split <;> rfl
@[simp] theorem requestStats_ctrResets (s : State) : (requestStats s).ctrResets = s.ctrResets := by
  unfold requestStats; split <;> rfl
@[simp] theorem requestStats_ctrTxDrops (s : State) : (requestStats s).ctrTxDrops = s.ctrTxDrops := by
  unfold requestStats; split <;> rfl
@[simp] theorem requestStats_txMem (s : State) : (requestStats s).txMem = s.txMem := by
  unfold requestStats; split <;> rfl
@[simp] theorem requestStats_rxMem (s : State) : (requestStats s).rxMem = s.rxMem := by
  unfold requestStats; split <;> rfl
@[simp] theorem requestStats_stMem (s : State) : (requestStats s).stMem = s.stMem := by
  unfold requestStats; split <;> rfl
@[simp] theorem requestStats_timerOn (s : State) : (requestStats s).timerOn = s.timerOn := by
  unfold requestStats; split <;> rfl
@[simp] theorem requestStats_everEnabled (s : State) : (requestStats s).everEnabled = s.everEnabled := by
  unfold requestStats; split <;> rfl
@[simp] theorem requestStats_txUnsubmitted (s : State) : (requestStats s).txUnsubmitted = s.txUnsubmitted := by
  unfold requestStats; split <;> rfl
@[simp] theorem requestStats_heldPackets (s : State) : (requestStats s).heldPackets = s.heldPackets := by
  unfold requestStats; split <;> rfl
@[simp] theorem requestStats_heldBuffers (s : State) : (requestStats s).heldBuffers = s.heldBuffers := by
  unfold requestStats; split <;> rfl
@[simp] theorem requestStats_hostBufs (s : State) : (requestStats s).hostBufs = s.hostBufs := by
  unfold requestStats; split <;> rfl
@[simp] theorem requestStats_nicTxBusy (s : State) : (requestStats s).nicTxBusy = s.nicTxBusy := by
  unfold requestStats; split <;> rfl
@[simp] theorem requestStats_irqPending (s : State) : (requestStats s).irqPending = s.irqPending := by
  unfold requestStats; split <;> rfl
@[simp] theorem requestStats_nicSeen (s : State) : (requestStats s).nicSeen = s.nicSeen := by
  unfold requestStats; split <;> rfl
@[simp] theorem requestStats_input (s : State) : (requestStats s).input = s.input := by
  unfold requestStats; split <;> rfl
@[simp] theorem requestStats_acquisitions (s : State) : (requestStats s).acquisitions = s.acquisitions := by
  unfold requestStats; split <;> rfl
@[simp] theorem requestStats_work (s : State) : (requestStats s).work = s.work := by
  unfold requestStats; split <;> rfl
@[simp] theorem requestStats_caller (s : State) : (requestStats s).caller = s.caller := by
  unfold requestStats; split <;> rfl
@[simp] theorem requestStats_result (s : State) : (requestStats s).result = s.result := by
  unfold requestStats; split <;> rfl
@[simp] theorem requestStats_freeCount (s : State) : (requestStats s).freeCount = s.freeCount := by
  unfold requestStats; split <;> rfl

/-! ### `tickStats` -/

@[simp] theorem tickStats_cfg (s : State) : (tickStats s).cfg = s.cfg := by
  unfold tickStats; split <;> simp
@[simp] theorem tickStats_mem (s : State) : (tickStats s).mem = s.mem := by
  unfold tickStats; split <;> simp
@[simp] theorem tickStats_txNext (s : State) : (tickStats s).txNext = s.txNext := by
  unfold tickStats; split <;> simp
@[simp] theorem tickStats_txDirty (s : State) : (tickStats s).txDirty = s.txDirty := by
  unfold tickStats; split <;> simp
@[simp] theorem tickStats_txFree (s : State) : (tickStats s).txFree = s.txFree := by
  unfold tickStats; split <;> simp
@[simp] theorem tickStats_rxIndex (s : State) : (tickStats s).rxIndex = s.rxIndex := by
  unfold tickStats; split <;> simp
@[simp] theorem tickStats_txStalled (s : State) : (tickStats s).txStalled = s.txStalled := by
  unfold tickStats; split <;> simp
@[simp] theorem tickStats_txqEnabled (s : State) : (tickStats s).txqEnabled = s.txqEnabled := by
  unfold tickStats; split <;> simp
@[simp] theorem tickStats_txDoneCount (s : State) : (tickStats s).txDoneCount = s.txDoneCount := by
  unfold tickStats; split <;> simp
@[simp] theorem tickStats_txDoneLast (s : State) : (tickStats s).txDoneLast = s.txDoneLast := by
  unfold tickStats; split <;> simp
@[simp] theorem tickStats_deadlockWarn (s : State) : (tickStats s).deadlockWarn = s.deadlockWarn := by
  unfold tickStats; split <;> simp
@[simp] theorem tickStats_enabled (s : State) : (tickStats s).enabled = s.enabled := by
  unfold tickStats; split <;> simp
@[simp] theorem tickStats_link (s : State) : (tickStats s).link = s.link := by
  unfold tickStats; split <;> simp
@[simp] theorem tickStats_txSlot (s : State) : (tickStats s).txSlot = s.txSlot := by
  unfold tickStats; split <;> simp
@[simp] theorem tickStats_rxSlot (s : State) : (tickStats s).rxSlot = s.rxSlot := by
  unfold tickStats; split <;> simp
@[simp] theorem tickStats_txPending (s : State) : (tickStats s).txPending = s.txPending := by
  unfold tickStats; split <;> simp
@[simp] theorem tickStats_ctrResourceErrors (s : State) : (tickStats s).ctrResourceErrors = s.ctrResourceErrors := by
  unfold tickStats; split <;> simp
@[simp] theorem tickStats_ctrFrameTooLong (s : State) : (tickStats s).ctrFrameTooLong = s.ctrFrameTooLong := by
  unfold tickStats; split <;> simp
@[simp] theorem tickStats_ctrTimeouts (s : State) : (tickStats s).ctrTimeouts = s.ctrTimeouts := by
  unfold tickStats; split <;> simp
@[simp] theorem tickStats_ctrResets (s : State) : (tickStats s).ctrResets = s.ctrResets := by
  unfold tickStats; split <;> simp
@[simp] theorem tickStats_ctrTxDrops (s : State) : (tickStats s).ctrTxDrops = s.ctrTxDrops := by
  unfold tickStats; split <;> simp
@[simp] theorem tickStats_txMem (s : State) : (tickStats s).txMem = s.txMem := by
  unfold tickStats; split <;> simp
@[simp] theorem tickStats_rxMem (s : State) : (tickStats s).rxMem = s.rxMem := by
  unfold tickStats; split <;> simp
@[simp] theorem tickStats_stMem (s : State) : (tickStats s).stMem = s.stMem := by
  unfold tickStats; split <;> simp
@[simp] theorem tickStats_timerOn (s : State) : (tickStats s).timerOn = s.timerOn := by
  unfold tickStats; split <;> simp
@[simp] theorem tickStats_everEnabled (s : State) : (tickStats s).everEnabled = s.everEnabled := by
  unfold tickStats; split <;> simp
@[simp] theorem tickStats_txUnsubmitted (s : State) : (tickStats s).txUnsubmitted = s.txUnsubmitted := by
  unfold tickStats; split <;> simp
@[simp] theorem tickStats_heldPackets (s : State) : (tickStats s).heldPackets = s.heldPackets := by
  unfold tickStats; split <;> simp
@[simp] theorem tickStats_heldBuffers (s : State) : (tickStats s).heldBuffers = s.heldBuffers := by
  unfold tickStats; split <;> simp
@[simp] theorem tickStats_hostBufs (s : State) : (tickStats s).hostBufs = s.hostBufs := by
  unfold tickStats; split <;> simp
@[simp] theorem tickStats_nicTxBusy (s : State) : (tickStats s).nicTxBusy = s.nicTxBusy := by
  unfold tickStats; split <;> simp
@[simp] theorem tickStats_irqPending (s : State) : (tickStats s).irqPending = s.irqPending := by
  unfold tickStats; split <;> simp
@[simp] theorem tickStats_nicSeen (s : State) : (tickStats s).nicSeen = s.nicSeen := by
  unfold tickStats; split <;> simp
@[simp] theorem tickStats_input (s : State) : (tickStats s).input = s.input := by
  unfold tickStats; split <;> simp
@[simp] theorem tickStats_acquisitions (s : State) : (tickStats s).acquisitions = s.acquisitions := by
  unfold tickStats; split <;> simp
@[simp] theorem tickStats_work (s : State) : (tickStats s).work = s.work := by
  unfold tickStats; split <;> simp
@[simp] theorem tickStats_caller (s : State) : (tickStats s).caller = s.caller := by
  unfold tickStats; split <;> simp
@[simp] theorem tickStats_result (s : State) : (tickStats s).result = s.result := by
  unfold tickStats; split <;> simp
@[simp] theorem tickStats_freeCount (s : State) : (tickStats s).freeCount = s.freeCount := by
  unfold tickStats; split <;> simp

/-! ### `finishStats` -/

@[simp] theorem finishStats_cfg (s : State) : (finishStats s).cfg = s.cfg := by
  unfold finishStats; split <;> rfl
@[simp] theorem finishStats_mem (s : State) : (finishStats s).mem = s.mem := by
  unfold finishStats; split <;> rfl
@[simp] theorem finishStats_txNext (s : State) : (finishStats s).txNext = s.txNext := by
  unfold finishStats; split <;> rfl
@[simp] theorem finishStats_txDirty (s : State) : (finishStats s).txDirty = s.txDirty := by
  unfold finishStats; split <;> rfl
@[simp] theorem finishStats_txFree (s : State) : (finishStats s).txFree = s.txFree := by
  unfold finishStats; split <;> rfl
@[simp] theorem finishStats_rxIndex (s : State) : (finishStats s).rxIndex = s.rxIndex := by
  unfold finishStats; split <;> rfl
@[simp] theorem finishStats_txStalled (s : State) : (finishStats s).txStalled = s.txStalled := by
  unfold finishStats; split <;> rfl
@[simp] theorem finishStats_txqEnabled (s : State) : (finishStats s).txqEnabled = s.txqEnabled := by
  unfold finishStats; split <;> rfl
@[simp] theorem finishStats_txDoneCount (s : State) : (finishStats s).txDoneCount = s.txDoneCount := by
  unfold finishStats; split <;> rfl
@[simp] theorem finishStats_txDoneLast (s : State) : (finishStats s).txDoneLast = s.txDoneLast := by
  unfold finishStats; split <;> rfl
@[simp] theorem finishStats_deadlockWarn (s : State) : (finishStats s).deadlockWarn = s.deadlockWarn := by
  unfold finishStats; split <;> rfl
@[simp] theorem finishStats_enabled (s : State) : (finishStats s).enabled = s.enabled := by
  unfold finishStats; split <;> rfl
@[simp] theorem finishStats_link (s : State) : (finishStats s).link = s.link := by
  unfold finishStats; split <;> rfl
@[simp] theorem finishStats_txSlot (s : State) : (finishStats s).txSlot = s.txSlot := by
  unfold finishStats; split <;> rfl
@[simp] theorem finishStats_rxSlot (s : State) : (finishStats s).rxSlot = s.rxSlot := by
  unfold finishStats; split <;> rfl
@[simp] theorem finishStats_txPending (s : State) : (finishStats s).txPending = s.txPending := by
  unfold finishStats; split <;> rfl
@[simp] theorem finishStats_ctrResourceErrors (s : State) : (finishStats s).ctrResourceErrors = s.ctrResourceErrors := by
  unfold finishStats; split <;> rfl
@[simp] theorem finishStats_ctrFrameTooLong (s : State) : (finishStats s).ctrFrameTooLong = s.ctrFrameTooLong := by
  unfold finishStats; split <;> rfl
@[simp] theorem finishStats_ctrTimeouts (s : State) : (finishStats s).ctrTimeouts = s.ctrTimeouts := by
  unfold finishStats; split <;> rfl
@[simp] theorem finishStats_ctrResets (s : State) : (finishStats s).ctrResets = s.ctrResets := by
  unfold finishStats; split <;> rfl
@[simp] theorem finishStats_ctrTxDrops (s : State) : (finishStats s).ctrTxDrops = s.ctrTxDrops := by
  unfold finishStats; split <;> rfl
@[simp] theorem finishStats_txMem (s : State) : (finishStats s).txMem = s.txMem := by
  unfold finishStats; split <;> rfl
@[simp] theorem finishStats_rxMem (s : State) : (finishStats s).rxMem = s.rxMem := by
  unfold finishStats; split <;> rfl
@[simp] theorem finishStats_stMem (s : State) : (finishStats s).stMem = s.stMem := by
  unfold finishStats; split <;> rfl
@[simp] theorem finishStats_regs (s : State) : (finishStats s).regs = s.regs := by
  unfold finishStats; split <;> rfl
@[simp] theorem finishStats_timerOn (s : State) : (finishStats s).timerOn = s.timerOn := by
  unfold finishStats; split <;> rfl
@[simp] theorem finishStats_everEnabled (s : State) : (finishStats s).everEnabled = s.everEnabled := by
  unfold finishStats; split <;> rfl
@[simp] theorem finishStats_txUnsubmitted (s : State) : (finishStats s).txUnsubmitted = s.txUnsubmitted := by
  unfold finishStats; split <;> rfl
@[simp] theorem finishStats_heldPackets (s : State) : (finishStats s).heldPackets = s.heldPackets := by
  unfold finishStats; split <;> rfl
@[simp] theorem finishStats_heldBuffers (s : State) : (finishStats s).heldBuffers = s.heldBuffers := by
  unfold finishStats; split <;> rfl
@[simp] theorem finishStats_hostBufs (s : State) : (finishStats s).hostBufs = s.hostBufs := by
  unfold finishStats; split <;> rfl
@[simp] theorem finishStats_nicTxBusy (s : State) : (finishStats s).nicTxBusy = s.nicTxBusy := by
  unfold finishStats; split <;> rfl
@[simp] theorem finishStats_irqPending (s : State) : (finishStats s).irqPending = s.irqPending := by
  unfold finishStats; split <;> rfl
@[simp] theorem finishStats_nicSeen (s : State) : (finishStats s).nicSeen = s.nicSeen := by
  unfold finishStats; split <;> rfl
@[simp] theorem finishStats_input (s : State) : (finishStats s).input = s.input := by
  unfold finishStats; split <;> rfl
@[simp] theorem finishStats_acquisitions (s : State) : (finishStats s).acquisitions = s.acquisitions := by
  unfold finishStats; split <;> rfl
@[simp] theorem finishStats_work (s : State) : (finishStats s).work = s.work := by
  unfold finishStats; split <;> rfl
@[simp] theorem finishStats_caller (s : State) : (finishStats s).caller = s.caller := by
  unfold finishStats; split <;> rfl
@[simp] theorem finishStats_result (s : State) : (finishStats s).result = s.result := by
  unfold finishStats; split <;> rfl
@[simp] theorem finishStats_freeCount (s : State) : (finishStats s).freeCount = s.freeCount := by
  unfold finishStats; split <;> rfl

/-! ### `rearmAdvance` -/

@[simp] theorem rearmAdvance_cfg (s : State) : (rearmAdvance s).cfg = s.cfg := by
  simp [rearmAdvance]
@[simp] theorem rearmAdvance_txNext (s : State) : (rearmAdvance s).txNext = s.txNext := by
  simp [rearmAdvance]
@[simp] theorem rearmAdvance_txDirty (s : State) : (rearmAdvance s).txDirty = s.txDirty := by
  simp [rearmAdvance]
@[simp] theorem rearmAdvance_txFree (s : State) : (rearmAdvance s).txFree = s.txFree := by
  simp [rearmAdvance]
@[simp] theorem rearmAdvance_txStalled (s : State) : (rearmAdvance s).txStalled = s.txStalled := by
  simp [rearmAdvance]
@[simp] theorem rearmAdvance_txqEnabled (s : State) : (rearmAdvance s).txqEnabled = s.txqEnabled := by
  simp [rearmAdvance]
@[simp] theorem rearmAdvance_txDoneCount (s : State) : (rearmAdvance s).txDoneCount = s.txDoneCount := by
  simp [rearmAdvance]
@[simp] theorem rearmAdvance_txDoneLast (s : State) : (rearmAdvance s).txDoneLast = s.txDoneLast := by
  simp [rearmAdvance]
@[simp] theorem rearmAdvance_deadlockWarn (s : State) : (rearmAdvance s).deadlockWarn = s.deadlockWarn := by
  simp [rearmAdvance]
@[simp] theorem rearmAdvance_enabled (s : State) : (rearmAdvance s).enabled = s.enabled := by
  simp [rearmAdvance]
@[simp] theorem rearmAdvance_link (s : State) : (rearmAdvance s).link = s.link := by
  simp [rearmAdvance]
@[simp] theorem rearmAdvance_txSlot (s : State) : (rearmAdvance s).txSlot = s.txSlot := by
  simp [rearmAdvance]
@[simp] theorem rearmAdvance_rxSlot (s : State) : (rearmAdvance s).rxSlot = s.rxSlot := by
  simp [rearmAdvance]
@[simp] theorem rearmAdvance_txPending (s : State) : (rearmAdvance s).txPending = s.txPending := by
  simp [rearmAdvance]
@[simp] theorem rearmAdvance_ctrResourceErrors (s : State) : (rearmAdvance s).ctrResourceErrors = s.ctrResourceErrors := by
  simp [rearmAdvance]
@[simp] theorem rearmAdvance_ctrFrameTooLong (s : State) : (rearmAdvance s).ctrFrameTooLong = s.ctrFrameTooLong := by
  simp [rearmAdvance]
@[simp] theorem rearmAdvance_ctrTimeouts (s : State) : (rearmAdvance s).ctrTimeouts = s.ctrTimeouts := by
  simp [rearmAdvance]
@[simp] theorem rearmAdvance_ctrResets (s : State) : (rearmAdvance s).ctrResets = s.ctrResets := by
  simp [rearmAdvance]
@[simp] theorem rearmAdvance_ctrTxDrops (s : State) : (rearmAdvance s).ctrTxDrops = s.ctrTxDrops := by
  simp [rearmAdvance]
@[simp] theorem rearmAdvance_statsPending (s : State) : (rearmAdvance s).statsPending = s.statsPending := by
  simp [rearmAdvance]
@[simp] theorem rearmAdvance_txMem (s : State) : (rearmAdvance s).txMem = s.txMem := by
  simp [rearmAdvance]
@[simp] theorem rearmAdvance_rxMem (s : State) : (rearmAdvance s).rxMem = s.rxMem := by
  simp [rearmAdvance]
@[simp] theorem rearmAdvance_stMem (s : State) : (rearmAdvance s).stMem = s.stMem := by
  simp [rearmAdvance]
@[simp] theorem rearmAdvance_regs (s : State) : (rearmAdvance s).regs = s.regs := by
  simp [rearmAdvance]
@[simp] theorem rearmAdvance_timerOn (s : State) : (rearmAdvance s).timerOn = s.timerOn := by
  simp [rearmAdvance]
@[simp] theorem rearmAdvance_everEnabled (s : State) : (rearmAdvance s).everEnabled = s.everEnabled := by
  simp [rearmAdvance]
@[simp] theorem rearmAdvance_txUnsubmitted (s : State) : (rearmAdvance s).txUnsubmitted = s.txUnsubmitted := by
  simp [rearmAdvance]
@[simp] theorem rearmAdvance_heldPackets (s : State) : (rearmAdvance s).heldPackets = s.heldPackets := by
  simp [rearmAdvance]
@[simp] theorem rearmAdvance_heldBuffers (s : State) : (rearmAdvance s).heldBuffers = s.heldBuffers := by
  simp [rearmAdvance]
@[simp] theorem rearmAdvance_hostBufs (s : State) : (rearmAdvance s).hostBufs = s.hostBufs := by
  simp [rearmAdvance]
@[simp] theorem rearmAdvance_nicTxBusy (s : State) : (rearmAdvance s).nicTxBusy = s.nicTxBusy := by
  simp [rearmAdvance]
@[simp] theorem rearmAdvance_irqPending (s : State) : (rearmAdvance s).irqPending = s.irqPending := by
  simp [rearmAdvance]
@[simp] theorem rearmAdvance_nicSeen (s : State) : (rearmAdvance s).nicSeen = s.nicSeen := by
  simp [rearmAdvance]
@[simp] theorem rearmAdvance_input (s : State) : (rearmAdvance s).input = s.input := by
  simp [rearmAdvance]
@[simp] theorem rearmAdvance_acquisitions (s : State) : (rearmAdvance s).acquisitions = s.acquisitions := by
  simp [rearmAdvance]
@[simp] theorem rearmAdvance_work (s : State) : (rearmAdvance s).work = s.work := by
  simp [rearmAdvance]
@[simp] theorem rearmAdvance_caller (s : State) : (rearmAdvance s).caller = s.caller := by
  simp [rearmAdvance]
@[simp] theorem rearmAdvance_result (s : State) : (rearmAdvance s).result = s.result := by
  simp [rearmAdvance]
@[simp] theorem rearmAdvance_freeCount (s : State) : (rearmAdvance s).freeCount = s.freeCount := by
  simp [rearmAdvance]

/-! ### `firstCounters` -/

@[simp] theorem firstCounters_cfg (s : State) : (firstCounters s).cfg = s.cfg := by
  unfold firstCounters; split <;> rfl
@[simp] theorem firstCounters_mem (s : State) : (firstCounters s).mem = s.mem := by
  unfold firstCounters; split <;> rfl
@[simp] theorem firstCounters_txNext (s : State) : (firstCounters s).txNext = s.txNext := by
  unfold firstCounters; split <;> rfl
@[simp] theorem firstCounters_txDirty (s : State) : (firstCounters s).txDirty = s.txDirty := by
  unfold firstCounters; split <;> rfl
@[simp] theorem firstCounters_txFree (s : State) : (firstCounters s).txFree = s.txFree := by
  unfold firstCounters; split <;> rfl
@[simp] theorem firstCounters_rxIndex (s : State) : (firstCounters s).rxIndex = s.rxIndex := by
  unfold firstCounters; split <;> rfl
@[simp] theorem firstCounters_txStalled (s : State) : (firstCounters s).txStalled = s.txStalled := by
  unfold firstCounters; split <;> rfl
@[simp] theorem firstCounters_txqEnabled (s : State) : (firstCounters s).txqEnabled = s.txqEnabled := by
  unfold firstCounters; split <;> rfl
@[simp] theorem firstCounters_txDoneCount (s : State) : (firstCounters s).txDoneCount = s.txDoneCount := by
  unfold firstCounters; split <;> rfl
@[simp] theorem firstCounters_txDoneLast (s : State) : (firstCounters s).txDoneLast = s.txDoneLast := by
  unfold firstCounters; split <;> rfl
@[simp] theorem firstCounters_deadlockWarn (s : State) : (firstCounters s).deadlockWarn = s.deadlockWarn := by
  unfold firstCounters; split <;> rfl
@[simp] theorem firstCounters_enabled (s : State) : (firstCounters s).enabled = s.enabled := by
  unfold firstCounters; split <;> rfl
@[simp] theorem firstCounters_link (s : State) : (firstCounters s).link = s.link := by
  unfold firstCounters; split <;> rfl
@[simp] theorem firstCounters_txSlot (s : State) : (firstCounters s).txSlot = s.txSlot := by
  unfold firstCounters; split <;> rfl
@[simp] theorem firstCounters_rxSlot (s : State) : (firstCounters s).rxSlot = s.rxSlot := by
  unfold firstCounters; split <;> rfl
@[simp] theorem firstCounters_txPending (s : State) : (firstCounters s).txPending = s.txPending := by
  unfold firstCounters; split <;> rfl
@[simp] theorem firstCounters_statsPending (s : State) : (firstCounters s).statsPending = s.statsPending := by
  unfold firstCounters; split <;> rfl
@[simp] theorem firstCounters_txMem (s : State) : (firstCounters s).txMem = s.txMem := by
  unfold firstCounters; split <;> rfl
@[simp] theorem firstCounters_rxMem (s : State) : (firstCounters s).rxMem = s.rxMem := by
  unfold firstCounters; split <;> rfl
@[simp] theorem firstCounters_stMem (s : State) : (firstCounters s).stMem = s.stMem := by
  unfold firstCounters; split <;> rfl
@[simp] theorem firstCounters_regs (s : State) : (firstCounters s).regs = s.regs := by
  unfold firstCounters; split <;> rfl
@[simp] theorem firstCounters_timerOn (s : State) : (firstCounters s).timerOn = s.timerOn := by
  unfold firstCounters; split <;> rfl
@[simp] theorem firstCounters_everEnabled (s : State) : (firstCounters s).everEnabled = s.everEnabled := by
  unfold firstCounters; split <;> rfl
@[simp] theorem firstCounters_txUnsubmitted (s : State) : (firstCounters s).txUnsubmitted = s.txUnsubmitted := by
  unfold firstCounters; split <;> rfl
@[simp] theorem firstCounters_heldPackets (s : State) : (firstCounters s).heldPackets = s.heldPackets := by
  unfold firstCounters; split <;> rfl
@[simp] theorem firstCounters_heldBuffers (s : State) : (firstCounters s).heldBuffers = s.heldBuffers := by
  unfold firstCounters; split <;> rfl
@[simp] theorem firstCounters_hostBufs (s : State) : (firstCounters s).hostBufs = s.hostBufs := by
  unfold firstCounters; split <;> rfl
@[simp] theorem firstCounters_nicTxBusy (s : State) : (firstCounters s).nicTxBusy = s.nicTxBusy := by
  unfold firstCounters; split <;> rfl
@[simp] theorem firstCounters_irqPending (s : State) : (firstCounters s).irqPending = s.irqPending := by
  unfold firstCounters; split <;> rfl
@[simp] theorem firstCounters_nicSeen (s : State) : (firstCounters s).nicSeen = s.nicSeen := by
  unfold firstCounters; split <;> rfl
@[simp] theorem firstCounters_input (s : State) : (firstCounters s).input = s.input := by
  unfold firstCounters; split <;> rfl
@[simp] theorem firstCounters_acquisitions (s : State) : (firstCounters s).acquisitions = s.acquisitions := by
  unfold firstCounters; split <;> rfl
@[simp] theorem firstCounters_work (s : State) : (firstCounters s).work = s.work := by
  unfold firstCounters; split <;> rfl
@[simp] theorem firstCounters_caller (s : State) : (firstCounters s).caller = s.caller := by
  unfold firstCounters; split <;> rfl
@[simp] theorem firstCounters_result (s : State) : (firstCounters s).result = s.result := by
  unfold firstCounters; split <;> rfl
@[simp] theorem firstCounters_history (s : State) : (firstCounters s).history = s.history := by
  unfold firstCounters; split <;> rfl
@[simp] theorem firstCounters_freeCount (s : State) : (firstCounters s).freeCount = s.freeCount := by
  unfold firstCounters; split <;> rfl

end Sys2Proof.Machine
end

