-- ==== Sys2Proof/Laws/Ops.lean ====
section
/-! SUPPORT. Everything each shared operation can do, said once: sequencing, the guard, freeing, the
descriptor write and what memory reads after it, the ring clears. Later proofs cite these. -/

namespace Sys2Proof.Machine

/-! ### Sequencing and the guard -/

@[simp] theorem andThen_next {α β : Type} (a : α) (f : α → Out β) : andThen (.next a) f = f a := rfl
@[simp] theorem andThen_fault {α β : Type} (r : Fault) (f : α → Out β) : andThen (.fault r) f = .fault r := rfl
@[simp] theorem andThen_refused {α β : Type} (r : Refusal) (f : α → Out β) : andThen (.refused r) f = .refused r := rfl

/-- A sequence answers next exactly when both parts do. -/
theorem andThen_eq_next {α β : Type} {x : Out α} {f : α → Out β} {b : β} :
    andThen x f = .next b ↔ ∃ a, x = .next a ∧ f a = .next b := by
  cases x <;> simp

/-- A sequence faults when its first part does, or when its second does after it. -/
theorem andThen_eq_fault {α β : Type} {x : Out α} {f : α → Out β} {r : Fault} :
    andThen x f = .fault r ↔ x = .fault r ∨ ∃ a, x = .next a ∧ f a = .fault r := by
  cases x <;> simp

theorem guarded_ok {agents : List Agent} {need : Need} {s : State} {body : State → Out State}
    (h : precheck agents need s = none) (ho : s.overlaps = false) : guarded agents need s body = body s := by
  simp [guarded, guardedBy, h, ho]

theorem guarded_refused {agents : List Agent} {need : Need} {s : State} {body : State → Out State}
    {r : RefusedReason} (h : precheck agents need s = some r) :
    guarded agents need s body = .next (s.refuse r) := by simp [guarded, guardedBy, h]

/-- Inside an operation in progress the serialized domain has no other (R210 H6). -/
theorem guarded_overlap {agents : List Agent} {need : Need} {s : State} {body : State → Out State}
    (h : precheck agents need s = none) (ho : s.overlaps = true) :
    guarded agents need s body = .refused .overlap := by simp [guarded, guardedBy, h, ho]

/-- No precondition is broken, and the agent overlaps no operation in progress: the body runs. -/
def Admitted (agents : List Agent) (need : Need) (s : State) : Prop :=
  precheck agents need s = none ∧ s.overlaps = false

/-- A guarded operation answers next with the refusal recorded, or with what its body gives. -/
theorem guardedBy_eq_next {refusal : RefusedReason → State → State} {agents : List Agent} {need : Need} {s t : State}
    {body : State → Out State} (h : guardedBy refusal agents need s body = .next t) :
    (∃ r, precheck agents need s = some r ∧ t = refusal r s) ∨
      (Admitted agents need s ∧ body s = .next t) := by
  rw [guardedBy] at h
  split at h
  · rename_i r hr
    cases h
    exact .inl ⟨r, hr, rfl⟩
  · rename_i hn
    split at h
    · cases h
    · exact .inr ⟨⟨hn, by simpa using ‹¬ s.overlaps = true›⟩, h⟩

theorem guarded_eq_next {agents : List Agent} {need : Need} {s t : State} {body : State → Out State}
    (h : guarded agents need s body = .next t) :
    (∃ r, precheck agents need s = some r ∧ t = s.refuse r) ∨
      (Admitted agents need s ∧ body s = .next t) := guardedBy_eq_next h

/-- A guarded operation faults only where its body does. -/
theorem guardedBy_eq_fault {refusal : RefusedReason → State → State} {agents : List Agent} {need : Need} {s : State}
    {body : State → Out State} {r : Fault} (h : guardedBy refusal agents need s body = .fault r) :
    Admitted agents need s ∧ body s = .fault r := by
  rw [guardedBy] at h
  split at h
  · cases h
  · rename_i hn
    split at h
    · cases h
    · exact ⟨⟨hn, by simpa using ‹¬ s.overlaps = true›⟩, h⟩

/-- An agent outside the serialized domain overlaps nothing, nor does one that finds it idle. -/
theorem overlaps_eq_false {s : State} : s.overlaps = false ↔ (inDomain s.caller = true → s.work = []) := by
  unfold State.overlaps; cases inDomain s.caller <;> simp

theorem Acting.overlaps {a : Agent} {s : State} (h : Acting a s) : s.overlaps = false :=
  overlaps_eq_false.2 fun hd => h.alone (h.caller ▸ hd)

/-- What the guard passes. -/
theorem precheck_eq_none {agents : List Agent} {need : Need} {s : State} :
    precheck agents need s = none ↔ s.caller ∈ agents ∧ cfgWf s.cfg = true ∧
      (match need with
        | .always => True
        | .enabled => s.enabled = true
        | .tx => s.enabled = true ∧ TxUsable s
        | .rx => s.enabled = true ∧ RxUsable s
        | .both => s.enabled = true ∧ TxUsable s ∧ RxUsable s ∧ InitUsable s) := by
  unfold precheck TxUsable RxUsable InitUsable StUsable initProblem
  by_cases h1 : s.caller ∈ agents
  · by_cases h2 : cfgWf s.cfg = true
    · cases need <;> by_cases h3 : s.enabled = true <;>
        simp [h1, h2, h3, Option.or_eq_none_iff]
    · simp [h1, h2]
  · simp [h1]

theorem precheck_wrongAgent {agents : List Agent} {need : Need} {s : State} (h : s.caller ∉ agents) :
    precheck agents need s = some .wrongAgent := by simp [precheck, h]

/-! ### Addresses and reads depend on the configuration, the ring memory and memory alone -/

theorem descAddr_congr {s t : State} (hc : t.cfg = s.cfg) (ht : t.txMem = s.txMem) (hr : t.rxMem = s.rxMem)
    (ring : Ring) (i : Nat) (f : DescField) : t.descAddr ring i f = s.descAddr ring i f := by
  simp only [State.descAddr, State.base, State.ringMem, hc, ht, hr]

theorem desc32_congr {s t : State} (hc : t.cfg = s.cfg) (ht : t.txMem = s.txMem) (hr : t.rxMem = s.rxMem)
    (hm : t.mem = s.mem) (ring : Ring) (i : Nat) (f : DescField) : t.desc32 ring i f = s.desc32 ring i f := by
  simp only [State.desc32, hm, descAddr_congr hc ht hr]

theorem nicOwned_congr {s t : State} (hc : t.cfg = s.cfg) (ht : t.txMem = s.txMem) (hr : t.rxMem = s.rxMem)
    (hm : t.mem = s.mem) (ring : Ring) (i : Nat) : t.nicOwned ring i = s.nicOwned ring i := by
  simp only [State.nicOwned, desc32_congr hc ht hr hm, hc]

@[simp] theorem emit_descAddr (s : State) (e : Event) (ring : Ring) (i : Nat) (f : DescField) :
    (s.emit e).descAddr ring i f = s.descAddr ring i f := rfl
@[simp] theorem noteRead_nicOwned (s : State) (r : Ring) (j : Nat) (g : DescField) (ring : Ring) (i : Nat) :
    (s.noteRead r j g).nicOwned ring i = s.nicOwned ring i := rfl
@[simp] theorem descWrite32_descAddr (s : State) (r : Ring) (j : Nat) (g : DescField) (v : Word) (ring : Ring)
    (i : Nat) (f : DescField) : (s.descWrite32 r j g v).descAddr ring i f = s.descAddr ring i f := rfl
@[simp] theorem descWriteAddr_descAddr (s : State) (r : Ring) (j : Nat) (v : Addr) (ring : Ring) (i : Nat)
    (f : DescField) : (s.descWriteAddr r j v).descAddr ring i f = s.descAddr ring i f := rfl

/-! ### The descriptor write (R112) -/

/-- The events of RING.WRITE, in order. -/
def writeEvents (c : Cfg) (ring : Ring) (i : Nat) (seg : Segment) (flags1 flags2 : Word) (own : Bool) : List Event :=
  [.descWrite ring i .addr seg.addr,
   .descWrite ring i .opts1 ((opts1Word c ring i 0#32 seg.len).setWidth 64),
   .descWrite ring i .opts2 (flags2.setWidth 64),
   .descWrite ring i .opts1 ((opts1Word c ring i flags1 seg.len).setWidth 64)] ++
  if own then [.release, .descWrite ring i .opts1 ((ownedWord c ring i flags1 seg.len).setWidth 64)] else []

/-- The word a descriptor write leaves in `opts1`. -/
def finalWord (c : Cfg) (ring : Ring) (i : Nat) (flags1 : Word) (len : Nat) (own : Bool) : Word :=
  if own then ownedWord c ring i flags1 len else opts1Word c ring i flags1 len

/-- A descriptor write touches memory and the history, nothing else. -/
theorem writeDesc_shape (ring : Ring) (i : Nat) (seg : Segment) (flags1 flags2 : Word) (own : Bool) (s : State) :
    writeDesc ring i seg flags1 flags2 own s =
      { s with
        mem := (writeDesc ring i seg flags1 flags2 own s).mem
        history := (writeDesc ring i seg flags1 flags2 own s).history } := by
  apply State.eq_of_fields <;> simp

theorem writeDesc_history (ring : Ring) (i : Nat) (seg : Segment) (flags1 flags2 : Word) (own : Bool) (s : State) :
    (writeDesc ring i seg flags1 flags2 own s).history =
      s.history ++ writeEvents s.cfg ring i seg flags1 flags2 own := by
  cases own <;> simp only [writeDesc, writeEvents, if_true, Bool.false_eq_true, if_false,
    State.descWrite32_history, State.descWriteAddr_history, State.emit_history, List.append_assoc] <;> rfl

theorem writeDesc_eq (ring : Ring) (i : Nat) (seg : Segment) (flags1 flags2 : Word) (own : Bool) (s : State) :
    writeDesc ring i seg flags1 flags2 own s =
      { s with
        mem := (writeDesc ring i seg flags1 flags2 own s).mem
        history := s.history ++ writeEvents s.cfg ring i seg flags1 flags2 own } := by
  rw [← writeDesc_history]; exact writeDesc_shape ..

/-- Its stores keep memory in canonical form. -/
theorem writeDesc_wf {s : State} (h : s.mem.wf) (ring : Ring) (i : Nat) (seg : Segment) (flags1 flags2 : Word)
    (own : Bool) : (writeDesc ring i seg flags1 flags2 own s).mem.wf := by
  have w1 := Memory.wf_write64 h (s.descAddr ring i .addr) seg.addr
  have w2 := fun v => Memory.wf_write32 w1 (s.descAddr ring i .opts1) v
  have w3 := fun v => Memory.wf_write32 (w2 v) (s.descAddr ring i .opts2) flags2
  have w4 := fun v v' => Memory.wf_write32 (w3 v) (s.descAddr ring i .opts1) v'
  cases own <;> simp only [writeDesc, if_true, Bool.false_eq_true, if_false, State.descWrite32_mem,
    State.descWriteAddr_mem, State.emit_mem, descWrite32_descAddr, descWriteAddr_descAddr, emit_descAddr]
  · exact w4 _ _
  · exact Memory.wf_write32 (w4 _ _) _ _

/-- Bytes outside the descriptor are left alone. -/
theorem writeDesc_read_of_ne {s : State} (hw : s.mem.wf) (hl : OffsetsOk s.cfg.layout) {ring : Ring} {i : Nat}
    (seg : Segment) (flags1 flags2 : Word) (own : Bool) {a : Nat} (ha : ¬ s.inDesc ring i a) :
    (writeDesc ring i seg flags1 flags2 own s).mem.read a = s.mem.read a := by
  obtain ⟨h1, h2, h3, -, -, -⟩ := hl
  simp only [State.inDesc, descSize] at ha
  have w1 := Memory.wf_write64 hw (s.descAddr ring i .addr) seg.addr
  have w2 := fun v => Memory.wf_write32 w1 (s.descAddr ring i .opts1) v
  have w3 := fun v => Memory.wf_write32 (w2 v) (s.descAddr ring i .opts2) flags2
  have w4 := fun v v' => Memory.wf_write32 (w3 v) (s.descAddr ring i .opts1) v'
  have e1 : s.descAddr ring i .opts1 = (s.base ring).toNat + 16 * i + s.cfg.layout.offOpts1 := rfl
  have e2 : s.descAddr ring i .opts2 = (s.base ring).toNat + 16 * i + s.cfg.layout.offOpts2 := rfl
  have e3 : s.descAddr ring i .addr = (s.base ring).toNat + 16 * i + s.cfg.layout.offAddr := rfl
  cases own <;> simp only [writeDesc, if_true, Bool.false_eq_true, if_false, State.descWrite32_mem,
    State.descWriteAddr_mem, State.emit_mem, descWrite32_descAddr, descWriteAddr_descAddr, emit_descAddr]
  · rw [Memory.read_write32_of_ne (w3 _) _ _ (by omega), Memory.read_write32_of_ne (w2 _) _ _ (by omega),
      Memory.read_write32_of_ne w1 _ _ (by omega), Memory.read_write64_of_ne hw _ _ (by omega)]
  · rw [Memory.read_write32_of_ne (w4 _ _) _ _ (by omega), Memory.read_write32_of_ne (w3 _) _ _ (by omega),
      Memory.read_write32_of_ne (w2 _) _ _ (by omega), Memory.read_write32_of_ne w1 _ _ (by omega),
      Memory.read_write64_of_ne hw _ _ (by omega)]

/-- What the three fields of the descriptor read as afterwards. -/
theorem writeDesc_fields {s : State} (hw : s.mem.wf) (hl : OffsetsOk s.cfg.layout) (ring : Ring) (i : Nat)
    (seg : Segment) (flags1 flags2 : Word) (own : Bool) :
    (writeDesc ring i seg flags1 flags2 own s).desc32 ring i .opts1 = finalWord s.cfg ring i flags1 seg.len own ∧
    (writeDesc ring i seg flags1 flags2 own s).desc32 ring i .opts2 = flags2 ∧
    (writeDesc ring i seg flags1 flags2 own s).descBuf ring i = seg.addr := by
  obtain ⟨h1, h2, h3, h12, h1a, h2a⟩ := hl
  have w1 := Memory.wf_write64 hw (s.descAddr ring i .addr) seg.addr
  have w2 := fun v => Memory.wf_write32 w1 (s.descAddr ring i .opts1) v
  have w3 := fun v => Memory.wf_write32 (w2 v) (s.descAddr ring i .opts2) flags2
  have w4 := fun v v' => Memory.wf_write32 (w3 v) (s.descAddr ring i .opts1) v'
  have e1 : s.descAddr ring i .opts1 = (s.base ring).toNat + 16 * i + s.cfg.layout.offOpts1 := rfl
  have e2 : s.descAddr ring i .opts2 = (s.base ring).toNat + 16 * i + s.cfg.layout.offOpts2 := rfl
  have e3 : s.descAddr ring i .addr = (s.base ring).toNat + 16 * i + s.cfg.layout.offAddr := rfl
  have hA : ∀ f, (writeDesc ring i seg flags1 flags2 own s).descAddr ring i f = s.descAddr ring i f := fun f => by
    rw [writeDesc_eq]; rfl
  simp only [State.desc32, State.descBuf, hA]
  cases own <;> simp only [finalWord, writeDesc, if_true, Bool.false_eq_true, if_false, State.descWrite32_mem,
    State.descWriteAddr_mem, State.emit_mem, descWrite32_descAddr, descWriteAddr_descAddr, emit_descAddr]
  · refine ⟨Memory.read32_write32 (w3 _) _ _, ?_, ?_⟩
    · rw [Memory.read32_write32_of_ne (w3 _) _ _ (by omega), Memory.read32_write32 (w2 _)]
    · rw [Memory.read64_write32_of_ne (w3 _) _ _ (by omega), Memory.read64_write32_of_ne (w2 _) _ _ (by omega),
        Memory.read64_write32_of_ne w1 _ _ (by omega), Memory.read64_write64 hw]
  · refine ⟨Memory.read32_write32 (w4 _ _) _ _, ?_, ?_⟩
    · rw [Memory.read32_write32_of_ne (w4 _ _) _ _ (by omega), Memory.read32_write32_of_ne (w3 _) _ _ (by omega),
        Memory.read32_write32 (w2 _)]
    · rw [Memory.read64_write32_of_ne (w4 _ _) _ _ (by omega), Memory.read64_write32_of_ne (w3 _) _ _ (by omega),
        Memory.read64_write32_of_ne (w2 _) _ _ (by omega), Memory.read64_write32_of_ne w1 _ _ (by omega),
        Memory.read64_write64 hw]

/-! ### Freeing -/

/-- `FreePacket` answers next exactly for a handle the engine holds; then the handle is gone, and the
history has grown by the completion of its mapping, if it had one, and the free. -/
theorem freePacket_eq_next {h : Handle} {s t : State} (hf : freePacket h s = .next t) :
    s.holdsPacket h = true ∧ t = (dropPacket h (completePacket h s)).emit (.freePacket h) := by
  rw [freePacket] at hf
  split at hf
  · cases hf; exact ⟨‹_›, rfl⟩
  · cases hf

theorem freePacket_of_held {h : Handle} {s : State} (hh : s.holdsPacket h = true) :
    freePacket h s = .next ((dropPacket h (completePacket h s)).emit (.freePacket h)) := by simp [freePacket, hh]

/-- A freed packet touches the held packets and the history, nothing else. -/
theorem completePacket_eq (h : Handle) (s : State) :
    completePacket h s = { s with history := (completePacket h s).history } := by
  unfold completePacket; split <;> rfl

theorem freePacket_frame {h : Handle} {s t : State} (hf : freePacket h s = .next t) :
    t = { s with heldPackets := s.heldPackets.filter (·.h != h), history := t.history } := by
  obtain ⟨-, rfl⟩ := freePacket_eq_next hf
  rw [completePacket_eq]; rfl

/-- A packet the engine has sent is freed like any other, unless the NIC may still be reading it (U14, U15). -/
theorem freeSent_eq_next {h : Handle} {s t : State} (hf : freeSent h s = .next t) :
    s.nicTxBusy ≠ some h ∧ freePacket h s = .next t := by
  rw [freeSent] at hf
  split at hf
  · cases hf
  · exact ⟨‹_›, hf⟩

theorem freeSent_of_idle {h : Handle} {s : State} (hb : s.nicTxBusy ≠ some h) : freeSent h s = freePacket h s := by
  simp [freeSent, hb]

theorem freeSent_of_busy {h : Handle} {s : State} (hb : s.nicTxBusy = some h) :
    freeSent h s = .fault .freedMemoryRead := by simp [freeSent, hb]

@[simp] theorem freeSentOpt_none (s : State) : freeSentOpt none s = .next s := rfl
@[simp] theorem freeSentOpt_some (h : Handle) (s : State) : freeSentOpt (some h) s = freeSent h s := rfl

/-- `FreeBuffer` answers next exactly for a handle the engine holds. -/
theorem freeBuffer_eq_next {h : Handle} {s t : State} (hf : freeBuffer h s = .next t) :
    h ∈ s.heldBuffers ∧ t = { s with
      heldBuffers := s.heldBuffers.erase h
      history := s.history ++ [.dmaComplete (.buffer h), .freeBuffer h] } := by
  rw [freeBuffer] at hf
  split at hf
  · cases hf; exact ⟨‹_›, rfl⟩
  · cases hf

theorem freeBuffer_of_held {h : Handle} {s : State} (hh : h ∈ s.heldBuffers) :
    freeBuffer h s = .next { s with
      heldBuffers := s.heldBuffers.erase h
      history := s.history ++ [.dmaComplete (.buffer h), .freeBuffer h] } := by simp [freeBuffer, hh]

end Sys2Proof.Machine
end

