-- ==== Sys2Proof/Laws/Frames.lean ====
section
/-! SUPPORT. The frame of each compound operation: if it answers next, the new state is the old one but
for the fields named. Later proofs cite these and unfold nothing. -/

namespace Sys2Proof.Machine

theorem completePacket_frame (h : Handle) (s : State) : ∃ hist, completePacket h s = { s with history := hist } := by
  unfold completePacket; split
  · exact ⟨_, rfl⟩
  · exact ⟨s.history, rfl⟩

/-- Freeing a packet changes the held packets and the history. -/
theorem freePacket_shape {h : Handle} {s t : State} (hf : freePacket h s = .next t) :
    s.holdsPacket h = true ∧ ∃ hist, t = { s with
      heldPackets := s.heldPackets.filter (·.h != h), history := hist } := by
  obtain ⟨hh, rfl⟩ := freePacket_eq_next hf
  obtain ⟨hist, hc⟩ := completePacket_frame h s
  exact ⟨hh, _, by rw [hc]; rfl⟩

theorem freeSent_shape {h : Handle} {s t : State} (hf : freeSent h s = .next t) :
    s.nicTxBusy ≠ some h ∧ s.holdsPacket h = true ∧ ∃ hist, t = { s with
      heldPackets := s.heldPackets.filter (·.h != h), history := hist } :=
  ⟨(freeSent_eq_next hf).1, freePacket_shape (freeSent_eq_next hf).2⟩

theorem freeSentOpt_shape {o : Option Handle} {s t : State} (hf : freeSentOpt o s = .next t) :
    ∃ held hist, t = { s with heldPackets := held, history := hist } := by
  cases o with
  | none => cases hf; exact ⟨s.heldPackets, s.history, rfl⟩
  | some h => obtain ⟨-, -, hist, rfl⟩ := freeSent_shape hf; exact ⟨_, hist, rfl⟩

/-! ### The ring clears -/

/-- The three stores of RING.CLEAR_TX to one descriptor. -/
def clearTxWords (i : Nat) (s : State) : State :=
  ((s.descWrite32 .tx i .opts1 (eorBit s.cfg .tx i)).descWrite32 .tx i .opts2 0#32).descWriteAddr .tx i 0#64

theorem clearTxOne_eq (i : Nat) (s : State) : clearTxOne i s =
    match (clearTxWords i s).txPkt i with
    | some h => andThen (freeSent h (clearTxWords i s)) fun s4 => .next { s4 with txSlot := s4.txSlot.set i none }
    | none => .next (clearTxWords i s) := rfl

theorem clearTxOne_shape {i : Nat} {s t : State} (h : clearTxOne i s = .next t) :
    ∃ mem hist slots held, t = { s with
      mem := mem, history := hist, txSlot := slots, heldPackets := held } := by
  obtain ⟨m, hist, hs⟩ : ∃ mem hist, clearTxWords i s = { s with mem := mem, history := hist } :=
    ⟨_, _, by apply State.eq_of_fields <;> rfl⟩
  rw [clearTxOne_eq, hs] at h
  split at h
  · obtain ⟨u, hu, h⟩ := andThen_eq_next.1 h
    obtain ⟨-, -, hist, rfl⟩ := freeSent_shape hu
    cases h
    exact ⟨_, hist, _, _, rfl⟩
  · cases h
    exact ⟨_, _, s.txSlot, s.heldPackets, rfl⟩

theorem clearTxLoop_shape {k i : Nat} {s t : State} (h : clearTxLoop k i s = .next t) :
    ∃ mem hist slots held, t = { s with
      mem := mem, history := hist, txSlot := slots, heldPackets := held } := by
  induction k generalizing i s with
  | zero => cases h; exact ⟨t.mem, t.history, t.txSlot, t.heldPackets, rfl⟩
  | succ k ih =>
    obtain ⟨u, hu, h⟩ := andThen_eq_next.1 h
    obtain ⟨m, hist, sl, he, rfl⟩ := clearTxOne_shape hu
    obtain ⟨m', hist', sl', he', rfl⟩ := ih h
    exact ⟨m', hist', sl', he', rfl⟩

/-- RING.CLEAR_TX: the registers of R116, memory, the slots, the held packets, the history. -/
theorem clearTx_shape {s t : State} (h : clearTx s = .next t) :
    ∃ mem hist slots held, t = { resetTxRegs s with
      mem := mem, history := hist, txSlot := slots, heldPackets := held } := by
  obtain ⟨u, hu, h⟩ := andThen_eq_next.1 h
  obtain ⟨v, hv, h⟩ := andThen_eq_next.1 h
  obtain ⟨m, hist, sl, he, rfl⟩ := clearTxLoop_shape hu
  obtain ⟨he', hist', rfl⟩ := freeSentOpt_shape hv
  cases h
  exact ⟨m, hist', sl, he', rfl⟩

theorem clearRxLoop_shape (k i : Nat) (s : State) :
    ∃ mem hist, clearRxLoop k i s = { s with mem := mem, history := hist } :=
  ⟨(clearRxLoop k i s).mem, (clearRxLoop k i s).history, by apply State.eq_of_fields <;> simp⟩

theorem clearRx_shape (s : State) :
    ∃ mem hist, clearRx s = { s with mem := mem, history := hist, rxIndex := 0 } := by
  obtain ⟨m, hist, h⟩ := clearRxLoop_shape s.cfg.nRx 0 s
  exact ⟨m, hist, by rw [clearRx, h]⟩

theorem rearmAdvance_shape (s : State) : ∃ mem hist, rearmAdvance s =
    { s with mem := mem, history := hist, rxIndex := (s.rxIndex + 1) % s.cfg.nRx } :=
  ⟨(rearmAdvance s).mem, (rearmAdvance s).history, by
    apply State.eq_of_fields <;> simp
    simp [rearmAdvance]⟩

/-- The registers a full reset leaves: both ring bases and the mask rewritten, the statistics base too where the
configuration says so, and else free. -/
def resetRegs (s : State) : NicRegs :=
  { intrMask := allCauses s.cfg.reg, txRingBase := s.base .tx, rxRingBase := s.base .rx,
    statsBase := if s.cfg.reg.statsAtInit then statsBase s else Config.freeReg (s.freeCount + 2) }

/-- All that passing the statistics address does (R57). -/
theorem passStats_eq (s : State) : passStats s = { s with
    regs := { s.regs with statsBase := if s.cfg.reg.statsAtInit then statsBase s else s.regs.statsBase }
    history := s.history ++
      if s.cfg.reg.statsAtInit then halves s.cfg.reg s.cfg.reg.statsBase (statsBase s) else [] } := by
  unfold passStats writeStatsBase
  split <;> simp

/-- All that "reinitialize chip registers" does (R190 step 5). -/
theorem reinitRegs_eq (s : State) : reinitRegs s = { s with
    regs := { s.regs with
      intrMask := allCauses s.cfg.reg, txRingBase := s.base .tx, rxRingBase := s.base .rx
      statsBase := if s.cfg.reg.statsAtInit then statsBase s else s.regs.statsBase }
    history := s.history ++ (.applyChipQuirks :: halves s.cfg.reg s.cfg.reg.txRingBase (s.base .tx) ++
      halves s.cfg.reg s.cfg.reg.rxRingBase (s.base .rx) ++
      (if s.cfg.reg.statsAtInit then halves s.cfg.reg s.cfg.reg.statsBase (statsBase s) else []) ++
      [.regWrite s.cfg.reg.intrMask 16 ((allCauses s.cfg.reg).setWidth 64)]) } := by
  simp only [reinitRegs, passStats_eq]
  apply State.eq_of_fields <;> first | rfl | skip
  simp only [writeIntrMask, State.emit, List.append_assoc, List.cons_append, List.nil_append]; rfl

/-- RESET.FULL from its upcall on (R190): what it writes is what the rule lists. -/
theorem fullReset_shape {s t : State} (h : fullReset s = .next t) :
    ∃ mem hist slots held, t = { resetTxRegs s with
      mem := mem, history := hist, txSlot := slots, heldPackets := held
      rxIndex := 0
      txqEnabled := (s.link.up || s.txqEnabled)
      statsPending := false
      irqPending := CauseSet.empty
      nicTxBusy := none
      nicSeen := []
      regs := resetRegs s
      freeCount := s.freeCount + 3 } := by
  obtain ⟨u, hu, h⟩ := andThen_eq_next.1 h
  obtain ⟨m, hist, sl, he, rfl⟩ := clearTx_shape hu
  simp only at h
  obtain ⟨m', hist', hr⟩ := clearRx_shape { resetTxRegs (nicReset (flushQueue s)) with
    mem := m, history := hist, txSlot := sl, heldPackets := he }
  rw [hr] at h
  generalize hg : reinitRegs _ = g at h
  split at h
  · rename_i hl
    rw [reinitRegs_eq] at hg; subst hg
    cases h
    have hl' : s.link.up = true := hl
    exact ⟨m', _, sl, he, by rw [hl']; rfl⟩
  · rename_i hl
    rw [reinitRegs_eq] at hg; subst hg
    cases h
    have hl' : s.link.up = false := by simpa using hl
    exact ⟨m', _, sl, he, by rw [hl']; rfl⟩

/-! ### Transmit -/

/-- One visit of TX.IRQ (R149). -/
theorem visitTx_shape {i : Nat} {s t : State} (h : visitTx i s = .next t) :
    ∃ pend slots held hist, t = { s with
      txPending := pend, txSlot := slots, heldPackets := held, history := hist } := by
  obtain ⟨u, hu, h⟩ := andThen_eq_next.1 h
  obtain ⟨he, hist, rfl⟩ := freeSentOpt_shape hu
  simp only at h
  split at h <;> cases h
  · exact ⟨_, _, he, hist, rfl⟩
  · exact ⟨_, s.txSlot, he, hist, rfl⟩

/-- One round of the scan with any visit of that shape. -/
theorem reclaimOne_shape {visit : Nat → State → Out State}
    (hv : ∀ i s t, visit i s = .next t → ∃ pend slots held hist, t = { s with
      txPending := pend, txSlot := slots, heldPackets := held, history := hist })
    {s : State} {r : State × Bool} (h : reclaimOne visit s = .next r) :
    ∃ pend slots held hist dirty free count unsub, r.1 = { s with
      txPending := pend, txSlot := slots, heldPackets := held, history := hist
      txDirty := dirty, txFree := free, txDoneCount := count, txUnsubmitted := unsub } := by
  simp only [reclaimOne] at h
  split at h
  · cases h
    exact ⟨s.txPending, s.txSlot, s.heldPackets, _, s.txDirty, s.txFree, s.txDoneCount, s.txUnsubmitted, rfl⟩
  · obtain ⟨u, hu, h⟩ := andThen_eq_next.1 h
    obtain ⟨p, sl, he, hist, rfl⟩ := hv _ _ _ hu
    cases h
    exact ⟨p, sl, he, hist, _, _, _, _, rfl⟩

/-- RING.RECLAIM without a visit. -/
theorem reclaimLoop_shape {k : Nat} {done : List Nat} {s : State} {r : State × List Nat}
    (h : reclaimLoop k done s = .next r) :
    ∃ hist dirty free count unsub, r.1 = { s with
      history := hist, txDirty := dirty, txFree := free, txDoneCount := count, txUnsubmitted := unsub } := by
  induction k generalizing done s with
  | zero => cases h; exact ⟨s.history, s.txDirty, s.txFree, s.txDoneCount, s.txUnsubmitted, rfl⟩
  | succ k ih =>
    obtain ⟨u, hu, h⟩ := andThen_eq_next.1 h
    simp only [reclaimOne, andThen_next] at hu
    split at hu <;> cases hu
    · cases h; exact ⟨_, s.txDirty, s.txFree, s.txDoneCount, s.txUnsubmitted, rfl⟩
    · obtain ⟨hist, d, f, c, us, h'⟩ := ih h
      exact ⟨hist, d, f, c, us, by rw [h']; rfl⟩

theorem unstall_shape (s : State) : ∃ stalled hist, unstall s = { s with txStalled := stalled, history := hist } := by
  unfold unstall; split
  · exact ⟨_, _, rfl⟩
  · exact ⟨s.txStalled, s.history, rfl⟩

theorem endTxPass_shape (old : Nat) (s : State) : ∃ stalled hist, endTxPass old s = { s with
    txStalled := stalled, history := hist } := by
  obtain ⟨st, hist, hu⟩ := unstall_shape s
  simp only [endTxPass, hu]
  split
  · exact ⟨st, _, rfl⟩
  · exact ⟨st, hist, rfl⟩

/-- One step of TX.IRQ (R149 to R151): what the rest of the pass is, or that it has ended. -/
theorem txScan_shape {k old : Nat} {s t : State} (h : txScan k old s = .next t) :
    ∃ pend slots held hist dirty free count unsub stalled l, (l = [] ∨ ∃ j, k = j + 1 ∧ l = [.txScan j old]) ∧
      t = { s with
        txPending := pend, txSlot := slots, heldPackets := held, history := hist
        txDirty := dirty, txFree := free, txDoneCount := count, txUnsubmitted := unsub
        txStalled := stalled, work := l ++ s.work } := by
  unfold txScan at h
  split at h
  · cases h
    obtain ⟨st, hist, he⟩ := endTxPass_shape old s
    exact ⟨s.txPending, s.txSlot, s.heldPackets, hist, s.txDirty, s.txFree, s.txDoneCount, s.txUnsubmitted, st, [],
      .inl rfl, he⟩
  · rename_i k
    obtain ⟨r, hr, h⟩ := andThen_eq_next.1 h
    obtain ⟨p, sl, he, hist, d, f, c, us, h'⟩ := reclaimOne_shape (fun i s t => visitTx_shape) hr
    injection h with h
    subst h
    split
    · exact ⟨p, sl, he, hist, d, f, c, us, s.txStalled, _, .inr ⟨k, rfl, rfl⟩, by rw [h']; rfl⟩
    · obtain ⟨st, hist', hu⟩ := endTxPass_shape old r.1
      exact ⟨p, sl, he, hist', d, f, c, us, st, [], .inl rfl, by rw [hu, h']; rfl⟩

theorem writePacket_shape (first n : Nat) (cmd : Cmd) (vlan : Option Half) (j : Nat) (segs : List Segment)
    (s : State) : ∃ mem hist, writePacket first n cmd vlan j segs s = { s with mem := mem, history := hist } :=
  ⟨(writePacket first n cmd vlan j segs s).mem, (writePacket first n cmd vlan j segs s).history, by
    apply State.eq_of_fields <;> simp⟩

/-- TX.SUBMIT steps 4 to 8 (R145). -/
theorem submitSegs_shape (h : Handle) (seg0 : Segment) (segs : List Segment) (cmd : Cmd) (vlan : Option Half)
    (s : State) : ∃ mem hist unsub, submitSegs h seg0 segs cmd vlan s = { s with
      mem := mem, history := hist, txUnsubmitted := unsub
      txNext := txIdx s.cfg s.txNext (segs.length + 1)
      txFree := wrapI32 (s.txFree + -((segs.length + 1 : Nat) : Int))
      txSlot := s.txSlot.set (txIdx s.cfg s.txNext segs.length) (some h) } := by
  obtain ⟨m, hist, hw⟩ := writePacket_shape s.txNext (segs.length + 1) cmd vlan 0 (seg0 :: segs)
    (takeDescs (segs.length + 1) s)
  simp only [submitSegs, hw]
  exact ⟨_, _, _, rfl⟩

/-! ### The NIC -/

theorem txDone_shape {i : Nat} {d : TxDoneDraws} {s t : State} (h : txDone i d s = .next t) :
    ∃ mem hist seen busy irq, t = { s with
      mem := mem, history := hist, nicSeen := seen, nicTxBusy := busy, irqPending := irq } := by
  unfold txDone at h
  split at h
  · cases h
  · split at h
    · cases h
    · split at h
      · cases h
      · simp only at h
        split at h <;> cases h
        · exact ⟨_, _, _, _, _, rfl⟩
        · exact ⟨_, _, _, _, s.irqPending, rfl⟩

theorem fillDesc_shape (i : Nat) (frame : List Byte) (x : RxStatus) (w : Word) (a : Addr) (s : State) :
    ∃ mem hist, fillDesc i frame x w a s = { s with mem := mem, history := hist } := ⟨_, _, rfl⟩

theorem rxFill_shape {i : Nat} {frame : List Byte} {x : RxStatus} {d : RxFillDraws} {s t : State}
    (h : rxFill i frame x d s = .next t) :
    ∃ mem hist seen irq, t = { s with mem := mem, history := hist, nicSeen := seen, irqPending := irq } := by
  unfold rxFill at h
  split at h
  · cases h
  · split at h
    · cases h
    · split at h
      · cases h
      · split at h
        · cases h
        · simp only at h
          split at h <;> cases h
          · exact ⟨_, _, _, _, rfl⟩
          · exact ⟨_, _, _, s.irqPending, rfl⟩

/-! ### Receive -/

/-- The case split on an acquisition (R170 to R173). -/
theorem acquire_shape {i : Nat} {a : Acquisition} {len : Nat} {opts : DeliverOpts} {s : State} {r : State × Bool}
    (h : acquire i a len opts s = .next r) :
    ∃ slots bufs host ctr hist, r.1 = { s with
      rxSlot := slots, heldBuffers := bufs, hostBufs := host, ctrResourceErrors := ctr, history := hist } := by
  cases a with
  | failed => cases h; exact ⟨s.rxSlot, s.heldBuffers, s.hostBufs, _, _, rfl⟩
  | replaced b regions =>
    simp only [acquire] at h
    split at h
    · simp only [acquireReplaced] at h
      split at h
      · cases h
      · split at h
        · obtain ⟨u, hu, h⟩ := andThen_eq_next.1 h
          obtain ⟨-, rfl⟩ := freeBuffer_eq_next hu
          cases h
          exact ⟨s.rxSlot, _, s.hostBufs, _, _, rfl⟩
        · split at h
          · cases h
          · cases h; exact ⟨_, _, s.hostBufs, s.ctrResourceErrors, _, rfl⟩
    · cases h
  | copied b size =>
    simp only [acquire] at h
    split at h
    · simp only [acquireCopied] at h
      split at h
      · cases h; exact ⟨s.rxSlot, s.heldBuffers, s.hostBufs, _, _, rfl⟩
      split at h
      · cases h
      · cases h; exact ⟨s.rxSlot, s.heldBuffers, _, s.ctrResourceErrors, _, rfl⟩
    · cases h

/-- What one iteration does before the re-arm. -/
theorem handleRx_shape {s : State} {r : State × Bool} (h : handleRx s = .next r) :
    ∃ slots bufs host ctr ctr' acqs hist, r.1 = { s with
      rxSlot := slots, heldBuffers := bufs, hostBufs := host, ctrResourceErrors := ctr
      ctrFrameTooLong := ctr', acquisitions := acqs, history := hist } := by
  simp only [handleRx] at h
  split at h
  · injection h with h
    exact ⟨s.rxSlot, s.heldBuffers, s.hostBufs, s.ctrResourceErrors, countUp s.cfg s.ctrFrameTooLong, s.acquisitions, _,
      by rw [← h]; simp only [dropFragment, countFrameTooLong, State.raise, State.emit, State.noteRead]; rfl⟩
  · split at h
    · cases h
    · obtain ⟨sl, b, ho, c, hist, hu'⟩ := acquire_shape h
      exact ⟨sl, b, ho, c, s.ctrFrameTooLong, _, hist, by rw [hu']; rfl⟩

/-- One iteration of RX.IRQ (R165, R167): the pass ends, or the descriptor is handled and the next iteration is
left as a task. -/
theorem rxNext_shape {d : Bool} {s t : State} (h : rxNext d s = .next t) :
    ∃ mem hist slots bufs host ctr ctr' acqs idx l, (l = [] ∨ ∃ d', l = [.rxNext d']) ∧ t = { s with
      mem := mem, history := hist, rxSlot := slots, heldBuffers := bufs, hostBufs := host
      ctrResourceErrors := ctr, ctrFrameTooLong := ctr', acquisitions := acqs, rxIndex := idx
      work := l ++ s.work } := by
  simp only [rxNext] at h
  split at h
  · injection h with h
    refine ⟨s.mem, t.history, s.rxSlot, s.heldBuffers, s.hostBufs, s.ctrResourceErrors, s.ctrFrameTooLong,
      s.acquisitions, s.rxIndex, [], .inl rfl, ?_⟩
    rw [← h]; split <;> rfl
  · obtain ⟨v, hv, h⟩ := andThen_eq_next.1 h
    obtain ⟨sl, bf, ho, c, c', acqs, hist, hv'⟩ := handleRx_shape hv
    obtain ⟨m', hist', hr⟩ := rearmAdvance_shape v.1
    rw [hr, hv'] at h
    cases h
    exact ⟨m', hist', sl, bf, ho, c, c', acqs, _, _, .inr ⟨_, rfl⟩, rfl⟩

end Sys2Proof.Machine
end

