-- ==== Sys2Proof/Laws/Exec.lean ====
section
/-! SUPPORT. The frame of every operation that moves state: when it answers next, either the invocation was
refused, or the new state is the old one but for the fields named. -/

namespace Sys2Proof.Machine

/-! ### Monitor -/

theorem linkUp_shape (p : LinkParams) (s : State) : ∃ hist, linkUp p s = { s with
    link := ⟨true, p⟩, txqEnabled := true, history := hist } := ⟨_, rfl⟩

theorem linkDown_shape {s t : State} (h : linkDown s = .next t) :
    ∃ mem hist slots held seen, t = { resetTxRegs s with
      mem := mem, history := hist, txSlot := slots, heldPackets := held, nicSeen := seen
      link := { s.link with up := false } } := by
  obtain ⟨u, hu, h⟩ := andThen_eq_next.1 h
  obtain ⟨m, hist, sl, he, rfl⟩ := clearTx_shape hu
  cases h
  exact ⟨_, _, _, _, _, rfl⟩

/-- Step 1 of TIMER.TICK (R185): nothing but the read, LINK.UP, or the first step of LINK.DOWN. -/
theorem tickLink_shape (v : Byte) (s : State) : ∃ link txq hist l, (l = [] ∨ l = [.linkDownRest]) ∧ tickLink v s = { s with
    link := link, txqEnabled := txq, history := hist, work := l ++ s.work } := by
  simp only [tickLink]
  split
  · exact ⟨_, _, _, [], .inl rfl, rfl⟩
  · split
    · exact ⟨s.link, _, _, _, .inr rfl, rfl⟩
    · exact ⟨s.link, s.txqEnabled, _, [], .inl rfl, rfl⟩

theorem requestStats_shape (s : State) : ∃ p r hist, requestStats s = { s with
    statsPending := p, regs := { s.regs with statsBase := r }, history := hist } := by
  unfold requestStats; split
  · exact ⟨s.statsPending, s.regs.statsBase, s.history, rfl⟩
  · exact ⟨_, _, _, rfl⟩

theorem finishStats_shape (s : State) : ∃ p hist, finishStats s = { s with statsPending := p, history := hist } := by
  unfold finishStats; split
  · exact ⟨_, _, rfl⟩
  · exact ⟨s.statsPending, s.history, rfl⟩

/-- TX.DLCHK (R153): what is left of the state, without and with a reset. -/
theorem dlchk_shape (rest : List Task) (ends : Result) (s : State) :
    ((dlchk rest ends s).2 = false ∧ ∃ warn last tmo hist l, (l = rest ∨ l = .txBegin :: .dlSnapshot :: rest) ∧
      (dlchk rest ends s).1 = { s with
        deadlockWarn := warn, txDoneLast := last, ctrTimeouts := tmo, history := hist, work := l ++ s.work }) ∨
    ((dlchk rest ends s).2 = true ∧ ∃ hist, (dlchk rest ends s).1 = { s with
      deadlockWarn := s.cfg.dlThresh2, ctrResets := countUp s.cfg s.ctrResets, history := hist
      txqEnabled := false, work := .resetRest ends :: s.work }) := by
  simp only [dlchk]
  split
  · split
    · exact .inl ⟨rfl, _, s.txDoneLast, _, _, _, .inr rfl, rfl⟩
    · split
      · rename_i hw
        exact .inr ⟨rfl, _, by rw [← hw]; rfl⟩
      · exact .inl ⟨rfl, _, _, s.ctrTimeouts, s.history, _, .inl rfl, rfl⟩
  · exact .inl ⟨rfl, _, _, s.ctrTimeouts, s.history, _, .inl rfl, rfl⟩

/-- IRQ's acknowledgement (R241). -/
theorem acknowledge_shape (s : State) : ∃ irq hist, acknowledge s = { s with
    irqPending := irq, history := hist, freeCount := s.freeCount + 1 } := ⟨_, _, rfl⟩

/-! ### Control -/

/-- Freeing the receive buffers. -/
theorem freeSlots_shape {n : Nat} {s t : State} (h : freeSlots n s = .next t) :
    ∃ slots bufs hist, t = { s with rxSlot := slots, heldBuffers := bufs, history := hist } := by
  induction n generalizing s with
  | zero => cases h; exact ⟨t.rxSlot, t.heldBuffers, t.history, rfl⟩
  | succ n ih =>
    simp only [freeSlots] at h
    split at h
    · obtain ⟨u, hu, h⟩ := andThen_eq_next.1 h
      obtain ⟨-, rfl⟩ := freeBuffer_eq_next hu
      obtain ⟨sl, b, hist, rfl⟩ := ih h
      exact ⟨sl, b, hist, rfl⟩
    · cases h

theorem freeTxMem_shape {s t : State} (h : freeTxMem s = .next t) :
    ∃ hist, t = { s with txMem := none, history := hist } := by
  unfold freeTxMem at h; split at h <;> cases h; exact ⟨_, rfl⟩

theorem freeRxMem_shape {s t : State} (h : freeRxMem s = .next t) :
    ∃ hist, t = { s with rxMem := none, history := hist } := by
  unfold freeRxMem at h; split at h <;> cases h; exact ⟨_, rfl⟩

theorem freeStMem_shape {s t : State} (h : freeStMem s = .next t) :
    ∃ hist, t = { s with stMem := none, history := hist } := by
  unfold freeStMem at h; split at h <;> cases h; exact ⟨_, rfl⟩

theorem freeMems_shape {s t : State} (h : freeMems s = .next t) :
    ∃ hist, t = { s with txMem := none, rxMem := none, stMem := none, history := hist } := by
  obtain ⟨u, hu, h⟩ := andThen_eq_next.1 h
  obtain ⟨v, hv, h⟩ := andThen_eq_next.1 h
  obtain ⟨h1, rfl⟩ := freeStMem_shape hu
  obtain ⟨h2, rfl⟩ := freeRxMem_shape hv
  obtain ⟨h3, rfl⟩ := freeTxMem_shape h
  exact ⟨h3, rfl⟩

/-- Steps X1 to X3 of DISABLE (R203). -/
theorem quiesce_shape (s : State) : ∃ (regs : NicRegs) (hist : List Event),
    nicReset (stopQueue (writeIntrMask 0#16 ({ s with enabled := false, timerOn := false }.emit .stopTimer))) =
    { s with
      enabled := false, timerOn := false, txqEnabled := false, history := hist
      irqPending := CauseSet.empty, nicTxBusy := none, nicSeen := []
      regs := { regs with intrMask := 0#16 }, freeCount := s.freeCount + 3 } := by
  refine ⟨{ s.regs with
      txRingBase := Config.freeReg s.freeCount
      rxRingBase := Config.freeReg (s.freeCount + 1)
      statsBase := Config.freeReg (s.freeCount + 2) },
    (nicReset (stopQueue (writeIntrMask 0#16 ({ s with enabled := false, timerOn := false }.emit .stopTimer)))).history,
    ?_⟩
  apply State.eq_of_fields <;> rfl

/-- DISABLE from its first step (R203). -/
theorem bringDown_shape {s t : State} (h : bringDown s = .next t) :
    ∃ mem hist slots held rx bufs, ∃ regs : NicRegs, t = { resetTxRegs s with
      mem := mem, history := hist, txSlot := slots, heldPackets := held
      rxSlot := rx, heldBuffers := bufs, enabled := false, timerOn := false
      txqEnabled := false, link := { s.link with up := false }, statsPending := false
      irqPending := CauseSet.empty, nicTxBusy := none, nicSeen := []
      regs := { regs with intrMask := 0#16 }, freeCount := s.freeCount + 3
      txMem := none, rxMem := none, stMem := none } := by
  obtain ⟨r, hist0, hq⟩ := quiesce_shape s
  simp only [bringDown, hq] at h
  obtain ⟨u, hu, h⟩ := andThen_eq_next.1 h
  obtain ⟨v, hv, h⟩ := andThen_eq_next.1 h
  obtain ⟨m, hist, sl, he, rfl⟩ := clearTx_shape hu
  obtain ⟨rx, b, hist', rfl⟩ := freeSlots_shape hv
  obtain ⟨hist3, rfl⟩ := freeMems_shape h
  exact ⟨m, hist3, sl, he, rx, b, r, rfl⟩

/-- What the five counters are after ENABLE (R200 E6). -/
theorem firstCounters_shape (s : State) : ∃ a b c d e, firstCounters s = { s with
    ctrResourceErrors := a, ctrFrameTooLong := b, ctrTimeouts := c, ctrResets := d, ctrTxDrops := e } := by
  unfold firstCounters; split
  · exact ⟨s.ctrResourceErrors, s.ctrFrameTooLong, s.ctrTimeouts, s.ctrResets, s.ctrTxDrops, rfl⟩
  · exact ⟨_, _, _, _, _, rfl⟩

/-- ENABLE from E5 on (R200, R35). -/
theorem bringUp_shape {s t : State} (h : bringUp s = .next t) :
    ∃ mem hist slots held a b c d e, t = { resetTxRegs s with
      mem := mem, history := hist, txSlot := slots, heldPackets := held
      rxIndex := 0, link := { s.link with up := false }, txqEnabled := false, statsPending := false
      ctrResourceErrors := a, ctrFrameTooLong := b, ctrTimeouts := c, ctrResets := d, ctrTxDrops := e
      irqPending := CauseSet.empty, nicTxBusy := none, nicSeen := []
      regs := resetRegs s, freeCount := s.freeCount + 3
      enabled := true, everEnabled := true, timerOn := true, result := .ok } := by
  obtain ⟨u, hu, h⟩ := andThen_eq_next.1 h
  obtain ⟨m, hist, sl, he, rfl⟩ := clearTx_shape hu
  obtain ⟨m', hist', hr⟩ := clearRx_shape { resetTxRegs { s with
      txSlot := List.replicate s.cfg.nTx none, txPending := none } with
    mem := m, history := hist, txSlot := sl, heldPackets := he }
  simp only [hr] at h
  generalize hx : firstCounters _ = x at h
  obtain ⟨a, b, c, d, e, hf⟩ := firstCounters_shape { resetTxRegs { s with
      txSlot := List.replicate s.cfg.nTx none, txPending := none } with
    mem := m', history := hist', txSlot := sl, heldPackets := he, rxIndex := 0
    link := { s.link with up := false }, txqEnabled := false, statsPending := false }
  have hx' := hx.symm.trans hf
  subst hx'
  generalize hg : reinitRegs _ = g at h
  rw [reinitRegs_eq] at hg; subst hg
  injection h with h
  subst h
  exact ⟨m', _, sl, he, a, b, c, d, e, by apply State.eq_of_fields <;> rfl⟩

theorem fillSlot_shape {i : Nat} {d : Option BufferDraw} {s : State} {r : State × Bool}
    (h : fillSlot i d s = .next r) :
    ∃ slots bufs hist, r.1 = { s with rxSlot := slots, heldBuffers := bufs, history := hist } := by
  unfold fillSlot at h
  split at h
  · cases h; exact ⟨s.rxSlot, s.heldBuffers, s.history, rfl⟩
  · split at h
    · cases h
    · simp only at h
      split at h
      · obtain ⟨u, hu, h⟩ := andThen_eq_next.1 h
        obtain ⟨-, rfl⟩ := freeBuffer_eq_next hu
        cases h
        exact ⟨s.rxSlot, _, _, rfl⟩
      · split at h
        · cases h
        · cases h; exact ⟨_, _, _, rfl⟩

theorem fillSlots_shape {k i : Nat} {d : List (Option BufferDraw)} {s : State} {r : State × Option Nat}
    (h : fillSlots k i d s = .next r) :
    ∃ slots bufs hist, r.1 = { s with rxSlot := slots, heldBuffers := bufs, history := hist } := by
  induction k generalizing i d s with
  | zero => cases h; exact ⟨s.rxSlot, s.heldBuffers, s.history, rfl⟩
  | succ k ih =>
    obtain ⟨u, hu, h⟩ := andThen_eq_next.1 h
    obtain ⟨sl, b, hist, hu'⟩ := fillSlot_shape hu
    split at h
    · obtain ⟨sl', b', hist', h'⟩ := ih h
      exact ⟨sl', b', hist', by rw [h', hu']⟩
    · cases h; exact ⟨sl, b, hist, hu'⟩

theorem fail2_shape {s t : State} (h : fail2 s = .next t) :
    ∃ hist, t = { s with txMem := none, history := hist, result := .fatalInit } := by
  obtain ⟨u, hu, h⟩ := andThen_eq_next.1 h
  obtain ⟨h1, rfl⟩ := freeTxMem_shape hu
  cases h; exact ⟨_, rfl⟩

theorem fail3_shape {s t : State} (h : fail3 s = .next t) :
    ∃ hist, t = { s with txMem := none, rxMem := none, history := hist, result := .fatalInit } := by
  obtain ⟨u, hu, h⟩ := andThen_eq_next.1 h
  obtain ⟨h1, rfl⟩ := freeRxMem_shape hu
  obtain ⟨h2, rfl⟩ := fail2_shape h
  exact ⟨h2, rfl⟩

theorem fail4_shape {i : Nat} {s t : State} (h : fail4 i s = .next t) :
    ∃ slots bufs hist, t = { s with
      rxSlot := slots, heldBuffers := bufs, txMem := none, rxMem := none, stMem := none
      history := hist, result := .fatalInit } := by
  obtain ⟨u, hu, h⟩ := andThen_eq_next.1 h
  obtain ⟨v, hv, h⟩ := andThen_eq_next.1 h
  obtain ⟨sl, b, h0, rfl⟩ := freeSlots_shape hu
  obtain ⟨h1, rfl⟩ := freeStMem_shape hv
  obtain ⟨h2, rfl⟩ := fail3_shape h
  exact ⟨sl, b, h2, rfl⟩

/-- ENABLE while no memory exists (R200, R201): unwound, or brought up on the three memories. -/
theorem enableFrom_next {d : EnableDraws} {s t : State} (hm : s.txMem = none ∧ s.rxMem = none ∧ s.stMem = none)
    (h : enableFrom d s = .next t) :
    (∃ slots bufs hist, t = { s with
      rxSlot := slots, heldBuffers := bufs, history := hist, result := .fatalInit }) ∨
    (∃ u r m1 m2 m3 h0, u = ({ s with
        txMem := some m1, rxMem := some m2, stMem := some m3
        rxSlot := List.replicate s.cfg.nRx none, history := h0 } : State) ∧
      allocDma (descSize * s.cfg.nTx) s.cfg.ringAlign d.tx = some m1 ∧
      allocDma (descSize * s.cfg.nRx) s.cfg.ringAlign d.rx = some m2 ∧
      allocDma s.cfg.statsSize s.cfg.statsAlign d.st = some m3 ∧
      fillSlots s.cfg.nRx 0 d.bufs u = .next r ∧ r.2 = none ∧ bringUp r.1 = .next t) := by
  obtain ⟨e1, e2, e3⟩ := hm
  unfold enableFrom at h
  split at h
  · cases h; exact .inl ⟨s.rxSlot, s.heldBuffers, _, rfl⟩
  · rename_i m1 hm1
    unfold enableRxRing at h
    split at h
    · obtain ⟨h1, rfl⟩ := fail2_shape h
      refine .inl ⟨s.rxSlot, s.heldBuffers, h1, ?_⟩
      apply State.eq_of_fields <;> first | rfl | exact e1.symm
    · rename_i m2 hm2
      split at h
      · cases h
      · unfold enableStats at h
        split at h
        · obtain ⟨h1, rfl⟩ := fail3_shape h
          refine .inl ⟨s.rxSlot, s.heldBuffers, h1, ?_⟩
          apply State.eq_of_fields <;> first | rfl | exact e1.symm | exact e2.symm
        · rename_i m3 hm3
          split at h
          · cases h
          · obtain ⟨r, hr, h⟩ := andThen_eq_next.1 h
            split at h
            · obtain ⟨sl, b, hist, hr'⟩ := fillSlots_shape hr
              rw [hr'] at h
              obtain ⟨sl', b', h2, rfl⟩ := fail4_shape h
              refine .inl ⟨sl', b', h2, ?_⟩
              apply State.eq_of_fields <;> first | rfl | exact e1.symm | exact e2.symm | exact e3.symm
            · rename_i hn
              exact .inr ⟨_, r, m1, m2, m3, _, rfl, hm1, hm2, hm3, hr, hn, h⟩

end Sys2Proof.Machine
end

