-- ==== Sys2Proof/Laws/Step.lean ====
section
/-! SUPPORT. One step taken apart, and the induction principle over steps: what every operation and every task
keeps, every step keeps. -/

namespace Sys2Proof.Machine

/-- The operation in progress goes on, or there is none. -/
theorem goOn_eq_next {s t : State} (h : goOn s = .next t) :
    (s.work = [] ∧ t = s) ∨ ∃ x rest u, s.work = x :: rest ∧ runTask x (takeTask rest s) = .next u ∧
      t = u.withResult (taskResult x) := by
  rw [goOn] at h
  split at h
  · rename_i hw; cases h; exact .inl ⟨hw, rfl⟩
  · rename_i x rest hw
    obtain ⟨u, hu, h⟩ := andThen_eq_next.1 h
    cases h; exact .inr ⟨x, rest, u, hw, hu, rfl⟩

theorem goOn_eq_fault {s : State} {r : Fault} (h : goOn s = .fault r) :
    ∃ x rest, s.work = x :: rest ∧ runTask x (takeTask rest s) = .fault r := by
  rw [goOn] at h
  split at h
  · cases h
  · rename_i x rest hw
    rcases andThen_eq_fault.1 h with h | ⟨u, -, h⟩
    · exact ⟨x, rest, hw, h⟩
    · cases h

/-- The state a step works on when it runs a task: the head of the queue, if there is one, has waited. -/
def Waited (s u : State) : Prop := u = s ∨ ∃ x rest, u = waited x rest s

theorem Waited.work {s u : State} (h : Waited s u) : u.work = s.work := by
  rcases h with rfl | ⟨x, rest, rfl⟩ <;> rfl

/-- The three ways a step answers next: a task, or rest; an operation; a code that is none. -/
theorem step_eq_next {s t : State} (h : step s = .next t) :
    (∃ u, Waited s u ∧ goOn u = .next t) ∨
    ∃ x rest, s.input = x :: rest ∧ waits x s = false ∧
      ((∃ i, decode x.code = .ok i ∧ exec i (takeInput x rest s) = .next t) ∨
       (∃ e, decode x.code = .error e ∧ t = (takeInput x rest s).refuse (decodeReason e))) := by
  rw [step] at h
  split at h
  · exact .inl ⟨s, .inl rfl, h⟩
  · rename_i x rest hs
    split at h
    · exact .inl ⟨_, .inr ⟨x, rest, rfl⟩, h⟩
    · refine .inr ⟨x, rest, hs, by simpa using ‹¬ waits x s = true›, ?_⟩
      rw [runCode] at h
      split at h
      · rename_i i hi; exact .inl ⟨i, hi, h⟩
      · rename_i e he; cases h; exact .inr ⟨e, he, rfl⟩

/-- A step that faults runs a task or an operation that faults. -/
theorem step_eq_fault {s : State} {r : Fault} (h : step s = .fault r) :
    (∃ u, Waited s u ∧ goOn u = .fault r) ∨
    ∃ x rest i, s.input = x :: rest ∧ waits x s = false ∧ decode x.code = .ok i ∧
      exec i (takeInput x rest s) = .fault r := by
  rw [step] at h
  split at h
  · exact .inl ⟨s, .inl rfl, h⟩
  · rename_i x rest hs
    split at h
    · exact .inl ⟨_, .inr ⟨x, rest, rfl⟩, h⟩
    · rw [runCode] at h
      split at h
      · rename_i i hi
        exact .inr ⟨x, rest, i, hs, by simpa using ‹¬ waits x s = true›, hi, h⟩
      · cases h

/-- An invocation that does not wait finds no operation in progress, or belongs to no agent of its domain. -/
theorem waits_eq_false {x : Invocation} {s : State} :
    waits x s = false ↔ s.work = [] ∨ (x.after = 0 ∧ inDomain x.agent = false) := by
  unfold waits
  cases hw : s.work <;> simp

/-- What every operation and every task keeps, whatever is queued and whoever acts, every step keeps. -/
theorem step_keeps {P : State → Prop} (hin : ∀ s x rest, P s → P (takeInput x rest s))
    (hwait : ∀ s x rest, P s → P (waited x rest s)) (href : ∀ s r, P s → P (s.refuse r))
    (hex : ∀ i s t, P s → exec i s = .next t → P t)
    (htask : ∀ x rest s t, P s → s.work = x :: rest → runTask x (takeTask rest s) = .next t →
      P (t.withResult (taskResult x)))
    {s t : State} (hs : P s) (h : step s = .next t) : P t := by
  rcases step_eq_next h with ⟨u, hu, h⟩ | ⟨x, rest, -, -, ⟨i, -, h⟩ | ⟨e, -, rfl⟩⟩
  · have hp : P u := by
      rcases hu with rfl | ⟨x, rest, rfl⟩
      · exact hs
      · exact hwait s x rest hs
    rcases goOn_eq_next h with ⟨-, rfl⟩ | ⟨x, rest, v, hw, hv, rfl⟩
    · exact hp
    · exact htask x rest u v hp hw hv
  · exact hex i _ _ (hin s x rest hs) h
  · exact href _ _ (hin s x rest hs)

end Sys2Proof.Machine
end

