-- ==== Sys2Proof/Laws/Outcomes.lean ====
section
/-! SUPPORT. For each operation, every way it can answer next: refused, or past its guard with the effect of
its rule. -/

namespace Sys2Proof.Machine

/-- A refused invocation: nothing but the record (R236). -/
def Refused (s t : State) : Prop := ∃ r, t = s.refuse r

/-- A pure operation behind a guard. -/
theorem pure_next {agents : List Agent} {need : Need} {s t : State} {res : State → Result}
    (h : guarded agents need s (fun s => .next (s.withResult (res s))) = .next t) :
    Refused s t ∨ (Admitted agents need s ∧ t = s.withResult (res s)) := by
  rcases guarded_eq_next h with ⟨r, -, rfl⟩ | ⟨hp, h⟩
  · exact .inl ⟨r, rfl⟩
  · cases h; exact .inr ⟨hp, rfl⟩

/-- An operation that ends its body with a result. -/
theorem body_next {agents : List Agent} {need : Need} {s t : State} {f : State → Out State} {res : Result}
    (h : guarded agents need s (fun s => andThen (f s) fun s1 => .next (s1.withResult res)) = .next t) :
    Refused s t ∨ (Admitted agents need s ∧ ∃ u, f s = .next u ∧ t = u.withResult res) := by
  rcases guarded_eq_next h with ⟨r, -, rfl⟩ | ⟨hp, h⟩
  · exact .inl ⟨r, rfl⟩
  · obtain ⟨u, hu, h⟩ := andThen_eq_next.1 h
    cases h; exact .inr ⟨hp, u, hu, rfl⟩

theorem allocFails_iff {n : Nat} {s : State} : allocFails n s = true ↔ s.txFree ≤ (n : Int) := by
  simp [allocFails]

theorem execRingAlloc_next {n : Nat} {s t : State} (h : execRingAlloc n s = .next t) :
    Refused s t ∨ (Admitted [.submitter] .enabled s ∧ 1 ≤ n ∧ n ≤ s.cfg.kMaxSegs ∧
      ((s.txFree ≤ (n : Int) ∧ t = (s.raise .backpressure).withResult .stall) ∨
       ((n : Int) < s.txFree ∧ t = (takeDescs n s).withResult (.first s.txNext)))) := by
  rcases guarded_eq_next h with ⟨r, -, rfl⟩ | ⟨hp, h⟩
  · exact .inl ⟨r, rfl⟩
  · split at h
    · cases h; exact .inl ⟨_, rfl⟩
    · rename_i hn
      have : 1 ≤ n ∧ n ≤ s.cfg.kMaxSegs := by omega
      split at h <;> cases h <;> rename_i hf <;> simp only [allocFails, decide_eq_true_eq] at hf
      · exact .inr ⟨hp, this.1, this.2, .inl ⟨hf, rfl⟩⟩
      · exact .inr ⟨hp, this.1, this.2, .inr ⟨by omega, rfl⟩⟩

/-- The need of a descriptor write on a ring. -/
def writeNeed : Ring → Need
  | .tx => .tx
  | .rx => .rx

theorem execRingWrite_next {ring : Ring} {index : Nat} {seg : Segment} {flags1 flags2 : Word} {own : Bool}
    {s t : State} (h : execRingWrite ring index seg flags1 flags2 own s = .next t) :
    Refused s t ∨ (Admitted (agentsOf (.ringWrite ring index seg flags1 flags2 own)) (writeNeed ring) s ∧
      writeOperandsOk s.cfg ring index seg flags1 flags2 = true ∧ writeProblem ring index s = none ∧
      t = ((if ring = .tx ∧ own then submitIndex index (writeDesc ring index seg flags1 flags2 own s)
            else writeDesc ring index seg flags1 flags2 own s)).withResult .none) := by
  rcases guarded_eq_next h with ⟨r, -, rfl⟩ | ⟨hp, h⟩
  · exact .inl ⟨r, rfl⟩
  · split at h
    · cases h; exact .inl ⟨_, rfl⟩
    · rename_i ho
      split at h
      · cases h; exact .inl ⟨_, rfl⟩
      · rename_i hw
        injection h with h
        exact .inr ⟨by cases ring <;> exact hp, by simpa using ho, hw, h.symm⟩

theorem execRingReclaim_next {s t : State} (h : execRingReclaim s = .next t) :
    Refused s t ∨ (Admitted [.serialized] .tx s ∧
      ∃ r, reclaimLoop (outstandingCount s) [] s = .next r ∧ t = r.1.withResult (.indices r.2)) := by
  rcases guarded_eq_next h with ⟨r, -, rfl⟩ | ⟨hp, h⟩
  · exact .inl ⟨r, rfl⟩
  · obtain ⟨u, hu, h⟩ := andThen_eq_next.1 h
    cases h; exact .inr ⟨hp, u, hu, rfl⟩

theorem execRingClearTx_next {s t : State} (h : execRingClearTx s = .next t) :
    Refused s t ∨ (Admitted [.serialized] .tx s ∧ s.txqEnabled = false ∧
      ∃ u, clearTx (noteSeen .tx s) = .next u ∧ t = u.withResult .none) := by
  rcases guarded_eq_next h with ⟨r, -, rfl⟩ | ⟨hp, h⟩
  · exact .inl ⟨r, rfl⟩
  · split at h
    · cases h; exact .inl ⟨_, rfl⟩
    · obtain ⟨u, hu, h⟩ := andThen_eq_next.1 h
      cases h; exact .inr ⟨hp, by simpa using ‹¬ s.txqEnabled = true›, u, hu, rfl⟩

theorem execRingClearRx_next {s t : State} (h : execRingClearRx s = .next t) :
    Refused s t ∨ (Admitted [.serialized] .rx s ∧ t = (clearRx (noteSeen .rx s)).withResult .none) := by
  rcases guarded_eq_next h with ⟨r, -, rfl⟩ | ⟨hp, h⟩
  · exact .inl ⟨r, rfl⟩
  · cases h; exact .inr ⟨hp, rfl⟩

theorem execSegTx_next {regions : List Region} {s t : State} (h : execSegTx regions s = .next t) :
    Refused s t ∨ ∃ r, t = s.withResult r := by
  rcases guarded_eq_next h with ⟨r, -, rfl⟩ | ⟨hp, h⟩
  · exact .inl ⟨r, rfl⟩
  · split at h
    · cases h; exact .inl ⟨_, rfl⟩
    · split at h <;> cases h <;> exact .inr ⟨_, rfl⟩

theorem execSegRx_next {regions : List Region} {s t : State} (h : execSegRx regions s = .next t) :
    Refused s t ∨ ∃ r, t = s.withResult r := by
  rcases guarded_eq_next h with ⟨r, -, rfl⟩ | ⟨hp, h⟩
  · exact .inl ⟨r, rfl⟩
  · split at h
    · cases h; exact .inl ⟨_, rfl⟩
    · split at h <;> cases h <;> exact .inr ⟨_, rfl⟩

/-- The ways TX.SUBMIT ends once the engine holds the packet (R145). -/
theorem submitHeld_next {p : Packet} {s t : State} (h : submitHeld p s = .next t) :
    ((s.link.up = false ∨ s.txqEnabled = false) ∧
      ∃ u, freePacket p.h (s.raise .linkDownDrop) = .next u ∧ t = u.withResult .dropped) ∨
    (∃ cause u, freePacket p.h (countTxDrops ((preparePacket p.h s).raise cause)) = .next u ∧
      t = u.withResult .dropped) ∨
    (∃ seg0 segs cmd, segmentTx s.cfg p.regions = some (seg0 :: segs) ∧ encodeOffload s.cfg p.off = some cmd ∧
      ((s.txFree ≤ ((segs.length + 1 : Nat) : Int) ∧ t = stallSubmit p.h (preparePacket p.h s)) ∨
       (((segs.length + 1 : Nat) : Int) < s.txFree ∧
        t = (submitSegs p.h seg0 segs cmd p.vlan (preparePacket p.h s)).withResult .success))) := by
  simp only [submitHeld] at h
  split at h
  · rename_i hl
    obtain ⟨u, hu, h⟩ := andThen_eq_next.1 h
    cases h; exact .inl ⟨hl, u, hu, rfl⟩
  · split at h
    · obtain ⟨u, hu, h⟩ := andThen_eq_next.1 h
      cases h; exact .inr (.inl ⟨_, u, hu, rfl⟩)
    · obtain ⟨u, hu, h⟩ := andThen_eq_next.1 h
      cases h; exact .inr (.inl ⟨_, u, hu, rfl⟩)
    · rename_i seg0 segs hseg
      split at h
      · obtain ⟨u, hu, h⟩ := andThen_eq_next.1 h
        cases h; exact .inr (.inl ⟨_, u, hu, rfl⟩)
      · rename_i cmd hcmd
        refine .inr (.inr ⟨seg0, segs, cmd, hseg, hcmd, ?_⟩)
        split at h <;> cases h <;> rename_i hf <;>
          rw [allocFails_iff, preparePacket_txFree] at hf
        · exact .inl ⟨hf, rfl⟩
        · exact .inr ⟨by omega, rfl⟩

theorem execTxSubmit_next {p : Packet} {s t : State} (h : execTxSubmit p s = .next t) :
    (∃ r, t = submitRefused r s) ∨ (Admitted [.submitter] .tx s ∧ regionsOk s.cfg p.regions = true ∧
      s.holdsPacket p.h = false ∧ submitHeld p (holdPacket p.h s) = .next t) := by
  rcases guardedBy_eq_next h with ⟨r, -, rfl⟩ | ⟨hp, h⟩
  · exact .inl ⟨r, rfl⟩
  · split at h
    · cases h; exact .inl ⟨_, rfl⟩
    · split at h
      · cases h
      · exact .inr ⟨hp, by simpa using ‹¬ regionsOk s.cfg p.regions = false›, by simpa using ‹¬ s.holdsPacket p.h = true›, h⟩

/-- A refused submission touches the history and the result (R236). -/
theorem submitRefused_shape (r : RefusedReason) (s : State) : ∃ res, submitRefused r s = { s with
    history := s.history ++ [.refused r], result := res } := by
  unfold submitRefused; split <;> exact ⟨_, rfl⟩

theorem execTxDlchk_next {s t : State} (h : execTxDlchk s = .next t) :
    Refused s t ∨ (Admitted [.serialized] .both s ∧
      t = (dlchk [] .didReset s).1.withResult (dlchkResult (dlchk [] .didReset s).2)) := by
  rcases guarded_eq_next h with ⟨r, -, rfl⟩ | ⟨hp, h⟩
  · exact .inl ⟨r, rfl⟩
  · injection h with h
    exact .inr ⟨hp, h.symm⟩

theorem execTimerTick_next {v : Byte} {s t : State} (h : execTimerTick v s = .next t) :
    Refused s t ∨ (Admitted [.serialized] .both s ∧ StUsable s ∧
      t = (tickRest (tickLink v s)).withResult .none) := by
  rcases guarded_eq_next h with ⟨r, -, rfl⟩ | ⟨hp, h⟩
  · exact .inl ⟨r, rfl⟩
  · split at h
    · cases h; exact .inl ⟨_, rfl⟩
    · rename_i hst
      injection h with h
      exact .inr ⟨hp, hst, h.symm⟩

/-- Step 1 of TIMER.TICK (R185): no transition, the link coming up, the link going down. -/
theorem tickLink_cases (v : Byte) (s : State) :
    let s1 := s.emit (.regRead s.cfg.reg.linkStatus 8 (v.setWidth 64))
    ((linkLookup s.cfg v).up = s.link.up ∧ tickLink v s = s1) ∨
    ((linkLookup s.cfg v).up = true ∧ s.link.up = false ∧ tickLink v s = linkUp (linkLookup s.cfg v).params s1) ∨
    ((linkLookup s.cfg v).up = false ∧ s.link.up = true ∧ tickLink v s = beginLinkDown s1) := by
  intro s1
  have hl : s1.link = s.link := rfl
  unfold tickLink
  simp only [hl, s1]
  cases h1 : (linkLookup s.cfg v).up <;> cases h2 : s.link.up <;> simp

theorem tickRelease_shape {s t : State} (h : tickRelease s = .next t) :
    ∃ held hist, t = { s with heldPackets := held, history := hist, txPending := none } := by
  obtain ⟨u, hu, h⟩ := andThen_eq_next.1 h
  obtain ⟨he, hist, rfl⟩ := freeSentOpt_shape hu
  cases h; exact ⟨he, hist, rfl⟩

theorem tickStats_shape (s : State) : ∃ p r hist, tickStats s = { s with
    statsPending := p, regs := { s.regs with statsBase := r }, history := hist } := by
  unfold tickStats; split
  · exact requestStats_shape s
  · exact ⟨s.statsPending, s.regs.statsBase, s.history, rfl⟩

theorem execLinkUp_next {p : LinkParams} {s t : State} (h : execLinkUp p s = .next t) :
    Refused s t ∨ (Admitted [.serialized] .enabled s ∧ s.link.up = false ∧
      t = (linkUp p s).withResult .none) := by
  rcases guarded_eq_next h with ⟨r, -, rfl⟩ | ⟨hp, h⟩
  · exact .inl ⟨r, rfl⟩
  · split at h
    · cases h; exact .inl ⟨_, rfl⟩
    · cases h; exact .inr ⟨hp, by simpa using ‹¬ s.link.up = true›, rfl⟩

theorem execLinkDown_next {s t : State} (h : execLinkDown s = .next t) :
    Refused s t ∨ (Admitted [.serialized] .tx s ∧ s.link.up = true ∧
      t = (beginLinkDown s).withResult .none) := by
  rcases guarded_eq_next h with ⟨r, -, rfl⟩ | ⟨hp, h⟩
  · exact .inl ⟨r, rfl⟩
  · split at h
    · cases h; exact .inl ⟨_, rfl⟩
    · cases h; exact .inr ⟨hp, by simpa using ‹¬ s.link.up = false›, rfl⟩

theorem execStatsReq_next {s t : State} (h : execStatsReq s = .next t) :
    Refused s t ∨ (Admitted [.serialized] .enabled s ∧ StUsable s ∧ t = (requestStats s).withResult .none) := by
  rcases guarded_eq_next h with ⟨r, -, rfl⟩ | ⟨hp, h⟩
  · exact .inl ⟨r, rfl⟩
  · split at h
    · cases h; exact .inl ⟨_, rfl⟩
    · cases h; exact .inr ⟨hp, ‹_›, rfl⟩

theorem execStatsDone_next {s t : State} (h : execStatsDone s = .next t) :
    Refused s t ∨ (Admitted [.serialized] .enabled s ∧ t = (finishStats s).withResult .none) := by
  rcases guarded_eq_next h with ⟨r, -, rfl⟩ | ⟨hp, h⟩
  · exact .inl ⟨r, rfl⟩
  · cases h; exact .inr ⟨hp, rfl⟩

/-- IRQ (R241): a bus error begins the reset; else the passes for what was read are left as tasks. -/
theorem irq_cases (s : State) :
    ((causesIn s.cfg.reg (intrStatus s)).busError = true ∧
      irq s = beginReset .none ((countResets (acknowledge s)).raise .busError)) ∨
    ((causesIn s.cfg.reg (intrStatus s)).busError = false ∧
      irq s = (acknowledge s).pushWork (passesFor (causesIn s.cfg.reg (intrStatus s)))) := by
  unfold irq
  cases h : (causesIn s.cfg.reg (intrStatus s)).busError
  · exact .inr ⟨rfl, by simp only [h, Bool.false_eq_true, if_false]⟩
  · exact .inl ⟨rfl, by simp only [h, if_true]⟩

theorem execEnable_next {d : EnableDraws} {s t : State} (h : execEnable d s = .next t) :
    Refused s t ∨ (Admitted [.host] .always s ∧ s.enabled = false ∧ bufsOk s.cfg d = true ∧
      enableFrom d (dropUnspecified s) = .next t) := by
  rcases guarded_eq_next h with ⟨r, -, rfl⟩ | ⟨hp, h⟩
  · exact .inl ⟨r, rfl⟩
  · split at h
    · cases h; exact .inl ⟨_, rfl⟩
    · split at h
      · cases h; exact .inl ⟨_, rfl⟩
      · exact .inr ⟨hp, by simpa using ‹¬ s.enabled = true›, by simpa using ‹¬ bufsOk s.cfg d = false›, h⟩

/-- The check of ENABLE's draws, as the statements have it. -/
theorem bufsOk_iff {c : Cfg} {d : EnableDraws} : bufsOk c d = true ↔ BufsInRange c d := by
  simp only [bufsOk, List.all_eq_true, Option.all_eq_true, BufsInRange]
  exact ⟨fun h b hb => h _ hb b rfl, fun h o ho b hb => h b (by rw [← hb]; exact ho)⟩

/-- The check of the draws of a receive pass, as the statements have it. -/
theorem drawsOk_iff {c : Cfg} {draws : List Acquisition} : drawsOk c draws = true ↔ DrawsInRange c draws := by
  simp only [drawsOk, List.all_eq_true, DrawsInRange]
  constructor
  · intro h b regions hm; exact h _ hm
  · intro h a ha
    cases a with
    | failed => rfl
    | replaced b regions => exact h b regions ha
    | copied b size => rfl

/-- A drawn list in range goes through SEG.RX as it is (R129). -/
theorem drawnSegment_of_ok {c : Cfg} {regions : List Region} (h : regionsOk c regions = true) :
    drawnSegment c regions = segmentRx c regions := by rw [drawnSegment, if_pos h]

theorem execDisable_next {s t : State} (h : execDisable s = .next t) :
    Refused s t ∨ (Admitted [.host] .both s ∧ StUsable s ∧
      ∃ u, bringDown s = .next u ∧ t = u.withResult .none) := by
  rcases guarded_eq_next h with ⟨r, -, rfl⟩ | ⟨hp, h⟩
  · exact .inl ⟨r, rfl⟩
  · split at h
    · cases h; exact .inl ⟨_, rfl⟩
    · rename_i hst
      obtain ⟨u, hu, h⟩ := andThen_eq_next.1 h
      cases h; exact .inr ⟨hp, hst, u, hu, rfl⟩

theorem execNicTxDone_next {i : Nat} {d : TxDoneDraws} {s t : State} (h : execNicTxDone i d s = .next t) :
    Refused s t ∨ (Admitted [.nic] .always s ∧ i < s.cfg.nTx ∧
      ∃ u, txDone i d s = .next u ∧ t = u.withResult .none) := by
  rcases guarded_eq_next h with ⟨r, -, rfl⟩ | ⟨hp, h⟩
  · exact .inl ⟨r, rfl⟩
  · split at h
    · cases h; exact .inl ⟨_, rfl⟩
    · obtain ⟨u, hu, h⟩ := andThen_eq_next.1 h
      cases h; exact .inr ⟨hp, by omega, u, hu, rfl⟩

theorem execNicRxFill_next {i : Nat} {frame : List Byte} {x : RxStatus} {d : RxFillDraws} {s t : State}
    (h : execNicRxFill i frame x d s = .next t) :
    Refused s t ∨ (Admitted [.nic] .always s ∧ i < s.cfg.nRx ∧
      ∃ u, rxFill i frame x d s = .next u ∧ t = u.withResult .none) := by
  rcases guarded_eq_next h with ⟨r, -, rfl⟩ | ⟨hp, h⟩
  · exact .inl ⟨r, rfl⟩
  · split at h
    · cases h; exact .inl ⟨_, rfl⟩
    · obtain ⟨u, hu, h⟩ := andThen_eq_next.1 h
      cases h; exact .inr ⟨hp, by omega, u, hu, rfl⟩

/-- A descriptor word answers with a result. -/
theorem descResult_next {f : DescFormat} {fits : Bool} {w : Layout → Word} {s t : State}
    (h : descResult f fits w s = .next t) : Refused s t ∨ ∃ r, t = s.withResult r := by
  unfold descResult at h
  split at h
  · cases h; exact .inl ⟨_, rfl⟩
  · split at h <;> cases h
    · exact .inr ⟨_, rfl⟩
    · exact .inl ⟨_, rfl⟩

theorem execEncV1_next {off : OffloadReq} {s t : State} (h : execEncV1 off s = .next t) :
    Refused s t ∨ ∃ r, t = s.withResult r := (pure_next h).imp_right fun h => ⟨_, h.2⟩

theorem execEncV2_next {off : OffloadReq} {s t : State} (h : execEncV2 off s = .next t) :
    Refused s t ∨ ∃ r, t = s.withResult r := (pure_next h).imp_right fun h => ⟨_, h.2⟩

theorem execEncVlan_next {vlan : Option Half} {s t : State} (h : execEncVlan vlan s = .next t) :
    Refused s t ∨ ∃ r, t = s.withResult r := (pure_next h).imp_right fun h => ⟨_, h.2⟩

theorem execRxCsumV1_next {w1 w2 : Word} {s t : State} (h : execRxCsumV1 w1 w2 s = .next t) :
    Refused s t ∨ ∃ r, t = s.withResult r := (pure_next h).imp_right fun h => ⟨_, h.2⟩

theorem execRxCsumV2_next {w1 w2 : Word} {s t : State} (h : execRxCsumV2 w1 w2 s = .next t) :
    Refused s t ∨ ∃ r, t = s.withResult r := (pure_next h).imp_right fun h => ⟨_, h.2⟩

theorem execRxVlan_next {w2 : Word} {s t : State} (h : execRxVlan w2 s = .next t) :
    Refused s t ∨ ∃ r, t = s.withResult r := (pure_next h).imp_right fun h => ⟨_, h.2⟩

theorem execTxIrq_next {s t : State} (h : execTxIrq s = .next t) :
    Refused s t ∨ (Admitted [.serialized] .tx s ∧ ∃ u, txBegin s = .next u ∧ t = u.withResult .none) := body_next h

theorem execRxIrq_next {draws : List Acquisition} {s t : State} (h : execRxIrq draws s = .next t) : Refused s t ∨
    (Admitted [.serialized] .rx s ∧ drawsOk s.cfg draws = true ∧
      ∃ u, rxNext false (takeDraws draws s) = .next u ∧ t = u.withResult .none) := by
  rcases guarded_eq_next h with ⟨r, -, rfl⟩ | ⟨hp, h⟩
  · exact .inl ⟨r, rfl⟩
  · split at h
    · cases h; exact .inl ⟨_, rfl⟩
    · obtain ⟨u, hu, h⟩ := andThen_eq_next.1 h
      cases h; exact .inr ⟨hp, by simpa using ‹¬ drawsOk s.cfg draws = false›, u, hu, rfl⟩

theorem execResetFull_next {s t : State} (h : execResetFull s = .next t) :
    Refused s t ∨ (Admitted [.serialized] .both s ∧ t = (beginReset .none s).withResult .none) := by
  rcases guarded_eq_next h with ⟨r, -, rfl⟩ | ⟨hp, h⟩
  · exact .inl ⟨r, rfl⟩
  · cases h; exact .inr ⟨hp, rfl⟩

theorem execIrq_next {draws : List Acquisition} {s t : State} (h : execIrq draws s = .next t) : Refused s t ∨
    (Admitted [.serialized] .both s ∧ drawsOk s.cfg draws = true ∧
      t = (irq (takeDraws draws s)).withResult .none) := by
  rcases guarded_eq_next h with ⟨r, -, rfl⟩ | ⟨hp, h⟩
  · exact .inl ⟨r, rfl⟩
  · split at h
    · cases h; exact .inl ⟨_, rfl⟩
    · injection h with h
      exact .inr ⟨hp, by simpa using ‹¬ drawsOk s.cfg draws = false›, h.symm⟩

theorem execNicTxQuiesce_next {s t : State} (h : execNicTxQuiesce s = .next t) :
    Refused s t ∨ (Admitted [.nic] .always s ∧ ∃ u, txQuiesce s = .next u ∧ t = u.withResult .none) := body_next h

theorem execNicIrqRaise_next {c : Cause} {s t : State} (h : execNicIrqRaise c s = .next t) :
    Refused s t ∨ (Admitted [.nic] .always s ∧ t = (latchCause c s).withResult .none) := by
  rcases guarded_eq_next h with ⟨r, -, rfl⟩ | ⟨hp, h⟩
  · exact .inl ⟨r, rfl⟩
  · cases h; exact .inr ⟨hp, rfl⟩

theorem execNicReset_next {s t : State} (h : execNicReset s = .next t) :
    Refused s t ∨ (Admitted [.serialized] .always s ∧ t = (nicReset s).withResult .none) := by
  rcases guarded_eq_next h with ⟨r, -, rfl⟩ | ⟨hp, h⟩
  · exact .inl ⟨r, rfl⟩
  · cases h; exact .inr ⟨hp, rfl⟩

theorem txQuiesce_shape {s t : State} (h : txQuiesce s = .next t) : t = { s with nicTxBusy := none } := by
  unfold txQuiesce at h
  split at h
  · cases h
  · split at h <;> cases h; rfl

/-- A stalled submission leaves the flag, the held packets and the history (R145 step 4). -/
theorem stallSubmit_shape (h : Handle) (s : State) : ∃ held hist, stallSubmit h s = { s with
    txStalled := true, heldPackets := held, history := hist, result := .stall } := by
  obtain ⟨hist, hc⟩ := completePacket_frame h { s.raise .backpressure with txStalled := true }
  exact ⟨_, hist, by rw [stallSubmit, returnPacket, hc]; rfl⟩

/-- The three ways TX.SUBMIT ends (R145): dropped, stalled, submitted. -/
theorem submitHeld_shape {p : Packet} {s t : State} (h : submitHeld p s = .next t) :
    (∃ held hist drops, t = { s with
      heldPackets := held, history := hist, ctrTxDrops := drops, result := .dropped }) ∨
    (∃ held hist, t = { s with
      txStalled := true, heldPackets := held, history := hist, result := .stall }) ∨
    (∃ mem hist unsub held, ∃ n : Nat, 1 ≤ n ∧ (n : Int) < s.txFree ∧ t = { s with
      mem := mem, history := hist, txUnsubmitted := unsub, heldPackets := held
      txNext := txIdx s.cfg s.txNext n
      txFree := wrapI32 (s.txFree + -(n : Int))
      txSlot := s.txSlot.set (txIdx s.cfg s.txNext (n - 1)) (some p.h), result := .success }) := by
  rcases submitHeld_next h with ⟨-, u, hu, rfl⟩ | ⟨c, u, hu, rfl⟩ | ⟨s0, ss, c, -, -, ⟨-, rfl⟩ | ⟨hf, rfl⟩⟩
  · obtain ⟨-, hist, rfl⟩ := freePacket_shape hu
    exact .inl ⟨_, hist, s.ctrTxDrops, rfl⟩
  · obtain ⟨-, hist, rfl⟩ := freePacket_shape hu
    exact .inl ⟨_, hist, _, rfl⟩
  · obtain ⟨he, hist, hst⟩ := stallSubmit_shape p.h (preparePacket p.h s)
    exact .inr (.inl ⟨he, hist, by rw [hst]; rfl⟩)
  · obtain ⟨m, hist, us, hsub⟩ := submitSegs_shape p.h s0 ss c p.vlan (preparePacket p.h s)
    exact .inr (.inr ⟨m, hist, us, _, ss.length + 1, by omega, hf, by rw [hsub]; rfl⟩)

/-- A descriptor word leaves only its result (R78 to R85). -/
theorem format_next {i : Instr} (hf : isFormat i = true) {s t : State} (h : exec i s = .next t) :
    Refused s t ∨ ∃ r, t = s.withResult r := by
  cases i <;> first
    | (cases hf; done)
    | (dsimp only [exec, execTxd1V1Csum, execTxd1V1Tso, execTxd1V2, execTxd2V1, execTxd2V2, execRxdArmed,
        execRxd1V1, execRxd1V2, execRxd2V1, execRxd2V2] at h
       exact descResult_next h)

/-! ### Every operation stands behind its guard -/

/-- What each operation needs of the state (R236). -/
def needOf : Instr → Need
  | .ringAlloc _ => .enabled
  | .ringWrite ring _ _ _ _ _ => writeNeed ring
  | .ringReclaim => .tx
  | .ringClearTx => .tx
  | .ringClearRx => .rx
  | .segTx _ => .enabled
  | .segRx _ => .enabled
  | .encV1 _ => .enabled
  | .encV2 _ => .enabled
  | .encVlan _ => .enabled
  | .txSubmit _ => .tx
  | .txIrq => .tx
  | .txDlchk => .both
  | .rxIrq _ => .rx
  | .rxCsumV1 _ _ => .enabled
  | .rxCsumV2 _ _ => .enabled
  | .rxVlan _ => .enabled
  | .timerTick _ => .both
  | .linkUp _ => .enabled
  | .linkDown => .tx
  | .resetFull => .both
  | .irq _ => .both
  | .statsReq => .enabled
  | .statsDone => .enabled
  | .disable => .both
  | _ => .always

/-- An operation other than TX.SUBMIT is a guard with its agents and its needs, and a body. -/
theorem exec_guarded {i : Instr} (hf : isFormat i = false) (hs : ∀ p, i ≠ .txSubmit p) (s : State) :
    ∃ body, exec i s = guarded (agentsOf i) (needOf i) s body := by
  cases i
  case ringWrite ring _ _ _ _ _ =>
    cases ring <;> (dsimp only [exec, execRingWrite, needOf, writeNeed]; exact ⟨_, rfl⟩)
  case txSubmit p => exact absurd rfl (hs p)
  all_goals
    first
    | (cases hf; done)
    | (dsimp only [exec, execRingAlloc, execRingReclaim, execRingClearTx, execRingClearRx, execSegTx, execSegRx,
        execEncV1, execEncV2, execEncVlan, execTxIrq, execTxDlchk, execRxIrq, execRxCsumV1, execRxCsumV2, execRxVlan,
        execTimerTick, execLinkUp, execLinkDown, execResetFull, execIrq, execStatsReq, execStatsDone, execEnable,
        execDisable, execNicTxDone, execNicRxFill, execNicIrqRaise, execNicReset, execNicTxQuiesce, agentsOf, needOf]
       exact ⟨_, rfl⟩)

/-- An operation whose guard does not pass is refused, and nothing else happens (R236). -/
theorem exec_refused {i : Instr} {s : State} {r : RefusedReason} (h : precheck (agentsOf i) (needOf i) s = some r) :
    exec i s = .next { s with history := s.history ++ [.refused r], result := refusedResult i r } := by
  by_cases hf : isFormat i = true
  · cases i <;> first
      | (cases hf; done)
      | (dsimp only [exec, execTxd1V1Csum, execTxd1V1Tso, execTxd1V2, execTxd2V1, execTxd2V2, execRxdArmed,
          execRxd1V1, execRxd1V2, execRxd2V1, execRxd2V2, descResult]
         rw [show precheck anyAgent .always s = some r from h]; rfl)
  · by_cases hs : ∃ p, i = .txSubmit p
    · obtain ⟨p, rfl⟩ := hs
      have h' : precheck [.submitter] .tx s = some r := h
      simp only [exec, execTxSubmit, guardedBy, h', submitRefused, refusedResult]
      split <;> rfl
    · obtain ⟨body, hb⟩ := exec_guarded (by simpa using hf) (fun p hp => hs ⟨p, hp⟩) s
      rw [hb, guarded_refused h]
      cases i <;> first | rfl | (exact absurd ⟨_, rfl⟩ hs)

/-- Inside an operation in progress the serialized domain has no other (R210 H6). -/
theorem exec_overlap {i : Instr} {s : State} (hf : isFormat i = false)
    (h : precheck (agentsOf i) (needOf i) s = none) (ho : s.overlaps = true) : exec i s = .refused .overlap := by
  by_cases hs : ∃ p, i = .txSubmit p
  · obtain ⟨p, rfl⟩ := hs
    have h' : precheck [.submitter] .tx s = none := h
    simp [exec, execTxSubmit, guardedBy, h', ho]
  · obtain ⟨body, hb⟩ := exec_guarded hf (fun p hp => hs ⟨p, hp⟩) s
    rw [hb, guarded_overlap h ho]

end Sys2Proof.Machine
end

