-- ==== Sys2Proof/Laws/PerInstr.lean ====
section
/-! SUPPORT. Facts about every instruction as syntax, one lemma per constructor: RoundTrip, that a
well-formed instruction's code decodes to it. -/

namespace Sys2Proof.Laws.RoundTrip

def Statement (i : Instr) : Prop := WellFormed i = true → decode (encode i) = .ok i

theorem ringAlloc (n : Nat) : Statement (.ringAlloc n) := fun h => by
  refine decode_op ?_
  simp only [getOperands, BitVec.reduceToNat]
  exact (undoesInt h).finish _

theorem ringWrite (ring : Ring) (index : Nat) (seg : Segment) (flags1 flags2 : Word) (own : Bool) : Statement (.ringWrite ring index seg flags1 flags2 own) := fun h => by
  refine decode_op ?_
  simp only [getOperands, BitVec.reduceToNat]
  simp only [WellFormed, Bool.and_eq_true] at h
  rw [(undoesRing ring).last, (undoesInt h.1).last, (undoesSegment h.2).last, (undoes32 _).last,
    (undoes32 _).last, (undoesBool _).finish]
  rfl

theorem ringReclaim : Statement .ringReclaim := fun _ => rfl

theorem ringClearTx : Statement .ringClearTx := fun _ => rfl

theorem ringClearRx : Statement .ringClearRx := fun _ => rfl

theorem segTx (regions : List Region) : Statement (.segTx regions) := fun h => by
  refine decode_op ?_
  simp only [getOperands, BitVec.reduceToNat]
  exact (undoesRegions h).finish _

theorem segRx (regions : List Region) : Statement (.segRx regions) := fun h => by
  refine decode_op ?_
  simp only [getOperands, BitVec.reduceToNat]
  exact (undoesRegions h).finish _

theorem encV1 (off : OffloadReq) : Statement (.encV1 off) := fun h => by
  refine decode_op ?_
  simp only [getOperands, BitVec.reduceToNat]
  exact (undoesOffload h).finish _

theorem encV2 (off : OffloadReq) : Statement (.encV2 off) := fun h => by
  refine decode_op ?_
  simp only [getOperands, BitVec.reduceToNat]
  exact (undoesOffload h).finish _

theorem encVlan (vlan : Option Half) : Statement (.encVlan vlan) := fun _ => by
  refine decode_op ?_
  simp only [getOperands, BitVec.reduceToNat]
  exact (undoesTag vlan).finish _

theorem txSubmit (packet : Packet) : Statement (.txSubmit packet) := fun h => by
  refine decode_op ?_
  simp only [getOperands, BitVec.reduceToNat]
  exact (undoesPacket h).finish _

theorem txIrq : Statement .txIrq := fun _ => rfl

theorem txDlchk : Statement .txDlchk := fun _ => rfl

theorem rxIrq (draws : List Acquisition) : Statement (.rxIrq draws) := fun h => by
  refine decode_op ?_
  simp only [getOperands, BitVec.reduceToNat]
  exact (undoesAcquisitions h).finish _

theorem rxCsumV1 (opts1 opts2 : Word) : Statement (.rxCsumV1 opts1 opts2) := fun _ => by
  refine decode_op ?_
  simp only [getOperands, BitVec.reduceToNat]
  rw [(undoes32 opts1).last, (undoes32 opts2).finish]; rfl

theorem rxCsumV2 (opts1 opts2 : Word) : Statement (.rxCsumV2 opts1 opts2) := fun _ => by
  refine decode_op ?_
  simp only [getOperands, BitVec.reduceToNat]
  rw [(undoes32 opts1).last, (undoes32 opts2).finish]; rfl

theorem rxVlan (opts2 : Word) : Statement (.rxVlan opts2) := fun _ => by
  refine decode_op ?_
  simp only [getOperands, BitVec.reduceToNat]
  exact (undoes32 opts2).finish _

theorem timerTick (v : Byte) : Statement (.timerTick v) := fun _ => by
  refine decode_op ?_
  simp only [getOperands, BitVec.reduceToNat]
  exact (undoes8 v).finish _

theorem linkUp (params : LinkParams) : Statement (.linkUp params) := fun _ => by
  refine decode_op ?_
  simp only [getOperands, BitVec.reduceToNat]
  exact (undoesLinkParams params).finish _

theorem linkDown : Statement .linkDown := fun _ => rfl

theorem resetFull : Statement .resetFull := fun _ => rfl

theorem irq (draws : List Acquisition) : Statement (.irq draws) := fun h => by
  refine decode_op ?_
  simp only [getOperands, BitVec.reduceToNat]
  exact (undoesAcquisitions h).finish _

theorem statsReq : Statement .statsReq := fun _ => rfl

theorem statsDone : Statement .statsDone := fun _ => rfl

theorem enable (draws : EnableDraws) : Statement (.enable draws) := fun h => by
  refine decode_op ?_
  simp only [getOperands, BitVec.reduceToNat]
  exact (undoesEnableDraws h).finish _

theorem disable : Statement .disable := fun _ => rfl

theorem nicTxDone (i : Nat) (draws : TxDoneDraws) : Statement (.nicTxDone i draws) := fun h => by
  refine decode_op ?_
  simp only [getOperands, BitVec.reduceToNat]
  simp only [WellFormed, Bool.and_eq_true] at h
  rw [(undoesInt h.1).last, (undoesTxDone h.2).finish]; rfl

theorem nicRxFill (i : Nat) (frame : List Byte) (status : RxStatus) (draws : RxFillDraws) :
    Statement (.nicRxFill i frame status draws) := fun h => by
  refine decode_op ?_
  simp only [getOperands, BitVec.reduceToNat]
  simp only [WellFormed, Bool.and_eq_true] at h
  rw [(undoesInt h.1.1).last, (undoesFrame h.1.2).last, (undoesStatus status).last, (undoesRxFill h.2).finish]
  rfl

theorem nicIrqRaise (cause : Cause) : Statement (.nicIrqRaise cause) := fun _ => by
  refine decode_op ?_
  simp only [getOperands, BitVec.reduceToNat]
  exact (undoesCause cause).finish _

theorem nicReset : Statement .nicReset := fun _ => rfl

theorem nicTxQuiesce : Statement .nicTxQuiesce := fun _ => rfl

/-! ### Descriptor words -/

/-- A word that fits its format and reads back as its fields. -/
theorem decode_word {f : DescFormat} {w : Word} {i : Instr} (hf : f.fits w = true) (hr : readWord f w = i) :
    decode (.word f w) = .ok i := by
  simp [decode, decodeWord, hf, hr]

/-- Words are equal when their 32 bits are; the bits in a form `simp` evaluates. -/
theorem word_bits {v w : Word} (h : ∀ i : Fin 32, v.getLsbD i = w.getLsbD i) : v = w :=
  BitVec.eq_of_getLsbD_eq fun i hi => h ⟨i, hi⟩

theorem field_bits {n : Nat} {v w : BitVec n} (h : ∀ i : Fin n, v.getLsbD i = w.getLsbD i) : v = w :=
  BitVec.eq_of_getLsbD_eq fun i hi => h ⟨i, hi⟩

theorem getLsbD_place {n : Nat} (v : BitVec n) (lo i : Nat) :
    (place v lo).getLsbD i = (decide (i < 32) && (!decide (i < lo) && v.getLsbD (i - lo))) := by
  simp only [place, BitVec.getLsbD_shiftLeft, BitVec.getLsbD_setWidth]
  by_cases h : i < 32 <;> by_cases h' : i < lo <;> simp [h, h']
  intro _; omega

theorem getLsbD_placeBit (b : Bool) (p i : Nat) :
    (placeBit b p).getLsbD i = (decide (i < 32) && (decide (i = p) && b)) := by
  rw [placeBit, getLsbD_place, BitVec.getLsbD_ofBool]
  by_cases h : i < 32 <;> by_cases h' : i = p <;> simp [h, h']
  · omega

/-- The same for the bit access `simp` prefers. -/
theorem getElem_place {n : Nat} (v : BitVec n) (lo i : Nat) (h : i < 32) :
    (place v lo)[i] = (!decide (i < lo) && v.getLsbD (i - lo)) := by
  rw [← BitVec.getLsbD_eq_getElem, getLsbD_place]; simp [h]

theorem getElem_placeBit (b : Bool) (p i : Nat) (h : i < 32) : (placeBit b p)[i] = (decide (i = p) && b) := by
  rw [← BitVec.getLsbD_eq_getElem, getLsbD_placeBit]; simp [h]

theorem getElem_of_within {rest mask : Word} (h : within rest mask = true) (i : Nat) (hi : i < 32)
    (hm : mask.getLsbD i = false) : rest[i] = false := by
  simp only [within, beq_iff_eq] at h
  rw [← BitVec.getLsbD_eq_getElem, ← h, BitVec.getLsbD_and, hm, Bool.and_false]

theorem txd1V1Csum (own eor fs ls ipcs udpcs tcpcs : Bool) (txlen : BitVec 16) :
    Statement (.txd1V1Csum own eor fs ls ipcs udpcs tcpcs txlen) := fun _ => by
  refine decode_word ?_ ?_
  · simp only [DescFormat.fits, beq_iff_eq]
    refine word_bits fun i => ?_
    fin_cases i <;> simp [getElem_place, getElem_placeBit, DescFormat.mask, DescFormat.pattern]
  · simp only [readWord]
    congr 1 <;> first
      | (refine field_bits fun i => ?_
         fin_cases i <;> simp [field, getElem_place, getElem_placeBit])
      | simp [getElem_place, getElem_placeBit]

theorem txd1V1Tso (own eor fs ls : Bool) (mss : BitVec 11) (txlen : BitVec 16) :
    Statement (.txd1V1Tso own eor fs ls mss txlen) := fun _ => by
  refine decode_word ?_ ?_
  · simp only [DescFormat.fits, beq_iff_eq]
    refine word_bits fun i => ?_
    fin_cases i <;> simp [getElem_place, getElem_placeBit, DescFormat.mask, DescFormat.pattern]
  · simp only [readWord]
    congr 1 <;> first
      | (refine field_bits fun i => ?_
         fin_cases i <;> simp [field, getElem_place, getElem_placeBit])
      | simp [getElem_place, getElem_placeBit]

theorem txd1V2 (own eor fs ls lgsen : Bool) (txlen : BitVec 16) :
    Statement (.txd1V2 own eor fs ls lgsen txlen) := fun _ => by
  refine decode_word ?_ ?_
  · simp only [DescFormat.fits, beq_iff_eq]
    refine word_bits fun i => ?_
    fin_cases i <;> simp [getElem_place, getElem_placeBit, DescFormat.mask, DescFormat.pattern]
  · simp only [readWord]
    congr 1 <;> first
      | (refine field_bits fun i => ?_
         fin_cases i <;> simp [field, getElem_place, getElem_placeBit])
      | simp [getElem_place, getElem_placeBit]

theorem txd2V1 (txvtag : Bool) (vlan : Half) :
    Statement (.txd2V1 txvtag vlan) := fun _ => by
  refine decode_word ?_ ?_
  · simp only [DescFormat.fits, beq_iff_eq]
    refine word_bits fun i => ?_
    fin_cases i <;> simp [getElem_place, getElem_placeBit, DescFormat.mask, DescFormat.pattern]
  · simp only [readWord]
    congr 1 <;> first
      | (refine field_bits fun i => ?_
         fin_cases i <;> simp [field, getElem_place, getElem_placeBit])
      | simp [getElem_place, getElem_placeBit]

theorem txd2V2 (udpcs tcpcs ipcs : Bool) (mss : BitVec 11) (txvtag : Bool) (vlan : Half) :
    Statement (.txd2V2 udpcs tcpcs ipcs mss txvtag vlan) := fun _ => by
  refine decode_word ?_ ?_
  · simp only [DescFormat.fits, beq_iff_eq]
    refine word_bits fun i => ?_
    fin_cases i <;> simp [getElem_place, getElem_placeBit, DescFormat.mask, DescFormat.pattern]
  · simp only [readWord]
    congr 1 <;> first
      | (refine field_bits fun i => ?_
         fin_cases i <;> simp [field, getElem_place, getElem_placeBit])
      | simp [getElem_place, getElem_placeBit]

theorem rxdArmed (eor : Bool) (rxlen : BitVec 14) :
    Statement (.rxdArmed eor rxlen) := fun _ => by
  refine decode_word ?_ ?_
  · simp only [DescFormat.fits, beq_iff_eq]
    refine word_bits fun i => ?_
    fin_cases i <;> simp [getElem_place, getElem_placeBit, DescFormat.mask, DescFormat.pattern]
  · simp only [readWord]
    congr 1 <;> first
      | (refine field_bits fun i => ?_
         fin_cases i <;> simp [field, getElem_place, getElem_placeBit])
      | simp [getElem_place, getElem_placeBit]

theorem rxd1V1 (eor fs ls : Bool) (pid : BitVec 2) (ipf udpf tcpf : Bool) (rxlen : BitVec 14) (rest : Word) :
    Statement (.rxd1V1 eor fs ls pid ipf udpf tcpf rxlen rest) := fun h => by
  have hr := fun i hi hm => getElem_of_within (show within rest rxd1Unnamed = true from h) i hi hm
  refine decode_word ?_ ?_
  · simp only [DescFormat.fits, beq_iff_eq]
    refine word_bits fun i => ?_
    fin_cases i <;> simp [getElem_place, getElem_placeBit, DescFormat.mask, DescFormat.pattern, hr, rxd1Unnamed]
  · simp only [readWord]
    congr 1 <;> first
      | (refine field_bits fun i => ?_
         fin_cases i <;> simp [field, getElem_place, getElem_placeBit, hr, rxd1Unnamed])
      | simp [getElem_place, getElem_placeBit, hr, rxd1Unnamed]

theorem rxd1V2 (eor fs ls udpt tcpt ipf udpf tcpf : Bool) (rxlen : BitVec 14) (rest : Word) :
    Statement (.rxd1V2 eor fs ls udpt tcpt ipf udpf tcpf rxlen rest) := fun h => by
  have hr := fun i hi hm => getElem_of_within (show within rest rxd1Unnamed = true from h) i hi hm
  refine decode_word ?_ ?_
  · simp only [DescFormat.fits, beq_iff_eq]
    refine word_bits fun i => ?_
    fin_cases i <;> simp [getElem_place, getElem_placeBit, DescFormat.mask, DescFormat.pattern, hr, rxd1Unnamed]
  · simp only [readWord]
    congr 1 <;> first
      | (refine field_bits fun i => ?_
         fin_cases i <;> simp [field, getElem_place, getElem_placeBit, hr, rxd1Unnamed])
      | simp [getElem_place, getElem_placeBit, hr, rxd1Unnamed]

theorem rxd2V1 (rxvtag : Bool) (vlan : Half) (rest : Word) :
    Statement (.rxd2V1 rxvtag vlan rest) := fun h => by
  have hr := fun i hi hm => getElem_of_within (show within rest rxd2V1Unnamed = true from h) i hi hm
  refine decode_word ?_ ?_
  · simp only [DescFormat.fits, beq_iff_eq]
    simp [DescFormat.mask, DescFormat.pattern]
  · simp only [readWord]
    congr 1 <;> first
      | (refine field_bits fun i => ?_
         fin_cases i <;> simp [field, getElem_place, getElem_placeBit, hr, rxd2V1Unnamed])
      | simp [getElem_place, getElem_placeBit, hr, rxd2V1Unnamed]

theorem rxd2V2 (v6f v4f rxvtag : Bool) (vlan : Half) (rest : Word) :
    Statement (.rxd2V2 v6f v4f rxvtag vlan rest) := fun h => by
  have hr := fun i hi hm => getElem_of_within (show within rest rxd2V2Unnamed = true from h) i hi hm
  refine decode_word ?_ ?_
  · simp only [DescFormat.fits, beq_iff_eq]
    simp [DescFormat.mask, DescFormat.pattern]
  · simp only [readWord]
    congr 1 <;> first
      | (refine field_bits fun i => ?_
         fin_cases i <;> simp [field, getElem_place, getElem_placeBit, hr, rxd2V2Unnamed])
      | simp [getElem_place, getElem_placeBit, hr, rxd2V2Unnamed]

end Sys2Proof.Laws.RoundTrip
end

