-- ==== Sys2Proof/Laws/Rings.lean ====
section
/-! SUPPORT. What the ring operations leave in ring memory: reads of a descriptor depend on its sixteen bytes
alone, and each store of a descriptor write or a ring clear leaves every other descriptor as it was. -/

namespace Sys2Proof.Machine

/-- The rings stand where they stood: the configuration and both ring memories are unchanged. -/
structure Sited (s t : State) : Prop where
  cfg : t.cfg = s.cfg
  tx : t.txMem = s.txMem
  rx : t.rxMem = s.rxMem

theorem Sited.refl (s : State) : Sited s s := ⟨rfl, rfl, rfl⟩

theorem Sited.trans {s t u : State} (h : Sited s t) (k : Sited t u) : Sited s u :=
  ⟨k.cfg.trans h.cfg, k.tx.trans h.tx, k.rx.trans h.rx⟩

theorem Sited.symm {s t : State} (h : Sited s t) : Sited t s := ⟨h.cfg.symm, h.tx.symm, h.rx.symm⟩

theorem Sited.base {s t : State} (h : Sited s t) (ring : Ring) : t.base ring = s.base ring := by
  cases ring <;> simp only [State.base, State.ringMem, h.tx, h.rx]

theorem Sited.descAddr {s t : State} (h : Sited s t) (ring : Ring) (i : Nat) (f : DescField) :
    t.descAddr ring i f = s.descAddr ring i f := descAddr_congr h.cfg h.tx h.rx ring i f

theorem Sited.inDesc {s t : State} (h : Sited s t) (ring : Ring) (i a : Nat) :
    t.inDesc ring i a ↔ s.inDesc ring i a := by simp only [State.inDesc, h.base]

theorem Sited.inRing {s t : State} (h : Sited s t) (ring : Ring) (a : Nat) :
    t.inRing ring a ↔ s.inRing ring a := by simp only [State.inRing, h.base, h.cfg]

theorem inDesc_unique {s : State} {ring : Ring} {i j a : Nat} (hi : s.inDesc ring i a) (hj : s.inDesc ring j a) :
    i = j := by
  simp only [State.inDesc, descSize] at hi hj; omega

theorem inRing_of_inDesc {s : State} {ring : Ring} {i a : Nat} (hi : i < ringSize s.cfg ring)
    (h : s.inDesc ring i a) : s.inRing ring a := by
  simp only [State.inDesc, State.inRing, descSize] at *; omega

/-- The bytes of a ring are the bytes of its descriptors. -/
theorem inDesc_of_inRing {s : State} {ring : Ring} {a : Nat} (h : s.inRing ring a) :
    ∃ i < ringSize s.cfg ring, s.inDesc ring i a :=
  ⟨(a - (s.base ring).toNat) / 16, by simp only [State.inRing, State.inDesc, descSize] at *; omega⟩

/-- A descriptor word depends on the sixteen bytes of the descriptor alone. -/
theorem desc32_of_bytes {s t : State} (hs : Sited s t) (hl : OffsetsOk s.cfg.layout) {ring : Ring} {i : Nat}
    (h : ∀ a, s.inDesc ring i a → t.mem.read a = s.mem.read a) {f : DescField} (hf : f ≠ .addr) :
    t.desc32 ring i f = s.desc32 ring i f := by
  obtain ⟨h1, h2, -, -, -, -⟩ := hl
  rw [State.desc32, State.desc32, hs.descAddr]
  refine Memory.read32_congr fun x hx hx' => h x ?_
  cases f <;> simp only [State.descAddr, State.inDesc, fieldOff, descSize, ne_eq, not_true_eq_false] at * <;> omega

theorem descBuf_of_bytes {s t : State} (hs : Sited s t) (hl : OffsetsOk s.cfg.layout) {ring : Ring} {i : Nat}
    (h : ∀ a, s.inDesc ring i a → t.mem.read a = s.mem.read a) : t.descBuf ring i = s.descBuf ring i := by
  obtain ⟨-, -, h3, -, -, -⟩ := hl
  rw [State.descBuf, State.descBuf, hs.descAddr]
  refine Memory.read64_congr fun x hx hx' => h x ?_
  simp only [State.descAddr, State.inDesc, fieldOff, descSize] at *; omega

theorem nicOwned_of_bytes {s t : State} (hs : Sited s t) (hl : OffsetsOk s.cfg.layout) {ring : Ring} {i : Nat}
    (h : ∀ a, s.inDesc ring i a → t.mem.read a = s.mem.read a) : t.nicOwned ring i = s.nicOwned ring i := by
  rw [State.nicOwned, State.nicOwned, desc32_of_bytes hs hl h (by simp), hs.cfg]

/-- The marker as the statements write it is the marker the stores carry. -/
theorem eorOn_eq (c : Cfg) (ring : Ring) (i : Nat) : eorOn c ring i = eorBit c ring i := by
  unfold eorOn eorBit flagIf; split <;> simp_all

/-! ### The three stores of a cleared descriptor -/

theorem clearTxWords_sited (i : Nat) (s : State) : Sited s (clearTxWords i s) := by
  constructor <;> simp [clearTxWords]

theorem clearTxWords_eq (i : Nat) (s : State) : clearTxWords i s = { s with
    mem := (clearTxWords i s).mem
    history := s.history ++ [.descWrite .tx i .opts1 ((eorBit s.cfg .tx i).setWidth 64),
      .descWrite .tx i .opts2 ((0#32).setWidth 64), .descWrite .tx i .addr 0#64] } := by
  apply State.eq_of_fields <;> first | rfl | simp [clearTxWords]

theorem clearTxWords_mem (i : Nat) (s : State) : (clearTxWords i s).mem =
    ((s.mem.write32 (s.descAddr .tx i .opts1) (eorBit s.cfg .tx i)).write32 (s.descAddr .tx i .opts2) 0#32).write64
      (s.descAddr .tx i .addr) 0#64 := rfl

theorem clearTxWords_wf {s : State} (h : s.mem.wf) (i : Nat) : (clearTxWords i s).mem.wf := by
  rw [clearTxWords_mem]
  exact Memory.wf_write64 (Memory.wf_write32 (Memory.wf_write32 h _ _) _ _) _ _

theorem clearTxWords_read_of_ne {s : State} (hw : s.mem.wf) (hl : OffsetsOk s.cfg.layout) {i a : Nat}
    (ha : ¬ s.inDesc .tx i a) : (clearTxWords i s).mem.read a = s.mem.read a := by
  obtain ⟨h1, h2, h3, -, -, -⟩ := hl
  have w1 := Memory.wf_write32 hw (s.descAddr .tx i .opts1) (eorBit s.cfg .tx i)
  have w2 := Memory.wf_write32 w1 (s.descAddr .tx i .opts2) 0#32
  simp only [State.inDesc, descSize] at ha
  have e1 : s.descAddr .tx i .opts1 = (s.base .tx).toNat + 16 * i + s.cfg.layout.offOpts1 := rfl
  have e2 : s.descAddr .tx i .opts2 = (s.base .tx).toNat + 16 * i + s.cfg.layout.offOpts2 := rfl
  have e3 : s.descAddr .tx i .addr = (s.base .tx).toNat + 16 * i + s.cfg.layout.offAddr := rfl
  rw [clearTxWords_mem, Memory.read_write64_of_ne w2 _ _ (by omega), Memory.read_write32_of_ne w1 _ _ (by omega),
    Memory.read_write32_of_ne hw _ _ (by omega)]

theorem clearTxWords_fields {s : State} (hw : s.mem.wf) (hl : OffsetsOk s.cfg.layout) (i : Nat) :
    (clearTxWords i s).desc32 .tx i .opts1 = eorBit s.cfg .tx i ∧ (clearTxWords i s).desc32 .tx i .opts2 = 0#32 ∧
      (clearTxWords i s).descBuf .tx i = 0#64 := by
  obtain ⟨h1, h2, h3, h12, h1a, h2a⟩ := hl
  have w1 := Memory.wf_write32 hw (s.descAddr .tx i .opts1) (eorBit s.cfg .tx i)
  have w2 := Memory.wf_write32 w1 (s.descAddr .tx i .opts2) 0#32
  have e1 : s.descAddr .tx i .opts1 = (s.base .tx).toNat + 16 * i + s.cfg.layout.offOpts1 := rfl
  have e2 : s.descAddr .tx i .opts2 = (s.base .tx).toNat + 16 * i + s.cfg.layout.offOpts2 := rfl
  have e3 : s.descAddr .tx i .addr = (s.base .tx).toNat + 16 * i + s.cfg.layout.offAddr := rfl
  simp only [State.desc32, State.descBuf, (clearTxWords_sited i s).descAddr, clearTxWords_mem]
  refine ⟨?_, ?_, Memory.read64_write64 w2 _ _⟩
  · rw [Memory.read32_write64_of_ne w2 _ _ (by omega), Memory.read32_write32_of_ne w1 _ _ (by omega),
      Memory.read32_write32 hw]
  · rw [Memory.read32_write64_of_ne w2 _ _ (by omega), Memory.read32_write32 w1]

/-! ### RING.CLEAR_TX -/

/-- The handles in `k` slots from `i` up. -/
def slotsFrom (s : State) (i k : Nat) : List Handle := (List.range' i k).filterMap fun j => s.txPkt j

theorem slotsFrom_succ (s : State) (i k : Nat) :
    slotsFrom s i (k + 1) = (s.txPkt i).toList ++ slotsFrom s (i + 1) k := by
  rw [slotsFrom, List.range'_succ, List.filterMap_cons]
  cases s.txPkt i <;> rfl

theorem filterMap_getD {α : Type} (l : List (Option α)) :
    (List.range' 0 l.length).filterMap (fun j => l.getD j none) = l.filterMap id := by
  suffices h : ∀ (n : Nat) (m : List (Option α)), (List.range' n l.length).filterMap
      (fun j => (m ++ l).getD j none) = l.filterMap id ∨ m.length ≠ n by
    have := h 0 []
    simpa using this
  induction l with
  | nil => intro n m; left; rfl
  | cons a l ih =>
    intro n m
    by_cases hm : m.length = n
    · left
      have h1 := ih (n + 1) (m ++ [a])
      simp only [List.append_assoc, List.cons_append, List.nil_append, List.length_append, List.length_cons,
        List.length_nil, hm, ne_eq, not_true_eq_false, or_false] at h1
      rw [List.length_cons, List.range'_succ, List.filterMap_cons, h1]
      have : (m ++ a :: l).getD n none = a := by subst hm; simp [List.getD_eq_getElem?_getD]
      rw [this, List.filterMap_cons]
      cases a <;> rfl
    · exact .inr hm

theorem slotsFrom_all {s : State} (h : s.txSlot.length = s.cfg.nTx) :
    slotsFrom s 0 s.cfg.nTx = s.txSlot.filterMap id := by
  rw [slotsFrom, ← h]; exact filterMap_getD s.txSlot

theorem txPkt_set (s : State) (i j : Nat) (o : Option Handle) (l : List (Option Handle)) (hl : l = s.txSlot) :
    (l.set i o).getD j none = if j = i ∧ i < l.length then o else s.txPkt j := by
  subst hl
  rw [State.txPkt, List.getD_eq_getElem?_getD, List.getD_eq_getElem?_getD, List.getElem?_set]
  by_cases h : i = j
  · subst h
    by_cases hi : i < s.txSlot.length
    · simp [hi]
    · simp [hi]
  · have : ¬ j = i := fun e => h e.symm
    simp [h, this]

theorem lt_of_txPkt {s : State} {i : Nat} {h : Handle} (hi : s.txPkt i = some h) : i < s.txSlot.length := by
  by_contra hn
  rw [State.txPkt, List.getD_eq_getElem?_getD, List.getElem?_eq_none (by omega)] at hi
  cases hi

/-- What the loop of RING.CLEAR_TX leaves in memory and in the slots (R116). -/
theorem clearTxLoop_effect {k i : Nat} {s t : State} (hw : s.mem.wf) (hl : OffsetsOk s.cfg.layout)
    (h : clearTxLoop k i s = .next t) :
    t.mem.wf ∧ Sited s t ∧
    (∀ a, (∀ j, i ≤ j → j < i + k → ¬ s.inDesc .tx j a) → t.mem.read a = s.mem.read a) ∧
    (∀ j, i ≤ j → j < i + k → ClearedAt t j) ∧
    (∀ j, t.txPkt j = if i ≤ j ∧ j < i + k then none else s.txPkt j) := by
  induction k generalizing i s with
  | zero =>
    cases h
    refine ⟨hw, .refl _, fun _ _ => rfl, fun j h1 h2 => by omega, fun j => ?_⟩
    rw [if_neg (by omega)]
  | succ k ih =>
    obtain ⟨u, hu, h⟩ := andThen_eq_next.1 h
    obtain ⟨m1, p1⟩ : u.mem = (clearTxWords i s).mem ∧ (∀ j, u.txPkt j = if j = i then none else s.txPkt j) := by
      rw [clearTxOne_eq] at hu
      generalize hM : (clearTxWords i s).mem = M at hu ⊢
      have hc := clearTxWords_eq i s
      rw [hM] at hc
      rw [hc] at hu
      split at hu
      · rename_i p hp
        have hp' : s.txPkt i = some p := hp
        obtain ⟨v, hv, hu⟩ := andThen_eq_next.1 hu
        obtain ⟨-, -, hist, rfl⟩ := freeSent_shape hv
        cases hu
        refine ⟨rfl, fun j => ?_⟩
        show (s.txSlot.set i none).getD j none = _
        rw [txPkt_set s i j none _ rfl]
        have := lt_of_txPkt hp'
        by_cases hj : j = i
        · rw [if_pos ⟨hj, this⟩, if_pos hj]
        · rw [if_neg (fun c => hj c.1), if_neg hj]
      · rename_i hp
        have hp' : s.txPkt i = none := hp
        cases hu
        refine ⟨rfl, fun j => ?_⟩
        show s.txPkt j = _
        split
        · rename_i hj; rw [hj, hp']
        · rfl
    have su : Sited s u := by
      obtain ⟨m, hist, sl, he, rfl⟩ := clearTxOne_shape hu
      exact ⟨rfl, rfl, rfl⟩
    have hwu : u.mem.wf := by rw [m1]; exact clearTxWords_wf hw i
    obtain ⟨w', st, out, clr, slots⟩ := ih hwu (by rw [su.cfg]; exact hl) h
    refine ⟨w', su.trans st, fun a ha => ?_, fun j h1 h2 => ?_, fun j => ?_⟩
    · rw [out a fun j h1 h2 => by rw [su.inDesc]; exact ha j (by omega) (by omega), m1,
        clearTxWords_read_of_ne hw hl (ha i (by omega) (by omega))]
    · by_cases hj : j = i
      · subst hj
        have hb : ∀ a, u.inDesc .tx j a → t.mem.read a = u.mem.read a := fun a ha =>
          out a fun j' h1 h2 h3 => by have := inDesc_unique ha h3; omega
        have hlu : OffsetsOk u.cfg.layout := by rw [su.cfg]; exact hl
        obtain ⟨f1, f2, f3⟩ := clearTxWords_fields hw hl j
        have su' : Sited (clearTxWords j s) u := (clearTxWords_sited j s).symm.trans su
        have e1 : u.desc32 .tx j .opts1 = (clearTxWords j s).desc32 .tx j .opts1 := by
          rw [State.desc32, State.desc32, m1, su'.descAddr]
        have e2 : u.desc32 .tx j .opts2 = (clearTxWords j s).desc32 .tx j .opts2 := by
          rw [State.desc32, State.desc32, m1, su'.descAddr]
        have e3 : u.descBuf .tx j = (clearTxWords j s).descBuf .tx j := by
          rw [State.descBuf, State.descBuf, m1, su'.descAddr]
        exact ⟨by rw [desc32_of_bytes st hlu hb (by simp), e1, f1, eorOn_eq, (su.trans st).cfg],
          by rw [desc32_of_bytes st hlu hb (by simp), e2, f2], by rw [descBuf_of_bytes st hlu hb, e3, f3]⟩
      · exact clr j (by omega) (by omega)
    · rw [slots, p1]
      by_cases hj : j = i
      · subst hj; rw [if_neg (by omega), if_pos rfl, if_pos (by omega)]
      · rw [if_neg hj]
        by_cases hc : i + 1 ≤ j ∧ j < i + 1 + k
        · rw [if_pos hc, if_pos (by omega)]
        · rw [if_neg hc, if_neg (by omega)]

/-! ### Freeing packets -/

@[simp] theorem freedPackets_append (l m : List Event) : freedPackets (l ++ m) = freedPackets l ++ freedPackets m :=
  List.filterMap_append ..
@[simp] theorem freedPackets_nil : freedPackets [] = [] := rfl
@[simp] theorem released_append (l m : List Event) : released (l ++ m) = released l ++ released m :=
  List.filterMap_append ..
@[simp] theorem deliveries_append (l m : List Event) : deliveries (l ++ m) = deliveries l ++ deliveries m :=
  List.filterMap_append ..

theorem holdsPacket_iff {s : State} {h : Handle} : s.holdsPacket h = true ↔ ∃ p ∈ s.heldPackets, p.h = h := by
  simp [State.holdsPacket]

theorem holdsPacket_filter (l : List HeldPacket) (h x : Handle) :
    (l.filter (·.h != h)).any (·.h == x) = (l.any (·.h == x) && decide (x ≠ h)) := by
  rw [Bool.eq_iff_iff]
  simp only [List.any_eq_true, List.mem_filter, bne_iff_ne, ne_eq, beq_iff_eq, Bool.and_eq_true, decide_eq_true_eq]
  constructor
  · rintro ⟨p, ⟨hp, hn⟩, rfl⟩; exact ⟨⟨p, hp, rfl⟩, hn⟩
  · rintro ⟨⟨p, hp, rfl⟩, hn⟩; exact ⟨p, ⟨hp, hn⟩, rfl⟩

/-- The events of freeing a packet: its mapping's completion, if it was mapped, and the free. -/
def freeEvents (s : State) (h : Handle) : List Event :=
  (if s.heldPackets.any (fun p => p.h == h && p.life == .prepared) then [.dmaComplete (.packet h)] else []) ++
    [.freePacket h]

theorem freePacket_held {s : State} {h : Handle} (hh : s.holdsPacket h = true) : freePacket h s = .next { s with
    heldPackets := s.heldPackets.filter (·.h != h), history := s.history ++ freeEvents s h } := by
  rw [freePacket_of_held hh]
  unfold completePacket freeEvents
  split <;> simp [State.emit, dropPacket]

@[simp] theorem freedPackets_freeEvents (s : State) (h : Handle) : freedPackets (freeEvents s h) = [h] := by
  unfold freeEvents; split <;> rfl

/-- Events of a ring clear or a pass that are no register access, no store of the link call, no reset. -/
def quiet : Event → Bool
  | .regRead _ _ _ => false
  | .regWrite _ _ _ => false
  | .nicReset => false
  | .freeBuffer _ => false
  | .freeDma _ => false
  | .doorbell _ _ => false
  | .resumeQueue => false
  | .deliverPacket _ _ _ => false
  | .flushInputQueue => false
  | .raised _ => false
  | _ => true

theorem quiet_freeEvents {s : State} {h : Handle} : ∀ e ∈ freeEvents s h, quiet e = true := by
  unfold freeEvents; split <;> simp [quiet]

theorem released_quiet {l : List Event} (h : ∀ e ∈ l, quiet e = true) : released l = [] := by
  rw [released, List.filterMap_eq_nil_iff]
  intro e he; have := h e he; cases e <;> simp_all [quiet]

theorem regAccess_quiet {l : List Event} (h : ∀ e ∈ l, quiet e = true) : ∀ e ∈ l, isRegAccess e = false := by
  intro e he; have := h e he; cases e <;> simp_all [quiet, isRegAccess]

theorem deliveries_quiet {l : List Event} (h : ∀ e ∈ l, quiet e = true) : deliveries l = [] := by
  rw [deliveries, List.filterMap_eq_nil_iff]
  intro e he; have := h e he; cases e <;> simp_all [quiet]

/-- One descriptor of RING.CLEAR_TX goes through when the packet of its slot, if any, is held and not being read. -/
theorem clearTxOne_completes {i : Nat} {s : State} (hh : ∀ h, s.txPkt i = some h → s.holdsPacket h = true)
    (hb : ∀ h, s.txPkt i = some h → s.nicTxBusy ≠ some h) :
    ∃ u l, clearTxOne i s = .next u ∧ u.history = s.history ++ l ∧ freedPackets l = (s.txPkt i).toList ∧
      (∀ e ∈ l, quiet e = true) ∧ (∀ j, u.txPkt j = if j = i then none else s.txPkt j) ∧
      ∀ x, u.holdsPacket x = (s.holdsPacket x && decide (s.txPkt i ≠ some x)) := by
  rw [clearTxOne_eq]
  generalize hM : (clearTxWords i s).mem = M
  have hc := clearTxWords_eq i s
  rw [hM] at hc
  rw [hc]
  have hp0 : ∀ (x y), State.txPkt { s with mem := x, history := y } i = s.txPkt i := fun _ _ => rfl
  rw [hp0]
  cases hp : s.txPkt i with
  | none =>
    refine ⟨_, _, rfl, rfl, rfl, by simp [quiet], fun j => ?_, fun x => ?_⟩
    · show s.txPkt j = _
      split
      · rename_i hj; rw [hj, hp]
      · rfl
    · show s.holdsPacket x = _; simp
  | some h =>
    have hh' := hh h hp
    simp only
    rw [freeSent_of_idle (s := { s with mem := M, history := _ }) (hb h hp),
      freePacket_held (s := { s with mem := M, history := _ }) hh']
    refine ⟨_, _, rfl, List.append_assoc .., ?_, ?_, fun j => ?_, fun x => ?_⟩
    · rw [freedPackets_append, freedPackets_freeEvents]; rfl
    · intro e he
      rcases List.mem_append.1 he with he | he
      · simp only [List.mem_cons, List.not_mem_nil, or_false] at he
        rcases he with rfl | rfl | rfl <;> rfl
      · exact quiet_freeEvents e he
    · show (s.txSlot.set i none).getD j none = _
      rw [txPkt_set s i j none _ rfl]
      have := lt_of_txPkt hp
      by_cases hj : j = i
      · rw [if_pos ⟨hj, this⟩, if_pos hj]
      · rw [if_neg (fun c => hj c.1), if_neg hj]
    · show (s.heldPackets.filter (·.h != h)).any (·.h == x) = _
      rw [holdsPacket_filter]
      show (s.holdsPacket x && _) = _
      congr 1
      simp only [ne_eq, decide_not, Option.some.injEq]
      rw [decide_eq_decide.2 (eq_comm (a := x) (b := h))]

/-- The loop of RING.CLEAR_TX goes through, and frees the packets of its slots in order. -/
theorem clearTxLoop_completes {k i : Nat} {s : State} (hn : (slotsFrom s i k).Nodup)
    (hh : ∀ h ∈ slotsFrom s i k, s.holdsPacket h = true) (hb : ∀ h ∈ slotsFrom s i k, s.nicTxBusy ≠ some h) :
    ∃ t l, clearTxLoop k i s = .next t ∧ t.history = s.history ++ l ∧ freedPackets l = slotsFrom s i k ∧
      (∀ e ∈ l, quiet e = true) ∧ ∀ x, t.holdsPacket x = (s.holdsPacket x && decide (x ∉ slotsFrom s i k)) := by
  induction k generalizing i s with
  | zero => exact ⟨s, [], rfl, by simp, rfl, by simp, by simp [slotsFrom]⟩
  | succ k ih =>
    rw [slotsFrom_succ] at hn hh hb
    obtain ⟨u, l, hu, hl, hf, hq, hs, hp⟩ := clearTxOne_completes (i := i) (s := s)
      (fun h hh' => hh h (by simp [hh'])) (fun h hh' => hb h (by simp [hh']))
    have hbu : u.nicTxBusy = s.nicTxBusy := by
      obtain ⟨m, hist, sl, he, rfl⟩ := clearTxOne_shape hu; rfl
    have hsl : slotsFrom u (i + 1) k = slotsFrom s (i + 1) k := by
      unfold slotsFrom
      refine List.filterMap_congr fun j hj => ?_
      rw [hs, if_neg (by simp [List.mem_range'] at hj; omega)]
    have hn' := List.nodup_append.1 hn
    obtain ⟨t, l', ht, hl', hf', hq', hp'⟩ := ih (i := i + 1) (s := u) (by rw [hsl]; exact hn'.2.1) (by
      rw [hsl]; intro h hm
      rw [hp, hh h (List.mem_append_right _ hm)]
      simp only [Bool.true_and, decide_eq_true_eq, ne_eq]
      intro he
      exact hn'.2.2 h (by simp [he]) h hm rfl) (by
      rw [hsl, hbu]; exact fun h hm => hb h (List.mem_append_right _ hm))
    refine ⟨t, l ++ l', ?_, by rw [hl', hl, List.append_assoc], ?_, ?_, fun x => ?_⟩
    · show andThen (clearTxOne i s) _ = _
      rw [hu]; exact ht
    · rw [freedPackets_append, hf, hf', hsl, slotsFrom_succ]
    · intro e he; rcases List.mem_append.1 he with he | he
      · exact hq e he
      · exact hq' e he
    · rw [hp', hp, hsl, slotsFrom_succ, Bool.and_assoc]
      congr 1
      rw [Bool.eq_iff_iff]
      simp only [Bool.and_eq_true, decide_eq_true_eq, List.mem_append, Option.mem_toList, not_or, ne_eq]

/-- RING.CLEAR_TX goes through when every packet stands once, is held and is not being read (R8, R116, U14). -/
theorem clearTx_completes {s : State} (hlen : s.txSlot.length = s.cfg.nTx) (hi : HandleInv s) (hb : NothingBusy s) :
    ∃ t l, clearTx s = .next t ∧ t.history = s.history ++ l ∧ freedPackets l = packetsIn s ∧
      (∀ e ∈ l, quiet e = true) ∧ ∀ x, t.holdsPacket x = (s.holdsPacket x && decide (x ∉ packetsIn s)) := by
  have hall := slotsFrom_all hlen
  have hn := hi.packetsOnce
  have hh := hi.packetsHeld
  unfold NothingBusy at hb
  unfold packetsIn at hn hh hb
  rw [← hall] at hn hh hb
  have hn' := List.nodup_append.1 hn
  obtain ⟨u, l, hu, hl, hf, hq, hp⟩ := clearTxLoop_completes (s := s) (i := 0) (k := s.cfg.nTx) hn'.1
    (fun h hm => hh h (List.mem_append_left _ hm)) (fun h hm => hb h (List.mem_append_left _ hm))
  obtain ⟨hpu, hbu⟩ : u.txPending = s.txPending ∧ u.nicTxBusy = s.nicTxBusy := by
    obtain ⟨m, hist, sl, he, rfl⟩ := clearTxLoop_shape hu; exact ⟨rfl, rfl⟩
  unfold packetsIn
  rw [← hall]
  cases hpend : s.txPending with
  | none =>
    refine ⟨resetTxRegs u, l, ?_, hl, by rw [hf]; simp, hq, fun x => ?_⟩
    · rw [clearTx, hu]
      show andThen (freeSentOpt u.txPending u) _ = _
      rw [hpu, hpend]; rfl
    · show u.holdsPacket x = _
      rw [hp]; simp
  | some h =>
    rw [hpend] at hn' hh hb
    have hhu : u.holdsPacket h = true := by
      rw [hp, hh h (by simp)]
      simp only [Bool.true_and, decide_eq_true_eq]
      exact fun hm => hn'.2.2 h hm h (by simp) rfl
    refine ⟨resetTxRegs { u with
      heldPackets := u.heldPackets.filter (·.h != h), history := u.history ++ freeEvents u h }, l ++ freeEvents u h,
      ?_, by show u.history ++ _ = _; rw [hl, List.append_assoc], ?_, ?_, fun x => ?_⟩
    · rw [clearTx, hu]
      show andThen (freeSentOpt u.txPending u) _ = _
      rw [hpu, hpend, freeSentOpt_some, freeSent_of_idle (by rw [hbu]; exact hb h (by simp)), freePacket_held hhu]; rfl
    · rw [freedPackets_append, hf, freedPackets_freeEvents]; rfl
    · intro e he; rcases List.mem_append.1 he with he | he
      · exact hq e he
      · exact quiet_freeEvents e he
    · show (u.heldPackets.filter (·.h != h)).any (·.h == x) = _
      rw [holdsPacket_filter]
      show (u.holdsPacket x && _) = _
      rw [hp, Bool.and_assoc]
      congr 1
      rw [Bool.eq_iff_iff]
      simp only [Bool.and_eq_true, decide_eq_true_eq, List.mem_append, Option.toList_some, List.mem_singleton, not_or,
        ne_eq]

/-- What RING.CLEAR_TX leaves in memory and in the slots (R116). -/
theorem clearTx_effect {s t : State} (hw : s.mem.wf) (hl : OffsetsOk s.cfg.layout) (h : clearTx s = .next t) :
    t.mem.wf ∧ Sited s t ∧ (∀ a, ¬ s.inRing .tx a → t.mem.read a = s.mem.read a) ∧
    (∀ j < s.cfg.nTx, ClearedAt t j) ∧ ∀ j, t.txPkt j = if j < s.cfg.nTx then none else s.txPkt j := by
  obtain ⟨u, hu, h⟩ := andThen_eq_next.1 h
  obtain ⟨v, hv, h⟩ := andThen_eq_next.1 h
  obtain ⟨w, st, out, clr, slots⟩ := clearTxLoop_effect hw hl hu
  obtain ⟨he, hist, rfl⟩ := freeSentOpt_shape hv
  cases h
  refine ⟨w, ⟨st.cfg, st.tx, st.rx⟩, fun a ha => out a fun j _ hj hd => ha (inRing_of_inDesc (by simpa [ringSize] using hj) hd),
    fun j hj => ?_, fun j => ?_⟩
  · obtain ⟨c1, c2, c3⟩ := clr j (by omega) (by omega)
    exact ⟨c1, c2, c3⟩
  · show u.txPkt j = _
    rw [slots]; simp

/-! ### The descriptor write, and arming a receive descriptor -/

theorem writeDesc_sited (ring : Ring) (i : Nat) (seg : Segment) (flags1 flags2 : Word) (own : Bool) (s : State) :
    Sited s (writeDesc ring i seg flags1 flags2 own s) := by constructor <;> simp

/-- Another descriptor reads as before. -/
theorem writeDesc_other {s : State} (hw : s.mem.wf) (hl : OffsetsOk s.cfg.layout) {ring : Ring} {i j : Nat}
    (hij : j ≠ i) (seg : Segment) (flags1 flags2 : Word) (own : Bool) : ∀ a, s.inDesc ring j a →
    (writeDesc ring i seg flags1 flags2 own s).mem.read a = s.mem.read a := fun _ ha =>
  writeDesc_read_of_ne hw hl seg flags1 flags2 own fun h => hij (inDesc_unique ha h)

theorem slotPhys_congr {s t : State} (h : t.rxSlot = s.rxSlot) (i : Nat) : t.slotPhys i = s.slotPhys i := by
  simp only [State.slotPhys, State.rxBuf, h]

theorem rearm_sited (i : Nat) (s : State) : Sited s (rearm i s) := writeDesc_sited ..

theorem rearm_wf {s : State} (h : s.mem.wf) (i : Nat) : (rearm i s).mem.wf := writeDesc_wf h ..

theorem rearm_read_of_ne {s : State} (hw : s.mem.wf) (hl : OffsetsOk s.cfg.layout) {i a : Nat}
    (ha : ¬ s.inDesc .rx i a) : (rearm i s).mem.read a = s.mem.read a := writeDesc_read_of_ne hw hl _ _ _ _ ha

/-- A re-armed descriptor is armed with its slot's buffer (R82, R178). -/
theorem rearm_armed {s : State} (hw : s.mem.wf) (hl : OffsetsOk s.cfg.layout) (i : Nat) : ArmedAt (rearm i s) i := by
  obtain ⟨f1, f2, f3⟩ := writeDesc_fields hw hl .rx i ⟨s.slotPhys i, s.cfg.rxBufSize⟩ 0#32 0#32 true
  refine ⟨?_, f2, ?_⟩
  · rw [rearm, f1, (writeDesc_sited ..).cfg, eorOn_eq]
    simp only [finalWord, if_true, ownedWord, opts1Word, lenField, BitVec.or_zero, BitVec.or_assoc]
  · rw [rearm, f3]; exact (slotPhys_congr (by simp) i).symm

/-- What stays armed when nothing of the descriptor and of its slot changes. -/
theorem ArmedAt.congr {s t : State} {i : Nat} (h : ArmedAt s i) (hs : Sited s t) (hl : OffsetsOk s.cfg.layout)
    (hr : t.rxSlot = s.rxSlot) (hb : ∀ a, s.inDesc .rx i a → t.mem.read a = s.mem.read a) : ArmedAt t i :=
  ⟨by rw [desc32_of_bytes hs hl hb (by simp), h.opts1, hs.cfg], by rw [desc32_of_bytes hs hl hb (by simp), h.opts2],
    by rw [descBuf_of_bytes hs hl hb, h.addr, slotPhys_congr hr]⟩

/-- An armed descriptor is the NIC's. -/
theorem ArmedAt.owned {s : State} {i : Nat} (h : ArmedAt s i) (hc : layoutWf s.cfg.layout = true) :
    s.nicOwned .rx i = true := by
  rw [State.nicOwned, h.opts1, flag_or, flag_or, flag_bit_self (own_lt hc)]; rfl

/-- What the loop of RING.CLEAR_RX leaves in memory (R117). -/
theorem clearRxLoop_effect (k i : Nat) {s : State} (hw : s.mem.wf) (hl : OffsetsOk s.cfg.layout) :
    (clearRxLoop k i s).mem.wf ∧ Sited s (clearRxLoop k i s) ∧ (clearRxLoop k i s).rxSlot = s.rxSlot ∧
    (∀ a, (∀ j, i ≤ j → j < i + k → ¬ s.inDesc .rx j a) → (clearRxLoop k i s).mem.read a = s.mem.read a) ∧
    ∀ j, i ≤ j → j < i + k → ArmedAt (clearRxLoop k i s) j := by
  induction k generalizing i s with
  | zero => exact ⟨hw, .refl _, rfl, fun _ _ => rfl, fun j h1 h2 => by omega⟩
  | succ k ih =>
    have su := rearm_sited i s
    have hlu : OffsetsOk (rearm i s).cfg.layout := by rw [su.cfg]; exact hl
    obtain ⟨w, st, sl, out, arm⟩ := ih (i + 1) (rearm_wf hw i) hlu
    refine ⟨w, su.trans st, sl.trans (by simp), fun a ha => ?_, fun j h1 h2 => ?_⟩
    · show (clearRxLoop k (i + 1) (rearm i s)).mem.read a = _
      rw [out a fun j h1 h2 => by rw [su.inDesc]; exact ha j (by omega) (by omega),
        rearm_read_of_ne hw hl (ha i (by omega) (by omega))]
    · by_cases hj : j = i
      · subst hj
        exact (rearm_armed hw hl j).congr st hlu sl fun a ha => out a fun j' h1 h2 h3 => by
          have := inDesc_unique ha h3; omega
      · exact arm j (by omega) (by omega)

/-- What RING.CLEAR_RX leaves in memory (R117). -/
theorem clearRx_effect {s : State} (hw : s.mem.wf) (hl : OffsetsOk s.cfg.layout) :
    (clearRx s).mem.wf ∧ Sited s (clearRx s) ∧ (∀ a, ¬ s.inRing .rx a → (clearRx s).mem.read a = s.mem.read a) ∧
    ∀ j < s.cfg.nRx, ArmedAt (clearRx s) j := by
  obtain ⟨w, st, sl, out, arm⟩ := clearRxLoop_effect s.cfg.nRx 0 hw hl
  refine ⟨w, ⟨st.cfg, st.tx, st.rx⟩, fun a ha => out a fun j _ hj hd => ha (inRing_of_inDesc (by simpa [ringSize] using hj) hd),
    fun j hj => ?_⟩
  obtain ⟨a1, a2, a3⟩ := arm j (by omega) (by omega)
  exact ⟨a1, a2, a3⟩

/-- The events of a ring clear of the receive side free nothing and reach no register. -/
theorem writeEvents_quiet (c : Cfg) (ring : Ring) (i : Nat) (seg : Segment) (flags1 flags2 : Word) (own : Bool) :
    ∀ e ∈ writeEvents c ring i seg flags1 flags2 own, quiet e = true ∧ freedPackets [e] = [] := by
  intro e he
  simp only [writeEvents, List.mem_append, List.mem_cons, List.not_mem_nil, or_false] at he
  rcases he with (rfl | rfl | rfl | rfl) | he
  all_goals first | exact ⟨rfl, rfl⟩ | skip
  cases own
  · simp at he
  · simp at he; rcases he with rfl | rfl <;> exact ⟨rfl, rfl⟩

theorem freedPackets_eq_nil {l : List Event} (h : ∀ e ∈ l, freedPackets [e] = []) : freedPackets l = [] := by
  induction l with
  | nil => rfl
  | cons e l ih =>
    have : freedPackets (e :: l) = freedPackets [e] ++ freedPackets l := freedPackets_append [e] l
    rw [this, h e (by simp), ih fun x hx => h x (by simp [hx])]; rfl

theorem clearRxLoop_history (k i : Nat) (s : State) : ∃ l, (clearRxLoop k i s).history = s.history ++ l ∧
    ∀ e ∈ l, quiet e = true ∧ freedPackets [e] = [] := by
  induction k generalizing i s with
  | zero => exact ⟨[], by simp [clearRxLoop], by simp⟩
  | succ k ih =>
    obtain ⟨l, hl, hq⟩ := ih (i + 1) (rearm i s)
    refine ⟨_, by rw [clearRxLoop, hl, rearm, writeDesc_history, List.append_assoc], fun e he => ?_⟩
    rcases List.mem_append.1 he with he | he
    · exact writeEvents_quiet _ _ _ _ _ _ _ e he
    · exact hq e he

theorem clearRx_history (s : State) : ∃ l, (clearRx s).history = s.history ++ l ∧
    ∀ e ∈ l, quiet e = true ∧ freedPackets [e] = [] := clearRxLoop_history s.cfg.nRx 0 s

/-! ### The two rings share no byte -/

theorem ringProblem_none {c : Cfg} {m : Option DmaMem} {n : Nat} (h : ringProblem c m n = none) :
    ∃ d, m = some d ∧ d.life = .prepared ∧ d.addr.toNat % c.ringAlign = 0 ∧ d.addr.toNat + descSize * n ≤ 2 ^ 64 := by
  unfold ringProblem at h
  split at h
  · cases h
  · rename_i d
    split at h
    · cases h
    · split at h
      · cases h
      · rename_i h1 h2
        exact ⟨d, rfl, by simpa using h1, by omega, by omega⟩

theorem rxProblem_none {s : State} (h : RxUsable s) : ringProblem s.cfg s.rxMem s.cfg.nRx = none ∧
    s.rxSlot.length = s.cfg.nRx ∧ s.rxSlot.all (rxSlotOk s.cfg) = true := by
  unfold RxUsable rxProblem at h
  split at h
  · cases h
  · split at h
    · rename_i h1 h2; exact ⟨h1, h2⟩
    · cases h

/-- The slot of an index holds a Prepared buffer of at least `RX_BUF_SIZE` bytes (R27). -/
theorem rxSlot_some {s : State} (h : RxUsable s) {i : Nat} (hi : i < s.cfg.nRx) : ∃ b, s.rxBuf i = some b ∧
    b.mem.life = .prepared ∧ b.mem.addr.toNat + b.mem.len ≤ 2 ^ 64 ∧ s.cfg.rxBufSize ≤ b.mem.len := by
  obtain ⟨-, h1, h2⟩ := rxProblem_none h
  have hi' : i < s.rxSlot.length := by omega
  have hm : s.rxBuf i ∈ s.rxSlot := by
    rw [State.rxBuf, List.getD_eq_getElem?_getD, List.getElem?_eq_getElem hi']
    exact List.getElem_mem hi'
  have := List.all_eq_true.1 h2 _ hm
  unfold rxSlotOk at this
  split at this
  · cases this
  · rename_i b hb
    simp only [Bool.and_eq_true, beq_iff_eq, decide_eq_true_eq] at this
    exact ⟨b, hb, this.1.1, this.1.2, this.2⟩

theorem rings_apart {s : State} (h : RingsOk s) (ht : TxUsable s) (hr : RxUsable s) {a : Nat}
    (h1 : s.inRing .tx a) : ¬ s.inRing .rx a := by
  obtain ⟨d, hd, -, -, -⟩ := ringProblem_none ht
  obtain ⟨e, he, -, -, -⟩ := ringProblem_none (rxProblem_none hr).1
  have hap := h.apart
  have l1 := h.txLen d hd
  have l2 := h.rxLen e he
  simp only [MemsApart, liveMems, hd, he, Option.toList_some, List.cons_append, List.nil_append, List.pairwise_cons,
    List.mem_cons, forall_eq_or_imp] at hap
  have h3 := hap.1.1
  simp only [memsApart, l1, l2] at h3
  simp only [State.inRing, State.base, State.ringMem, hd, he, ringSize] at *
  omega

theorem ClearedAt.congr {s t : State} {i : Nat} (h : ClearedAt s i) (hs : Sited s t) (hl : OffsetsOk s.cfg.layout)
    (hb : ∀ a, s.inDesc .tx i a → t.mem.read a = s.mem.read a) : ClearedAt t i :=
  ⟨by rw [desc32_of_bytes hs hl hb (by simp), h.opts1, hs.cfg], by rw [desc32_of_bytes hs hl hb (by simp), h.opts2],
    by rw [descBuf_of_bytes hs hl hb, h.addr]⟩

/-! ### RESET.FULL -/

/-- Steps 4 to 6 of RESET.FULL (R190). -/
def finishReset (u : State) : State :=
  let s3 := reinitRegs { u with statsPending := false }
  if s3.link.up then resumeQueue s3 else s3

theorem fullReset_eq (s : State) : fullReset s =
    andThen (clearTx (nicReset (flushQueue s))) fun t => .next (finishReset (clearRx t)) := rfl

/-- The low half of a 64-bit value, and the high half, as the two formulas have them. -/
theorem low_half (v : BitVec 64) : (v.extractLsb' 0 32).setWidth 64 = v &&& 0xFFFFFFFF#64 := by
  apply BitVec.eq_of_getLsbD_eq
  intro i hi
  simp only [BitVec.getLsbD_setWidth, BitVec.getLsbD_extractLsb', BitVec.getLsbD_and, hi, decide_true, Bool.true_and,
    Nat.zero_add]
  rw [show (0xFFFFFFFF#64).getLsbD i = decide (i < 32) by
    rw [show (0xFFFFFFFF#64 : BitVec 64) = (BitVec.allOnes 32).setWidth 64 by decide, BitVec.getLsbD_setWidth,
      BitVec.getLsbD_allOnes]; simp [hi], Bool.and_comm]

theorem high_half (v : BitVec 64) : (v.extractLsb' 32 32).setWidth 64 = v >>> 32 := by
  apply BitVec.eq_of_getLsbD_eq
  intro i hi
  simp only [BitVec.getLsbD_setWidth, BitVec.getLsbD_extractLsb', BitVec.getLsbD_ushiftRight, hi, decide_true,
    Bool.true_and]
  by_cases h : i < 32
  · simp [h]
  · simp only [h, decide_false, Bool.false_and]; exact (BitVec.getLsbD_of_ge _ _ (by omega)).symm

/-- The two halves of a 64-bit register write are those the statements name (R190, D36). -/
theorem halves_eq (c : Cfg) (off : Nat) (v : BitVec 64) : halves c.reg off v = regWrite64 c off v := by
  simp only [halves, regWrite64, low_half, high_half]

/-- The address the model passes is that of the statistics memory (R57). -/
theorem statsBase_eq (s : State) : statsBase s = statsAddr s := by
  unfold statsBase statsAddr; cases s.stMem <;> rfl

/-- The events of those steps. -/
def finishEvents (u : State) : List Event :=
  [.applyChipQuirks] ++ regWrite64 u.cfg u.cfg.reg.txRingBase (u.base .tx) ++
    regWrite64 u.cfg u.cfg.reg.rxRingBase (u.base .rx) ++
    (if u.cfg.reg.statsAtInit then regWrite64 u.cfg u.cfg.reg.statsBase (statsAddr u) else []) ++
    [.regWrite u.cfg.reg.intrMask 16 ((allCauses u.cfg.reg).setWidth 64)] ++ if u.link.up then [.resumeQueue] else []

theorem finishReset_eq (u : State) : finishReset u = { u with
    statsPending := false
    regs := ⟨allCauses u.cfg.reg, u.base .tx, u.base .rx,
      if u.cfg.reg.statsAtInit then statsAddr u else u.regs.statsBase⟩
    txqEnabled := if u.link.up then true else u.txqEnabled
    history := u.history ++ finishEvents u } := by
  unfold finishReset finishEvents
  rw [reinitRegs_eq]
  by_cases hl : u.link.up = true
  · simp only [hl, ← halves_eq, ← statsBase_eq]
    apply State.eq_of_fields <;> first | rfl | skip
    simp only [resumeQueue, List.append_assoc, List.cons_append, List.nil_append]; rfl
  · simp only [hl, ← halves_eq, ← statsBase_eq]
    apply State.eq_of_fields <;> first | rfl | skip
    simp only [List.append_assoc, List.cons_append, List.nil_append]; rfl

/-- RESET.FULL goes through from a state whose packets stand once and are held; what it leaves (R190). -/
theorem fullReset_completes {s : State} (hlen : s.txSlot.length = s.cfg.nTx) (hi : HandleInv s) :
    ∃ t u, clearTx (nicReset (flushQueue s)) = .next t ∧ u = finishReset (clearRx t) ∧ fullReset s = .next u := by
  obtain ⟨t, l, ht, -⟩ := clearTx_completes (s := nicReset (flushQueue s)) hlen ⟨hi.1, hi.2, hi.3, hi.4⟩
    fun h _ => by simp
  exact ⟨t, _, ht, rfl, by rw [fullReset_eq, ht]; rfl⟩

end Sys2Proof.Machine
end

