-- ==== Sys2Proof/Tests/Slice0.lean ====
section
/-! SUPPORT. The model's own tests: the WellFormed smoke, decoding of written-out codes, the vectors of
spec/95_test_vectors.md that one step shows, and a state that meets the hypotheses of each statement. -/

namespace Sys2Proof.Machine.Tests

open Sys2Proof Sys2Proof.Machine

set_option Elab.async false

/-! ### WellFormed refuses an ill-formed term for each of its checks -/

def region (pa len : Nat) : Region := ⟨BitVec.ofNat 64 pa, len⟩
def noOffload : OffloadReq := ⟨false, false, false, false, false, 0⟩
def onePage : Packet := ⟨1, [region 0x1000 60], noOffload, none⟩

theorem test_wf_alloc : WellFormed (.ringAlloc (2 ^ 32)) = false := by decide
theorem test_wf_write_index : WellFormed (.ringWrite .tx (2 ^ 32) ⟨0, 1⟩ 0 0 false) = false := by decide
theorem test_wf_write_len : WellFormed (.ringWrite .tx 0 ⟨0, 2 ^ 32⟩ 0 0 false) = false := by decide
theorem test_wf_region_len : WellFormed (.segTx [⟨0, 2 ^ 32⟩]) = false := by decide
theorem test_wf_mss : WellFormed (.encV1 { noOffload with mss := 2 ^ 32 }) = false := by decide
theorem test_wf_packet_handle : WellFormed (.txSubmit { onePage with h := 2 ^ 32 }) = false := by decide
theorem test_wf_acquired_handle : WellFormed (.rxIrq [.replaced (2 ^ 32) []]) = false := by decide
theorem test_wf_copy_size : WellFormed (.irq [.copied 1 (2 ^ 32)]) = false := by decide
theorem test_wf_buffer_draw : WellFormed (.enable ⟨none, none, none, [some ⟨2 ^ 32, []⟩]⟩) = false := by decide
theorem test_wf_tx_done : WellFormed (.nicTxDone (2 ^ 32) ⟨false, false, none⟩) = false := by decide
theorem test_wf_stale_word : WellFormed (.nicTxDone 0 ⟨false, false, some ⟨2 ^ 32, false⟩⟩) = false := by decide
theorem test_wf_fill : WellFormed (.nicRxFill (2 ^ 32) [] ⟨false, false, 0, 0⟩ ⟨true, none⟩) = false := by decide
theorem test_wf_stale_buffer : WellFormed (.nicRxFill 0 [] ⟨false, false, 0, 0⟩ ⟨true, some ⟨2 ^ 32, none⟩⟩) = false := by decide
theorem test_wf_stale_addr : WellFormed (.nicRxFill 0 [] ⟨false, false, 0, 0⟩ ⟨true, some ⟨1, some (2 ^ 32)⟩⟩) = false := by decide
theorem test_wf_rest : WellFormed (.rxd1V1 false false false 0 false false false 0 0x00040000#32) = false := by decide
theorem test_wf_rest2 : WellFormed (.rxd2V2 false false false 0 0x40000000#32) = false := by decide

/-- A list longer than its 16-bit count. -/
theorem test_wf_count : WellFormed (.segTx (List.replicate (2 ^ 16) ⟨0, 0⟩)) = false := by
  have h : ∀ l : List Region, 2 ^ 16 ≤ l.length → WellFormed (.segTx l) = false := fun l h => by
    simp only [WellFormed, regionsFit, countFits, decide_eq_false (Nat.not_lt.2 h), Bool.false_and]
  exact h _ (Nat.le_of_eq List.length_replicate.symm)

/-! ### Written-out codes decode to what they stand for (selectors R95, words R78 to R85) -/

theorem test_decode_ring_alloc : decode (.op [0x00, 3, 0, 0, 0]) = .ok (.ringAlloc 3) := by decide
theorem test_decode_ring_write : decode (.op [0x01, 1, 7, 0, 0, 0, 0, 0x90, 0, 0, 0, 0, 0, 0, 0, 6, 0, 0,
    0, 0, 0, 0, 1, 0, 0, 0, 1]) = .ok (.ringWrite .rx 7 ⟨0x9000, 1536⟩ 0 1 true) := by decide
theorem test_decode_ring_reclaim : decode (.op [0x02]) = .ok .ringReclaim := by decide
theorem test_decode_clear_tx : decode (.op [0x03]) = .ok .ringClearTx := by decide
theorem test_decode_clear_rx : decode (.op [0x04]) = .ok .ringClearRx := by decide
theorem test_decode_seg_tx : decode (.op [0x10, 1, 0, 0, 0x10, 0, 0, 0, 0, 0, 0, 100, 0, 0, 0]) =
    .ok (.segTx [region 0x1000 100]) := by decide
theorem test_decode_seg_rx : decode (.op [0x11, 0, 0]) = .ok (.segRx []) := by decide
theorem test_decode_enc_v1 : decode (.op [0x20, 1, 0, 0, 1, 0, 0xB4, 5, 0, 0]) =
    .ok (.encV1 ⟨true, false, false, true, false, 1460⟩) := by decide
theorem test_decode_enc_v2 : decode (.op [0x21, 0, 1, 0, 0, 0, 0, 0, 0, 0]) =
    .ok (.encV2 ⟨false, true, false, false, false, 0⟩) := by decide
theorem test_decode_enc_vlan : decode (.op [0x22, 1, 0x23, 0x01]) = .ok (.encVlan (some 0x0123)) := by decide
theorem test_decode_tx_submit : decode (.op [0x30, 1, 0, 0, 0, 1, 0, 0, 0x10, 0, 0, 0, 0, 0, 0, 60, 0, 0, 0,
    0, 0, 0, 0, 0, 0, 0, 0, 0, 0]) = .ok (.txSubmit onePage) := by decide
theorem test_decode_tx_irq : decode (.op [0x31]) = .ok .txIrq := by decide
theorem test_decode_tx_dlchk : decode (.op [0x32]) = .ok .txDlchk := by decide
theorem test_decode_rx_irq : decode (.op [0x40, 1, 0, 2, 9, 0, 0, 0, 0x80, 0, 0, 0]) = .ok (.rxIrq [.copied 9 128]) := by decide
theorem test_decode_rx_csum_v1 : decode (.op [0x41, 0x44, 0, 2, 0x30, 1, 0, 0, 0]) =
    .ok (.rxCsumV1 0x30020044 1) := by decide
theorem test_decode_rx_csum_v2 : decode (.op [0x42, 0x44, 0, 2, 0x30, 0, 0, 0, 0x40]) =
    .ok (.rxCsumV2 0x30020044 0x40000000) := by decide
theorem test_decode_rx_vlan : decode (.op [0x43, 1, 0x23, 1, 0]) = .ok (.rxVlan 0x00012301) := by decide
theorem test_decode_timer_tick : decode (.op [0x50, 1]) = .ok (.timerTick 1) := by decide
theorem test_decode_link_up : decode (.op [0x51, 1, 1, 1, 0]) = .ok (.linkUp ⟨.mbit100, .full, true, false⟩) := by decide
theorem test_decode_link_down : decode (.op [0x52]) = .ok .linkDown := by decide
theorem test_decode_reset_full : decode (.op [0x53]) = .ok .resetFull := by decide
theorem test_decode_irq : decode (.op [0x54, 0, 0]) = .ok (.irq []) := by decide
theorem test_decode_stats_req : decode (.op [0x55]) = .ok .statsReq := by decide
theorem test_decode_stats_done : decode (.op [0x56]) = .ok .statsDone := by decide
theorem test_decode_enable : decode (.op [0x60, 1, 0, 1, 0, 0, 0, 0, 0, 0, 0, 0, 1, 0, 0]) =
    .ok (.enable ⟨some 0x100, none, none, [none]⟩) := by decide
theorem test_decode_disable : decode (.op [0x61]) = .ok .disable := by decide
theorem test_decode_nic_tx_done : decode (.op [0x70, 15, 0, 0, 0, 1, 0, 1, 2, 0, 0, 0, 1]) =
    .ok (.nicTxDone 15 ⟨true, false, some ⟨2, true⟩⟩) := by decide
theorem test_decode_nic_rx_fill : decode (.op [0x71, 1, 0, 0, 0, 2, 0, 0xAA, 0xBB, 1, 0, 0, 0, 2, 0, 0, 0, 0, 0, 1,
    1, 1, 0, 0, 0, 0]) = .ok (.nicRxFill 1 [0xAA, 0xBB] ⟨true, false, 0x00020000, 0⟩ ⟨true, some ⟨1, none⟩⟩) := by decide
theorem test_decode_nic_irq_raise : decode (.op [0x72, 2]) = .ok (.nicIrqRaise .busError) := by decide
theorem test_decode_nic_reset : decode (.op [0x73]) = .ok .nicReset := by decide
theorem test_decode_nic_tx_quiesce : decode (.op [0x74]) = .ok .nicTxQuiesce := by decide

/-- `0xC00500C8 = OWN | EOR | IPCS | TCPCS | 200` (T-ENC-10). -/
theorem test_decode_txd1_v1_csum : decode (.word .txd1V1Csum 0xC00500C8#32) =
    .ok (.txd1V1Csum true true false false true false true 200) := by decide
/-- `0xBDB40BB8 = OWN | FS | LS | LGSEN | 1460 << 16 | 3000` (T-ENC-12). -/
theorem test_decode_txd1_v1_tso : decode (.word .txd1V1Tso 0xBDB40BB8#32) =
    .ok (.txd1V1Tso true false true true 1460 3000) := by decide
/-- T-ENC-12, second revision. -/
theorem test_decode_txd1_v2 : decode (.word .txd1V2 0xB8000BB8#32) = .ok (.txd1V2 true false true true true 3000) := by decide
/-- T-ENC-9: the tag `0xE005` byte-swapped. -/
theorem test_decode_txd2_v1 : decode (.word .txd2V1 0x000205E0#32) = .ok (.txd2V1 true 0x05E0) := by decide
/-- T-ENC-11. -/
theorem test_decode_txd2_v2 : decode (.word .txd2V2 0x60022301#32) = .ok (.txd2V2 false true true 0 true 0x2301) := by decide
/-- `0xC0000600 = OWN | EOR | 1536` (T-RING-9). -/
theorem test_decode_rxd_armed : decode (.word .rxdArmed 0xC0000600#32) = .ok (.rxdArmed true 1536) := by decide
/-- `0x30020044`: `FS | LS`, `PID = 1`, `RXLEN = 68` (T-RX-1); bits 27:19 set beside it are unnamed. -/
theorem test_decode_rxd1_v1 : decode (.word .rxd1V1 0x3FFA0044#32) =
    .ok (.rxd1V1 false true true 1 false false false 68 0x0FF80000) := by decide
/-- Bit 18 is `UDPT`, bit 15 `UDPF` (T-RX-11). -/
theorem test_decode_rxd1_v2 : decode (.word .rxd1V2 0x30048044#32) =
    .ok (.rxd1V2 false true true true false false true false 68 0) := by decide
theorem test_decode_rxd2_v1 : decode (.word .rxd2V1 0x00012301#32) = .ok (.rxd2V1 true 0x2301 0) := by decide
/-- Bit 30 is `V4F` (T-RX-12). -/
theorem test_decode_rxd2_v2 : decode (.word .rxd2V2 0x40012301#32) = .ok (.rxd2V2 false true true 0x2301 0) := by decide

/-- R96: a selector with no row; no selector at all. -/
theorem test_decode_bad_selector : decode (.op [0x05]) = .error .invalidSelector ∧
    decode (.op []) = .error .invalidSelector := by decide
/-- An operand record that ends early, a value outside an enumeration, bytes behind a record. -/
theorem test_decode_bad_bytes : decode (.op [0x00, 1]) = .error .truncated ∧
    decode (.op [0x72, 4]) = .error .badOperand ∧ decode (.op [0x31, 1]) = .error .trailingBytes := by decide
/-- R91: an armed word with a bit set that no field names. -/
theorem test_decode_reserved : decode (.word .rxdArmed 0x80004600#32) = .error .reservedBits := by decide
/-- A table word: selector 0x72 and its cause number. -/
theorem test_table_word : decodeTableWord 16 0x0272 = some (.nicIrqRaise .busError) := by decide

/-! ### States to test on -/

/-- Words of a descriptor written at a base: `{addr, opts2, opts1}` at index `i`. -/
def putDesc (base i : Nat) (addr : Addr) (opts2 opts1 : Word) (m : Memory) : Memory :=
  ((m.write64 (base + 16 * i + 8) addr).write32 (base + 16 * i + 4) opts2).write32 (base + 16 * i) opts1

/-- The ring memories of T-CTL-1: `TXD[15]` carries the ring-end bit, the RX descriptors are armed. -/
def armedMem : Memory :=
  (List.range 8).foldl (fun m i => putDesc 0x20000 i (BitVec.ofNat 64 (0x8000 + 0x800 * i)) 0
    (if i = 7 then 0xC0000600#32 else 0x80000600#32) m) (putDesc 0x10000 15 0 0 0x40000000#32 [])

/-- A block right after ENABLE and a link that came up (spec/95 part 2, the start of most vectors); `a` acts. -/
def up (a : Agent) : State := { State.reset with
  caller := a, enabled := true, everEnabled := true, timerOn := true
  link := ⟨true, ⟨.mbit100, .full, true, true⟩⟩, txqEnabled := true, txFree := 16
  txSlot := List.replicate 16 none
  rxSlot := (List.range 8).map fun i => some ⟨20 + i, ⟨BitVec.ofNat 64 (0x8000 + 0x800 * i), 1536, .prepared⟩⟩
  heldBuffers := (List.range 8).map (20 + ·)
  txMem := some ⟨0x10000, 256, .prepared⟩, rxMem := some ⟨0x20000, 128, .prepared⟩
  stMem := some ⟨0x30000, 64, .prepared⟩
  regs := ⟨15, 0x10000, 0x20000, 0⟩
  mem := armedMem }

/-- The same with descriptors written. -/
def withTx (i : Nat) (opts1 : Word) (s : State) : State := { s with mem := putDesc 0x10000 i 0x1000 0 opts1 s.mem }
def withRx (i : Nat) (opts1 opts2 : Word) (s : State) : State :=
  { s with mem := putDesc 0x20000 i (BitVec.ofNat 64 (0x8000 + 0x800 * i)) opts2 opts1 s.mem }

/-- Packet `h` held by the engine and in slot `i`. -/
def withPkt (i h : Nat) (s : State) : State :=
  { s with txSlot := s.txSlot.set i (some h), heldPackets := ⟨h, .prepared⟩ :: s.heldPackets }

/-- A held-back packet. -/
def withPending (h : Nat) (s : State) : State :=
  { s with txPending := some h, heldPackets := ⟨h, .prepared⟩ :: s.heldPackets }

/-- Descriptors `dirty .. next - 1` outstanding. -/
def cursors (dirty next free : Nat) (s : State) : State :=
  { s with txDirty := dirty, txNext := next, txFree := (free : Int) }

/-- An operation leaves a state with `p`. -/
def leaves (i : Instr) (s : State) (p : State → Bool) : Bool :=
  match exec i s with
  | .next t => p t
  | .fault _ => false
  | .refused _ => false

/-- An operation, with what it leaves for later steps and nothing in between, leaves a state with `p`. -/
def ends (n : Nat) (i : Instr) (s : State) (p : State → Bool) : Bool :=
  match execWhole n i s with
  | .next t => p t && t.work.isEmpty
  | .fault _ => false
  | .refused _ => false

/-- `p` of the state a part of an operation, or a step, leaves. -/
def leads (x : Out State) (p : State → Bool) : Bool :=
  match x with
  | .next t => p t
  | .fault _ => false
  | .refused _ => false

/-- The fault an operation ends with, if any. -/
def faultOf (i : Instr) (s : State) : Option Fault :=
  match exec i s with
  | .next _ => none
  | .fault r => some r
  | .refused _ => none

/-- The fault an operation ends with in its first step or in one of `n` tasks behind it. -/
def faultWhole (n : Nat) (i : Instr) (s : State) : Option Fault :=
  match execWhole n i s with
  | .next _ => none
  | .fault r => some r
  | .refused _ => none

/-- The operation has no move here. -/
def stuck (i : Instr) (s : State) : Bool :=
  match exec i s with
  | .next _ => false
  | .fault _ => false
  | .refused _ => true

/-- `{opts1, opts2, addr}` of a descriptor. -/
def desc (ring : Ring) (i : Nat) (s : State) : Word × Word × Addr :=
  (s.desc32 ring i .opts1, s.desc32 ring i .opts2, s.descBuf ring i)

/-! ### The vectors of spec/95_test_vectors.md -/

/-- T-RING-1: the cursor wraps. -/
theorem test_alloc_wraps : leaves (.ringAlloc 3) (cursors 14 14 16 (up .submitter))
      (fun t => t.result == .first 14 && t.txNext == 1 && t.txFree == 13) := by decide +kernel
/-- T-RING-3: three free descriptors do not hold a packet of three. -/
theorem test_alloc_stalls : leaves (.ringAlloc 3) (cursors 0 13 3 (up .submitter))
      (fun t => t.result == .stall && t.txNext == 13 && t.txFree == 3) := by decide +kernel

/-- T-RING-7: the last TX descriptor keeps its ring-end bit. -/
theorem test_write_last : leaves (.ringWrite .tx 15 ⟨0x1000, 60⟩ 0x30000000 0 true)
    { cursors 15 0 15 (up .submitter) with txUnsubmitted := [15] }
      (fun t => desc .tx 15 t == (0xF000003C, 0, 0x1000)) := by decide +kernel
/-- T-RING-9: an RX descriptor of the engine; T-RING-10: a NIC-owned one is refused. -/
theorem test_write_rx : leaves (.ringWrite .rx 7 ⟨0x9000, 1536⟩ 0 0 true) (withRx 7 0x70000044 0 (up .serialized))
      (fun t => desc .rx 7 t == (0xC0000600, 0, 0x9000)) ∧
    leaves (.ringWrite .rx 7 ⟨0x9000, 1536⟩ 0 0 true) (up .serialized)
      (fun t => t.result == (.refused .nicOwned)) := by decide +kernel

/-- R91: a flag bit that the word's format gives no field is out of range, on either ring and in either word. -/
theorem test_write_flags :
    leaves (.ringWrite .tx 15 ⟨0x1000, 60⟩ 0x00800000 0 true) { cursors 15 0 15 (up .submitter) with txUnsubmitted := [15] }
      (fun t => t.result == (.refused .operandRange)) ∧
    leaves (.ringWrite .rx 7 ⟨0x9000, 1536⟩ 0 1 true) (withRx 7 0x70000044 0 (up .serialized))
      (fun t => t.result == (.refused .operandRange)) := by decide +kernel

/-- T-RING-11. -/
theorem test_reclaim_wraps : leaves .ringReclaim
    (withTx 14 0x3000003C (withTx 15 0x7000003C (withTx 0 0xB000003C (cursors 14 1 13 (up .serialized)))))
      (fun t => t.result == .indices [14, 15] && t.txDirty == 0 && t.txFree == 15 &&
        t.txDoneCount == 2) := by decide +kernel
/-- T-RING-13: the first outstanding descriptor is the NIC's. -/
theorem test_reclaim_in_order : leaves .ringReclaim
    (withTx 0 0xB000003C (withTx 1 0x3000003C (withTx 2 0x3000003C (cursors 0 3 13 (up .serialized)))))
      (fun t => t.result == .indices [] && t.txDirty == 0 && t.txFree == 13 &&
        t.history == [.descRead .tx 0 .opts1]) := by decide +kernel

/-- Two packets in flight, one held back (T-RING-16, T-CTL-5). -/
def inFlight (a : Agent) : State :=
  withPending 30 (withPkt 0 31 (withPkt 1 32 (withTx 0 0xB000003C (withTx 1 0xB000003C (cursors 0 2 14 (up a))))))

/-- T-RING-16. -/
theorem test_clear_tx : leaves .ringClearTx { inFlight .serialized with txqEnabled := false, txStalled := true, deadlockWarn := 1 }
      (fun t => freedPackets t.history == [31, 32, 30] && desc .tx 0 t == (0, 0, 0) &&
        desc .tx 15 t == (0x40000000, 0, 0) && t.txFree == 16 && t.txStalled == false && t.txNext == 0 &&
        t.txDirty == 0) := by decide +kernel
/-- T-RING-17. -/
theorem test_clear_rx : leaves .ringClearRx { withRx 3 0x30020044 0 (up .serialized) with rxIndex := 5 }
      (fun t => desc .rx 3 t == (0x80000600, 0, 0x9800) && desc .rx 7 t == (0xC0000600, 0, 0xB800) &&
        t.rxIndex == 0) := by decide +kernel

/-- T-SEG-6: a region that is adjacent to a segment that is not the last is not merged. -/
theorem test_seg_tx_order : leaves (.segTx [region 0x1000 16, region 0x3000 16, region 0x1010 16]) (up .submitter)
      (fun t => t.result == (.segs [⟨0x1000, 16⟩, ⟨0x3000, 16⟩, ⟨0x1010, 16⟩])) := by decide +kernel
/-- T-SEG-8 and T-SEG-9: merging stops at `SEG_LEN_MAX`. -/
theorem test_seg_tx_limit :
    leaves (.segTx [region 0x1000 65534, region 0x10FFE 1]) (up .submitter)
      (fun t => t.result == (.segs [⟨0x1000, 65535⟩])) ∧
    leaves (.segTx [region 0x1000 65535, region 0x10FFF 1]) (up .submitter)
      (fun t => t.result == (.segs [⟨0x1000, 65535⟩, ⟨0x10FFF, 1⟩])) := by decide +kernel
/-- T-SEG-11 and T-SEG-12. -/
theorem test_seg_rx :
    leaves (.segRx [region 0x8000 1024, region 0x8400 512]) (up .serialized)
      (fun t => t.result == (.seg ⟨0x8000, 1536⟩)) ∧
    leaves (.segRx [region 0x8000 1024, region 0xA000 512]) (up .serialized)
      (fun t => t.result == .tooManySegments) := by decide +kernel

/-- T-ENC-2 and T-ENC-8. -/
theorem test_enc_v1 :
    leaves (.encV1 { noOffload with ip := true, tcp := true }) (up .submitter)
      (fun t => t.result == (.cmd ⟨0x00050000, 0⟩)) ∧
    leaves (.encV1 { noOffload with tso := true, mss := 2048 }) (up .submitter)
      (fun t => t.result == .unsupported) := by decide +kernel
/-- T-ENC-4: checksum requests are ignored with segmentation offload. -/
theorem test_enc_v1_tso : leaves (.encV1 ⟨true, true, false, true, false, 1460⟩) (up .submitter)
      (fun t => t.result == (.cmd ⟨0x0DB40000, 0⟩)) := by decide +kernel
/-- T-ENC-6 and T-ENC-7. -/
theorem test_enc_v2 :
    leaves (.encV2 { noOffload with ip := true, udp := true }) (up .submitter)
      (fun t => t.result == (.cmd ⟨0, 0xA0000000⟩)) ∧
    leaves (.encV2 { noOffload with tso := true, mss := 1460 }) (up .submitter)
      (fun t => t.result == (.cmd ⟨0x08000000, 0x16D00000⟩)) := by decide +kernel
/-- T-ENC-9. -/
theorem test_enc_vlan : leaves (.encVlan (some 0xE005)) (up .submitter) (fun t => t.result == (.word 0x000205E0)) ∧
    leaves (.encVlan none) (up .submitter) (fun t => t.result == (.word 0)) := by decide +kernel

/-- V7: the store sequence of a two-segment packet. -/
theorem test_submit_store_order : leaves (.txSubmit ⟨1, [region 0x1000 100, region 0x2000 50], noOffload, none⟩) (up .submitter)
      (fun t => t.history == [.dmaPrepare (.packet 1),
      .descWrite .tx 0 .addr 0x1000, .descWrite .tx 0 .opts1 0x64, .descWrite .tx 0 .opts2 0, .descWrite .tx 0 .opts1 0x20000064,
      .descWrite .tx 1 .addr 0x2000, .descWrite .tx 1 .opts1 0x32, .descWrite .tx 1 .opts2 0, .descWrite .tx 1 .opts1 0x10000032,
      .release, .descWrite .tx 1 .opts1 0x90000032, .slotStore 1 1, .release, .descWrite .tx 0 .opts1 0xA0000064,
      .doorbell 0 1]) := by decide +kernel
/-- V1: sixteen descriptors, three free, a packet of three segments. -/
theorem test_submit_stalls : leaves (.txSubmit ⟨9, [region 0x1000 100, region 0x3000 200, region 0x5000 60], noOffload, none⟩)
    (cursors 0 13 3 (up .submitter))
      (fun t => t.result == .stall && t.txStalled && t.txNext == 13 && t.txFree == 3 &&
        t.heldPackets == [] && t.ctrTxDrops == 0) := by decide +kernel

/-- T-TX-10: the second visit frees the first packet, the last stays held back. -/
theorem test_tx_irq_delayed_free : ends 3 .txIrq
    (withPkt 0 31 (withPkt 1 32 (withTx 0 0x3000003C (withTx 1 0x3000003C (cursors 0 2 14 (up .serialized))))))
      (fun t => freedPackets t.history == [31] && t.txPending == some 32 && t.txDirty == 2 && t.txFree == 16 &&
        t.txDoneCount == 2) := by decide +kernel
/-- T-TX-14 and T-TX-15: the un-stall test is strict. -/
theorem test_tx_irq_unstall :
    ends 2 .txIrq { withTx 4 0x3000003C (withTx 5 0xB000003C (cursors 4 0 4 (up .serialized))) with txStalled := true }
      (fun t => t.txFree == 5 && t.txStalled == false) ∧
    ends 2 .txIrq { withTx 3 0x3000003C (withTx 4 0xB000003C (cursors 3 0 3 (up .serialized))) with txStalled := true }
      (fun t => t.txFree == 4 && t.txStalled) := by decide +kernel

/-- T-TX-18: the first threshold forces a pass. -/
theorem test_dlchk_forces_pass : ends 3 .txDlchk { withPkt 0 31 (withTx 0 0x3000003C (cursors 0 1 15 (up .serialized))) with deadlockWarn := 1 }
      (fun t => t.result == .noReset && t.deadlockWarn == 2 && t.ctrTimeouts == 1 && t.txFree == 16 &&
        t.txDoneCount == 1 && t.txDoneLast == 1 && t.txPending == some 31) := by decide +kernel
/-- T-TX-19: the second resets. -/
theorem test_dlchk_resets : ends 1 .txDlchk { withPkt 0 31 (withTx 0 0xB000003C (cursors 0 1 15 (up .serialized))) with deadlockWarn := 2 }
      (fun t => t.result == .didReset && t.deadlockWarn == 0 && t.ctrResets == 1 &&
        freedPackets t.history == [31] && t.txFree == 16) := by decide +kernel

/-- T-RX-1: the filled buffer is delivered, a fresh one takes its place. -/
theorem test_rx_irq_replaces : leaves (.rxIrq [.replaced 9 [region 0xC000 1536]]) (withRx 0 0x30020044 0 (up .serialized))
      (fun t => deliveries t.history == [(20, 64, ⟨⟨true, true, false⟩, none⟩)] &&
        t.rxSlot.head?.join.map RxBuffer.h == some 9 && desc .rx 0 t == (0x80000600, 0, 0xC000) &&
        t.rxIndex == 1 && t.work == [.rxNext true]) := by decide +kernel
/-- P3, T-RX-7: the pass of a good frame and a fragment flushes once, at its end; only the good one takes an
acquisition. -/
theorem test_rx_pass : ends 3 (.rxIrq [.copied 9 64, .failed]) (withRx 0 0x30020044 0 (withRx 1 0x20000600 0 (up .serialized)))
      (fun t => (deliveries t.history).map (·.1) == [9] && t.history.getLast? == some .flushInputQueue &&
        t.history.count .flushInputQueue == 1 && t.rxIndex == 2 && t.acquisitions == [.failed]) := by decide +kernel
/-- R170, log entry 38: a copy buffer smaller than the frame. -/
theorem test_rx_short_copy : leaves (.rxIrq [.copied 9 63]) (withRx 0 0x30020044 0 (up .serialized))
      (fun t => deliveries t.history == [] && t.ctrResourceErrors == 1 && t.rxIndex == 1 &&
        desc .rx 0 t == (0x80000600, 0, 0x8000)) := by decide +kernel
/-- R125, R236: a drawn region list out of range is refused; a handle or memory that is live is no move (U3). -/
theorem test_rx_draws : leaves (.irq [.copied 9 64, .replaced 9 [region 0xC000 65536]]) (up .serialized)
      (fun t => t.result == .refused .operandRange && t.history == [.refused .operandRange]) ∧
    stuck (.rxIrq [.replaced 20 [region 0xC000 1536]]) (withRx 0 0x30020044 0 (up .serialized)) = true ∧
    stuck (.rxIrq [.replaced 9 [region 0x8400 1536]]) (withRx 0 0x30020044 0 (up .serialized)) = true := by decide +kernel
/-- T-RX-14: no behaviour for a frame as long as its check sequence. -/
theorem test_rx_irq_bad_length : faultOf (.rxIrq []) (withRx 0 0x30000004 0 (up .serialized)) = some .rxLength := by decide +kernel

/-- T-RX-10. -/
theorem test_rx_csum_v1 : leaves (.rxCsumV1 0x30030044 0) (up .serialized)
      (fun t => t.result == (.validity ⟨true, true, false⟩)) ∧
    leaves (.rxCsumV1 0x30048044 0) (up .serialized)
      (fun t => t.result == (.validity ⟨false, false, false⟩)) := by decide +kernel
/-- T-RX-11 and T-RX-12. -/
theorem test_rx_csum_v2 : leaves (.rxCsumV2 0x30060044 0x40000000) (up .serialized)
      (fun t => t.result == (.validity ⟨true, true, false⟩)) ∧
    leaves (.rxCsumV2 0x30020044 0x80000000) (up .serialized)
      (fun t => t.result == (.validity ⟨false, false, false⟩)) := by decide +kernel
/-- T-RX-13. -/
theorem test_rx_vlan : leaves (.rxVlan 0x00012301) (up .serialized) (fun t => t.result == (.vlan (some 0x0123))) ∧
    leaves (.rxVlan 0x00002301) (up .serialized) (fun t => t.result == (.vlan none)) := by decide +kernel

/-- T-MON-1. -/
theorem test_tick : ends 4 (.timerTick 1) { withPending 31 (up .serialized) with deadlockWarn := 1 }
      (fun t => freedPackets t.history == [31] && t.txPending == none && t.deadlockWarn == 0 &&
        t.statsPending && t.regs.statsBase == 0x30001) := by decide +kernel
/-- P5 line 1: the link goes down with two packets in flight. -/
theorem test_tick_link_down : ends 4 (.timerTick 0) { inFlight .serialized with rxIndex := 3, txPending := none }
      (fun t => t.link.up == false && t.txqEnabled == false && freedPackets t.history == [31, 32] &&
        t.txFree == 16 && t.statsPending == false && t.ctrResets == 0 && t.rxIndex == 3) := by decide +kernel

/-- R245 (g): a submission falls between LINK.UP and TX.DLCHK of one tick, and the check sees it. -/
def tickHalfDone : State := { up .serialized with
  work := [.tickRelease, .tickCheck]
  input := [⟨.submitter, encode (.txSubmit onePage), 0⟩] }
theorem test_submit_inside_tick : leads (step tickHalfDone)
      (fun t => t.result == .success && t.txFree == 15 && t.work == [.tickRelease, .tickCheck]) ∧
    leads (runTask .tickCheck (cursors 0 1 15 (up .serialized)))
      (fun t => t.deadlockWarn == 1 && t.work == [.tickStats]) := by decide +kernel

/-- T-MON-2. -/
theorem test_link_up : leaves (.linkUp ⟨.mbit100, .full, true, true⟩)
    { up .serialized with link := ⟨false, ⟨.mbit10, .half, false, false⟩⟩, txqEnabled := false }
      (fun t => t.link == ⟨true, ⟨.mbit100, .full, true, true⟩⟩ && t.txqEnabled &&
        t.history == [.applyLinkTuning, .resumeQueue, .reportLinkStatus true (some (.mbit100, .full))]) := by decide +kernel
/-- LINK.DOWN itself: the RX side is untouched. -/
theorem test_link_down : ends 1 .linkDown (inFlight .serialized)
      (fun t => t.link.up == false && freedPackets t.history == [31, 32, 30] &&
        t.mem.read32 0x20000 == 0x80000600 &&
        t.history.getLast? == some (.reportLinkStatus false none)) := by decide +kernel

/-- P4 tick 3: a completed frame not yet handled is discarded by the reset. -/
theorem test_reset_full : ends 1 .resetFull (withRx 0 0x30020044 0 (inFlight .serialized))
      (fun t => freedPackets t.history == [31, 32, 30] && desc .rx 0 t == (0x80000600, 0, 0x8000) &&
        deliveries t.history == [] && t.txqEnabled && t.regs.intrMask == 15) := by decide +kernel

/-- A block whose engine passes the statistics address with the ring bases (R57, log entry 41). -/
def passing (s : State) : State := { s with cfg := { s.cfg with reg := { s.cfg.reg with statsAtInit := true } } }

/-- R57: the statistics address, without the dump command, goes to the NIC before the mask (R262); refused without it. -/
theorem test_reset_passes_stats : ends 1 .resetFull (passing (up .serialized)) (fun t => t.regs.statsBase == 0x30000 &&
      t.history.reverse.take 4 == [.resumeQueue, .regWrite 4 16 15, .regWrite 28 32 0, .regWrite 24 32 0x30000]) ∧
    leaves .resetFull { passing (up .serialized) with stMem := none } (·.result == .refused .notPrepared) := by decide +kernel

/-- R189: a submission that meets the closed queue before `stop_and_flush_queue()` has returned is dropped, uncounted. -/
theorem test_submit_inside_reset : leads
    (andThen (exec .resetFull (inFlight .serialized)) fun t => step { t with input := [⟨.submitter, encode (.txSubmit onePage), 0⟩] })
      (fun t => t.result == .dropped && t.ctrTxDrops == 0 && t.link.up && t.work == [.resetRest .none] &&
        t.history == [.raised .linkDownDrop, .freePacket onePage.h]) := by decide +kernel

/-- What IRQ does, with the status word's bits of no cause (a free value) out of the way. -/
theorem irq_of_pending {s : State} (h : cfgWf s.cfg = true) : irq s =
    if s.irqPending.busError then beginReset .none ((countResets (acknowledge s)).raise .busError)
    else (acknowledge s).pushWork (passesFor s.irqPending) := by
  simp only [irq, causesIn_intrStatus h]

/-- T-IRQ-3: a bus error makes the receive cause moot. -/
theorem test_irq_bus_error : leads (runWork 1 (irq
    { withRx 0 0x30020044 0 (inFlight .serialized) with irqPending := ⟨true, false, true, false⟩ }))
    (fun t => t.ctrResets == 1 && t.work == [] && t.txFree == 16) = true := by
  rw [irq_of_pending (by decide +kernel)]; decide +kernel
/-- T-IRQ-1, T-IRQ-4: the passes of the causes read, in the order of R241. -/
theorem test_irq_passes : leads (.next (irq
    { up .serialized with irqPending := ⟨true, true, false, true⟩, statsPending := true }))
    (fun t => t.work == [.rxNext false, .txBegin, .statsDone]) = true := by
  rw [irq_of_pending (by decide +kernel)]; decide +kernel

/-- T-MON-4. -/
theorem test_stats_req : leaves .statsReq { up .serialized with statsPending := true }
      (fun t => t.statsPending && t.history == []) ∧
    leaves .statsReq (up .serialized)
      (fun t => t.history == [.regWrite 24 32 0x30001, .regWrite 28 32 0]) := by decide +kernel
/-- T-MON-5 and T-MON-6. -/
theorem test_stats_done : leaves .statsDone (up .serialized) (fun t => t.history == []) ∧
    leaves .statsDone { up .serialized with statsPending := true }
      (fun t => t.statsPending == false && t.history == [.accumulateStats]) := by decide +kernel

/-- Allocator draws for ENABLE: three memories and `n` receive buffers. -/
def draws (n : Nat) : EnableDraws := ⟨some 0x10000, some 0x20000, some 0x30000,
  (List.range n).map fun i => some ⟨20 + i, [region (0x8000 + 0x800 * i) 1536]⟩⟩

/-- T-CTL-1. -/
theorem test_enable : leaves (.enable (draws 8)) State.reset
      (fun t => t.result == .ok && t.enabled && t.mem.read32 0x100F0 == 0x40000000 &&
        t.mem.read32 0x20000 == 0x80000600 && t.mem.read32 0x20070 == 0xC0000600 && t.txFree == 16 &&
        t.link.up == false && t.txqEnabled == false) := by decide +kernel
/-- R57. -/
theorem test_enable_passes_stats : leaves (.enable (draws 8)) (passing State.reset) (fun t => t.regs.statsBase == 0x30000 &&
    t.history.reverse.take 3 == [.startTimer, .regWrite 4 16 15, .regWrite 28 32 0]) := by decide +kernel
/-- T-CTL-2: the sixth buffer fails. -/
theorem test_enable_unwinds : leaves (.enable (draws 5)) State.reset
      (fun t => t.result == .fatalInit && t.enabled == false &&
        released t.history == [.buffer 24, .buffer 23, .buffer 22, .buffer 21, .buffer 20, .stats, .rxRing, .txRing]) := by decide +kernel

/-- R125, R236: a receive buffer that would leave the address space, refused; memory given twice, no move (U3). -/
theorem test_enable_draws : leaves (.enable { draws 8 with bufs := [some ⟨20, [⟨0xFFFFFFFFFFFFFF00, 1536⟩]⟩] }) State.reset
      (fun t => t.result == .refused .operandRange && t.enabled == false) ∧
    stuck (.enable { draws 8 with rx := some 0x10080 }) { State.reset with cfg := { Cfg.vectors with ringAlign := 128 } } = true := by
  decide +kernel

/-- T-CTL-5. -/
theorem test_disable : leaves .disable { inFlight .host with ctrTxDrops := 3 }
      (fun t => t.enabled == false && freedPackets t.history == [31, 32, 30] &&
        released t.history == [.buffer 27, .buffer 26, .buffer 25, .buffer 24, .buffer 23, .buffer 22, .buffer 21, .buffer 20,
      .stats, .rxRing, .txRing] && t.ctrTxDrops == 3 && t.regs.intrMask == 0) := by decide +kernel

/-- T-NIC-1. -/
theorem test_nic_tx_done : leaves (.nicTxDone 0 ⟨false, true, none⟩) (withPkt 0 31 (withTx 0 0xB000003C (up .nic)))
      (fun t => t.desc32 .tx 0 .opts1 == 0x3000003C && t.nicTxBusy == none &&
        t.irqPending == ⟨false, true, false, false⟩) := by decide +kernel
/-- T-NIC-2 and T-NIC-4: the erratum, and a descriptor that is not the NIC's. -/
theorem test_nic_tx_done_early :
    leaves (.nicTxDone 15 ⟨true, false, none⟩) (withPkt 15 31 (withTx 15 0xF000003C (up .nic)))
      (fun t => t.desc32 .tx 15 .opts1 == 0x7000003C && t.nicTxBusy == some 31 && t.irqPending.tx == false) ∧
    stuck (.nicTxDone 0 ⟨false, true, none⟩) (withTx 0 0x3000003C (up .nic)) = true := by decide +kernel

/-- A ring clear has overwritten a word the NIC had read (U15). -/
def cleared (late early : Bool) : Option Fault := faultOf (.nicTxDone 0 ⟨early, true, some ⟨0, late⟩⟩)
  { up .nic with nicSeen := [⟨.tx, 0, 0xB000003C, 0x1000, some 31⟩] }
/-- The word is stored back with `OWN = 0`; the freed packet's bytes are not there to read (U15). -/
theorem test_nic_tx_done_stale :
    leaves (.nicTxDone 0 ⟨false, true, some ⟨0, false⟩⟩) { up .nic with nicSeen := [⟨.tx, 0, 0xB000003C, 0x1000, some 31⟩] }
      (fun t => t.desc32 .tx 0 .opts1 == 0x3000003C && t.nicSeen == []) ∧
    cleared true false = some .freedMemoryRead ∧ cleared false true = some .freedMemoryRead := by decide +kernel
/-- R218, log entry 35: `early` where no packet ends. -/
theorem test_nic_tx_done_no_packet : leaves (.nicTxDone 0 ⟨true, true, none⟩) (withTx 0 0xB000003C (up .nic))
      (fun t => t.nicTxBusy == none) := by decide +kernel

/-- T-NIC-6, with the bytes where the descriptor says. -/
theorem test_nic_rx_fill : leaves (.nicRxFill 7 [1, 2, 3, 4, 5, 6] ⟨true, true, 0x00020000, 7⟩ ⟨true, none⟩) (up .nic)
      (fun t => t.desc32 .rx 7 .opts1 == 0x70020006 && t.desc32 .rx 7 .opts2 == 7 && t.mem.read 0xB805 == 6 &&
        t.irqPending.rx) := by decide +kernel
/-- R219: the NIC fills by the word it read before RING.CLEAR_RX, at the address it read after it. -/
theorem test_nic_rx_fill_stale : leaves (.nicRxFill 1 [1, 2, 3, 4, 5, 6] ⟨true, true, 0, 0⟩ ⟨true, some ⟨0, none⟩⟩)
    { withRx 1 0x30000600 0 (up .nic) with nicSeen := [⟨.rx, 1, 0x80000010, 0x7000, none⟩] }
      (fun t => t.mem.read 0x8805 == 6 && t.desc32 .rx 1 .opts1 == 0x30000006) ∧
    stuck (.nicRxFill 1 (List.replicate 17 0) ⟨true, true, 0, 0⟩ ⟨true, some ⟨0, some 0⟩⟩)
      { up .nic with nicSeen := [⟨.rx, 1, 0x80000010, 0x7000, none⟩] } = true := by decide +kernel
/-- R216 (f): a buffer that a direct RING.WRITE aimed at a ring is no place for a frame. -/
theorem test_nic_rx_fill_ring : stuck (.nicRxFill 1 [1, 2, 3, 4, 5, 6] ⟨true, true, 0, 0⟩ ⟨true, none⟩)
    { up .nic with mem := putDesc 0x20000 1 0x100F0 0 0x80000600 armedMem } = true := by decide +kernel
/-- T-NIC-8: a whole frame no longer than its check sequence is no move of the NIC. -/
theorem test_nic_rx_fill_short : stuck (.nicRxFill 1 [1, 2, 3, 4] ⟨true, true, 0, 0⟩ ⟨true, none⟩) (up .nic) = true := by decide +kernel

theorem test_nic_irq_raise : leaves (.nicIrqRaise .statsDone) (up .nic)
      (fun t => t.irqPending == ⟨false, false, false, true⟩) := by decide +kernel
/-- T-NIC-9. -/
theorem test_nic_reset : leaves .nicReset { inFlight .serialized with irqPending := ⟨false, true, false, false⟩, nicTxBusy := some 31 }
      (fun t => t.irqPending == ⟨false, false, false, false⟩ && t.nicTxBusy == none &&
        desc .tx 0 t == (0xB000003C, 0, 0x1000)) := by decide +kernel
/-- T-NIC-10. -/
theorem test_nic_tx_quiesce : leaves .nicTxQuiesce { up .nic with nicTxBusy := some 31 }
      (fun t => t.nicTxBusy == none) ∧
    stuck .nicTxQuiesce (up .nic) = true := by decide +kernel

/-- The words of R78 to R85, put together from their fields (T-ENC-10 to T-ENC-12, T-RING-9, T-RX-9, T-RX-12). -/
theorem test_format_words :
    leaves (.txd1V1Csum true true false false true false true 200) (up .host)
      (fun t => t.result == (.desc .txd1V1Csum 0xC00500C8)) ∧
    leaves (.txd1V1Tso true false true true 1460 3000) (up .host)
      (fun t => t.result == (.desc .txd1V1Tso 0xBDB40BB8)) ∧
    leaves (.txd1V2 true false true true true 3000) (up .host) (fun t => t.result == (.desc .txd1V2 0xB8000BB8)) ∧
    leaves (.txd2V1 true 0x05E0) (up .host) (fun t => t.result == (.desc .txd2V1 0x000205E0)) ∧
    leaves (.txd2V2 false true true 0 true 0x2301) (up .host)
      (fun t => t.result == (.desc .txd2V2 0x60022301)) := by decide +kernel
theorem test_format_words_rx :
    leaves (.rxdArmed true 1536) (up .nic) (fun t => t.result == (.desc .rxdArmed 0xC0000600)) ∧
    leaves (.rxd1V1 false true true 1 false false false 68 0x0FF80000) (up .nic)
      (fun t => t.result == (.desc .rxd1V1 0x3FFA0044)) ∧
    leaves (.rxd1V2 false true true true false false true false 68 0) (up .nic)
      (fun t => t.result == (.desc .rxd1V2 0x30048044)) ∧
    leaves (.rxd2V1 true 0x2301 0) (up .nic) (fun t => t.result == (.desc .rxd2V1 0x00012301)) ∧
    leaves (.rxd2V2 false true true 0x2301 0) (up .nic)
      (fun t => t.result == (.desc .rxd2V2 0x40012301)) := by decide +kernel

/-- From reset, with ENABLE queued by the host: the first operation brings the block up (P1 line 1). -/
theorem test_step_from_reset : (match step { State.reset with input := [⟨.host, encode (.enable (draws 8)), 0⟩] } with
    | .next t => t.enabled && t.input.isEmpty
    | .fault _ => false
    | .refused _ => false) = true := by decide +kernel
/-- R238: the codes, `Refused` among them. -/
theorem test_error_codes : (errorOf (.raised .backpressure)).map ErrCause.code = some 0x01 ∧
    (errorOf (.raised .linkDownDrop)).map ErrCause.code = some 0x0A ∧
    (errorOf (.refused .operandRange)).map ErrCause.code = some 0x0F := by decide
/-- R9, R236: a submission while disabled is recorded as refused and is `Dropped` for the host; nothing is freed. -/
theorem test_submit_disabled : leaves (.txSubmit onePage) { State.reset with caller := .submitter }
      (fun t => t.result == .dropped && t.history == [.refused .disabled]) := by decide +kernel
/-- R210 H6: no operation of the domain inside another; a submission waits for as many steps as it says. -/
theorem test_no_overlap : stuck .txIrq { up .serialized with work := [.tickCheck] } = true ∧
    leads (step { up .serialized with work := [.tickStats], input := [⟨.submitter, .op [0x00, 1, 0, 0, 0], 1⟩] })
      (fun t => t.work == [] && t.statsPending && t.input == [⟨.submitter, .op [0x00, 1, 0, 0, 0], 0⟩]) := by decide +kernel

/-! ### States that meet the hypotheses of the statements -/

/-- What `leaves` says. -/
theorem next_of_leaves {i : Instr} {s : State} {p : State → Bool} (h : leaves i s p = true) :
    ∃ t, exec i s = .next t ∧ p t = true := by
  unfold leaves at h
  cases he : exec i s with
  | next t => rw [he] at h; exact ⟨t, rfl, h⟩
  | fault r => rw [he] at h; cases h
  | refused r => rw [he] at h; cases h

theorem ready_up (a : Agent) : Ready a (up a) := ⟨⟨rfl, by cases a <;> decide +kernel, fun _ => rfl⟩, rfl⟩

theorem usable_up (a : Agent) : TxUsable (up a) ∧ RxUsable (up a) ∧ StUsable (up a) := by
  unfold TxUsable RxUsable StUsable; cases a <;> decide +kernel

theorem wf_up (a : Agent) : (up a).mem.wf := by cases a <;> decide +kernel

theorem cursors_up (a : Agent) : CursorsOk (up a) where
  next := by cases a <;> decide +kernel
  dirty := by cases a <;> decide +kernel
  rx := by cases a <;> decide +kernel
  free := by cases a <;> decide +kernel
  slots := by cases a <;> decide +kernel
  scan := by cases a <;> decide +kernel
  once := by cases a <;> decide +kernel

theorem handles_up (a : Agent) : HandleInv (up a) where
  packetsOnce := by cases a <;> decide +kernel
  packetsHeld := by cases a <;> decide +kernel
  buffersOnce := by cases a <;> decide +kernel
  buffersHeld := by cases a <;> decide +kernel

theorem rings_up (a : Agent) : RingsOk (up a) where
  apart := by unfold MemsApart memsApart; cases a <;> decide +kernel
  txLen := fun m h => by cases h; rfl
  rxLen := fun m h => by cases h; rfl
  endTx := by unfold ringEndOk; cases a <;> decide +kernel
  endRx := by unfold ringEndOk; cases a <;> decide +kernel
  idle := by unfold isOutstanding; cases a <;> decide +kernel
  unsub := by unfold isOutstanding; cases a <;> decide +kernel
  bufs := by cases a <;> decide +kernel
  armed := by cases a <;> decide +kernel
  whole := by cases a <;> decide +kernel
  seen := fun x h => by cases h
  kept := fun x h => by cases h

theorem block_up (a : Agent) : BlockInv (up a) where
  memory := wf_up a
  work := fun h => absurd rfl h
  cursors := fun _ => ⟨(ready_up a).1.2, cursors_up a⟩
  handles := handles_up a
  platform := ⟨fun _ => ⟨(ready_up a).1.2, usable_up a⟩, fun h => by cases h⟩
  control := ⟨by cases a <;> decide +kernel, rfl, fun h => by cases h⟩
  rings := fun _ => rings_up a

theorem ready_inFlight (a : Agent) : Ready a (inFlight a) := ⟨⟨rfl, by cases a <;> decide +kernel, fun _ => rfl⟩, rfl⟩

theorem usable_inFlight (a : Agent) : TxUsable (inFlight a) ∧ RxUsable (inFlight a) ∧ StUsable (inFlight a) := by
  unfold TxUsable RxUsable StUsable; cases a <;> decide +kernel

theorem wf_inFlight (a : Agent) : (inFlight a).mem.wf := by cases a <;> decide +kernel

theorem cursors_inFlight (a : Agent) : CursorsOk (inFlight a) where
  next := by cases a <;> decide +kernel
  dirty := by cases a <;> decide +kernel
  rx := by cases a <;> decide +kernel
  free := by cases a <;> decide +kernel
  slots := by cases a <;> decide +kernel
  scan := by cases a <;> decide +kernel
  once := by cases a <;> decide +kernel

theorem handles_inFlight (a : Agent) : HandleInv (inFlight a) where
  packetsOnce := by cases a <;> decide +kernel
  packetsHeld := by cases a <;> decide +kernel
  buffersOnce := by cases a <;> decide +kernel
  buffersHeld := by cases a <;> decide +kernel

theorem rings_inFlight (a : Agent) : RingsOk (inFlight a) where
  apart := by unfold MemsApart memsApart; cases a <;> decide +kernel
  txLen := fun m h => by cases h; rfl
  rxLen := fun m h => by cases h; rfl
  endTx := by unfold ringEndOk; cases a <;> decide +kernel
  endRx := by unfold ringEndOk; cases a <;> decide +kernel
  idle := by unfold isOutstanding; cases a <;> decide +kernel
  unsub := by unfold isOutstanding; cases a <;> decide +kernel
  bufs := by cases a <;> decide +kernel
  armed := by cases a <;> decide +kernel
  whole := by cases a <;> decide +kernel
  seen := fun x h => by cases h
  kept := fun x h => by cases h

/-- The two packets in flight are in the slots of outstanding descriptors. -/
theorem slots_inFlight (a : Agent) : ∀ i < (inFlight a).cfg.nTx,
    (inFlight a).txPkt i ≠ none → (i + (inFlight a).cfg.nTx - (inFlight a).txDirty) % (inFlight a).cfg.nTx < outstanding (inFlight a) := by
  cases a <;> decide +kernel

theorem block_inFlight (a : Agent) : BlockInv (inFlight a) where
  memory := wf_inFlight a
  work := fun h => absurd rfl h
  cursors := fun _ => ⟨(ready_inFlight a).1.2, cursors_inFlight a⟩
  handles := handles_inFlight a
  platform := ⟨fun _ => ⟨(ready_inFlight a).1.2, usable_inFlight a⟩, fun h => by cases h⟩
  control := ⟨by cases a <;> decide +kernel, rfl, fun h => by cases h⟩
  rings := fun _ => rings_inFlight a

theorem slotInv_inFlight (a : Agent) : SlotInv (inFlight a) := fun _ i hi h hs =>
  slots_inFlight a i hi (by rw [hs]; exact Option.some_ne_none h)

/-- The NIC reads past the end of no packet. -/
theorem idle_inFlight (a : Agent) : NothingBusy (inFlight a) := fun h _ hb => by cases hb

/-- The same with the NIC still reading the packet held back. -/
def reading (a : Agent) : State := { inFlight a with nicTxBusy := some 30 }

theorem busy_reading (a : Agent) : ¬ NothingBusy (reading a) := fun h => h 30 (by cases a <;> decide +kernel) rfl

/-- A block that queues an invocation and is in the middle of an operation of the serialized domain. -/
def busyWith (work : List Task) (input : List Invocation) (s : State) : State := { s with work := work, input := input }

/-- A queue and tasks beside it change no other part of a block in order. -/
theorem block_busyWith {s : State} (h : BlockInv s) (he : s.enabled = true) (work : List Task) (input : List Invocation)
    (hs : scanLeft work ≤ outstanding s) (ho : ∀ x ∈ work.tail, isScan x = false) : BlockInv (busyWith work input s) where
  memory := h.memory
  work := fun _ => ⟨he, (h.cursors he).1⟩
  cursors := fun _ =>
    have hc := (h.cursors he).2
    ⟨(h.cursors he).1, hc.next, hc.dirty, hc.rx, hc.free, hc.slots, hs, ho⟩
  handles := ⟨h.handles.packetsOnce, h.handles.packetsHeld, h.handles.buffersOnce, h.handles.buffersHeld⟩
  platform := ⟨h.platform.on, h.platform.off⟩
  control := ⟨h.control.mask, h.control.timer, h.control.down⟩
  rings := fun _ =>
    have hr := h.rings he
    ⟨hr.apart, hr.txLen, hr.rxLen, hr.endTx, hr.endRx, hr.idle, hr.unsub, hr.bufs, hr.armed, hr.whole, hr.seen, hr.kept⟩

/-- What `ends` says. -/
theorem next_of_ends {n : Nat} {i : Instr} {s : State} {p : State → Bool} (h : ends n i s p = true) :
    ∃ t, execWhole n i s = .next t ∧ p t = true ∧ t.work = [] := by
  unfold ends at h
  cases he : execWhole n i s with
  | next t => rw [he] at h; simp only [Bool.and_eq_true, List.isEmpty_iff] at h; exact ⟨t, rfl, h.1, h.2⟩
  | fault r => rw [he] at h; cases h
  | refused r => rw [he] at h; cases h

/-- What `leads` says. -/
theorem next_of_leads {x : Out State} {p : State → Bool} (h : leads x p = true) : ∃ t, x = .next t ∧ p t = true := by
  unfold leads at h
  cases he : x with
  | next t => rw [he] at h; exact ⟨t, rfl, h⟩
  | fault r => rw [he] at h; cases h
  | refused r => rw [he] at h; cases h

/-! #### Encodings, steps, refusals -/

theorem witness_EncodeThenDecode : WellFormed (.txSubmit onePage) = true ∧
    WellFormed (.rxd1V1 false true true 1 false false false 68 0x0FF80000) = true := by decide
theorem witness_DecodedInstr : decode (.op [0x31]) = .ok .txIrq ∧
    decode (.word .rxd2V1 0xFFFFFFFF#32) = .ok (.rxd2V1 true 0xFFFF 0xFFFE0000) := by decide
/-- Selectors at the ends of the gaps; an agent in the middle of an operation and one at a boundary. -/
theorem witness_UnassignedSelector : (0x05#8).toNat ∉ selectors ∧ (0xFF#8).toNat ∉ selectors ∧
    (State.reset.work = [] ∧ inDomain .nic = false) ∧
    (up .host).caller ∉ agentsOf .txIrq ∧ (up .submitter).caller ∉ agentsOf (.ringWrite .rx 0 ⟨0, 1⟩ 0 0 false) := by decide +kernel
/-- Each clause: an invocation that runs, one that decodes to nothing, one that waits for a step, one that waits for
the end, nothing queued; a table word of either kind. -/
theorem witness_StepRuns : decode (.op [0x31]) = .ok .txIrq ∧ decode (.op [0x05]) = .error .invalidSelector ∧
    inDomain .submitter = false ∧ inDomain .serialized = true ∧
    (busyWith [.tickStats] [⟨.submitter, .op [0x02], 1⟩] (up .serialized)).work = .tickStats :: [] ∧
    State.reset.input = [] ∧ State.reset.work = [] ∧ decodeTableWord 8 0x31 = some .txIrq ∧
    decodeTableWord 32 0xC0000600 = some (.rxdArmed true 1536) := by decide +kernel
theorem witness_RefusedInvocation : (∃ t, exec .txIrq State.reset = .next t ∧ t.result = .refused .wrongAgent) ∧
    ∃ t, exec (.txSubmit onePage) { State.reset with caller := .submitter } = .next t ∧ t.history = [] ++ [.refused .disabled] := by
  obtain ⟨t, h, ht⟩ := next_of_leaves (i := .txIrq) (s := State.reset) (p := (·.result == .refused .wrongAgent)) (by decide +kernel)
  obtain ⟨u, h', hu⟩ := next_of_leaves (i := .txSubmit onePage) (s := { State.reset with caller := .submitter })
    (p := (·.history == [.refused .disabled])) (by decide +kernel)
  exact ⟨⟨t, h, by simpa using ht⟩, u, h', by simpa using hu⟩
theorem witness_DisabledBlock : needsEnabled .txIrq = true ∧ ({ State.reset with caller := .serialized } : State).caller ∈ agentsOf .txIrq ∧
    cfgWf State.reset.cfg = true ∧ State.reset.enabled = false ∧ Acting .host (up .host) ∧ (up .host).enabled = true ∧
    cfgWf { Cfg.vectors with nTx := 12 } = false :=
  ⟨by decide, by decide, by decide +kernel, rfl, (ready_up .host).1, rfl, by decide +kernel⟩
/-- An operation of the domain, and one of the host, in the middle of another. -/
theorem witness_Overlap : ∀ a, inDomain a = true → (busyWith [.tickCheck] [] (up a)).work ≠ [] ∧
    inDomain (busyWith [.tickCheck] [] (up a)).caller = true ∧ WorkInv (busyWith [.tickCheck] [] (up a)) ∧
    PlatformInv (busyWith [.tickCheck] [] (up a)) ∧ isFormat .txIrq = false ∧ isFormat .disable = false := fun a ha =>
  have hb := block_busyWith (block_up a) rfl [.tickCheck] [] (Nat.zero_le _) (fun x hx => by cases hx)
  ⟨List.cons_ne_nil _ _, ha, hb.work, hb.platform, rfl, rfl⟩

/-! #### Invariants -/

/-- A block in order with an invocation queued. -/
def queued : State := busyWith [] [⟨.submitter, .op [0x00, 3, 0, 0, 0], 0⟩] (up .submitter)

theorem block_queued : BlockInv queued := block_busyWith (block_up .submitter) rfl [] _ (Nat.zero_le _) (fun x hx => by cases hx)

/-- For every statement about what a step keeps: its invariant holds here and the step goes on. -/
theorem witness_invariants : BlockInv queued ∧ SlotInv queued ∧ WarnInv queued ∧ RingEndInv queued ∧
    (∀ x ∈ queued.input.head?, decode x.code ≠ .ok .ringReclaim) ∧ ∃ t, step queued = .next t := by
  refine ⟨block_queued, fun _ i hi h hs => ?_, fun _ => show queued.deadlockWarn < queued.cfg.dlThresh2 by decide +kernel,
    by unfold RingEndInv; decide +kernel, by decide +kernel, ?_⟩
  · have hn : ∀ i < queued.cfg.nTx, queued.txPkt i = none := by decide +kernel
    rw [hn i hi] at hs
    cases hs
  · obtain ⟨t, h, -⟩ := next_of_leads (x := step queued) (p := fun _ => true) (by decide +kernel)
    exact ⟨t, h⟩

/-- The middle of a TX.IRQ that still has two descriptors to look at, slots full, with nothing queued. -/
def scanning : State := busyWith [.txScan 2 0, .statsDone] [] (inFlight .serialized)

/-- The same in the middle of an operation. -/
theorem witness_work : BlockInv scanning ∧ SlotInv scanning ∧ WarnInv scanning ∧ RingEndInv scanning ∧ scanning.work ≠ [] ∧
    (∀ x ∈ scanning.input.head?, decode x.code ≠ .ok .ringReclaim) ∧ ∃ t, step scanning = .next t := by
  refine ⟨block_busyWith (block_inFlight .serialized) rfl _ [] (by decide +kernel) (by decide), fun he i hi h hs =>
    slotInv_inFlight .serialized he i hi h hs, fun _ => show scanning.deadlockWarn < scanning.cfg.dlThresh2 by decide +kernel,
    by unfold RingEndInv; decide +kernel, by decide, by decide +kernel, ?_⟩
  obtain ⟨t, h, -⟩ := next_of_leads (x := step scanning) (p := fun _ => true) (by decide +kernel)
  exact ⟨t, h⟩

/-- The middle of a LINK.DOWN that a tick invoked. -/
def closing : State := busyWith [.linkDownRest, .tickRelease, .tickCheck] [] (inFlight .serialized)

/-- `LINKDOWN_TX_IDLE` begins where the link register reads down and ends with a doorbell, not with the link up. -/
theorem witness_LinkReadsDown : LinkReadsDown closing ∧
    downSinceDoorbell Cfg.vectors [.regRead Cfg.vectors.reg.linkStatus 8 0, .reportLinkStatus false none,
      .regRead Cfg.vectors.reg.linkStatus 8 1, .reportLinkStatus true none] = true ∧
    downSinceDoorbell Cfg.vectors [.regRead Cfg.vectors.reg.linkStatus 8 0, .doorbell 0 1] = false ∧
    downSinceDoorbell Cfg.vectors [.regRead Cfg.vectors.reg.linkStatus 8 1] = false :=
  ⟨.inl (by decide), by decide +kernel, by decide +kernel, by decide +kernel⟩

/-- A receive descriptor of the engine, re-armed by a direct RING.WRITE; the premises on the NIC; a read of freed
memory without them. -/
theorem witness_EveryOperation : BlockInv (up .serialized) ∧
    RxWritesRearm (.ringWrite .rx 7 ⟨0xB800, 1536⟩ 0 0 true) (up .serialized) ∧
    BlockInv scanning ∧ ErratumBounded scanning ∧ LinkdownTxIdle scanning ∧
    BlockInv closing ∧ ErratumBounded closing ∧ LinkdownTxIdle closing ∧
    runTask .tickRelease (reading .serialized) = .fault .freedMemoryRead := by
  refine ⟨block_up _, fun index seg flags1 flags2 own h => ?_, witness_work.1, fun h _ hb => (by cases hb),
    fun _ => ⟨rfl, fun x hx => (by cases hx)⟩,
    block_busyWith (block_inFlight .serialized) rfl _ [] (by decide +kernel) (by decide), fun h _ hb => (by cases hb),
    fun _ => ⟨rfl, fun x hx => (by cases hx)⟩, rfl⟩
  cases h
  decide +kernel

/-! #### Who may touch what -/

/-- Each writer of the link, and who leaves the rest of LINK.DOWN. -/
theorem witness_LinkWritten : leaves (.enable (draws 8)) { State.reset with link := ⟨true, ⟨.mbit10, .half, false, false⟩⟩ }
      (·.link.up == false) = true ∧
    leads (runTask .linkDownRest (inFlight .serialized)) (fun t => t.link != (inFlight .serialized).link) = true ∧
    leaves .linkDown (inFlight .serialized) (·.work == [.linkDownRest]) = true ∧
    leaves (.timerTick 0) (inFlight .serialized) (fun t => t.work == [.linkDownRest, .tickRelease, .tickCheck]) = true := by
  decide +kernel
theorem witness_Submitter : isSubmitterOp (.txSubmit onePage) = true ∧ isSubmitterOp (.ringWrite .tx 0 ⟨0, 1⟩ 0 0 false) = true ∧
    (inFlight .submitter).mem.wf ∧ CursorInv (inFlight .submitter) ∧ (inFlight .submitter).txPkt 0 ≠ none ∧
    ({ inFlight .submitter with txStalled := true } : State).txStalled = true ∧
    ¬ (inFlight .submitter).inRing .tx 0x10100 ∧ ∃ t, exec (.txSubmit onePage) (inFlight .submitter) = .next t := by
  refine ⟨by decide, by decide, wf_inFlight _, fun _ => ⟨(ready_inFlight .submitter).1.2, cursors_inFlight _⟩, by decide +kernel, rfl,
    by unfold State.inRing; decide +kernel, ?_⟩
  obtain ⟨t, h, -⟩ := next_of_leaves (i := .txSubmit onePage) (s := inFlight .submitter) (p := fun _ => true) (by decide +kernel)
  exact ⟨t, h⟩
theorem witness_NicStep : isNicStep (.nicIrqRaise .tx) = true ∧ ∃ t, exec (.nicIrqRaise .tx) (up .nic) = .next t :=
  ⟨rfl, _, rfl⟩
/-- A count of each kind, by an operation and by a task, and a later ENABLE. -/
theorem witness_Counters : leaves (.txSubmit { onePage with regions := [] }) (up .submitter) (·.ctrTxDrops == 1) = true ∧
    leaves (.rxIrq []) (withRx 0 0x20000600 0 (up .serialized)) (·.ctrFrameTooLong == 1) = true ∧
    leads (runTask (.rxNext true) (withRx 0 0x30020044 0 (up .serialized))) (·.ctrResourceErrors == 1) = true ∧
    leads (runTask .tickCheck { inFlight .serialized with deadlockWarn := 1 }) (·.ctrTimeouts == 1) = true ∧
    ({ State.reset with everEnabled := true } : State).everEnabled = true := by decide +kernel

/-! #### The ring -/

theorem witness_RingAlloc : Ready .submitter (cursors 0 11 5 (up .submitter)) ∧ (cursors 0 11 5 (up .submitter)).cfg.kMaxSegs < 5 ∧
    (cursors 0 12 4 (up .submitter)).txFree ≤ ((4 : Nat) : Int) ∧ ((4 : Nat) : Int) < (cursors 0 11 5 (up .submitter)).txFree ∧
    (cursors 0 11 5 (up .submitter)).txFree ≤ ((cursors 0 11 5 (up .submitter)).cfg.nTx : Int) :=
  ⟨⟨⟨rfl, by decide +kernel, fun _ => rfl⟩, rfl⟩, by decide +kernel, by decide +kernel, by decide +kernel, by decide +kernel⟩
theorem witness_RingAllocFree : Ready .submitter (up .submitter) ∧ CursorsOk (up .submitter) ∧ RingsOk (up .submitter) ∧
    4 ≤ (up .submitter).cfg.kMaxSegs ∧ ((4 : Nat) : Int) < (up .submitter).txFree :=
  ⟨ready_up _, cursors_up _, rings_up _, by decide +kernel, by decide +kernel⟩

/-- Index 15 allocated and not submitted. -/
def allocated15 : State := { cursors 15 0 15 (up .submitter) with txUnsubmitted := [15] }

/-- Each clause of RING.WRITE, on both rings and at the ends of the ranges (T-RING-7 to T-RING-10b). -/
theorem witness_RingWrite : TxUsable allocated15 ∧ RxUsable (up .serialized) ∧ allocated15.mem.wf ∧
    allocated15.nicOwned .tx 15 = false ∧ 15 ∈ allocated15.txUnsubmitted ∧ 14 ∉ allocated15.txUnsubmitted ∧
    writeOperandsOk allocated15.cfg .tx 15 ⟨0x1000, 65535⟩ 0x30000000 0x0002FFFF = true ∧
    writeOperandsOk allocated15.cfg .tx 15 ⟨0x1000, 65536⟩ 0x30000000 0 = false ∧
    writeOperandsOk allocated15.cfg .tx 16 ⟨0x1000, 1⟩ 0 0 = false ∧ writeOperandsOk allocated15.cfg .tx 15 ⟨0x1000, 0⟩ 0 0 = false ∧
    writeOperandsOk allocated15.cfg .rx 7 ⟨0x9000, 16383⟩ 0 0 = true ∧ writeOperandsOk allocated15.cfg .rx 7 ⟨0x9000, 16384⟩ 0 0 = false ∧
    (up .serialized).nicOwned .rx 7 = true ∧ (withRx 7 0x70000044 0 (up .serialized)).nicOwned .rx 7 = false := by
  refine ⟨?_, (usable_up _).2.1, ?_⟩
  · unfold TxUsable; decide +kernel
  · decide +kernel
/-- Command bits of each form, the bits beside them, and what no command bit is (log entry 32). -/
theorem witness_CommandFlags : CommandBits Cfg.vectors .tx 0x3FFF0000 0 ∧ CommandBits Cfg.vectors .tx 0x30070000 0 ∧
    ¬ CommandBits Cfg.vectors .tx 0x30080000 0 ∧ ¬ CommandBits Cfg.vectors .tx 0x80000000 0 ∧
    ¬ CommandBits Cfg.vectors .tx 0x40000000 0 ∧ ¬ CommandBits Cfg.vectors .tx 0x00000001 0 ∧
    ¬ CommandBits Cfg.vectors .tx 0 1 ∧ CommandBits Cfg.vectors .tx 0 0x00020001 ∧
    CommandBits { Cfg.vectors with revision2 := true } .tx 0x38000000 0x1FFE0001 ∧
    CommandBits { Cfg.vectors with revision2 := true } .tx 0x30000000 0xE0000001 ∧
    ¬ CommandBits { Cfg.vectors with revision2 := true } .tx 0x30000000 0x10000000 ∧
    ¬ CommandBits { Cfg.vectors with revision2 := true } .tx 0x30010000 0 ∧
    CommandBits Cfg.vectors .rx 0 0 ∧ ¬ CommandBits Cfg.vectors .rx 0 1 ∧ ¬ CommandBits Cfg.vectors .rx 0x10000000 0 := by
  refine ⟨?_, ?_, ?_, ?_, ?_, ?_, ?_, ?_, ?_, ?_, ?_, ?_, ?_, ?_, ?_⟩ <;> simp only [CommandBits, Cfg.vectors] <;> decide +kernel

theorem witness_RingReclaim : Ready .serialized (inFlight .serialized) ∧ TxUsable (inFlight .serialized) ∧
    CursorsOk (inFlight .serialized) := ⟨ready_inFlight _, (usable_inFlight _).1, cursors_inFlight _⟩

/-- The queue running, and stopped; the NIC idle, and reading a packet. -/
theorem witness_RingClearTx : Ready .serialized (inFlight .serialized) ∧ TxUsable (inFlight .serialized) ∧
    (inFlight .serialized).mem.wf ∧ (inFlight .serialized).txqEnabled = true ∧
    ({ inFlight .serialized with txqEnabled := false } : State).txqEnabled = false ∧
    (inFlight .serialized).txSlot.length = (inFlight .serialized).cfg.nTx ∧ HandleInv { inFlight .serialized with txqEnabled := false } ∧
    NothingBusy (inFlight .serialized) ∧ ¬ NothingBusy (reading .serialized) ∧
    leaves .ringClearTx { inFlight .serialized with txqEnabled := false } (fun t => t.nicSeen.length == 2) = true ∧
    faultOf .ringClearTx { reading .serialized with txqEnabled := false } = some .freedMemoryRead :=
  ⟨ready_inFlight _, (usable_inFlight _).1, wf_inFlight _, rfl, rfl, by decide +kernel,
    ⟨by decide +kernel, by decide +kernel, by decide +kernel, by decide +kernel⟩, idle_inFlight _, busy_reading _, by decide +kernel,
    by decide +kernel⟩
theorem witness_RingClearRx : Ready .serialized (up .serialized) ∧ RxUsable (up .serialized) ∧ (up .serialized).mem.wf :=
  ⟨ready_up _, (usable_up _).2.1, wf_up _⟩

/-! #### Segmenter and encoder -/

/-- A region list in range, one at each end of the range, and one outside it. -/
theorem witness_Seg : Ready .submitter (up .submitter) ∧ Ready .serialized (up .serialized) ∧
    (∀ r ∈ [region 0x1000 65535, ⟨0xFFFFFFFFFFFFFFFF, 1⟩], r.pa.toNat + r.len ≤ 2 ^ 64 ∧ r.len ≤ 2 ^ (up .submitter).cfg.layout.txlen.w - 1) ∧
    (∃ r ∈ [region 0x1000 65536], 2 ^ 64 < r.pa.toNat + r.len ∨ 2 ^ (up .submitter).cfg.layout.txlen.w - 1 < r.len) ∧
    (∃ r ∈ [(⟨0xFFFFFFFFFFFFFFFF, 2⟩ : Region)], 2 ^ 64 < r.pa.toNat + r.len) :=
  ⟨ready_up _, ready_up _, by decide +kernel, ⟨_, List.mem_singleton.2 rfl, by decide +kernel⟩, ⟨_, List.mem_singleton.2 rfl, by decide +kernel⟩⟩
/-- T-SEG-9: two adjacent segments that were not merged. -/
theorem witness_SegmentsCover : leaves (.segTx [region 0x1000 65535, region 0x10FFF 1]) (up .submitter)
    (·.result == .segs [⟨0x1000, 65535⟩, ⟨0x10FFF, 1⟩]) = true := by decide +kernel
/-- T-ENC-8 and the two accepted forms. -/
theorem witness_Encoders : Ready .submitter (up .submitter) ∧
    OffloadUnsupported (up .submitter).cfg { noOffload with tso := true, mss := 2048 } ∧
    ¬ OffloadUnsupported (up .submitter).cfg { noOffload with tso := true, mss := 2047 } ∧
    ¬ OffloadUnsupported (up .submitter).cfg { noOffload with ip := true } := by
  refine ⟨ready_up _, ?_, ?_, ?_⟩ <;> unfold OffloadUnsupported <;> decide +kernel
theorem witness_CommandBits : cfgWf Cfg.vectors = true ∧
    encodeOffload Cfg.vectors { noOffload with tso := true, mss := 1460 } = some ⟨0x0DB40000, 0⟩ := by decide +kernel

/-! #### Transmit -/

/-- A packet that passes every check, on a free ring. -/
theorem witness_TxSubmit : Ready .submitter (up .submitter) ∧ TxUsable (up .submitter) ∧ CursorsOk (up .submitter) ∧
    (up .submitter).mem.wf ∧ (up .submitter).link.up = true ∧ (up .submitter).txqEnabled = true ∧
    regionsOk (up .submitter).cfg onePage.regions = true ∧ (up .submitter).holdsPacket onePage.h = false ∧
    segmentTx (up .submitter).cfg onePage.regions = some [⟨0x1000, 60⟩] ∧
    encodeOffload (up .submitter).cfg onePage.off = some ⟨0, 0⟩ ∧ ((1 : Nat) : Int) < (up .submitter).txFree :=
  ⟨ready_up _, (usable_up _).1, cursors_up _, wf_up _, rfl, rfl, by decide +kernel, by decide +kernel, by decide +kernel,
    by decide +kernel, by decide +kernel⟩
theorem witness_TxSubmitSuccess : leaves (.txSubmit onePage) (up .submitter) (·.result == .success) = true := by decide +kernel
/-- A region out of range, at the address space's end and one byte too long; a handle the engine has; the three drops:
link down; no segment, too many segments; an unsupported request. -/
theorem witness_TxSubmitDrops : Ready .submitter (inFlight .submitter) ∧
    (∃ r ∈ [(⟨0xFFFFFFFFFFFFFFFF, 2⟩ : Region)], 2 ^ 64 < r.pa.toNat + r.len) ∧
    (∃ r ∈ [region 0x1000 65536], 2 ^ (up .submitter).cfg.layout.txlen.w - 1 < r.len) ∧
    regionsOk (up .submitter).cfg [region 0x1000 65535, ⟨0xFFFFFFFFFFFFFFFF, 1⟩] = true ∧
    (inFlight .submitter).holdsPacket 31 = true ∧ TxUsable (up .submitter) ∧
    ({ up .submitter with txqEnabled := false } : State).txqEnabled = false ∧
    segmentTx (up .submitter).cfg [] = some [] ∧
    segmentTx (up .submitter).cfg [region 0x1000 10, region 0x2000 10, region 0x3000 10, region 0x4000 10, region 0x5000 10] = none ∧
    OffloadUnsupported (up .submitter).cfg { noOffload with tcp := true, udp := true } := by
  refine ⟨ready_inFlight _, ⟨_, List.mem_singleton.2 rfl, by decide +kernel⟩, ⟨_, List.mem_singleton.2 rfl, by decide +kernel⟩,
    by decide +kernel, by decide +kernel, (usable_up _).1, rfl, by decide +kernel, by decide +kernel, ?_⟩
  unfold OffloadUnsupported; decide +kernel
/-- One descriptor free. -/
theorem witness_TxSubmitStalls : Ready .submitter (cursors 0 15 1 (up .submitter)) ∧ TxUsable (cursors 0 15 1 (up .submitter)) ∧
    (cursors 0 15 1 (up .submitter)).txFree ≤ ([⟨0x1000, 60⟩] : List Segment).length := by
  refine ⟨⟨⟨rfl, by decide +kernel, fun _ => rfl⟩, rfl⟩, ?_, by decide +kernel⟩
  unfold TxUsable; decide +kernel
theorem witness_TxIrq : Ready .serialized (inFlight .serialized) ∧ TxUsable (inFlight .serialized) ∧
    CursorsOk (inFlight .serialized) ∧ HandleInv (inFlight .serialized) ∧ NothingBusy (inFlight .serialized) ∧
    ErratumBounded (inFlight .serialized) :=
  ⟨ready_inFlight _, (usable_inFlight _).1, cursors_inFlight _, handles_inFlight _, idle_inFlight _, fun _ _ hb => by cases hb⟩
/-- A completed descriptor behind a held-back packet that the NIC still reads. -/
def readingDone : State := withTx 0 0x3000003C (reading .serialized)
theorem witness_TxIrqReadsFreed : Ready .serialized readingDone ∧ TxUsable readingDone ∧ CursorsOk readingDone ∧
    HandleInv readingDone ∧ readingDone.txPending = some 30 ∧ readingDone.nicTxBusy = some 30 ∧ 1 ≤ outstanding readingDone ∧
    readingDone.nicOwned .tx readingDone.txDirty = false ∧ faultOf .txIrq readingDone = some .freedMemoryRead := by
  refine ⟨⟨⟨rfl, by decide +kernel, fun _ => rfl⟩, rfl⟩, ?_, ⟨?_, ?_, ?_, ?_, ?_, ?_, ?_⟩, ⟨?_, ?_, ?_, ?_⟩, ?_⟩ <;>
    first | (unfold TxUsable; decide +kernel) | decide +kernel

/-- Two packets in flight and `w` earlier ticks without progress. -/
def waiting (w : Nat) : State := { inFlight .serialized with deadlockWarn := w }

/-- Each case of TX.DLCHK: progress; below, at and above the first threshold. -/
theorem witness_Dlchk : (∀ w < 3, Ready .serialized (waiting w) ∧ TxUsable (waiting w) ∧ RxUsable (waiting w) ∧
      HandleInv (waiting w)) ∧
    ¬ ((up .serialized).txFree < (up .serialized).cfg.nTx) ∧
    (∀ w < 3, (waiting w).txDoneCount = (waiting w).txDoneLast ∧ (waiting w).txFree < (waiting w).cfg.nTx) ∧
    ((waiting 0).deadlockWarn + 1) % 2 ^ (waiting 0).cfg.ctrW ≠ (waiting 0).cfg.dlThresh1 ∧
    ((waiting 0).deadlockWarn + 1) % 2 ^ (waiting 0).cfg.ctrW ≠ (waiting 0).cfg.dlThresh2 ∧
    ((waiting 1).deadlockWarn + 1) % 2 ^ (waiting 1).cfg.ctrW = (waiting 1).cfg.dlThresh1 ∧
    ((waiting 2).deadlockWarn + 1) % 2 ^ (waiting 2).cfg.ctrW = (waiting 2).cfg.dlThresh2 := by
  have hh := handles_inFlight .serialized
  have hu : ∀ w < 3, txProblem (waiting w) = none ∧ rxProblem (waiting w) = none := by decide +kernel
  exact ⟨fun w hw => ⟨⟨⟨rfl, (ready_inFlight .serialized).1.2, fun _ => rfl⟩, rfl⟩, (hu w hw).1, (hu w hw).2,
    ⟨hh.packetsOnce, hh.packetsHeld, hh.buffersOnce, hh.buffersHeld⟩⟩,
    by decide +kernel, by decide +kernel, by decide +kernel, by decide +kernel, by decide +kernel, by decide +kernel⟩

/-! #### Receive -/

/-- A frame of the NIC in descriptor 0, with the status word `w`. -/
def filled (w : Word) : State := withRx 0 w 0 (up .serialized)

/-- A whole frame (T-RX-1), a fragment (T-RX-2), the shortest and the longest frame (T-RX-14), and none (T-RX-8). -/
theorem witness_Rx : Ready .serialized (filled 0x30020044) ∧ RxUsable (filled 0x30020044) ∧ (filled 0x30020044).mem.wf ∧
    (filled 0x30020044).rxIndex < (filled 0x30020044).cfg.nRx ∧ (filled 0x30020044).nicOwned .rx 0 = false ∧
    GoodFrame (filled 0x30020044) 0 ∧ GoodFrame (filled 0x30000005) 0 ∧ GoodFrame (filled 0x30000600) 0 ∧
    fragmented (filled 0).cfg.layout ((filled 0x20000600).desc32 .rx 0 .opts1) = true ∧
    (up .serialized).nicOwned .rx (up .serialized).rxIndex = true := by
  refine ⟨⟨⟨rfl, by decide +kernel, fun _ => rfl⟩, rfl⟩, ?_, by decide +kernel, by decide +kernel, by decide +kernel, ?_, ?_, ?_, ?_⟩ <;>
    first | (unfold RxUsable; decide +kernel) | (unfold GoodFrame; decide +kernel) | decide +kernel
/-- Buffers the allocator may hand out, or that come to nothing (T-RX-1, T-RX-4, T-RX-5, T-SEG-13), as draws. -/
theorem witness_RxBuffers : (filled 0x30020044).rxBuf (filled 0x30020044).rxIndex = some ⟨20, ⟨0x8000, 1536, .prepared⟩⟩ ∧
    ([.replaced 9 [region 0xC000 1535]] : List Acquisition).headD .failed = .replaced 9 [region 0xC000 1535] ∧
    ([] : List Acquisition).headD .failed = .failed ∧
    9 ∉ (filled 0x30020044).heldBuffers ∧ regionsOk (filled 0x30020044).cfg [region 0xC000 1536] = true ∧
    segmentRx (filled 0x30020044).cfg [region 0xC000 1536] = some ⟨0xC000, 1536⟩ ∧
    segmentRx (filled 0x30020044).cfg [region 0xC000 1535] = none ∧
    (∀ m ∈ liveMems (filled 0x30020044), memsApart ⟨0xC000, 1536, .prepared⟩ m) ∧ frameLen (filled 0x30020044) 0 ≤ 64 ∧
    63 < frameLen (filled 0x30020044) 0 ∧ 20 ∈ (filled 0x30020044).heldBuffers ∧
    (∃ m ∈ liveMems (filled 0x30020044), ¬ memsApart ⟨0x85FF, 1536, .prepared⟩ m) := by
  unfold memsApart
  decide +kernel
/-- Draws in range, one at each end of it, and draws that are not. -/
theorem witness_Draws : DrawsInRange Cfg.vectors [.failed, .replaced 9 [region 0xC000 65535, ⟨0xFFFFFFFFFFFFFFFF, 1⟩], .copied 9 0] ∧
    ¬ DrawsInRange Cfg.vectors [.replaced 9 [region 0xC000 65536]] ∧
    ¬ DrawsInRange Cfg.vectors [.failed, .replaced 9 [⟨0xFFFFFFFFFFFFFFFF, 2⟩]] ∧
    BufsInRange Cfg.vectors (draws 8) ∧ ¬ BufsInRange Cfg.vectors ⟨none, none, none, [some ⟨20, [region 0x8000 65536]⟩]⟩ := by
  simp only [← drawsOk_iff, ← bufsOk_iff]
  decide +kernel
/-- A frame as long as its check sequence, and one byte longer than its buffer (T-RX-14). -/
theorem witness_RxBadLength : Ready .serialized (filled 0x30000004) ∧ RxUsable (filled 0x30000004) ∧
    (filled 0x30000004).nicOwned .rx 0 = false ∧ fragmented (filled 0).cfg.layout ((filled 0x30000004).desc32 .rx 0 .opts1) = false ∧
    getField (filled 0).cfg.layout.rxlen ((filled 0x30000004).desc32 .rx 0 .opts1) ≤ (filled 0).cfg.fcsLen ∧
    (filled 0).cfg.rxBufSize < getField (filled 0).cfg.layout.rxlen ((filled 0x30000601).desc32 .rx 0 .opts1) := by
  refine ⟨⟨⟨rfl, by decide +kernel, fun _ => rfl⟩, rfl⟩, ?_, by decide +kernel⟩
  unfold RxUsable; decide +kernel
/-- An iteration that ends the pass, one that handles a descriptor, and a whole pass of two deliveries. -/
theorem witness_RxPass : Ready .serialized (up .serialized) ∧ RxUsable (up .serialized) ∧ (up .serialized).mem.wf ∧
    (up .serialized).rxIndex < (up .serialized).cfg.nRx ∧ RingsOk (up .serialized) ∧ (∀ a ∈ [Acquisition.failed, .failed], a = .failed) ∧
    leads (goOn (busyWith [.rxNext true] [] (up .serialized))) (·.work == []) = true ∧
    leads (goOn (busyWith [.rxNext false] [] (filled 0x30020044))) (·.work == [.rxNext false]) = true ∧
    ends 3 (.rxIrq [.copied 9 64, .copied 10 64]) (withRx 1 0x30020044 0 (filled 0x30020044))
      (fun t => (deliveries t.history).map (·.1) == [9, 10]) = true ∧
    ends 8 (.rxIrq [.failed, .failed]) (filled 0x30020044) (fun t => deliveries t.history == [] && t.nicOwned .rx 0 && t.rxIndex == 1) = true ∧
    DrawsInRange (up .serialized).cfg [.copied 9 64, .copied 10 64] :=
  ⟨ready_up _, (usable_up _).2.1, wf_up _, by decide +kernel, rings_up _, by decide, by decide +kernel, by decide +kernel, by decide +kernel,
    by decide +kernel, by rw [← drawsOk_iff]; decide +kernel⟩
theorem witness_RxDecoders : Ready .serialized (up .serialized) := ready_up _

/-! #### Monitor, interrupts, control -/

/-- The link down. -/
def linkLost : State := { up .serialized with link := ⟨false, ⟨.mbit10, .half, false, false⟩⟩, txqEnabled := false }

/-- A tick from reset of the link up, from link up to down, and with no transition; its parts, each way they go. -/
theorem witness_TimerTick : Ready .serialized (inFlight .serialized) ∧ TxUsable (inFlight .serialized) ∧ RxUsable (inFlight .serialized) ∧
    StUsable (inFlight .serialized) ∧ CursorsOk (inFlight .serialized) ∧ HandleInv (inFlight .serialized) ∧
    NothingBusy (inFlight .serialized) ∧
    (linkLookup (inFlight .serialized).cfg 0).up = false ∧ (linkLookup (inFlight .serialized).cfg 1).up = true ∧
    (inFlight .serialized).link.up = true ∧ linkLost.link.up = false ∧
    leaves (.timerTick 1) (inFlight .serialized) (fun t => t.work == [.tickRelease, .tickCheck]) = true ∧
    leaves (.timerTick 0) (inFlight .serialized) (fun _ => true) = true ∧ leaves (.timerTick 1) linkLost (·.link.up) = true ∧
    (inFlight .serialized).txPending = some 30 ∧ (inFlight .serialized).nicTxBusy ≠ some 30 ∧
    (reading .serialized).nicTxBusy = some 30 ∧ (up .serialized).txPending = none ∧
    leaves .txDlchk (waiting 0) (·.result == .noReset) = true ∧ leaves .txDlchk (waiting 2) (·.result == .didReset) = true ∧
    leaves .statsReq (inFlight .serialized) (fun _ => true) = true :=
  ⟨ready_inFlight _, (usable_inFlight _).1, (usable_inFlight _).2.1, (usable_inFlight _).2.2, cursors_inFlight _, handles_inFlight _,
    idle_inFlight _, by decide +kernel, by decide +kernel, rfl, rfl, by decide +kernel, by decide +kernel, by decide +kernel, rfl,
    by decide, rfl, rfl, by decide +kernel, by decide +kernel, by decide +kernel⟩
theorem witness_LinkUp : Ready .serialized linkLost ∧ linkLost.link.up = false ∧ Ready .serialized (up .serialized) ∧
    (up .serialized).link.up = true := ⟨⟨⟨rfl, by decide +kernel, fun _ => rfl⟩, rfl⟩, rfl, ready_up _, rfl⟩
theorem witness_LinkDown : Ready .serialized (inFlight .serialized) ∧ TxUsable (inFlight .serialized) ∧ (inFlight .serialized).mem.wf ∧
    (inFlight .serialized).link.up = true ∧ (inFlight .serialized).txSlot.length = (inFlight .serialized).cfg.nTx ∧
    HandleInv (inFlight .serialized) ∧ NothingBusy (inFlight .serialized) ∧ ¬ NothingBusy (reading .serialized) ∧
    faultWhole 1 .linkDown (reading .serialized) = some .freedMemoryRead ∧ linkLost.link.up = false ∧
    leaves .linkDown linkLost (·.result == .refused .precondition) = true :=
  ⟨ready_inFlight _, (usable_inFlight _).1, wf_inFlight _, rfl, by decide +kernel, handles_inFlight _, idle_inFlight _, busy_reading _,
    by decide +kernel, rfl, by decide +kernel⟩
theorem witness_FullReset : Ready .serialized (inFlight .serialized) ∧ TxUsable (inFlight .serialized) ∧ RxUsable (inFlight .serialized) ∧
    (inFlight .serialized).mem.wf ∧ (inFlight .serialized).txSlot.length = (inFlight .serialized).cfg.nTx ∧
    HandleInv (inFlight .serialized) ∧ RingsOk (inFlight .serialized) ∧
    ends 1 .resetFull (inFlight .serialized) (·.result == .none) = true :=
  ⟨ready_inFlight _, (usable_inFlight _).1, (usable_inFlight _).2.1, wf_inFlight _, by decide +kernel, handles_inFlight _,
    rings_inFlight _, by decide +kernel⟩
theorem witness_Stats : Ready .serialized (up .serialized) ∧ (up .serialized).stMem = some ⟨0x30000, 64, .prepared⟩ ∧
    (up .serialized).statsPending = false ∧ ({ up .serialized with statsPending := true } : State).statsPending = true :=
  ⟨ready_up _, rfl, rfl, rfl⟩
/-- The block in flight with causes pending. -/
def interrupted (p : CauseSet) : State := { inFlight .serialized with irqPending := p }

/-- No cause, a bus error beside another, and every other cause; the passes as tasks. -/
theorem witness_Irq : (∀ p, Ready .serialized (interrupted p) ∧ TxUsable (interrupted p) ∧ RxUsable (interrupted p) ∧
      HandleInv (interrupted p)) ∧
    (interrupted ⟨false, false, false, false⟩).irqPending.busError = false ∧
    (interrupted ⟨true, false, true, false⟩).irqPending.busError = true ∧
    (interrupted ⟨true, true, false, true⟩).irqPending.busError = false ∧
    leads (runTask (.rxNext false) (inFlight .serialized)) (fun _ => true) = true ∧
    leads (runTask .txBegin (inFlight .serialized)) (fun _ => true) = true ∧
    leads (runTask .statsDone (inFlight .serialized)) (fun _ => true) = true := by
  have hh := handles_inFlight .serialized
  have ht : ∀ p, txProblem (interrupted p) = txProblem (inFlight .serialized) := fun _ => rfl
  have hr : ∀ p, rxProblem (interrupted p) = rxProblem (inFlight .serialized) := fun p =>
    (show ∀ s : State, rxProblem { s with irqPending := p } = rxProblem s from fun _ => rfl) _
  exact ⟨fun p => ⟨⟨⟨rfl, (ready_inFlight .serialized).1.2, fun _ => rfl⟩, rfl⟩, (ht p).trans (usable_inFlight _).1,
    (hr p).trans (usable_inFlight _).2.1,
    ⟨hh.packetsOnce, hh.packetsHeld, hh.buffersOnce, hh.buffersHeld⟩⟩, rfl, rfl, rfl, by decide +kernel, by decide +kernel,
    by decide +kernel⟩

/-- The buffers of `draws`, with the segments they yield. -/
def drawnBufs : List (BufferDraw × Segment) := (List.range 8).map fun i =>
  (⟨20 + i, [region (0x8000 + 0x800 * i) 1536]⟩, ⟨BitVec.ofNat 64 (0x8000 + 0x800 * i), 1536⟩)

/-- Draws that all succeed, for all eight buffers and for the first `n`. -/
theorem takes_draws (n : Nat) (hn : n ≤ 8) : EnableTakes (draws 8) Cfg.vectors 0x10000 0x20000 0x30000 (drawnBufs.take n) := by
  refine ⟨⟨rfl, by decide, by decide⟩, ⟨rfl, by decide, by decide⟩, ⟨rfl, by decide, by decide⟩, ?_, ?_, ?_, ?_⟩
  · revert n; decide +kernel
  · intro b hb
    have : ∀ b ∈ drawnBufs, regionsOk Cfg.vectors b.1.regions = true ∧ segmentRx Cfg.vectors b.1.regions = some b.2 := by decide +kernel
    exact this b (List.mem_of_mem_take hb)
  · have : (drawnBufs.map fun b => b.1.h).Nodup := by decide +kernel
    rw [List.map_take]
    exact this.sublist (List.take_sublist ..)
  · unfold memsApart; revert n; decide +kernel

theorem rings_passing : RingsOk (passing (inFlight .serialized)) where
  apart := by unfold MemsApart memsApart; decide +kernel
  txLen := fun m h => by cases h; rfl
  rxLen := fun m h => by cases h; rfl
  endTx := by unfold ringEndOk; decide +kernel
  endRx := by unfold ringEndOk; decide +kernel
  idle := by unfold isOutstanding; decide +kernel
  unsub := by unfold isOutstanding; decide +kernel
  bufs := by decide +kernel
  armed := by decide +kernel
  whole := by decide +kernel
  seen := fun x h => by cases h
  kept := fun x h => by cases h

theorem handles_passing : HandleInv (passing (inFlight .serialized)) where
  packetsOnce := by decide +kernel
  packetsHeld := by decide +kernel
  buffersOnce := by decide +kernel
  buffersHeld := by decide +kernel

/-- The statistics memory is what an operation that may reset needs only where its address is passed; with it and
without it. -/
theorem witness_InitUsable : (∀ s, s.cfg = Cfg.vectors → InitUsable s) ∧ (inFlight .serialized).cfg = Cfg.vectors ∧
    (passing (inFlight .serialized)).cfg.reg.statsAtInit = true ∧ Ready .serialized (passing (inFlight .serialized)) ∧
    TxUsable (passing (inFlight .serialized)) ∧ RxUsable (passing (inFlight .serialized)) ∧
    InitUsable (passing (inFlight .serialized)) ∧ ¬ InitUsable { passing (inFlight .serialized) with stMem := none } ∧
    (passing (inFlight .serialized)).mem.wf ∧
    (passing (inFlight .serialized)).txSlot.length = (passing (inFlight .serialized)).cfg.nTx ∧
    HandleInv (passing (inFlight .serialized)) ∧ RingsOk (passing (inFlight .serialized)) ∧
    ends 1 .resetFull (passing (inFlight .serialized)) (·.result == .none) = true ∧
    leaves .txDlchk (passing (waiting 2)) (·.result == .didReset) = true := by
  refine ⟨fun s hs h => (by rw [hs] at h; cases h), rfl, rfl, ⟨⟨rfl, by decide +kernel, fun _ => rfl⟩, rfl⟩,
    (by unfold TxUsable; decide +kernel), (by unfold RxUsable; decide +kernel), fun _ => (by unfold StUsable; decide +kernel),
    fun h => absurd (h rfl) (by unfold StUsable; decide +kernel), by decide +kernel, by decide +kernel,
    handles_passing, rings_passing, by decide +kernel, by decide +kernel⟩

theorem witness_Enable : Acting .host State.reset ∧ State.reset.enabled = false ∧ State.reset.mem.wf ∧
    EnableTakes (draws 8) State.reset.cfg 0x10000 0x20000 0x30000 drawnBufs ∧ drawnBufs.length = State.reset.cfg.nRx :=
  ⟨⟨rfl, by decide +kernel, fun _ => rfl⟩, rfl, by decide, takes_draws 8 (Nat.le_refl 8), by decide +kernel⟩
/-- Each allocation in turn: no base, a misaligned base, no buffer, a buffer in two pieces. -/
theorem witness_FailedEnable : AllocFails none 256 256 ∧ AllocFails (some 0x10080) 256 256 ∧
    AllocFails (some 0xFFFFFFFFFFFFFF00) 257 256 ∧ AllocGives (some 0xFFFFFFFFFFFFFF00) 256 256 0xFFFFFFFFFFFFFF00 ∧
    memsApart ⟨0x20000, 128, .prepared⟩ ⟨0x10000, 256, .prepared⟩ ∧ ¬ memsApart ⟨0x100FF, 128, .prepared⟩ ⟨0x10000, 256, .prepared⟩ ∧
    20 ∈ (drawnBufs.take 5).map (fun b => b.1.h) ∧
    EnableTakes (draws 8) State.reset.cfg 0x10000 0x20000 0x30000 (drawnBufs.take 5) ∧
    (drawnBufs.take 5).length < State.reset.cfg.nRx ∧ (draws 5).bufs.getD (drawnBufs.take 5).length none = none ∧
    segmentRx State.reset.cfg [region 0x8000 1024, region 0xA000 512] = none := by
  refine ⟨fun a h => (by cases h), fun a h => ?_, fun a h => ?_, ⟨rfl, by decide, by decide⟩, .inr (by decide),
    (by unfold memsApart; decide), by decide +kernel, takes_draws 5 (by decide),
    by decide +kernel, by decide +kernel, by decide +kernel⟩ <;> cases h <;> decide +kernel
theorem witness_Disable : Acting .host (inFlight .host) ∧ (inFlight .host).enabled = true ∧ TxUsable (inFlight .host) ∧
    RxUsable (inFlight .host) ∧ StUsable (inFlight .host) ∧ (inFlight .host).mem.wf ∧
    (inFlight .host).txSlot.length = (inFlight .host).cfg.nTx ∧ HandleInv (inFlight .host) :=
  ⟨(ready_inFlight _).1, rfl, (usable_inFlight _).1, (usable_inFlight _).2.1, (usable_inFlight _).2.2, wf_inFlight _, by decide +kernel,
    handles_inFlight _⟩

/-! #### The NIC and the words -/

/-- A word of before a ring clear that the NIC kept, of a packet since freed. -/
def kept : Seen := ⟨.tx, 0, 0xB000003C, 0x1000, some 31⟩
def remembering : State := { up .nic with nicSeen := [kept] }

/-- A descriptor the NIC owns, a word it saw before a ring clear, with and without a read of the freed packet; none; a
block that is disabled. -/
theorem witness_NicTxDone : Acting .nic (inFlight .nic) ∧ TxUsable (inFlight .nic) ∧ 1 < (inFlight .nic).cfg.nTx ∧ (inFlight .nic).mem.wf ∧
    TxDoneReads (inFlight .nic) 1 ⟨true, true, none⟩ ⟨.tx, 1, 0xB000003C, 0x1000, some 32⟩ ∧
    TxDoneReads remembering 0 ⟨false, true, some ⟨0, false⟩⟩ kept ∧
    ¬ ReadsFreedPacket remembering.cfg ⟨false, true, some ⟨0, false⟩⟩ kept ∧
    ReadsFreedPacket remembering.cfg ⟨true, true, some ⟨0, false⟩⟩ kept ∧ ReadsFreedPacket remembering.cfg ⟨false, true, some ⟨0, true⟩⟩ kept ∧
    (∀ x, ¬ TxDoneReads (inFlight .nic) 2 ⟨false, true, none⟩ x) ∧ ¬ TxUsable { State.reset with caller := .nic } := by
  refine ⟨(ready_inFlight _).1, (usable_inFlight _).1, by decide +kernel, wf_inFlight _, .inl ⟨rfl, by decide +kernel, by decide +kernel⟩,
    .inr ⟨_, rfl, rfl⟩, ?_, ⟨_, rfl, .inr ⟨rfl, by decide, by decide⟩⟩, ⟨_, rfl, .inl rfl⟩, fun x hx => ?_, by unfold TxUsable; decide⟩
  · rintro ⟨y, hy, h | h⟩ <;> cases hy
    · cases h
    · cases h.1
  · obtain ⟨-, h, -⟩ | ⟨y, h, -⟩ := hx
    · have hn : (inFlight .nic).nicOwned .tx 2 = false := by decide +kernel
      rw [hn] at h
      cases h
    · cases h
/-- An index past the ring is refused. A frame of five bytes and a status with bits all around it, in the last descriptor; a frame as long as the buffer;
a frame too short; a buffer at the end of the address space, and one whose last byte is the first of a ring; a word
of before a ring clear with the address of now and with the one then. -/
theorem witness_NicRxFill : Acting .nic (up .nic) ∧ ringProblem (up .nic).cfg (up .nic).rxMem (up .nic).cfg.nRx = none ∧
    (up .nic).cfg.nRx = 8 ∧ leaves (.nicRxFill 8 [] ⟨true, true, 0, 0⟩ ⟨true, none⟩) (up .nic) (·.result == .refused .operandRange) = true ∧
    7 < (up .nic).cfg.nRx ∧ (up .nic).mem.wf ∧ RxFillReads (up .nic) 7 ⟨true, none⟩ 0xC0000600 0xB800 ∧
    getField (up .nic).cfg.layout.rxlen 0xC0000600 = 1536 ∧ (up .nic).cfg.fcsLen < ([1, 2, 3, 4, 5] : List Byte).length ∧
    ClearOfRings (up .nic) 0xB800 1536 ∧ ClearOfRings (up .nic) 0xFFF0 16 ∧ ¬ ClearOfRings (up .nic) 0xFFF1 16 ∧
    2 ^ 64 < 0xFFFFFFFFFFFFFFFF + 2 ∧ 0xFFFFFFFFFFFFFFFF + 1 ≤ 2 ^ 64 ∧
    RxFillReads { up .nic with nicSeen := [⟨.rx, 7, 0xC0000100, 0x9000, none⟩] } 7 ⟨true, some ⟨0, none⟩⟩ 0xC0000100 0xB800 ∧
    RxFillReads { up .nic with nicSeen := [⟨.rx, 7, 0xC0000100, 0x9000, none⟩] } 7 ⟨true, some ⟨0, some 0⟩⟩ 0xC0000100 0x9000 := by
  refine ⟨(ready_up _).1, by decide +kernel, by decide +kernel, by decide +kernel, by decide +kernel, wf_up _, .inl ⟨rfl, by decide +kernel, by decide +kernel, by decide +kernel⟩,
    by decide +kernel, by decide +kernel, ?_, ?_, ?_, by decide, by decide,
    .inr (.inl ⟨0, ⟨.rx, 7, 0xC0000100, 0x9000, none⟩, rfl, rfl, rfl, by decide +kernel⟩),
    .inr (.inr ⟨0, 0, ⟨.rx, 7, 0xC0000100, 0x9000, none⟩, ⟨.rx, 7, 0xC0000100, 0x9000, none⟩, rfl, Nat.le_refl 0, rfl, rfl, rfl, rfl⟩)⟩
  · rintro m (h | h) <;> cases h <;> decide
  · rintro m (h | h) <;> cases h <;> decide
  · intro h
    have := h ⟨0x10000, 256, .prepared⟩ (.inl rfl)
    revert this
    decide
/-- The window open and closed; disabled. -/
theorem witness_NicRaises : Acting .nic (up .nic) ∧ ({ up .nic with nicTxBusy := some 31 } : State).nicTxBusy = some 31 ∧
    (up .nic).enabled = true ∧ (up .nic).nicTxBusy = none ∧ Acting .nic { State.reset with caller := .nic } ∧
    Acting .serialized (up .serialized) :=
  ⟨(ready_up _).1, rfl, rfl, rfl, ⟨rfl, by decide +kernel, fun _ => rfl⟩, (ready_up _).1⟩
theorem witness_FormatWords : isFormat (.rxd1V2 true true true true true true true true 0x3FFF 0x0FF80000) = true ∧
    WellFormed (.rxd1V2 true true true true true true true true 0x3FFF 0x0FF80000) = true ∧
    encode (.rxd1V2 true true true true true true true true 0x3FFF 0x0FF80000) = .word .rxd1V2 0x7FFFFFFF ∧
    cfgWf State.reset.cfg = true ∧ State.reset.cfg.layout = Layout.l0 := by decide +kernel

end Sys2Proof.Machine.Tests
end

section
/-! SUPPORT. Towards O11: the handles in the slots and in `tx_pending`, each in one place and held by the engine
(R8), and what every move of one does to them. -/

namespace Sys2Proof.Machine

-- One declaration at a time: each thread of the elaborator reserves a stack of its own.
set_option Elab.async false

/-! ### Handles that stand once and are held -/

/-- The handles of `l` stand once each, and each is held. -/
def Owned (l : List Handle) (held : Handle → Prop) : Prop := l.Nodup ∧ ∀ h ∈ l, held h

theorem Owned.nil (held : Handle → Prop) : Owned [] held := ⟨List.nodup_nil, by simp⟩

theorem Owned.perm {l m : List Handle} {held : Handle → Prop} (h : Owned l held) (hp : l.Perm m) : Owned m held :=
  ⟨hp.nodup_iff.1 h.1, fun x hx => h.2 x (hp.mem_iff.2 hx)⟩

theorem Owned.mono {l : List Handle} {held held' : Handle → Prop} (h : Owned l held)
    (hm : ∀ x ∈ l, held x → held' x) : Owned l held' := ⟨h.1, fun x hx => hm x hx (h.2 x hx)⟩

/-- One more handle, held and nowhere else. -/
theorem Owned.cons {l : List Handle} {held : Handle → Prop} {h : Handle} (ho : Owned l held) (hn : h ∉ l)
    (hh : held h) : Owned (h :: l) held :=
  ⟨List.nodup_cons.2 ⟨hn, ho.1⟩, fun x hx => (List.mem_cons.1 hx).elim (fun e => e ▸ hh) (ho.2 x)⟩

theorem Owned.tail {l : List Handle} {held : Handle → Prop} {h : Handle} (ho : Owned (h :: l) held) : Owned l held :=
  ⟨(List.nodup_cons.1 ho.1).2, fun x hx => ho.2 x (List.mem_cons_of_mem _ hx)⟩

/-- A handle that leaves its place may leave the engine: it stands nowhere else. -/
theorem Owned.release {l : List Handle} {held held' : Handle → Prop} {h : Handle} (ho : Owned (h :: l) held)
    (hm : ∀ x, x ≠ h → held x → held' x) : Owned l held' :=
  ho.tail.mono fun x hx => hm x fun e => (List.nodup_cons.1 ho.1).1 (e ▸ hx)

/-- Emptying a slot takes what it yields out of what the slots yield. -/
theorem filterMap_perm_set {α β : Type} (f : α → Option β) {z : α} (hz : f z = none) {l : List α} {i : Nat}
    (hi : i < l.length) : (l.filterMap f).Perm ((f l[i]).toList ++ (l.set i z).filterMap f) := by
  induction l generalizing i with
  | nil => cases hi
  | cons a l ih =>
    cases i with
    | zero => cases ha : f a <;> simp [hz, ha]
    | succ i =>
      have h := ih (i := i) (by simpa using hi)
      cases ha : f a with
      | none => simpa [ha] using h
      | some b => simpa [ha] using (h.cons b).trans List.perm_middle.symm

/-- A slot that is `some` stands in the list of slots. -/
theorem getElem_of_getD {α : Type} {l : List (Option α)} {i : Nat} {a : α} (h : l.getD i none = some a) :
    ∃ hi : i < l.length, l[i] = some a := by
  rw [List.getD_eq_getElem?_getD] at h
  rcases lt_or_ge i l.length with hi | hi
  · exact ⟨hi, by simpa [hi] using h⟩
  · simp [hi] at h

/-- Taking the handle out of a slot. -/
theorem filterMap_take {α : Type} (g : α → Handle) {l : List (Option α)} {i : Nat} {a : α}
    (h : l.getD i none = some a) :
    (l.filterMap (Option.map g)).Perm (g a :: (l.set i none).filterMap (Option.map g)) := by
  obtain ⟨hi, ha⟩ := getElem_of_getD h
  simpa [ha] using filterMap_perm_set (Option.map g) (z := none) rfl hi

/-- Putting a handle that is held and stands nowhere into a slot, in place of what is there, if anything. -/
theorem Owned.store {α : Type} {g : α → Handle} {l : List (Option α)} {m : List Handle} {held : Handle → Prop}
    (ho : Owned (l.filterMap (Option.map g) ++ m) held) (i : Nat) {a : α}
    (hn : g a ∉ l.filterMap (Option.map g) ++ m) (hh : held (g a)) :
    Owned ((l.set i (some a)).filterMap (Option.map g) ++ m) held := by
  rcases lt_or_ge i l.length with hi | hi
  · have hole := (filterMap_perm_set (Option.map g) (z := none) rfl hi).append_right m
    have hset := (filterMap_take g (l := l.set i (some a)) (i := i) (a := a) (by simp [hi])).append_right m
    rw [List.set_set] at hset
    have hrest : Owned ((l.set i none).filterMap (Option.map g) ++ m) held := by
      have h := ho.perm hole
      cases hl : Option.map g l[i] with
      | none => simpa [hl] using h
      | some b => rw [hl] at h; exact h.tail
    refine (hrest.cons (fun hm => hn (hole.mem_iff.2 ?_)) hh).perm hset.symm
    rw [List.append_assoc]
    exact List.mem_append_right _ hm
  · rwa [List.set_eq_of_length_le hi]

/-! ### The handles of a state -/

/-- `HandleInv` as two lists of handles; every update of another field keeps it by unfolding. -/
def HandlesOwned (s : State) : Prop :=
  Owned (packetsIn s) (fun h => s.holdsPacket h = true) ∧ Owned (buffersIn s) (· ∈ s.heldBuffers)

theorem handleInv_iff {s : State} : HandleInv s ↔ HandlesOwned s :=
  ⟨fun h => ⟨⟨h.packetsOnce, h.packetsHeld⟩, h.buffersOnce, h.buffersHeld⟩,
    fun h => ⟨h.1.1, h.1.2, h.2.1, h.2.2⟩⟩

/-- Only five fields say where the handles stand and which the engine holds. -/
theorem HandlesOwned.congr {s t : State} (h : HandlesOwned s) (h1 : t.txSlot = s.txSlot := by simp)
    (h2 : t.txPending = s.txPending := by simp) (h3 : t.heldPackets = s.heldPackets := by simp)
    (h4 : t.rxSlot = s.rxSlot := by simp) (h5 : t.heldBuffers = s.heldBuffers := by simp) : HandlesOwned t := by
  simp only [HandlesOwned, packetsIn, buffersIn, State.holdsPacket, h1, h2, h3, h4, h5] at h ⊢
  exact h

theorem holdsPacket_dropPacket {s : State} {h x : Handle} :
    (dropPacket h s).holdsPacket x = true ↔ s.holdsPacket x = true ∧ x ≠ h := by
  show (s.heldPackets.filter (·.h != h)).any (·.h == x) = true ↔ _
  rw [holdsPacket_filter, Bool.and_eq_true, decide_eq_true_eq]
  rfl

theorem holdsPacket_holdPacket {s : State} {h x : Handle} :
    (holdPacket h s).holdsPacket x = true ↔ x = h ∨ s.holdsPacket x = true := by
  rw [State.holdsPacket, holdPacket_heldPackets, List.any_cons, Bool.or_eq_true, beq_iff_eq, eq_comm]
  rfl

@[simp] theorem preparePacket_holdsPacket (h x : Handle) (s : State) :
    (preparePacket h s).holdsPacket x = s.holdsPacket x := by
  show (s.heldPackets.map _).any _ = s.heldPackets.any _
  rw [List.any_map]
  congr 1
  funext p
  rw [Function.comp_apply]
  split <;> rfl

/-- A packet the engine holds besides those in its slots may be given up. -/
theorem HandlesOwned.dropPacket {s : State} (hs : HandlesOwned s) {h : Handle} (hn : h ∉ packetsIn s) :
    HandlesOwned (dropPacket h s) :=
  ⟨hs.1.mono fun _ hx hh => holdsPacket_dropPacket.2 ⟨hh, fun e => hn (e ▸ hx)⟩, hs.2⟩

theorem HandlesOwned.holdPacket {s : State} (hs : HandlesOwned s) (h : Handle) : HandlesOwned (holdPacket h s) :=
  ⟨hs.1.mono fun _ _ hh => holdsPacket_holdPacket.2 (.inr hh), hs.2⟩

theorem HandlesOwned.preparePacket {s : State} (hs : HandlesOwned s) (h : Handle) :
    HandlesOwned (preparePacket h s) :=
  ⟨hs.1.mono fun x _ hh => (preparePacket_holdsPacket h x s).trans hh, hs.2⟩

/-- The packets of a state with the one of slot `i` in front. -/
theorem packetsIn_perm {s : State} {i : Nat} {h : Handle} (hi : s.txPkt i = some h) :
    (packetsIn s).Perm (h :: packetsIn { s with txSlot := s.txSlot.set i none }) := by
  have hp := filterMap_take id (l := s.txSlot) hi
  simp only [Option.map_id] at hp
  exact hp.append_right _

/-- The packet of a slot leaves the engine. -/
theorem HandlesOwned.dropSlot {s : State} (hs : HandlesOwned s) {i : Nat} {h : Handle} (hi : s.txPkt i = some h) :
    HandlesOwned { Machine.dropPacket h s with txSlot := s.txSlot.set i none } :=
  ⟨(hs.1.perm (packetsIn_perm hi)).release fun _ hx hh => holdsPacket_dropPacket.2 ⟨hh, hx⟩, hs.2⟩

/-- The packets of a state with the one held back in front. -/
theorem packetsIn_pending {s : State} {h : Handle} (hp : s.txPending = some h) :
    (packetsIn s).Perm (h :: packetsIn { s with txPending := none }) := by
  simp only [packetsIn, hp, Option.toList_some, Option.toList_none, List.append_nil]
  exact List.perm_append_singleton _ _

/-- The held-back packet leaves the engine. -/
theorem HandlesOwned.dropPending {s : State} (hs : HandlesOwned s) {h : Handle} (hp : s.txPending = some h) :
    HandlesOwned { Machine.dropPacket h s with txPending := none } :=
  ⟨(hs.1.perm (packetsIn_pending hp)).release fun _ hx hh => holdsPacket_dropPacket.2 ⟨hh, hx⟩, hs.2⟩

/-- The packet of a slot is held back (R149). -/
theorem HandlesOwned.holdBack {s : State} (hs : HandlesOwned s) {i : Nat} {h : Handle} (hi : s.txPkt i = some h)
    (hp : s.txPending = none) : HandlesOwned { s with txPending := some h, txSlot := s.txSlot.set i none } := by
  refine ⟨hs.1.perm ((packetsIn_perm hi).trans ?_), hs.2⟩
  rw [packetsIn, packetsIn, hp]
  simp only [Option.toList_some, Option.toList_none, List.append_nil]
  exact (List.perm_append_singleton _ _).symm

/-- A packet the engine holds and has nowhere yet is stored in a slot (R145 step 6). -/
theorem HandlesOwned.storePacket {s : State} (hs : HandlesOwned s) (i : Nat) {h : Handle} (hn : h ∉ packetsIn s)
    (hh : s.holdsPacket h = true) : HandlesOwned { s with txSlot := s.txSlot.set i (some h) } := by
  have ho : Owned (s.txSlot.filterMap (Option.map id) ++ s.txPending.toList) (fun h => s.holdsPacket h = true) := by
    rw [Option.map_id]; exact hs.1
  have hst := ho.store i (a := h) (by rw [Option.map_id]; exact hn) hh
  rw [Option.map_id] at hst
  exact ⟨hst, hs.2⟩

/-- The buffers of a state with the one of slot `i` in front. -/
theorem buffersIn_perm {s : State} {i : Nat} {b : RxBuffer} (hi : s.rxBuf i = some b) :
    (buffersIn s).Perm (b.h :: buffersIn { s with rxSlot := s.rxSlot.set i none }) :=
  filterMap_take RxBuffer.h hi

/-- The buffer of a slot leaves the engine. -/
theorem HandlesOwned.dropBuffer {s : State} (hs : HandlesOwned s) {i : Nat} {b : RxBuffer}
    (hi : s.rxBuf i = some b) :
    HandlesOwned { s with rxSlot := s.rxSlot.set i none, heldBuffers := s.heldBuffers.erase b.h } :=
  ⟨hs.1, (hs.2.perm (buffersIn_perm hi)).release fun _ hx hh => (List.mem_erase_of_ne hx).2 hh⟩

theorem handleFresh_iff {s : State} {h : Handle} : handleFresh s h = true ↔ h ∉ s.heldBuffers := by
  simp [handleFresh]

/-- A buffer the engine did not hold is taken and stored in a slot. -/
theorem HandlesOwned.storeBuffer {s : State} (hs : HandlesOwned s) (i : Nat) {b : RxBuffer}
    (hf : b.h ∉ s.heldBuffers) :
    HandlesOwned { s with rxSlot := s.rxSlot.set i (some b), heldBuffers := b.h :: s.heldBuffers } := by
  have ho : Owned (buffersIn s ++ []) (· ∈ b.h :: s.heldBuffers) := by
    rw [List.append_nil]
    exact hs.2.mono fun _ _ hh => List.mem_cons_of_mem _ hh
  have hst := Owned.store (g := RxBuffer.h) ho i (a := b)
    (by rw [List.append_nil]; exact fun hm => hf (hs.2.2 _ hm)) List.mem_cons_self
  rw [List.append_nil] at hst
  exact ⟨hs.1, hst⟩

/-- A buffer takes the place of the one in its slot, which leaves the engine (R172). -/
theorem HandlesOwned.replaceBuffer {s : State} (hs : HandlesOwned s) {i : Nat} {old b : RxBuffer}
    (hi : s.rxBuf i = some old) (hf : b.h ∉ s.heldBuffers) :
    HandlesOwned { s with rxSlot := s.rxSlot.set i (some b), heldBuffers := (b.h :: s.heldBuffers).erase old.h } := by
  have hm : old.h ∈ s.heldBuffers := hs.2.2 _ ((buffersIn_perm hi).mem_iff.2 List.mem_cons_self)
  have hst := (hs.dropBuffer hi).storeBuffer i (b := b) fun h => hf (List.mem_of_mem_erase h)
  have hne : b.h ≠ old.h := fun e => hf (e ▸ hm)
  rw [List.erase_cons_tail (by simpa using hne)]
  simpa only [List.set_set] using hst

end Sys2Proof.Machine
end

section
/-! SUPPORT. O11: every step keeps each handle in one place and held by the engine, and none frees what the engine
does not hold (R8). A part of a step is taken through `EndsIn`, which says both of it at once. -/

namespace Sys2Proof.Machine

-- One declaration at a time: each thread of the elaborator reserves a stack of its own.
set_option Elab.async false

/-! ### What a part of a step ends in -/

/-- Where it answers next, a part of a step ends in a state with `Q`; and where `ok` holds it does not fault by
freeing what the engine does not hold (R8, U12). -/
def EndsIn {α : Type} (ok : Prop) (Q : α → Prop) : Out α → Prop
  | .next a => Q a
  | .fault f => ok → f ≠ .freeNotHeld
  | .refused _ => True

section
variable {α β : Type} {ok : Prop} {P Q : α → Prop} {x : Out α}

theorem EndsIn.of_eq_next (h : EndsIn ok Q x) {a : α} (e : x = .next a) : Q a := by subst e; exact h

theorem EndsIn.ne_fault (h : EndsIn ok Q x) (hok : ok) : x ≠ .fault .freeNotHeld := by
  rintro rfl; exact h hok rfl

theorem EndsIn.next {a : α} (h : Q a) : EndsIn ok Q (.next a) := h

theorem EndsIn.imp (h : EndsIn ok P x) (hi : ∀ a, x = .next a → P a → Q a) : EndsIn ok Q x := by
  cases x with
  | next a => exact hi a rfl h
  | fault f => exact h
  | refused r => trivial

/-- A sequence ends in what its second part ends in. -/
theorem EndsIn.andThen {f : α → Out β} {R : β → Prop} (h : EndsIn ok P x)
    (hf : ∀ a, x = .next a → P a → EndsIn ok R (f a)) : EndsIn ok R (andThen x f) := by
  cases x with
  | next a => exact hf a rfl h
  | fault f => exact h
  | refused r => trivial

end

/-- A guarded operation records a refusal or ends in what its body ends in. -/
theorem EndsIn.guardedBy {ok : Prop} {Q : State → Prop} {refusal : RefusedReason → State → State}
    {agents : List Agent} {need : Need} {s : State} {body : State → Out State} (hr : ∀ r, Q (refusal r s))
    (hb : Admitted agents need s → EndsIn ok Q (body s)) : EndsIn ok Q (guardedBy refusal agents need s body) := by
  rw [Machine.guardedBy]
  split
  · exact hr _
  · rename_i hn
    split
    · trivial
    · exact hb ⟨hn, by simpa using ‹¬ s.overlaps = true›⟩

theorem HandlesOwned.guarded {ok : Prop} {agents : List Agent} {need : Need} {s : State} {body : State → Out State}
    (hs : HandlesOwned s) (hb : Admitted agents need s → EndsIn ok HandlesOwned (body s)) :
    EndsIn ok HandlesOwned (guarded agents need s body) := EndsIn.guardedBy (fun _ => hs.congr) hb

section
variable {ok : Prop} {s : State}

/-! ### Transmit packets -/

/-- Freeing a packet the engine holds drops it. -/
theorem freePacket_ends {h : Handle} (hh : s.holdsPacket h = true) :
    EndsIn ok (fun t => ∃ hist, t = { dropPacket h s with history := hist }) (freePacket h s) := by
  rw [freePacket_held hh]
  exact ⟨_, rfl⟩

/-- So does freeing one the NIC may still be reading, but for the fault of U14. -/
theorem freeSent_ends {h : Handle} (hh : s.holdsPacket h = true) :
    EndsIn ok (fun t => ∃ hist, t = { dropPacket h s with history := hist }) (freeSent h s) := by
  rw [freeSent]
  split
  · exact fun _ => by decide
  · exact freePacket_ends hh

/-- The held-back packet, if any, is freed (R116, R149, R185). -/
theorem freePending_ends (hs : HandlesOwned s) :
    EndsIn ok (fun t => HandlesOwned { t with txPending := none }) (freeSentOpt s.txPending s) := by
  cases hp : s.txPending with
  | none =>
    rw [freeSentOpt_none]
    exact hs.congr rfl hp.symm
  | some h =>
    have hh : s.holdsPacket h = true := hs.1.2 h ((packetsIn_pending hp).mem_iff.2 List.mem_cons_self)
    refine (freeSent_ends hh).imp ?_
    rintro t - ⟨hist, rfl⟩
    exact hs.dropPending hp

theorem clearTxOne_ends (i : Nat) (hs : HandlesOwned s) : EndsIn ok HandlesOwned (clearTxOne i s) := by
  have hw : HandlesOwned (clearTxWords i s) := by rw [clearTxWords_eq]; exact hs
  rw [clearTxOne_eq]
  generalize clearTxWords i s = w at hw ⊢
  split
  · rename_i h hi
    have hh : w.holdsPacket h = true := hw.1.2 h ((packetsIn_perm hi).mem_iff.2 List.mem_cons_self)
    refine (freeSent_ends hh).andThen ?_
    rintro t - ⟨hist, rfl⟩
    exact hw.dropSlot hi
  · exact hw

theorem clearTxLoop_ends (k i : Nat) (hs : HandlesOwned s) : EndsIn ok HandlesOwned (clearTxLoop k i s) := by
  induction k generalizing i s with
  | zero => exact hs
  | succ k ih => exact (clearTxOne_ends i hs).andThen fun _ _ ht => ih (i + 1) ht

theorem clearTx_ends (hs : HandlesOwned s) : EndsIn ok HandlesOwned (clearTx s) := by
  refine (clearTxLoop_ends _ _ hs).andThen fun t _ ht => (freePending_ends ht).andThen fun u _ hu => ?_
  exact hu.congr

theorem visitTx_ends (i : Nat) (hs : HandlesOwned s) : EndsIn ok HandlesOwned (visitTx i s) := by
  refine (freePending_ends hs).andThen fun t _ ht => ?_
  dsimp only
  split
  · rename_i h hi
    exact ht.holdBack hi rfl
  · exact ht

/-- One round of a scan whose visits keep the handles in order. -/
theorem reclaimOne_ends {visit : Nat → State → Out State}
    (hv : ∀ i {t : State}, HandlesOwned t → EndsIn ok HandlesOwned (visit i t)) (hs : HandlesOwned s) :
    EndsIn ok (fun r => HandlesOwned r.1) (reclaimOne visit s) := by
  unfold reclaimOne
  dsimp only
  split
  · exact hs
  · exact (hv _ hs.congr).andThen fun t _ ht => .next ht.congr

theorem reclaimLoop_ends (k : Nat) (done : List Nat) (hs : HandlesOwned s) :
    EndsIn ok (fun r => HandlesOwned r.1) (reclaimLoop k done s) := by
  induction k generalizing done s with
  | zero => exact hs
  | succ k ih =>
    refine (reclaimOne_ends (fun _ _ ht => .next ht) hs).andThen fun r _ hr => ?_
    split
    · exact ih _ hr
    · exact hr

theorem HandlesOwned.endTxPass (hs : HandlesOwned s) (old : Nat) : HandlesOwned (endTxPass old s) := by
  obtain ⟨stalled, hist, e⟩ := endTxPass_shape old s
  rw [e]; exact hs

theorem txScan_ends (k old : Nat) (hs : HandlesOwned s) : EndsIn ok HandlesOwned (txScan k old s) := by
  cases k with
  | zero => exact hs.endTxPass old
  | succ k =>
    refine (reclaimOne_ends (fun i _ => visitTx_ends i) hs).andThen fun r _ hr => ?_
    by_cases h2 : r.2 = true
    · simp only [h2, if_true]; exact hr.congr
    · simp only [h2]; exact hr.endTxPass old

theorem tickRelease_ends (hs : HandlesOwned s) : EndsIn ok HandlesOwned (tickRelease s) :=
  (freePending_ends hs).andThen fun _ _ ht => ht

/-- A packet the engine holds and has nowhere yet is freed again. -/
theorem freeHeld_ends {h : Handle} (hs : HandlesOwned s) (hn : h ∉ packetsIn s) (hh : s.holdsPacket h = true) :
    EndsIn ok HandlesOwned (freePacket h s) := by
  refine (freePacket_ends hh).imp ?_
  rintro t - ⟨hist, rfl⟩
  exact hs.dropPacket hn

theorem HandlesOwned.stallSubmit {h : Handle} (hs : HandlesOwned s) (hn : h ∉ packetsIn s) :
    HandlesOwned (stallSubmit h s) := by
  obtain ⟨hist, e⟩ := completePacket_frame h { s.raise .backpressure with txStalled := true }
  rw [Machine.stallSubmit, returnPacket, e]
  exact hs.dropPacket hn

theorem HandlesOwned.submitSegs {h : Handle} (hs : HandlesOwned s) (hn : h ∉ packetsIn s)
    (hh : s.holdsPacket h = true) (seg0 : Segment) (segs : List Segment) (cmd : Cmd) (vlan : Option Half) :
    HandlesOwned (submitSegs h seg0 segs cmd vlan s) := by
  obtain ⟨mem, hist, unsub, e⟩ := submitSegs_shape h seg0 segs cmd vlan s
  rw [e]
  exact hs.storePacket _ hn hh

/-- TX.SUBMIT once the engine holds the packet, which stands nowhere yet (R145). -/
theorem submitHeld_ends {p : Packet} (hs : HandlesOwned s) (hn : p.h ∉ packetsIn s)
    (hh : s.holdsPacket p.h = true) : EndsIn ok HandlesOwned (submitHeld p s) := by
  have hp := hs.preparePacket p.h
  have hph := (preparePacket_holdsPacket p.h p.h s).trans hh
  have hdrop : ∀ c, EndsIn ok HandlesOwned (dropConfig c p.h (preparePacket p.h s)) := fun c =>
    (freeHeld_ends (s := countTxDrops ((preparePacket p.h s).raise c)) hp hn hph).andThen fun _ _ ht => .next ht
  unfold submitHeld
  split
  · exact (freeHeld_ends (s := s.raise .linkDownDrop) hs hn hh).andThen fun _ _ ht => .next ht
  · dsimp only
    split
    · exact hdrop _
    · exact hdrop _
    · split
      · exact hdrop _
      · split
        · exact hp.stallSubmit hn
        · exact hp.submitSegs hn hph _ _ _ _

theorem execTxSubmit_ends (p : Packet) (hs : HandlesOwned s) : EndsIn ok HandlesOwned (execTxSubmit p s) := by
  have href : ∀ r, HandlesOwned (submitRefused r s) := fun r => by
    obtain ⟨res, e⟩ := submitRefused_shape r s
    rw [e]; exact hs
  refine EndsIn.guardedBy href fun _ => ?_
  split
  · exact href _
  · split
    · trivial
    · rename_i hfree
      exact submitHeld_ends (hs.holdPacket p.h) (fun hm => hfree (hs.1.2 _ hm)) (holdsPacket_holdPacket.2 (.inl rfl))

/-! ### Receive buffers -/

theorem freeBuffer_ends {h : Handle} (hh : h ∈ s.heldBuffers) :
    EndsIn ok (fun t => ∃ hist, t = { s with heldBuffers := s.heldBuffers.erase h, history := hist })
      (freeBuffer h s) := by
  rw [freeBuffer_of_held hh]
  exact ⟨_, rfl⟩

/-- A buffer the engine has just acquired is freed again. -/
theorem freeAcquired_ends (h : Handle) (hs : HandlesOwned s) :
    EndsIn ok (fun t => HandlesOwned t ∧ t.rxSlot = s.rxSlot) (freeBuffer h (holdBuffer h s)) := by
  refine (freeBuffer_ends (s := holdBuffer h s) List.mem_cons_self).imp ?_
  rintro t - ⟨hist, rfl⟩
  refine ⟨hs.congr rfl rfl rfl rfl ?_, rfl⟩
  exact List.erase_cons_head ..

/-- `Replaced` (R171, R172). -/
theorem acquireReplaced_ends {i : Nat} {old : RxBuffer} (h : Handle) (regions : List Region) (len : Nat)
    (opts : DeliverOpts) (hs : HandlesOwned s) (hi : s.rxBuf i = some old) :
    EndsIn ok (fun r => HandlesOwned r.1) (acquireReplaced i old h regions len opts s) := by
  unfold acquireReplaced
  split
  · trivial
  · rename_i hfree
    have hfresh : h ∉ s.heldBuffers := handleFresh_iff.1 (by simpa using hfree)
    dsimp only
    split
    · exact (freeAcquired_ends h hs).andThen fun t _ ht => .next ht.1
    · split
      · trivial
      · exact hs.replaceBuffer (b := bufferOf h _) hi hfresh

/-- The case split on an acquisition for a slot that holds a buffer (R165). -/
theorem acquire_ends (i : Nat) (a : Acquisition) (len : Nat) (opts : DeliverOpts) (hs : HandlesOwned s)
    (hok : ok → s.rxBuf i ≠ none) : EndsIn ok (fun r => HandlesOwned r.1) (acquire i a len opts s) := by
  cases a with
  | failed => exact hs
  | replaced h regions =>
    dsimp only [acquire]
    split
    · rename_i old hi; exact acquireReplaced_ends h regions len opts hs hi
    · rename_i hi; exact fun h => absurd hi (hok h)
  | copied h size =>
    dsimp only [acquire]
    split
    · unfold acquireCopied
      split
      · exact hs
      · split
        · trivial
        · exact hs
    · rename_i hi; exact fun h => absurd hi (hok h)

theorem HandlesOwned.dropFragment (hs : HandlesOwned s) : HandlesOwned (dropFragment s) :=
  hs.congr rfl rfl rfl rfl rfl

theorem handleRx_ends (hs : HandlesOwned s) (hok : ok → s.rxBuf s.rxIndex ≠ none) :
    EndsIn ok (fun r => HandlesOwned r.1) (handleRx s) := by
  unfold handleRx
  dsimp only
  split
  · exact hs.congr.dropFragment
  · split
    · exact fun _ => by decide
    · exact acquire_ends _ _ _ _ hs.congr hok

/-- One iteration of RX.IRQ (R165, R167). -/
theorem rxNext_ends (d : Bool) (hs : HandlesOwned s) (hok : ok → s.rxBuf s.rxIndex ≠ none) :
    EndsIn ok HandlesOwned (rxNext d s) := by
  unfold rxNext
  dsimp only
  split
  · refine .next ?_
    split
    · exact hs
    · exact hs
  · exact (handleRx_ends (s := s.noteRead .rx s.rxIndex .opts1) hs hok).andThen fun r _ hr => .next hr.congr

/-! ### The memories and the slots of ENABLE and DISABLE -/

/-- The first `n` RX slots hold a buffer. -/
def Filled (n : Nat) (s : State) : Prop := ∀ j < n, s.rxBuf j ≠ none

theorem rxBuf_set {i j : Nat} (b : Option RxBuffer) (h : i ≠ j) :
    State.rxBuf { s with rxSlot := s.rxSlot.set i b } j = s.rxBuf j := by
  simp [State.rxBuf, List.getD_eq_getElem?_getD, h]

theorem freeSlots_ends (n : Nat) (hs : HandlesOwned s) (hok : ok → Filled n s) :
    EndsIn ok HandlesOwned (freeSlots n s) := by
  induction n generalizing s with
  | zero => exact hs
  | succ n ih =>
    unfold freeSlots
    split
    · rename_i b hb
      have hh : b.h ∈ s.heldBuffers := hs.2.2 _ ((buffersIn_perm hb).mem_iff.2 List.mem_cons_self)
      refine (freeBuffer_ends hh).andThen ?_
      rintro t - ⟨hist, rfl⟩
      refine ih (hs.dropBuffer hb) fun h j hj => ?_
      have := hok h j (by omega)
      rwa [← rxBuf_set none (Nat.ne_of_gt hj)] at this
    · rename_i hb
      exact fun h => absurd hb (hok h n (Nat.lt_succ_self n))

theorem freeTxMem_ends (hs : HandlesOwned s) (hok : ok → s.txMem ≠ none) : EndsIn ok HandlesOwned (freeTxMem s) := by
  unfold freeTxMem
  split
  · exact hs
  · rename_i h; exact fun k => absurd h (hok k)

theorem freeRxMem_ends (hs : HandlesOwned s) (hok : ok → s.rxMem ≠ none) : EndsIn ok HandlesOwned (freeRxMem s) := by
  unfold freeRxMem
  split
  · exact hs
  · rename_i h; exact fun k => absurd h (hok k)

theorem freeStMem_ends (hs : HandlesOwned s) (hok : ok → s.stMem ≠ none) : EndsIn ok HandlesOwned (freeStMem s) := by
  unfold freeStMem
  split
  · exact hs
  · rename_i h; exact fun k => absurd h (hok k)

/-- All three DMA memories exist. -/
def MemsExist (s : State) : Prop := s.txMem ≠ none ∧ s.rxMem ≠ none ∧ s.stMem ≠ none

/-- The three memories are released (R203 X7). -/
theorem freeMems_ends (hs : HandlesOwned s) (hok : ok → MemsExist s) : EndsIn ok HandlesOwned (freeMems s) := by
  refine (freeStMem_ends hs fun h => (hok h).2.2).andThen fun t e ht => ?_
  obtain ⟨hist, rfl⟩ := freeStMem_shape e
  refine (freeRxMem_ends ht fun h => (hok h).2.1).andThen fun u e hu => ?_
  obtain ⟨hist', rfl⟩ := freeRxMem_shape e
  exact freeTxMem_ends hu fun h => (hok h).1

theorem fail2_ends (hs : HandlesOwned s) (hok : ok → s.txMem ≠ none) : EndsIn ok HandlesOwned (fail2 s) :=
  (freeTxMem_ends hs hok).andThen fun _ _ ht => .next ht

theorem fail3_ends (hs : HandlesOwned s) (hok : ok → s.txMem ≠ none ∧ s.rxMem ≠ none) :
    EndsIn ok HandlesOwned (fail3 s) := by
  refine (freeRxMem_ends hs fun h => (hok h).2).andThen fun t e ht => ?_
  obtain ⟨hist, rfl⟩ := freeRxMem_shape e
  exact fail2_ends ht fun h => (hok h).1

/-- The unwinding of step E4 (R201). -/
theorem fail4_ends (i : Nat) (hs : HandlesOwned s) (hok : ok → Filled i s ∧ MemsExist s) :
    EndsIn ok HandlesOwned (fail4 i s) := by
  refine (freeSlots_ends i hs fun h => (hok h).1).andThen fun t e ht => ?_
  obtain ⟨slots, bufs, hist, rfl⟩ := freeSlots_shape e
  refine (freeStMem_ends ht fun h => (hok h).2.2.2).andThen fun u e hu => ?_
  obtain ⟨hist', rfl⟩ := freeStMem_shape e
  exact fail3_ends hu fun h => ⟨(hok h).2.1, (hok h).2.2.1⟩

/-- One iteration of step E4 (R200): it fills the slot or leaves the slots as they are. -/
theorem fillSlot_ends {i : Nat} (draw : Option BufferDraw) (hs : HandlesOwned s) (hi : i < s.rxSlot.length)
    (hf : Filled i s) :
    EndsIn ok (fun r => HandlesOwned r.1 ∧ r.1.rxSlot.length = s.rxSlot.length ∧
      Filled (if r.2 = true then i + 1 else i) r.1) (fillSlot i draw s) := by
  unfold fillSlot
  split
  · exact ⟨hs, rfl, hf⟩
  · rename_i b
    split
    · trivial
    · rename_i hfree
      have hfresh : b.h ∉ s.heldBuffers := handleFresh_iff.1 (by simpa using hfree)
      dsimp only
      split
      · refine (freeAcquired_ends b.h hs).andThen fun t _ ht => .next ⟨ht.1, by rw [ht.2], fun j hj => ?_⟩
        rw [State.rxBuf, ht.2]
        exact hf j hj
      · rename_i seg hseg
        split
        · trivial
        · refine .next ⟨hs.storeBuffer i (b := bufferOf b.h seg) hfresh, List.length_set .., fun j hj => ?_⟩
          simp only [if_true] at hj
          rcases Nat.lt_succ_iff_lt_or_eq.1 hj with hlt | rfl
          · have := hf j hlt
            rwa [← rxBuf_set (some (bufferOf b.h seg)) (Nat.ne_of_gt hlt)] at this
          · simp [State.rxBuf, hi]

/-- Step E4 (R200): where it fails at a slot, those before it are filled. -/
theorem fillSlots_ends (k : Nat) {i : Nat} (draws : List (Option BufferDraw)) (hs : HandlesOwned s)
    (hi : i + k ≤ s.rxSlot.length) (hf : Filled i s) :
    EndsIn ok (fun r => HandlesOwned r.1 ∧ ∀ n, r.2 = some n → Filled n r.1) (fillSlots k i draws s) := by
  induction k generalizing i draws s with
  | zero => exact ⟨hs, by simp⟩
  | succ k ih =>
    refine (fillSlot_ends (draws.headD none) hs (by omega) hf).andThen fun r _ ⟨hr, hlen, hfill⟩ => ?_
    by_cases h2 : r.2 = true
    · simp only [h2, if_true] at hfill ⊢
      exact ih draws.tail hr (by omega) hfill
    · simp only [h2] at hfill ⊢
      refine .next ⟨hr, fun n hn => ?_⟩
      cases hn
      exact hfill

/-- ENABLE from step E5 on (R200). -/
theorem bringUp_ends (hs : HandlesOwned s) : EndsIn ok HandlesOwned (bringUp s) := by
  have h0 : HandlesOwned { s with txSlot := List.replicate s.cfg.nTx none, txPending := none } :=
    ⟨by simpa [packetsIn] using Owned.nil _, hs.2⟩
  exact (clearTx_ends h0).andThen fun t _ ht => .next ht.congr

theorem enableBuffers_ends (draws : List (Option BufferDraw)) (hs : HandlesOwned s) (hm : MemsExist s) :
    EndsIn ok HandlesOwned (enableBuffers draws s) := by
  have h0 : HandlesOwned { s with rxSlot := List.replicate s.cfg.nRx none } :=
    ⟨hs.1, by simpa [buffersIn] using Owned.nil _⟩
  refine (fillSlots_ends s.cfg.nRx (i := 0) draws h0 (by simp) fun j hj => absurd hj (Nat.not_lt_zero j)).andThen
    fun r e ⟨hr, hfill⟩ => ?_
  obtain ⟨slots, bufs, hist, e'⟩ := fillSlots_shape e
  split
  · rename_i i hi
    refine fail4_ends i hr fun _ => ⟨hfill i hi, ?_⟩
    rw [e']; exact hm
  · exact bringUp_ends hr

theorem enableFrom_ends (d : EnableDraws) (hs : HandlesOwned s) : EndsIn ok HandlesOwned (enableFrom d s) := by
  unfold enableFrom
  split
  · exact hs
  · unfold enableRxRing
    split
    · exact fail2_ends hs fun _ => by simp
    · split
      · trivial
      · unfold enableStats
        split
        · exact fail3_ends hs fun _ => by simp
        · split
          · trivial
          · exact enableBuffers_ends d.bufs hs (by simp [MemsExist])

theorem execEnable_ends (d : EnableDraws) (hs : HandlesOwned s) : EndsIn ok HandlesOwned (execEnable d s) := by
  refine hs.guarded fun _ => ?_
  split
  · exact hs
  · split
    · exact hs
    · exact enableFrom_ends d ⟨hs.1, Owned.nil _⟩

/-- DISABLE (R203) of a block whose memories and buffers are all there. -/
theorem bringDown_ends (hs : HandlesOwned s) (hok : ok → Filled s.cfg.nRx s ∧ MemsExist s) :
    EndsIn ok HandlesOwned (bringDown s) := by
  obtain ⟨regs, hist, hq⟩ := quiesce_shape s
  unfold bringDown
  simp only [hq]
  refine (clearTx_ends hs.congr).andThen fun t e ht => ?_
  obtain ⟨mem, hist', slots, held, rfl⟩ := clearTx_shape e
  refine (freeSlots_ends _ ht fun h => (hok h).1).andThen fun u e hu => ?_
  obtain ⟨slots', bufs, hist'', rfl⟩ := freeSlots_shape e
  exact freeMems_ends hu fun h => (hok h).2

/-- What RX.IRQ and DISABLE, once admitted, find in the slots and the memories. -/
theorem filled_of_usable (h : RxUsable s) : Filled s.cfg.nRx s := fun j hj hn => by
  obtain ⟨b, hb, -⟩ := rxSlot_some h hj
  rw [hb] at hn; cases hn

theorem memsExist_of_usable (ht : TxUsable s) (hr : RxUsable s) (hst : StUsable s) : MemsExist s := by
  obtain ⟨d, hd, -⟩ := ringProblem_none ht
  obtain ⟨e, he, -⟩ := ringProblem_none (rxProblem_none hr).1
  refine ⟨by simp [hd], by simp [he], fun h => ?_⟩
  simp [StUsable, stProblem, h] at hst

theorem execDisable_ends (hs : HandlesOwned s) : EndsIn ok HandlesOwned (execDisable s) := by
  refine hs.guarded fun ha => ?_
  obtain ⟨-, -, -, htx, hrx, -⟩ := precheck_eq_none.1 ha.1
  split
  · exact hs
  · rename_i hst
    exact (bringDown_ends hs fun _ => ⟨filled_of_usable hrx, memsExist_of_usable htx hrx hst⟩).andThen
      fun _ _ ht => .next ht

/-- The buffer index stays within the RX ring while the block is enabled (R15): of `CursorInv`, all that freeing
needs. -/
def RxIndexOk (s : State) : Prop := s.enabled = true → s.rxIndex < s.cfg.nRx

theorem rxBuf_of_usable (h : RxUsable s) (he : s.enabled = true) (hi : RxIndexOk s) : s.rxBuf s.rxIndex ≠ none :=
  filled_of_usable h _ (hi he)

theorem execRxIrq_ends (draws : List Acquisition) (hs : HandlesOwned s) (hok : ok → RxIndexOk s) :
    EndsIn ok HandlesOwned (execRxIrq draws s) := by
  refine hs.guarded fun ha => ?_
  obtain ⟨-, -, hen, hrx⟩ := precheck_eq_none.1 ha.1
  split
  · exact hs
  · exact (rxNext_ends (s := takeDraws draws s) false hs fun h => rxBuf_of_usable hrx hen (hok h)).andThen
      fun _ _ ht => .next ht

end

section
variable {ok : Prop} {s : State}

/-! ### The other operations -/

/-- A descriptor word moves no state (R78 to R85). -/
theorem descResult_ends (f : DescFormat) (fits : Bool) (w : Layout → Word) (hs : HandlesOwned s) :
    EndsIn ok HandlesOwned (descResult f fits w s) := by
  unfold descResult
  split
  · exact hs
  · split
    · exact hs
    · exact hs

theorem execRingAlloc_ends (n : Nat) (hs : HandlesOwned s) : EndsIn ok HandlesOwned (execRingAlloc n s) := by
  refine hs.guarded fun _ => ?_
  split
  · exact hs
  · split
    · exact hs
    · exact .next hs.congr

theorem execRingWrite_ends (ring : Ring) (index : Nat) (seg : Segment) (flags1 flags2 : Word) (own : Bool)
    (hs : HandlesOwned s) : EndsIn ok HandlesOwned (execRingWrite ring index seg flags1 flags2 own s) := by
  refine hs.guarded fun _ => ?_
  split
  · exact hs
  · split
    · exact hs
    · rw [writeDesc_eq]
      refine .next ?_
      split
      · exact hs
      · exact hs

theorem execRingReclaim_ends (hs : HandlesOwned s) : EndsIn ok HandlesOwned (execRingReclaim s) :=
  hs.guarded fun _ => (reclaimLoop_ends _ [] hs).andThen fun _ _ hr => .next hr

theorem execRingClearTx_ends (hs : HandlesOwned s) : EndsIn ok HandlesOwned (execRingClearTx s) := by
  refine hs.guarded fun _ => ?_
  split
  · exact hs
  · exact (clearTx_ends (s := noteSeen .tx s) hs).andThen fun _ _ ht => .next ht

theorem execSegTx_ends (regions : List Region) (hs : HandlesOwned s) :
    EndsIn ok HandlesOwned (execSegTx regions s) := by
  refine hs.guarded fun _ => ?_
  split
  · exact hs
  · split
    · exact hs
    · exact hs

theorem execSegRx_ends (regions : List Region) (hs : HandlesOwned s) :
    EndsIn ok HandlesOwned (execSegRx regions s) := by
  refine hs.guarded fun _ => ?_
  split
  · exact hs
  · split
    · exact hs
    · exact hs

theorem HandlesOwned.dlchk (hs : HandlesOwned s) (rest : List Task) (ends : Result) :
    HandlesOwned (dlchk rest ends s).1 := by
  rcases dlchk_shape rest ends s with ⟨-, _, _, _, _, _, -, e⟩ | ⟨-, _, e⟩
  · rw [e]; exact hs
  · rw [e]; exact hs

theorem HandlesOwned.tickLink (hs : HandlesOwned s) (v : Byte) : HandlesOwned (tickLink v s) := by
  obtain ⟨_, _, _, _, -, e⟩ := tickLink_shape v s
  rw [e]; exact hs

theorem execTimerTick_ends (v : Byte) (hs : HandlesOwned s) : EndsIn ok HandlesOwned (execTimerTick v s) := by
  refine hs.guarded fun _ => ?_
  split
  · exact hs
  · exact hs.tickLink v

theorem execLinkUp_ends (p : LinkParams) (hs : HandlesOwned s) : EndsIn ok HandlesOwned (execLinkUp p s) := by
  refine hs.guarded fun _ => ?_
  split
  · exact hs
  · exact hs

theorem execLinkDown_ends (hs : HandlesOwned s) : EndsIn ok HandlesOwned (execLinkDown s) := by
  refine hs.guarded fun _ => ?_
  split
  · exact hs
  · exact hs

theorem HandlesOwned.irq (hs : HandlesOwned s) : HandlesOwned (irq s) := by
  rcases irq_cases s with ⟨-, e⟩ | ⟨-, e⟩
  · rw [e]; exact hs.congr
  · rw [e]; exact hs.congr

theorem execIrq_ends (draws : List Acquisition) (hs : HandlesOwned s) : EndsIn ok HandlesOwned (execIrq draws s) := by
  refine hs.guarded fun _ => ?_
  split
  · exact hs
  · exact HandlesOwned.irq (s := takeDraws draws s) hs

theorem execStatsReq_ends (hs : HandlesOwned s) : EndsIn ok HandlesOwned (execStatsReq s) := by
  refine hs.guarded fun _ => ?_
  split
  · exact hs
  · exact .next hs.congr

/-- NIC.TX_DONE has one fault, the read of freed memory (U15). -/
theorem txDone_ends (i : Nat) (d : TxDoneDraws) (hs : HandlesOwned s) : EndsIn ok HandlesOwned (txDone i d s) := by
  unfold txDone
  split
  · trivial
  · split
    · trivial
    · split
      · exact fun _ => by decide
      · refine .next ?_
        split
        · exact hs
        · exact hs

/-- NIC.RX_FILL has one fault, the store outside the address space (log entry 26). -/
theorem rxFill_ends (i : Nat) (frame : List Byte) (x : RxStatus) (d : RxFillDraws) (hs : HandlesOwned s) :
    EndsIn ok HandlesOwned (rxFill i frame x d s) := by
  unfold rxFill
  split
  · trivial
  · split
    · trivial
    · split
      · trivial
      · split
        · exact fun _ => by decide
        · refine .next ?_
          split
          · exact hs
          · exact hs

theorem txQuiesce_ends (hs : HandlesOwned s) : EndsIn ok HandlesOwned (txQuiesce s) := by
  unfold txQuiesce
  split
  · trivial
  · split
    · exact hs
    · trivial

theorem execNicTxDone_ends (i : Nat) (d : TxDoneDraws) (hs : HandlesOwned s) :
    EndsIn ok HandlesOwned (execNicTxDone i d s) := by
  refine hs.guarded fun _ => ?_
  split
  · exact hs
  · exact (txDone_ends i d hs).andThen fun _ _ ht => .next ht

theorem execNicRxFill_ends (i : Nat) (frame : List Byte) (x : RxStatus) (d : RxFillDraws) (hs : HandlesOwned s) :
    EndsIn ok HandlesOwned (execNicRxFill i frame x d s) := by
  refine hs.guarded fun _ => ?_
  split
  · exact hs
  · exact (rxFill_ends i frame x d hs).andThen fun _ _ ht => .next ht

/-- Every operation, for any agent: the buffer index is asked for by RX.IRQ alone. -/
theorem exec_ends (i : Instr) (hs : HandlesOwned s) (hok : ok → RxIndexOk s) :
    EndsIn ok HandlesOwned (exec i s) := by
  unfold exec
  cases i with
  | ringAlloc n => exact execRingAlloc_ends n hs
  | ringWrite ring index seg flags1 flags2 own => exact execRingWrite_ends ring index seg flags1 flags2 own hs
  | ringReclaim => exact execRingReclaim_ends hs
  | ringClearTx => exact execRingClearTx_ends hs
  | ringClearRx => exact hs.guarded fun _ => .next hs.congr
  | segTx regions => exact execSegTx_ends regions hs
  | segRx regions => exact execSegRx_ends regions hs
  | encV1 _ => exact hs.guarded fun _ => hs
  | encV2 _ => exact hs.guarded fun _ => hs
  | encVlan _ => exact hs.guarded fun _ => hs
  | txSubmit p => exact execTxSubmit_ends p hs
  | txIrq => exact hs.guarded fun _ => (txScan_ends _ _ hs).andThen fun _ _ ht => .next ht
  | txDlchk => exact hs.guarded fun _ => hs.dlchk [] .didReset
  | rxIrq draws => exact execRxIrq_ends draws hs hok
  | rxCsumV1 _ _ => exact hs.guarded fun _ => hs
  | rxCsumV2 _ _ => exact hs.guarded fun _ => hs
  | rxVlan _ => exact hs.guarded fun _ => hs
  | timerTick v => exact execTimerTick_ends v hs
  | linkUp p => exact execLinkUp_ends p hs
  | linkDown => exact execLinkDown_ends hs
  | resetFull => exact hs.guarded fun _ => hs
  | irq draws => exact execIrq_ends draws hs
  | statsReq => exact execStatsReq_ends hs
  | statsDone => exact hs.guarded fun _ => .next hs.congr
  | enable d => exact execEnable_ends d hs
  | disable => exact execDisable_ends hs
  | nicTxDone i d => exact execNicTxDone_ends i d hs
  | nicRxFill i frame x d => exact execNicRxFill_ends i frame x d hs
  | nicIrqRaise _ => exact hs.guarded fun _ => hs
  | nicReset => exact hs.guarded fun _ => hs
  | nicTxQuiesce => exact hs.guarded fun _ => (txQuiesce_ends hs).andThen fun _ _ ht => .next ht
  | txd1V1Csum | txd1V1Tso | txd1V2 | txd2V1 | txd2V2 | rxdArmed | rxd1V1 | rxd1V2 | rxd2V1 | rxd2V2 =>
    exact descResult_ends _ _ _ hs

/-! ### The tasks of an operation in progress -/

theorem fullReset_ends (hs : HandlesOwned s) : EndsIn ok HandlesOwned (fullReset s) := by
  rw [fullReset_eq]
  refine (clearTx_ends (s := nicReset (flushQueue s)) hs).andThen fun t _ ht => .next ?_
  rw [finishReset_eq]
  exact ht.congr

theorem linkDown_ends (hs : HandlesOwned s) : EndsIn ok HandlesOwned (linkDown s) :=
  (clearTx_ends hs.congr).andThen fun _ _ ht => .next ht

/-- Every task: the next iteration of a receive pass asks for a buffer in the slot it comes to. -/
theorem runTask_ends (x : Task) (hs : HandlesOwned s) (hok : ok → s.rxBuf s.rxIndex ≠ none) :
    EndsIn ok HandlesOwned (runTask x s) := by
  cases x with
  | rxNext d => exact rxNext_ends d hs hok
  | txBegin => exact txScan_ends _ _ hs
  | txScan k old => exact txScan_ends k old hs
  | dlSnapshot => exact hs
  | tickRelease => exact tickRelease_ends hs
  | tickCheck => exact hs.dlchk _ _
  | tickStats => exact .next hs.congr
  | statsDone => exact .next hs.congr
  | resetRest _ => exact fullReset_ends hs
  | linkDownRest => exact linkDown_ends hs

theorem goOn_ends (hs : HandlesOwned s) (hok : ok → s.work ≠ [] → s.rxBuf s.rxIndex ≠ none) :
    EndsIn ok HandlesOwned (goOn s) := by
  unfold goOn
  split
  · exact hs
  · rename_i x rest hw
    exact (runTask_ends (s := takeTask rest s) x hs fun h => hok h (by simp [hw])).andThen fun _ _ ht => .next ht

/-- One step: an invocation, or the next task of the operation in progress. -/
theorem step_ends (hs : HandlesOwned s) (hi : ok → RxIndexOk s)
    (hw : ok → s.work ≠ [] → s.rxBuf s.rxIndex ≠ none) : EndsIn ok HandlesOwned (step s) := by
  unfold step
  split
  · exact goOn_ends hs hw
  · rename_i x rest _
    split
    · exact goOn_ends (s := waited x rest s) hs hw
    · unfold runCode
      split
      · exact exec_ends (s := takeInput x rest s) _ hs hi
      · exact hs
end

/-- Settles O11: each step keeps the two lists of handles in order, whatever it runs; and with the buffer index in
the ring, and the memories and buffers of an enabled block in place, it frees only what the engine holds. -/
theorem noHandleIsFreedTwice : Obligations.NoHandleIsFreedTwice := by
  refine ⟨fun s t hs h => ?_, fun s hs hc hp hw => ?_⟩
  · have hstep : EndsIn False HandlesOwned (step s) := step_ends (handleInv_iff.1 hs) False.elim False.elim
    exact handleInv_iff.2 (hstep.of_eq_next h)
  · have hi : RxIndexOk s := fun he => (hc he).2.rx
    have hbuf : s.work ≠ [] → s.rxBuf s.rxIndex ≠ none := fun hne =>
      have hen := (hw hne).1
      rxBuf_of_usable (hp.on hen).2.2.1 hen hi
    exact (step_ends (handleInv_iff.1 hs) (fun _ => hi) fun _ => hbuf).ne_fault trivial

end Sys2Proof.Machine
end

section
/-! SUPPORT. O4, O7: what an invocation meets before it has its effect, the guard of R236 and the decoder. -/

namespace Sys2Proof.Machine

-- One declaration at a time: each thread of the elaborator reserves a stack of its own.
set_option Elab.async false

/-! ### O4 -/

theorem decode_unassigned {b : Byte} (h : b.toNat ∉ selectors) (bs : List Byte) :
    decode (.op (b :: bs)) = .error .invalidSelector := by
  have hget : getOperands b.toNat bs = .error .invalidSelector := by
    generalize b.toNat = n at h
    simp only [selectors, List.mem_cons, List.not_mem_nil, or_false, not_or] at h
    unfold getOperands
    split
    case h_32 => rfl
    all_goals simp at h
  simp [decode, decodeOp, hget]

/-- Settles O4: such a selector decodes to nothing, so the step records it; an operation of another agent does not
pass its guard. -/
theorem unassignedSelectorOrWrongAgentRefused : Obligations.UnassignedSelectorOrWrongAgentRefused := by
  refine ⟨fun s x b bs rest hb hx hin hw => ?_, fun i s ha => ?_⟩
  · have hd : decode x.code = .error .invalidSelector := by rw [hx]; exact decode_unassigned hb bs
    have hwait : waits x s = false := waits_eq_false.2 hw
    simp [step, hin, hwait, runCode, hd, State.refuse, State.emit, State.withResult, takeInput, decodeReason]
  · rw [exec_refused (precheck_wrongAgent ha)]
    cases i <;> rfl

/-! ### O7 -/

theorem needOf_of_needsEnabled {i : Instr} (h : needsEnabled i = true) : needOf i ≠ .always := by
  cases i
  case enable | nicReset | nicTxDone | nicRxFill | nicIrqRaise | nicTxQuiesce => cases h
  case txd1V1Csum | txd1V1Tso | txd1V2 | txd2V1 | txd2V2 | rxdArmed | rxd1V1 | rxd1V2 | rxd2V1 | rxd2V2 => cases h
  case ringWrite ring _ _ _ _ _ => cases ring <;> nofun
  all_goals nofun

theorem precheck_illFormedCfg {agents : List Agent} {need : Need} {s : State} (ha : s.caller ∈ agents)
    (hc : cfgWf s.cfg = false) : precheck agents need s = some .illFormedCfg := by simp [precheck, ha, hc]

theorem precheck_disabled {agents : List Agent} {need : Need} {s : State} (ha : s.caller ∈ agents)
    (hc : cfgWf s.cfg = true) (hn : need ≠ .always) (he : s.enabled = false) :
    precheck agents need s = some .disabled := by
  cases need
  case always => exact absurd rfl hn
  all_goals simp [precheck, ha, hc, he]

/-- An enabled block whose memories are all there passes every guard for the right agent. -/
theorem precheck_of_platform {agents : List Agent} {need : Need} {s : State} (ha : s.caller ∈ agents)
    (hp : PlatformInv s) (he : s.enabled = true) : precheck agents need s = none := by
  obtain ⟨hc, htx, hrx, hst⟩ := hp.on he
  refine precheck_eq_none.2 ⟨ha, hc, ?_⟩
  cases need
  · trivial
  · exact he
  · exact ⟨he, htx⟩
  · exact ⟨he, hrx⟩
  · exact ⟨he, htx, hrx, fun _ => hst⟩

/-- Settles O7: each case is one the guard of R236 tells apart. -/
theorem disabledBlockRefusesAllButEnable : Obligations.DisabledBlockRefusesAllButEnable := by
  refine ⟨fun i s hn ha hc he => ?_, fun d s ha he => ?_, fun i s ha hc => ?_, fun i s hf ha hd hw hi hp => ?_⟩
  · exact exec_refused (precheck_disabled ha hc (needOf_of_needsEnabled hn) he)
  · have hpre : precheck [.host] .always s = none :=
      precheck_eq_none.2 ⟨by simp [ha.caller], ha.cfg, trivial⟩
    show execEnable d s = _
    rw [execEnable, guarded_ok hpre ha.overlaps, if_pos he]
    rfl
  · exact exec_refused (precheck_illFormedCfg ha hc)
  · have ho : s.overlaps = true := by simp [State.overlaps, hd, hw]
    exact exec_overlap hf (precheck_of_platform ha hp (hi hw).1) ho

end Sys2Proof.Machine
end

section
/-! SUPPORT. O6, O8: what no part of an operation does. It changes no configuration, it brings memory out of its
canonical form nowhere, and it records no refusal: that is left to the guards. -/

namespace Sys2Proof.Machine

-- One declaration at a time: each thread of the elaborator reserves a stack of its own.
set_option Elab.async false

/-! ### The relation -/

/-- The refusals a history records, in order (R236). -/
def refusalsOf (l : List Event) : List RefusedReason :=
  l.filterMap fun e => match e with
    | .refused r => some r
    | _ => none

@[simp] theorem refusalsOf_append (l m : List Event) : refusalsOf (l ++ m) = refusalsOf l ++ refusalsOf m :=
  List.filterMap_append ..

/-- From `s` to `t` the configuration is the same, memory is in canonical form if it was, and no refusal is new. -/
structure Regular (s t : State) : Prop where
  cfg      : t.cfg = s.cfg
  mem      : s.mem.wf → t.mem.wf
  refusals : refusalsOf t.history = refusalsOf s.history

/-- Regular, and what the operation returned is no refusal. -/
def Performed (s t : State) : Prop := Regular s t ∧ ∀ r, t.result ≠ .refused r

/-- Where it answers next, a part of a step ends in a state with `Q`, whatever it faults with. -/
abbrev Answers {α : Type} (Q : α → Prop) (x : Out α) : Prop := EndsIn False Q x

theorem Answers.fault {α : Type} {Q : α → Prop} (f : Fault) : Answers Q (.fault f) := False.elim

section
variable {s t u : State}

theorem Regular.refl (s : State) : Regular s s := ⟨rfl, id, rfl⟩

theorem Regular.trans (h : Regular s t) (k : Regular t u) : Regular s u :=
  ⟨k.cfg.trans h.cfg, fun w => k.mem (h.mem w), k.refusals.trans h.refusals⟩

/-- Another field changes. -/
theorem Regular.congr (h : Regular s t) (hc : u.cfg = t.cfg := by simp) (hm : u.mem = t.mem := by simp)
    (hh : u.history = t.history := by simp) : Regular s u :=
  ⟨hc.trans h.cfg, fun w => by rw [hm]; exact h.mem w, by rw [hh]; exact h.refusals⟩

/-- Events that are no refusals are appended, and memory stays. -/
theorem Regular.append {l : List Event} (h : Regular s t) (hl : refusalsOf l = []) (hc : u.cfg = t.cfg := by simp)
    (hm : u.mem = t.mem := by simp) (hh : u.history = t.history ++ l := by simp) : Regular s u :=
  ⟨hc.trans h.cfg, fun w => by rw [hm]; exact h.mem w, by rw [hh, refusalsOf_append, hl, List.append_nil, h.refusals]⟩

theorem Regular.performed (h : Regular s t) {res : Result} (hres : ∀ r, res ≠ .refused r) :
    Performed s (t.withResult res) := ⟨h.congr, hres⟩

theorem Regular.thenAnswers {x : Out State} (h : Regular s t) (hx : Answers (Regular t) x) : Answers (Regular s) x :=
  hx.imp fun _ _ k => h.trans k

theorem Regular.thenPerformed {x : Out State} (h : Regular s t) (hx : Answers (Performed t) x) :
    Answers (Performed s) x := hx.imp fun _ _ k => ⟨h.trans k.1, k.2⟩

theorem Regular.thenFirst {α : Type} {x : Out (State × α)} (h : Regular s t)
    (hx : Answers (fun r => Regular t r.1) x) : Answers (fun r => Regular s r.1) x := hx.imp fun _ _ k => h.trans k

/-! ### Descriptor stores and ring clears -/

theorem refusalsOf_writeEvents (c : Cfg) (ring : Ring) (i : Nat) (seg : Segment) (flags1 flags2 : Word) (own : Bool) :
    refusalsOf (writeEvents c ring i seg flags1 flags2 own) = [] := by cases own <;> rfl

theorem writeDesc_regular (ring : Ring) (i : Nat) (seg : Segment) (flags1 flags2 : Word) (own : Bool) (s : State) :
    Regular s (writeDesc ring i seg flags1 flags2 own s) :=
  ⟨by simp, fun w => writeDesc_wf w .., by
    rw [writeDesc_history, refusalsOf_append, refusalsOf_writeEvents, List.append_nil]⟩

theorem clearRxLoop_regular (k i : Nat) (s : State) : Regular s (clearRxLoop k i s) := by
  induction k generalizing i s with
  | zero => exact .refl s
  | succ k ih => exact (writeDesc_regular ..).trans (ih (i + 1) (rearm i s))

theorem clearRx_regular (s : State) : Regular s (clearRx s) := (clearRxLoop_regular s.cfg.nRx 0 s).congr rfl rfl rfl

theorem clearTxWords_regular (i : Nat) (s : State) : Regular s (clearTxWords i s) :=
  ⟨(clearTxWords_sited i s).cfg, fun w => clearTxWords_wf w i, by rw [clearTxWords_eq]; simp; rfl⟩

/-! ### Frees -/

theorem refusalsOf_freeEvents (s : State) (h : Handle) : refusalsOf (freeEvents s h) = [] := by
  unfold freeEvents
  split <;> rfl

theorem freePacket_regular (h : Handle) (s : State) : Answers (Regular s) (freePacket h s) := by
  by_cases hh : s.holdsPacket h = true
  · rw [freePacket_held hh]
    exact (Regular.refl s).append (refusalsOf_freeEvents s h)
  · rw [freePacket, if_neg hh]
    exact .fault _

theorem freeSentOpt_regular (o : Option Handle) (s : State) : Answers (Regular s) (freeSentOpt o s) := by
  cases o with
  | none => exact .refl s
  | some h =>
    rw [freeSentOpt_some, freeSent]
    split
    · exact .fault _
    · exact freePacket_regular h s

theorem freeBuffer_regular (h : Handle) (s : State) : Answers (Regular s) (freeBuffer h s) := by
  unfold freeBuffer
  split
  · exact (Regular.refl s).append (l := [.dmaComplete (.buffer h), .freeBuffer h]) rfl
  · exact .fault _

theorem freeTxMem_regular (s : State) : Answers (Regular s) (freeTxMem s) := by
  unfold freeTxMem
  split
  · exact (Regular.refl s).append (l := [.dmaComplete .txRing, .freeDma .txRing]) rfl
  · exact .fault _

theorem freeRxMem_regular (s : State) : Answers (Regular s) (freeRxMem s) := by
  unfold freeRxMem
  split
  · exact (Regular.refl s).append (l := [.dmaComplete .rxRing, .freeDma .rxRing]) rfl
  · exact .fault _

theorem freeStMem_regular (s : State) : Answers (Regular s) (freeStMem s) := by
  unfold freeStMem
  split
  · exact (Regular.refl s).append (l := [.dmaComplete .stats, .freeDma .stats]) rfl
  · exact .fault _

theorem clearTxOne_regular (i : Nat) (s : State) : Answers (Regular s) (clearTxOne i s) := by
  have hw := clearTxWords_regular i s
  rw [clearTxOne_eq]
  split
  · rename_i h _
    exact (hw.thenAnswers (freeSentOpt_regular (some h) _)).andThen fun t _ ht => .next ht.congr
  · exact hw

theorem clearTxLoop_regular (k i : Nat) (s : State) : Answers (Regular s) (clearTxLoop k i s) := by
  induction k generalizing i s with
  | zero => exact .refl s
  | succ k ih => exact (clearTxOne_regular i s).andThen fun t _ ht => ht.thenAnswers (ih (i + 1) t)

theorem clearTx_regular (s : State) : Answers (Regular s) (clearTx s) :=
  (clearTxLoop_regular _ _ s).andThen fun t _ ht =>
    (ht.thenAnswers (freeSentOpt_regular t.txPending t)).andThen fun u _ hu => .next hu.congr

/-! ### Registers, the resets, the queue -/

theorem refusalsOf_halves (r : RegMap) (off : Nat) (v : BitVec 64) : refusalsOf (halves r off v) = [] := by
  unfold halves
  split <;> rfl

theorem writeStatsBase_regular (v : BitVec 64) (s : State) : Regular s (writeStatsBase v s) :=
  (Regular.refl s).append (refusalsOf_halves s.cfg.reg s.cfg.reg.statsBase v)

theorem nicReset_regular (s : State) : Regular s (nicReset s) := (Regular.refl s).append (l := [.nicReset]) rfl

theorem resumeQueue_regular (s : State) : Regular s (resumeQueue s) :=
  (Regular.refl s).append (l := [.resumeQueue]) rfl

theorem flushQueue_regular (s : State) : Regular s (flushQueue s) :=
  (Regular.refl s).append (l := [.stopAndFlushQueue]) rfl

theorem reinitRegs_regular (s : State) : Regular s (reinitRegs s) := by
  refine ⟨by simp, fun w => by simpa using w, ?_⟩
  rw [reinitRegs_eq, refusalsOf_append]
  have hopt : refusalsOf
      (if s.cfg.reg.statsAtInit then halves s.cfg.reg s.cfg.reg.statsBase (statsBase s) else []) = [] := by
    split
    · exact refusalsOf_halves ..
    · rfl
  have hquirks : ∀ l, refusalsOf (.applyChipQuirks :: l) = refusalsOf l := fun _ => rfl
  simp only [refusalsOf_append, hquirks, refusalsOf_halves, hopt, List.cons_append, List.append_nil, List.nil_append]
  exact List.append_nil _

theorem finishReset_regular (s : State) : Regular s (finishReset s) := by
  have h : Regular s (reinitRegs { s with statsPending := false }) :=
    Regular.trans (t := { s with statsPending := false }) ⟨rfl, id, rfl⟩ (reinitRegs_regular _)
  unfold finishReset
  dsimp only
  split
  · exact h.trans (resumeQueue_regular _)
  · exact h

theorem fullReset_regular (s : State) : Answers (Regular s) (fullReset s) := by
  rw [fullReset_eq]
  exact (((flushQueue_regular s).trans (nicReset_regular _)).thenAnswers (clearTx_regular _)).andThen fun t _ ht =>
    .next ((ht.trans (clearRx_regular t)).trans (finishReset_regular _))

end

section
variable {s t u : State}

/-! ### Transmit -/

theorem visitTx_regular (i : Nat) (s : State) : Answers (Regular s) (visitTx i s) := by
  refine (freeSentOpt_regular s.txPending s).andThen fun t _ ht => ?_
  dsimp only
  split
  · exact .next ht.congr
  · exact .next ht.congr

theorem reclaimOne_regular {visit : Nat → State → Out State} (hv : ∀ i s, Answers (Regular s) (visit i s))
    (s : State) : Answers (fun r => Regular s r.1) (reclaimOne visit s) := by
  have hread : Regular s (s.noteRead .tx s.txDirty .opts1) :=
    (Regular.refl s).append (l := [.descRead .tx s.txDirty .opts1]) rfl
  unfold reclaimOne
  dsimp only
  split
  · exact hread
  · have hacq : Regular s ((s.noteRead .tx s.txDirty .opts1).emit .acquire) := hread.append (l := [.acquire]) rfl
    exact (hacq.thenAnswers (hv _ _)).andThen fun t _ ht => .next ht.congr

theorem reclaimLoop_regular (k : Nat) (done : List Nat) (s : State) :
    Answers (fun r => Regular s r.1) (reclaimLoop k done s) := by
  induction k generalizing done s with
  | zero => exact Regular.refl s
  | succ k ih =>
    refine (reclaimOne_regular (fun _ s => .next (.refl s)) s).andThen fun r _ hr => ?_
    split
    · exact hr.thenFirst (ih _ _)
    · exact hr

theorem unstall_regular (s : State) : Regular s (unstall s) := by
  unfold unstall
  split
  · exact (Regular.refl s).append (l := [.resumeQueue]) rfl
  · exact .refl s

theorem ringDoorbell_regular (s : State) : Regular s (ringDoorbell s) :=
  (Regular.refl s).append (l := [.doorbell s.cfg.reg.txDoorbell s.cfg.reg.doorbellValue]) rfl

theorem endTxPass_regular (old : Nat) (s : State) : Regular s (endTxPass old s) := by
  unfold endTxPass
  dsimp only
  split
  · exact (unstall_regular s).trans (ringDoorbell_regular _)
  · exact unstall_regular s

theorem txScan_regular (k old : Nat) (s : State) : Answers (Regular s) (txScan k old s) := by
  cases k with
  | zero => exact endTxPass_regular old s
  | succ k =>
    refine (reclaimOne_regular visitTx_regular s).andThen fun r _ hr => .next ?_
    split
    · exact hr.congr
    · exact hr.trans (endTxPass_regular old r.1)

theorem writePacket_regular (first n : Nat) (cmd : Cmd) (vlan : Option Half) (j : Nat) (segs : List Segment)
    (s : State) : Regular s (writePacket first n cmd vlan j segs s) := by
  induction segs generalizing j s with
  | nil => exact .refl s
  | cons seg segs ih => exact (writeDesc_regular ..).trans (ih (j + 1) _)

theorem descWrite32_regular (ring : Ring) (i : Nat) (f : DescField) (v : Word) (s : State) :
    Regular s (s.descWrite32 ring i f v) :=
  ⟨rfl, fun w => Memory.wf_write32 w _ _, by simp; rfl⟩

theorem storeSlot_regular (i : Nat) (h : Handle) (s : State) : Regular s (storeSlot i h s) :=
  (Regular.refl s).append (l := [.slotStore i h]) rfl

theorem ownFirst_regular (first : Nat) (flags1 : Word) (len : Nat) (s : State) :
    Regular s (ownFirst first flags1 len s) :=
  Regular.trans (t := s.emit .release) ((Regular.refl s).append (l := [.release]) rfl) (descWrite32_regular ..)

theorem submitRange_regular (first n : Nat) (s : State) : Regular s (submitRange first n s) := (Regular.refl s).congr

theorem submitSegs_regular (h : Handle) (seg0 : Segment) (segs : List Segment) (cmd : Cmd) (vlan : Option Half)
    (s : State) : Regular s (submitSegs h seg0 segs cmd vlan s) := by
  have h0 : Regular s (takeDescs (segs.length + 1) s) := (Regular.refl s).congr
  have h1 := h0.trans (writePacket_regular s.txNext (segs.length + 1) cmd vlan 0 (seg0 :: segs) _)
  generalize hw : writePacket _ _ _ _ _ _ _ = w at h1
  unfold submitSegs
  dsimp only
  rw [hw]
  refine Regular.trans ?_ (ringDoorbell_regular _)
  refine Regular.trans ?_ (submitRange_regular ..)
  exact (h1.trans (storeSlot_regular ..)).trans (ownFirst_regular ..)

theorem preparePacket_regular (h : Handle) (s : State) : Regular s (preparePacket h s) :=
  (Regular.refl s).append (l := [.dmaPrepare (.packet h)]) rfl

theorem raise_regular (c : ErrCause) (s : State) : Regular s (s.raise c) :=
  (Regular.refl s).append (l := [.raised c]) rfl

theorem completePacket_regular (h : Handle) (s : State) : Regular s (completePacket h s) := by
  unfold completePacket
  split
  · exact (Regular.refl s).append (l := [.dmaComplete (.packet h)]) rfl
  · exact .refl s

theorem dropConfig_performed (cause : ErrCause) (h : Handle) (s : State) :
    Answers (Performed s) (dropConfig cause h s) :=
  ((raise_regular cause s).congr.thenAnswers (freePacket_regular h _)).andThen fun _ _ ht => .next (ht.performed nofun)

theorem stallSubmit_performed (h : Handle) (s : State) : Performed s (stallSubmit h s) := by
  have h1 : Regular s { s.raise .backpressure with txStalled := true } := (raise_regular .backpressure s).congr
  exact ((h1.trans (completePacket_regular h _)).congr (u := returnPacket h _) rfl rfl rfl).performed nofun

/-- TX.SUBMIT once the engine holds the packet (R145): dropped, stalled or submitted. -/
theorem submitHeld_performed (p : Packet) (s : State) : Answers (Performed s) (submitHeld p s) := by
  have hp := preparePacket_regular p.h s
  unfold submitHeld
  split
  · exact ((raise_regular _ s).thenAnswers (freePacket_regular p.h _)).andThen fun _ _ ht => .next (ht.performed nofun)
  · dsimp only
    split
    · exact hp.thenPerformed (dropConfig_performed ..)
    · exact hp.thenPerformed (dropConfig_performed ..)
    · split
      · exact hp.thenPerformed (dropConfig_performed ..)
      · split
        · exact hp.thenPerformed (x := .next _) (stallSubmit_performed ..)
        · exact (hp.trans (submitSegs_regular ..)).performed nofun

/-! ### Receive -/

theorem acquisitionFailed_regular (s : State) : Regular s (acquisitionFailed s) :=
  Regular.trans (t := countResourceErrors s) (Regular.refl s).congr (raise_regular _ _)

theorem holdBuffer_regular (h : Handle) (s : State) : Regular s (holdBuffer h s) :=
  (Regular.refl s).append (l := [.dmaPrepare (.buffer h)]) rfl

theorem acquire_regular (i : Nat) (a : Acquisition) (len : Nat) (opts : DeliverOpts) (s : State) :
    Answers (fun r => Regular s r.1) (acquire i a len opts s) := by
  cases a with
  | failed => exact acquisitionFailed_regular s
  | replaced h regions =>
    dsimp only [acquire]
    split
    · rename_i old _
      unfold acquireReplaced
      split
      · trivial
      · dsimp only
        split
        · exact ((holdBuffer_regular h s).thenAnswers (freeBuffer_regular h _)).andThen fun t _ ht =>
            .next (ht.trans (acquisitionFailed_regular t))
        · split
          · trivial
          · exact (holdBuffer_regular h s).append
              (l := [.dmaComplete (.buffer old.h), .deliverPacket old.h len opts]) rfl rfl rfl
              (by simp [replaceBuffer, deliver])
    · exact .fault _
  | copied h size =>
    dsimp only [acquire]
    split
    · rename_i old _
      unfold acquireCopied
      split
      · exact acquisitionFailed_regular s
      · split
        · trivial
        · exact (Regular.refl s).append (l := [.copyBytes old.h h len, .deliverPacket h len opts]) rfl
            rfl rfl (by simp [deliver])
    · exact .fault _

theorem handleRx_regular (s : State) : Answers (fun r => Regular s r.1) (handleRx s) := by
  have hread : Regular s ((s.emit .acquire).noteRead .rx s.rxIndex .opts2) :=
    (Regular.refl s).append (l := [.acquire, .descRead .rx s.rxIndex .opts2]) rfl rfl rfl (by simp)
  unfold handleRx
  dsimp only
  split
  · exact hread.thenFirst (x := .next (_, false)) (Regular.trans (t := countFrameTooLong _) (Regular.refl _).congr
      (raise_regular _ _))
  · split
    · exact .fault _
    · exact (hread.congr (u := { (s.emit .acquire).noteRead .rx s.rxIndex .opts2 with
        acquisitions := _ })).thenFirst (acquire_regular ..)

theorem rearm_regular (i : Nat) (s : State) : Regular s (rearm i s) := writeDesc_regular ..

theorem rearmAdvance_regular (s : State) : Regular s (rearmAdvance s) := by
  have h := rearm_regular s.rxIndex s
  unfold rearmAdvance
  generalize rearm s.rxIndex s = t at h ⊢
  exact h.congr

theorem rxNext_regular (d : Bool) (s : State) : Answers (Regular s) (rxNext d s) := by
  have hread : Regular s (s.noteRead .rx s.rxIndex .opts1) :=
    (Regular.refl s).append (l := [.descRead .rx s.rxIndex .opts1]) rfl
  unfold rxNext
  dsimp only
  split
  · refine .next ?_
    split
    · exact hread.append (l := [.flushInputQueue]) rfl
    · exact hread
  · refine (hread.thenFirst (handleRx_regular _)).andThen fun r _ hr => .next ?_
    exact (hr.trans (rearmAdvance_regular r.1)).congr

end

section
variable {s t : State}

/-! ### ENABLE and DISABLE -/

theorem freeSlots_regular (n : Nat) (s : State) : Answers (Regular s) (freeSlots n s) := by
  induction n generalizing s with
  | zero => exact .refl s
  | succ n ih =>
    unfold freeSlots
    split
    · exact (freeBuffer_regular _ s).andThen fun t _ ht => Regular.thenAnswers ht.congr (ih _)
    · exact .fault _

theorem freeMems_regular (s : State) : Answers (Regular s) (freeMems s) :=
  (freeStMem_regular s).andThen fun t _ ht => (ht.thenAnswers (freeRxMem_regular t)).andThen fun u _ hu =>
    hu.thenAnswers (freeTxMem_regular u)

theorem fatalInit_performed (s : State) : Performed s (fatalInit s) := (raise_regular .fatalInit s).performed nofun

theorem fail2_performed (s : State) : Answers (Performed s) (fail2 s) :=
  (freeTxMem_regular s).andThen fun t _ ht => ht.thenPerformed (x := .next _) (fatalInit_performed t)

theorem fail3_performed (s : State) : Answers (Performed s) (fail3 s) :=
  (freeRxMem_regular s).andThen fun t _ ht => ht.thenPerformed (fail2_performed t)

theorem fail4_performed (i : Nat) (s : State) : Answers (Performed s) (fail4 i s) :=
  (freeSlots_regular i s).andThen fun t _ ht => (ht.thenAnswers (freeStMem_regular t)).andThen fun u _ hu =>
    hu.thenPerformed (fail3_performed u)

theorem fillSlot_regular (i : Nat) (draw : Option BufferDraw) (s : State) :
    Answers (fun r => Regular s r.1) (fillSlot i draw s) := by
  unfold fillSlot
  split
  · exact Regular.refl s
  · rename_i b
    split
    · trivial
    · dsimp only
      split
      · exact ((holdBuffer_regular b.h s).thenAnswers (freeBuffer_regular b.h _)).andThen fun _ _ ht => .next ht
      · split
        · trivial
        · exact .next (holdBuffer_regular b.h s).congr

theorem fillSlots_regular (k i : Nat) (draws : List (Option BufferDraw)) (s : State) :
    Answers (fun r => Regular s r.1) (fillSlots k i draws s) := by
  induction k generalizing i draws s with
  | zero => exact Regular.refl s
  | succ k ih =>
    refine (fillSlot_regular i (draws.headD none) s).andThen fun r _ hr => ?_
    split
    · exact hr.thenFirst (ih _ _ _)
    · exact hr

theorem firstCounters_regular (s : State) : Regular s (firstCounters s) := (Regular.refl s).congr

theorem bringUp_performed (s : State) : Answers (Performed s) (bringUp s) := by
  have h0 : Regular s { s with txSlot := List.replicate s.cfg.nTx none, txPending := none } := (Regular.refl s).congr
  refine (h0.thenAnswers (clearTx_regular _)).andThen fun t _ ht => ?_
  have h1 : Regular s { clearRx t with
      link := { (clearRx t).link with up := false }, txqEnabled := false, statsPending := false } :=
    (ht.trans (clearRx_regular t)).congr
  have h2 := ((h1.trans (firstCounters_regular _)).trans (nicReset_regular _)).trans (reinitRegs_regular _)
  exact Regular.performed (h2.append (l := [.startTimer]) rfl) nofun

theorem enableBuffers_performed (draws : List (Option BufferDraw)) (s : State) :
    Answers (Performed s) (enableBuffers draws s) := by
  have h0 : Regular s { s with rxSlot := List.replicate s.cfg.nRx none } := (Regular.refl s).congr
  refine (h0.thenFirst (fillSlots_regular _ _ _ _)).andThen fun r _ hr => ?_
  split
  · exact hr.thenPerformed (fail4_performed _ _)
  · exact hr.thenPerformed (bringUp_performed _)

/-- ENABLE from its first allocation on (R200, R201). -/
theorem enableFrom_performed (d : EnableDraws) (s : State) : Answers (Performed s) (enableFrom d s) := by
  unfold enableFrom
  split
  · exact fatalInit_performed s
  · rename_i m1 _
    have h1 : Regular s { s with txMem := some m1, history := s.history ++ [.dmaPrepare .txRing] } :=
      (Regular.refl s).append (l := [.dmaPrepare .txRing]) rfl
    generalize State.mk .. = s1 at h1 ⊢
    refine h1.thenPerformed ?_
    unfold enableRxRing
    split
    · exact fail2_performed s1
    · rename_i m2 _
      have h2 : Regular s1 { s1 with rxMem := some m2, history := s1.history ++ [.dmaPrepare .rxRing] } :=
        (Regular.refl s1).append (l := [.dmaPrepare .rxRing]) rfl
      split
      · trivial
      · generalize State.mk .. = s2 at h2 ⊢
        refine h2.thenPerformed ?_
        unfold enableStats
        split
        · exact fail3_performed s2
        · split
          · trivial
          · refine Regular.thenPerformed ?_ (enableBuffers_performed ..)
            exact (Regular.refl s2).append (l := [.dmaPrepare .stats]) rfl

theorem dropUnspecified_regular (s : State) : Regular s (dropUnspecified s) := (Regular.refl s).congr

theorem writeIntrMask_regular (v : Half) (s : State) : Regular s (writeIntrMask v s) :=
  (Regular.refl s).append (l := [.regWrite s.cfg.reg.intrMask 16 (v.setWidth 64)]) rfl rfl rfl rfl

theorem stopQueue_regular (s : State) : Regular s (stopQueue s) :=
  Regular.trans (t := closeQueue s) (Regular.refl s).congr (flushQueue_regular _)

theorem bringDown_regular (s : State) : Answers (Regular s) (bringDown s) := by
  have h0 : Regular s (State.emit { s with enabled := false, timerOn := false } .stopTimer) :=
    (Regular.refl s).append (l := [.stopTimer]) rfl
  have h1 := (h0.trans (writeIntrMask_regular 0#16 _)).trans (stopQueue_regular _)
  refine ((h1.trans (nicReset_regular _)).thenAnswers (clearTx_regular _)).andThen fun t _ ht => ?_
  exact (ht.thenAnswers (freeSlots_regular _ t)).andThen fun u _ hu => Regular.thenAnswers hu.congr (freeMems_regular _)

/-! ### The monitor and IRQ -/

theorem linkUp_regular (p : LinkParams) (s : State) : Regular s (linkUp p s) :=
  (Regular.refl s).append
    (l := [.applyLinkTuning, .resumeQueue, .reportLinkStatus true (some (p.speed, p.duplex))]) rfl rfl rfl
    (by simp [linkUp])

theorem beginLinkDown_regular (s : State) : Regular s (beginLinkDown s) := (Regular.refl s).congr

theorem tickLink_regular (v : Byte) (s : State) : Regular s (tickLink v s) := by
  have hread : Regular s (s.emit (.regRead s.cfg.reg.linkStatus 8 (v.setWidth 64))) :=
    (Regular.refl s).append (l := [.regRead s.cfg.reg.linkStatus 8 (v.setWidth 64)]) rfl
  rcases tickLink_cases v s with ⟨-, e⟩ | ⟨-, -, e⟩ | ⟨-, -, e⟩
  · rw [e]; exact hread
  · rw [e]; exact hread.trans (linkUp_regular _ _)
  · rw [e]; exact hread.trans (beginLinkDown_regular _)

theorem linkDown_regular (s : State) : Answers (Regular s) (linkDown s) := by
  have h0 : Regular s (noteSeen .tx { flushQueue s with link := { (flushQueue s).link with up := false } }) :=
    (flushQueue_regular s).congr
  exact (h0.thenAnswers (clearTx_regular _)).andThen fun t _ ht =>
    .next (ht.append (l := [.reportLinkStatus false none]) rfl)

theorem tickRelease_regular (s : State) : Answers (Regular s) (tickRelease s) :=
  (freeSentOpt_regular s.txPending s).andThen fun _ _ ht => .next ht.congr

theorem requestStats_regular (s : State) : Regular s (requestStats s) := by
  unfold requestStats
  split
  · exact .refl s
  · exact Regular.trans (t := { s with statsPending := true }) (Regular.refl s).congr (writeStatsBase_regular ..)

theorem tickStats_regular (s : State) : Regular s (tickStats s) := by
  unfold tickStats
  split
  · exact requestStats_regular s
  · exact .refl s

theorem finishStats_regular (s : State) : Regular s (finishStats s) := by
  unfold finishStats
  split
  · exact (Regular.refl s).append (l := [.accumulateStats]) rfl
  · exact .refl s

theorem beginReset_regular (ends : Result) (s : State) : Regular s (beginReset ends s) := (Regular.refl s).congr

theorem dlchk_regular (rest : List Task) (ends : Result) (s : State) : Regular s (dlchk rest ends s).1 := by
  unfold dlchk
  split
  · dsimp only
    split
    · exact (Regular.refl s).append (l := [.raised .missedInterrupt]) rfl
    · split
      · exact (Regular.refl s).append (l := [.raised .txDeadlock]) rfl
      · exact (Regular.refl s).congr
  · exact (Regular.refl s).congr

theorem acknowledge_regular (s : State) : Regular s (acknowledge s) :=
  (Regular.refl s).append (l := [.regRead s.cfg.reg.intrStatus 16 ((intrStatus s).setWidth 64),
    .regWrite s.cfg.reg.intrStatus 16 ((intrStatus s).setWidth 64)]) rfl rfl rfl rfl

theorem irq_regular (s : State) : Regular s (irq s) := by
  have hack := acknowledge_regular s
  rcases irq_cases s with ⟨-, e⟩ | ⟨-, e⟩
  · rw [e]; exact hack.append (l := [.raised .busError]) rfl
  · rw [e]; exact hack.congr

/-! ### The NIC -/

theorem nicWrite32_regular (ring : Ring) (i : Nat) (f : DescField) (v : Word) (s : State) :
    Regular s (nicWrite32 ring i f v s) := ⟨rfl, fun w => Memory.wf_write32 w _ _, by simp; rfl⟩

theorem nicStoreFrame_regular (a : Nat) (frame : List Byte) (s : State) : Regular s (nicStoreFrame a frame s) :=
  ⟨rfl, fun w => Memory.wf_writeBytes w _ _, by simp; rfl⟩

theorem fillDesc_regular (i : Nat) (frame : List Byte) (x : RxStatus) (w : Word) (a : Addr) (s : State) :
    Regular s (fillDesc i frame x w a s) :=
  ((nicStoreFrame_regular ..).trans (nicWrite32_regular ..)).trans (nicWrite32_regular ..)

theorem txDone_regular (i : Nat) (d : TxDoneDraws) (s : State) : Answers (Regular s) (txDone i d s) := by
  unfold txDone
  split
  · trivial
  · split
    · trivial
    · rename_i x _
      split
      · exact .fault _
      · have hstore := nicWrite32_regular .tx i .opts1 (clearBit x.word s.cfg.layout.own) s
        refine .next ?_
        split
        · exact hstore.congr
        · exact hstore.congr

theorem rxFill_regular (i : Nat) (frame : List Byte) (x : RxStatus) (d : RxFillDraws) (s : State) :
    Answers (Regular s) (rxFill i frame x d s) := by
  unfold rxFill
  split
  · trivial
  · split
    · trivial
    · rename_i w a _
      split
      · trivial
      · split
        · exact .fault _
        · have hstore := fillDesc_regular i frame x w a s
          refine .next ?_
          split
          · exact hstore.congr
          · exact hstore.congr

end

section
variable {s t : State}

/-! ### Operations and tasks -/

/-- A pure operation behind its guard. -/
theorem performed_of_pure {agents : List Agent} {need : Need} {res : State → Result}
    (h : guarded agents need s (fun s => .next (s.withResult (res s))) = .next t) (hres : ∀ r, res s ≠ .refused r) :
    Refused s t ∨ Performed s t :=
  (pure_next h).imp_right fun ⟨_, e⟩ => e ▸ (Regular.refl s).performed hres

theorem segTx_cases {regions : List Region} (h : execSegTx regions s = .next t) : Refused s t ∨ Performed s t := by
  rcases guarded_eq_next h with ⟨r, -, rfl⟩ | ⟨-, h⟩
  · exact .inl ⟨r, rfl⟩
  · split at h
    · cases h; exact .inl ⟨_, rfl⟩
    · split at h <;> cases h
      · exact .inr ((Regular.refl s).performed nofun)
      · exact .inr ((Regular.refl s).performed nofun)

theorem segRx_cases {regions : List Region} (h : execSegRx regions s = .next t) : Refused s t ∨ Performed s t := by
  rcases guarded_eq_next h with ⟨r, -, rfl⟩ | ⟨-, h⟩
  · exact .inl ⟨r, rfl⟩
  · split at h
    · cases h; exact .inl ⟨_, rfl⟩
    · split at h <;> cases h
      · exact .inr ((Regular.refl s).performed nofun)
      · exact .inr ((Regular.refl s).performed nofun)

theorem format_cases {f : DescFormat} {fits : Bool} {w : Layout → Word} (h : descResult f fits w s = .next t) :
    Refused s t ∨ Performed s t := by
  unfold descResult at h
  split at h
  · cases h; exact .inl ⟨_, rfl⟩
  · split at h <;> cases h
    · exact .inr ((Regular.refl s).performed nofun)
    · exact .inl ⟨_, rfl⟩

theorem cmdResult_ne_refused (o : Option Cmd) (r : RefusedReason) : cmdResult o ≠ .refused r := by
  cases o <;> nofun

theorem ringWrite_cases {ring : Ring} {index : Nat} {seg : Segment} {flags1 flags2 : Word} {own : Bool}
    (h : execRingWrite ring index seg flags1 flags2 own s = .next t) : Refused s t ∨ Performed s t := by
  refine (execRingWrite_next h).imp_right ?_
  rintro ⟨-, -, -, rfl⟩
  have hw := writeDesc_regular ring index seg flags1 flags2 own s
  split
  · exact (hw.congr (u := submitIndex index _)).performed nofun
  · exact hw.performed nofun

theorem takeDraws_regular (draws : List Acquisition) (s : State) : Regular s (takeDraws draws s) :=
  (Regular.refl s).congr

theorem noteSeen_regular (ring : Ring) (s : State) : Regular s (noteSeen ring s) := (Regular.refl s).congr

theorem txQuiesce_regular (s : State) : Answers (Regular s) (txQuiesce s) := by
  unfold txQuiesce
  split
  · trivial
  · split
    · exact .next (Regular.refl s).congr
    · trivial

/-- Every operation but TX.SUBMIT is refused or performed. -/
theorem exec_cases {i : Instr} (hs : ∀ p, i ≠ .txSubmit p) (h : exec i s = .next t) :
    Refused s t ∨ Performed s t := by
  have hrefl := Regular.refl s
  unfold exec at h
  cases i with
  | ringAlloc n =>
    refine (execRingAlloc_next h).imp_right ?_
    rintro ⟨-, -, -, ⟨-, rfl⟩ | ⟨-, rfl⟩⟩
    · exact (raise_regular _ s).performed nofun
    · exact (hrefl.congr (u := takeDescs n s)).performed nofun
  | ringWrite ring index seg flags1 flags2 own => exact ringWrite_cases h
  | ringReclaim =>
    refine (execRingReclaim_next h).imp_right ?_
    rintro ⟨-, r, hr, rfl⟩
    exact Regular.performed ((reclaimLoop_regular _ _ s).of_eq_next hr) nofun
  | ringClearTx =>
    refine (execRingClearTx_next h).imp_right ?_
    rintro ⟨-, -, u, hu, rfl⟩
    exact ((noteSeen_regular .tx s).trans ((clearTx_regular _).of_eq_next hu)).performed nofun
  | ringClearRx =>
    refine (execRingClearRx_next h).imp_right ?_
    rintro ⟨-, rfl⟩
    exact ((noteSeen_regular .rx s).trans (clearRx_regular _)).performed nofun
  | segTx regions => exact segTx_cases h
  | segRx regions => exact segRx_cases h
  | encV1 off => exact performed_of_pure h (cmdResult_ne_refused _)
  | encV2 off => exact performed_of_pure h (cmdResult_ne_refused _)
  | encVlan vlan => exact performed_of_pure h nofun
  | txSubmit p => exact absurd rfl (hs p)
  | txIrq =>
    refine (execTxIrq_next h).imp_right ?_
    rintro ⟨-, u, hu, rfl⟩
    exact ((txScan_regular _ _ s).of_eq_next hu).performed nofun
  | txDlchk =>
    refine (execTxDlchk_next h).imp_right ?_
    rintro ⟨-, rfl⟩
    exact (dlchk_regular [] .didReset s).performed fun r => by cases (dlchk [] .didReset s).2 <;> nofun
  | rxIrq draws =>
    refine (execRxIrq_next h).imp_right ?_
    rintro ⟨-, -, u, hu, rfl⟩
    exact ((takeDraws_regular draws s).trans ((rxNext_regular _ _).of_eq_next hu)).performed nofun
  | rxCsumV1 w1 w2 => exact performed_of_pure h nofun
  | rxCsumV2 w1 w2 => exact performed_of_pure h nofun
  | rxVlan w2 => exact performed_of_pure h nofun
  | timerTick v =>
    refine (execTimerTick_next h).imp_right ?_
    rintro ⟨-, -, rfl⟩
    exact ((tickLink_regular v s).congr (u := tickRest _)).performed nofun
  | linkUp p =>
    refine (execLinkUp_next h).imp_right ?_
    rintro ⟨-, -, rfl⟩
    exact (linkUp_regular p s).performed nofun
  | linkDown =>
    refine (execLinkDown_next h).imp_right ?_
    rintro ⟨-, -, rfl⟩
    exact (beginLinkDown_regular s).performed nofun
  | resetFull =>
    refine (execResetFull_next h).imp_right ?_
    rintro ⟨-, rfl⟩
    exact (beginReset_regular .none s).performed nofun
  | irq draws =>
    refine (execIrq_next h).imp_right ?_
    rintro ⟨-, -, rfl⟩
    exact ((takeDraws_regular draws s).trans (irq_regular _)).performed nofun
  | statsReq =>
    refine (execStatsReq_next h).imp_right ?_
    rintro ⟨-, -, rfl⟩
    exact (requestStats_regular s).performed nofun
  | statsDone =>
    refine (execStatsDone_next h).imp_right ?_
    rintro ⟨-, rfl⟩
    exact (finishStats_regular s).performed nofun
  | enable d =>
    refine (execEnable_next h).imp_right ?_
    rintro ⟨-, -, -, hu⟩
    exact ((dropUnspecified_regular s).thenPerformed (enableFrom_performed d _)).of_eq_next hu
  | disable =>
    refine (execDisable_next h).imp_right ?_
    rintro ⟨-, -, u, hu, rfl⟩
    exact ((bringDown_regular s).of_eq_next hu).performed nofun
  | nicTxDone i d =>
    refine (execNicTxDone_next h).imp_right ?_
    rintro ⟨-, -, u, hu, rfl⟩
    exact ((txDone_regular i d s).of_eq_next hu).performed nofun
  | nicRxFill i frame x d =>
    refine (execNicRxFill_next h).imp_right ?_
    rintro ⟨-, -, u, hu, rfl⟩
    exact ((rxFill_regular i frame x d s).of_eq_next hu).performed nofun
  | nicIrqRaise c =>
    refine (execNicIrqRaise_next h).imp_right ?_
    rintro ⟨-, rfl⟩
    exact (hrefl.congr (u := latchCause c s)).performed nofun
  | nicReset =>
    refine (execNicReset_next h).imp_right ?_
    rintro ⟨-, rfl⟩
    exact (nicReset_regular s).performed nofun
  | nicTxQuiesce =>
    refine (execNicTxQuiesce_next h).imp_right ?_
    rintro ⟨-, u, hu, rfl⟩
    exact ((txQuiesce_regular s).of_eq_next hu).performed nofun
  | txd1V1Csum | txd1V1Tso | txd1V2 | txd2V1 | txd2V2 | rxdArmed | rxd1V1 | rxd1V2 | rxd2V1 | rxd2V2 =>
    exact format_cases h

/-- An operation that answers next was refused, which is all it records, or performed (R236). -/
theorem exec_refused_or_performed {i : Instr} (h : exec i s = .next t) :
    (∃ r, t = { s with history := s.history ++ [.refused r], result := refusedResult i r }) ∨ Performed s t := by
  by_cases hs : ∃ p, i = .txSubmit p
  · obtain ⟨p, rfl⟩ := hs
    rcases execTxSubmit_next h with ⟨r, rfl⟩ | ⟨-, -, -, hu⟩
    · refine .inl ⟨r, ?_⟩
      unfold submitRefused refusedResult
      split <;> rfl
    · have hhold : Regular s (holdPacket p.h s) := (Regular.refl s).congr
      exact .inr ((hhold.thenPerformed (submitHeld_performed p _)).of_eq_next hu)
  · refine (exec_cases (fun p hp => hs ⟨p, hp⟩) h).imp_left ?_
    rintro ⟨r, rfl⟩
    refine ⟨r, ?_⟩
    cases i
    case txSubmit p => exact absurd ⟨p, rfl⟩ hs
    all_goals rfl

theorem refusedResult_eq {i : Instr} {r r' : RefusedReason} (h : refusedResult i r = .refused r') : r = r' := by
  unfold refusedResult at h
  split at h
  · split at h
    · injection h
    · cases h
  · injection h

theorem runTask_regular (x : Task) (s : State) : Answers (Regular s) (runTask x s) := by
  cases x with
  | rxNext d => exact rxNext_regular d s
  | txBegin => exact txScan_regular _ _ s
  | txScan k old => exact txScan_regular k old s
  | dlSnapshot => exact .next (Regular.refl s).congr
  | tickRelease => exact tickRelease_regular s
  | tickCheck => exact dlchk_regular _ _ s
  | tickStats => exact tickStats_regular s
  | statsDone => exact finishStats_regular s
  | resetRest _ => exact fullReset_regular s
  | linkDownRest => exact linkDown_regular s

end

/-- Settles O6: an operation is refused, which leaves the record alone, or performed, which neither returns nor
records a refusal. -/
theorem refusedInvocationOnlyRecorded : Obligations.RefusedInvocationOnlyRecorded := by
  refine ⟨fun i s t r h hr => ?_, fun i s t r h hh => ?_⟩
  · rcases exec_refused_or_performed h with ⟨r', rfl⟩ | hp
    · have hres : refusedResult i r' = .refused r := hr
      obtain rfl := refusedResult_eq hres
      rw [hres]
    · exact absurd hr (hp.2 r)
  · rcases exec_refused_or_performed h with ⟨r', rfl⟩ | hp
    · have he : r' = r := by simpa using hh
      rw [he]
    · have hnew := hp.1.refusals
      rw [hh, refusalsOf_append] at hnew
      exact absurd hnew (by simp [refusalsOf])

/-- What O8 asks of a step, of everything that follows the state `s`. -/
def KeepsForm (s t : State) : Prop := t.cfg = s.cfg ∧ (s.mem.wf → t.mem.wf)

theorem exec_keepsForm {i : Instr} {s t : State} (h : exec i s = .next t) : KeepsForm s t := by
  rcases exec_refused_or_performed h with ⟨r, rfl⟩ | hp
  · exact ⟨rfl, id⟩
  · exact ⟨hp.1.cfg, hp.1.mem⟩

/-- Settles O8: no operation and no task changes the configuration or the memory's form. -/
theorem stepKeepsConfigurationAndMemoryForm : Obligations.StepKeepsConfigurationAndMemoryForm := by
  intro s t h
  refine step_keeps (P := KeepsForm s) (fun u x rest hu => hu) (fun u x rest hu => hu) (fun u r hu => hu)
    (fun i u v hu hv => ?_) (fun x rest u v hu _ hv => ?_) ⟨rfl, id⟩ h
  · have hk := exec_keepsForm hv
    exact ⟨hk.1.trans hu.1, fun w => hk.2 (hu.2 w)⟩
  · have hk : Regular (takeTask rest u) v := (runTask_regular x _).of_eq_next hv
    exact ⟨hk.cfg.trans hu.1, fun w => hk.mem (hu.2 w)⟩

end Sys2Proof.Machine
end

section
/-! SUPPORT. O35: the ways TX.SUBMIT drops a packet (R145, R146). -/

namespace Sys2Proof.Machine

-- One declaration at a time: each thread of the elaborator reserves a stack of its own.
set_option Elab.async false

theorem regionOk_eq_false {c : Cfg} {r : Region} (h : 2 ^ 64 < r.pa.toNat + r.len ∨ 2 ^ c.layout.txlen.w - 1 < r.len) :
    regionOk c r = false := by
  unfold regionOk segLenMax maxOf
  rcases h with h | h
  · rw [decide_eq_false (by omega), Bool.false_and]
  · rw [decide_eq_false (p := r.len ≤ 2 ^ c.layout.txlen.w - 1) (by omega), Bool.and_false]

/-- The four cases of R138 are those in which neither encoder has command bits. -/
theorem unsupported_of_offloadUnsupported {c : Cfg} {off : OffloadReq} (h : OffloadUnsupported c off) :
    unsupported c off = true := by
  unfold unsupported mssMax maxOf
  rcases h with h | ⟨h1, h2⟩ | ⟨h1, h2⟩ | ⟨h1, h2 | h2⟩
  · simp [h]
  · simp [h1, h2]
  · simp [h1, h2]
  · simp [h1, h2]
  · simp [h1, h2]

theorem encodeOffload_eq_none {c : Cfg} {off : OffloadReq} (h : OffloadUnsupported c off) :
    encodeOffload c off = none := by
  have hu := unsupported_of_offloadUnsupported h
  have h1 : encodeV1 c off = none := if_pos hu
  have h2 : encodeV2 c off = none := if_pos hu
  rw [encodeOffload, h1, h2, ite_self]

/-- A handle the engine does not hold stands in none of its held packets. -/
theorem not_holdsPacket {s : State} {h : Handle} (hn : s.holdsPacket h = false) : ∀ p ∈ s.heldPackets, p.h ≠ h := by
  simpa [State.holdsPacket] using hn

/-- The engine is rid of a packet it had just taken. -/
theorem filter_holdPacket {s : State} {h : Handle} (hn : s.holdsPacket h = false) (life : DmaLife) :
    ((⟨h, life⟩ :: s.heldPackets).filter (·.h != h)) = s.heldPackets := by
  rw [List.filter_cons_of_neg (by simp), List.filter_eq_self]
  simpa using not_holdsPacket hn

/-- A packet the engine takes and the segmenter prepares: its mapping is the one new event (R59). -/
theorem preparePacket_holdPacket {s : State} {h : Handle} (hn : s.holdsPacket h = false) :
    preparePacket h (holdPacket h s) = { s with
      heldPackets := ⟨h, .prepared⟩ :: s.heldPackets, history := s.history ++ [.dmaPrepare (.packet h)] } := by
  have hmap : s.heldPackets.map (fun p => if p.h == h then ⟨p.h, .prepared⟩ else p) = s.heldPackets := by
    refine (List.map_congr_left fun p hp => ?_).trans (List.map_id _)
    rw [if_neg (by simpa using not_holdsPacket hn p hp)]
    rfl
  unfold preparePacket holdPacket
  rw [List.map_cons, hmap]
  simp

/-- Freeing the packet the engine took last, `life` its mapping's state: the state is as it was before, and the
mapping is completed if it was prepared (R8, R59). -/
theorem freePacket_taken {s : State} {h : Handle} (hn : s.holdsPacket h = false) (life : DmaLife) :
    freePacket h { s with heldPackets := ⟨h, life⟩ :: s.heldPackets } = .next { s with
      history := s.history ++ ((if life = .prepared then [.dmaComplete (.packet h)] else []) ++ [.freePacket h]) } := by
  have hheld : State.holdsPacket { s with heldPackets := ⟨h, life⟩ :: s.heldPackets } h = true := by
    simp [State.holdsPacket]
  have hany : s.heldPackets.any (fun p => p.h == h && p.life == .prepared) = false := by
    simpa using fun p hp he => absurd he (not_holdsPacket hn p hp)
  rw [freePacket_held hheld, filter_holdPacket hn]
  simp [freeEvents, hany]

/-- A packet whose segments or whose request are refused is counted and freed (R146). -/
theorem dropConfig_taken {s : State} {h : Handle} (hn : s.holdsPacket h = false) (cause : ErrCause) :
    dropConfig cause h (preparePacket h (holdPacket h s)) = .next { s with
      ctrTxDrops := (s.ctrTxDrops + 1) % 2 ^ s.cfg.ctrW
      history := s.history ++ [.dmaPrepare (.packet h), .raised cause, .dmaComplete (.packet h), .freePacket h]
      result := .dropped } := by
  have hfree := freePacket_taken
    (s := countTxDrops (State.raise { s with history := s.history ++ [Event.dmaPrepare (.packet h)] } cause))
    (h := h) hn .prepared
  rw [preparePacket_holdPacket hn, dropConfig]
  refine (congrArg (andThen · _) hfree).trans ?_
  simp [countTxDrops, countUp, State.raise, State.emit, State.withResult]

/-! ### The branches of TX.SUBMIT, the engine holding the packet (R145, R146) -/

theorem submitHeld_down {p : Packet} {s : State} (h : s.link.up = false ∨ s.txqEnabled = false) :
    submitHeld p s = andThen (freePacket p.h (s.raise .linkDownDrop)) fun t => .next (t.withResult .dropped) :=
  if_pos h

theorem submitHeld_noSegments {p : Packet} {s : State} (hup : s.link.up = true) (hq : s.txqEnabled = true)
    (hseg : segmentTx s.cfg p.regions = none ∨ segmentTx s.cfg p.regions = some []) :
    submitHeld p s = dropConfig .tooManySegments p.h (preparePacket p.h s) := by
  rw [submitHeld, if_neg (by simp [hup, hq])]
  rcases hseg with hseg | hseg
  · simp only [hseg]
  · simp only [hseg]

theorem submitHeld_unsupported {p : Packet} {s : State} {segs : List Segment} (hup : s.link.up = true)
    (hq : s.txqEnabled = true) (hseg : segmentTx s.cfg p.regions = some segs) (hne : segs ≠ [])
    (henc : encodeOffload s.cfg p.off = none) :
    submitHeld p s = dropConfig .unsupportedOffload p.h (preparePacket p.h s) := by
  obtain ⟨seg0, rest, rfl⟩ := List.exists_cons_of_ne_nil hne
  rw [submitHeld, if_neg (by simp [hup, hq])]
  simp only [hseg, henc]

/-- What the guard of TX.SUBMIT lets through (R236). -/
theorem execTxSubmit_admitted {s : State} (p : Packet) (hr : Ready .submitter s) (hu : TxUsable s) :
    execTxSubmit p s =
      if regionsOk s.cfg p.regions = false then .next (submitRefused .operandRange s)
      else if s.holdsPacket p.h then .refused .hostNotHolder
      else submitHeld p (holdPacket p.h s) := by
  have hpre : precheck [.submitter] .tx s = none :=
    precheck_eq_none.2 ⟨by simp [hr.1.caller], hr.1.cfg, hr.2, hu⟩
  rw [execTxSubmit, guardedBy, hpre]
  simp only [hr.1.overlaps, Bool.false_eq_true, if_false]

/-- Settles O35: each clause is one branch of TX.SUBMIT, in the order the branches stand in. -/
theorem txSubmitDropsAndFrees : Obligations.TxSubmitDropsAndFrees := by
  intro p s hr hu
  rw [show exec (.txSubmit p) s = _ from execTxSubmit_admitted p hr hu]
  refine ⟨?_, fun hreg hh => ?_, fun hreg hh => ?_⟩
  · rintro ⟨r, hm, hbad⟩
    have hreg : regionsOk s.cfg p.regions = false :=
      List.all_eq_false.2 ⟨r, hm, by simp [regionOk_eq_false hbad]⟩
    rw [if_pos hreg]
    rfl
  · rw [if_neg (by simp [hreg]), if_pos hh]
  · rw [if_neg (by simp [hreg]), if_neg (by simp [hh])]
    refine ⟨fun hdown => ?_, fun hup hq hseg => ?_, fun segs hup hq hseg hne hoff => ?_⟩
    · have hfree := freePacket_taken (s := s.raise .linkDownDrop) (h := p.h) hh .allocated
      rw [submitHeld_down (s := holdPacket p.h s) hdown]
      refine (congrArg (andThen · _) hfree).trans ?_
      simp [State.raise, State.emit, State.withResult]
    · rw [submitHeld_noSegments (s := holdPacket p.h s) hup hq hseg, dropConfig_taken hh]
    · rw [submitHeld_unsupported (s := holdPacket p.h s) hup hq hseg hne (encodeOffload_eq_none hoff),
        dropConfig_taken hh]

end Sys2Proof.Machine
end

section
/-! SUPPORT. What a step can do, said once: every operation past its guard and every task, with the state it leaves
written out over the state it found. The invariants of the block are then case analyses over these effects. -/

namespace Sys2Proof.Machine

-- One declaration at a time: each thread of the elaborator reserves a stack of its own.
set_option Elab.async false

/-! ### What an operation leaves -/

/-- Only the record and the result are new: a refusal, a result that is computed, or a stall of RING.ALLOC. -/
def Recorded (s t : State) : Prop := ∃ l res,
  (l = [] ∨ (∃ r, l = [.refused r]) ∨ l = [.raised .backpressure]) ∧
    t = { s with history := s.history ++ l, result := res }

/-- What ENABLE has acquired when it comes to step E5 (R200): three memories apart from each other, and the receive
buffers, in the state `v`. -/
structure Acquired (d : EnableDraws) (s : State) (m1 m2 m3 : DmaMem) (v : State) : Prop where
  tx   : allocDma (descSize * s.cfg.nTx) s.cfg.ringAlign d.tx = some m1
  rx   : allocDma (descSize * s.cfg.nRx) s.cfg.ringAlign d.rx = some m2
  st   : allocDma s.cfg.statsSize s.cfg.statsAlign d.st = some m3
  apart : [m1, m2, m3].Pairwise memsApart
  fill : ∃ hist, fillSlots s.cfg.nRx 0 d.bufs { s with
    txMem := some m1, rxMem := some m2, stMem := some m3, rxSlot := List.replicate s.cfg.nRx none
    history := hist } = .next (v, none)

/-- What each operation leaves once it is admitted, up to its result: the equation says what ran, the state which
fields it may have written. -/
inductive Effect (s : State) : Instr → State → Prop
  | ringAlloc (n : Nat) (pos : 1 ≤ n) (fits : n ≤ s.cfg.kMaxSegs) (free : (n : Int) < s.txFree) :
      Effect s (.ringAlloc n) (takeDescs n s)
  | ringWrite (ring : Ring) (index : Nat) (seg : Segment) (flags1 flags2 : Word) (own : Bool) (mem : Memory)
      (hist : List Event) (unsub : List Nat) (range : writeOperandsOk s.cfg ring index seg flags1 flags2 = true)
      (free : writeProblem ring index s = none)
      (run : (if ring = .tx ∧ own then submitIndex index (writeDesc ring index seg flags1 flags2 own s)
        else writeDesc ring index seg flags1 flags2 own s) =
          { s with mem := mem, history := hist, txUnsubmitted := unsub }) :
      Effect s (.ringWrite ring index seg flags1 flags2 own)
        { s with mem := mem, history := hist, txUnsubmitted := unsub }
  | ringReclaim (hist : List Event) (dirty : Nat) (free : Int) (count : Nat) (unsub l : List Nat)
      (run : reclaimLoop (outstandingCount s) [] s = .next ({ s with
        history := hist, txDirty := dirty, txFree := free, txDoneCount := count, txUnsubmitted := unsub }, l)) :
      Effect s .ringReclaim { s with
        history := hist, txDirty := dirty, txFree := free, txDoneCount := count, txUnsubmitted := unsub }
  | ringClearTx (mem : Memory) (hist : List Event) (slots : List (Option Handle)) (held : List HeldPacket)
      (run : clearTx (noteSeen .tx s) = .next { resetTxRegs (noteSeen .tx s) with
        mem := mem, history := hist, txSlot := slots, heldPackets := held }) :
      Effect s .ringClearTx { resetTxRegs (noteSeen .tx s) with
        mem := mem, history := hist, txSlot := slots, heldPackets := held }
  | ringClearRx (mem : Memory) (hist : List Event)
      (run : clearRx (noteSeen .rx s) = { noteSeen .rx s with mem := mem, history := hist, rxIndex := 0 }) :
      Effect s .ringClearRx { noteSeen .rx s with mem := mem, history := hist, rxIndex := 0 }
  | txDrop (p : Packet) (held : List HeldPacket) (hist : List Event) (drops : Nat)
      (run : submitHeld p (holdPacket p.h s) = .next { s with
        heldPackets := held, history := hist, ctrTxDrops := drops, result := .dropped }) :
      Effect s (.txSubmit p) { s with heldPackets := held, history := hist, ctrTxDrops := drops, result := .dropped }
  | txStall (p : Packet) (held : List HeldPacket) (hist : List Event)
      (run : submitHeld p (holdPacket p.h s) = .next { s with
        txStalled := true, heldPackets := held, history := hist, result := .stall }) :
      Effect s (.txSubmit p) { s with txStalled := true, heldPackets := held, history := hist, result := .stall }
  | txSend (p : Packet) (seg0 : Segment) (segs : List Segment) (cmd : Cmd) (mem : Memory) (hist : List Event)
      (unsub : List Nat) (held : List HeldPacket) (range : regionsOk s.cfg p.regions = true)
      (segments : segmentTx s.cfg p.regions = some (seg0 :: segs)) (command : encodeOffload s.cfg p.off = some cmd)
      (free : ((segs.length + 1 : Nat) : Int) < s.txFree)
      (run : submitSegs p.h seg0 segs cmd p.vlan (preparePacket p.h (holdPacket p.h s)) = { s with
        mem := mem, history := hist, txUnsubmitted := unsub, heldPackets := held
        txNext := txIdx s.cfg s.txNext (segs.length + 1)
        txFree := wrapI32 (s.txFree + -((segs.length + 1 : Nat) : Int))
        txSlot := s.txSlot.set (txIdx s.cfg s.txNext segs.length) (some p.h) }) :
      Effect s (.txSubmit p) { s with
        mem := mem, history := hist, txUnsubmitted := unsub, heldPackets := held
        txNext := txIdx s.cfg s.txNext (segs.length + 1)
        txFree := wrapI32 (s.txFree + -((segs.length + 1 : Nat) : Int))
        txSlot := s.txSlot.set (txIdx s.cfg s.txNext segs.length) (some p.h) }
  | txIrq (pend : Option Handle) (slots : List (Option Handle)) (held : List HeldPacket) (hist : List Event)
      (dirty : Nat) (free : Int) (count : Nat) (unsub : List Nat) (stalled : Bool) (l : List Task)
      (tasks : l = [] ∨ ∃ j, outstandingCount s = j + 1 ∧ l = [.txScan j s.txDirty])
      (run : txScan (outstandingCount s) s.txDirty s = .next { s with
        txPending := pend, txSlot := slots, heldPackets := held, history := hist, txDirty := dirty, txFree := free
        txDoneCount := count, txUnsubmitted := unsub, txStalled := stalled, work := l ++ s.work }) :
      Effect s .txIrq { s with
        txPending := pend, txSlot := slots, heldPackets := held, history := hist, txDirty := dirty, txFree := free
        txDoneCount := count, txUnsubmitted := unsub, txStalled := stalled, work := l ++ s.work }
  | txDlchk (warn last tmo resets : Nat) (hist : List Event) (txq : Bool) (l : List Task)
      (tasks : l = [] ∨ l = [.txBegin, .dlSnapshot] ∨ l = [.resetRest .didReset])
      (run : (dlchk [] .didReset s).1 = { s with
        deadlockWarn := warn, txDoneLast := last, ctrTimeouts := tmo, ctrResets := resets, history := hist
        txqEnabled := txq, work := l ++ s.work }) :
      Effect s .txDlchk { s with
        deadlockWarn := warn, txDoneLast := last, ctrTimeouts := tmo, ctrResets := resets, history := hist
        txqEnabled := txq, work := l ++ s.work }
  | rxIrq (draws : List Acquisition) (mem : Memory) (hist : List Event) (slots : List (Option RxBuffer))
      (bufs : List Handle) (host : List (Handle × List Byte)) (ctr ctr' : Nat) (acqs : List Acquisition) (idx : Nat)
      (l : List Task) (tasks : l = [] ∨ ∃ d, l = [.rxNext d]) (range : drawsOk s.cfg draws = true)
      (run : rxNext false (takeDraws draws s) = .next { s with
        mem := mem, history := hist, rxSlot := slots, heldBuffers := bufs, hostBufs := host
        ctrResourceErrors := ctr, ctrFrameTooLong := ctr', acquisitions := acqs, rxIndex := idx
        work := l ++ s.work }) :
      Effect s (.rxIrq draws) { s with
        mem := mem, history := hist, rxSlot := slots, heldBuffers := bufs, hostBufs := host
        ctrResourceErrors := ctr, ctrFrameTooLong := ctr', acquisitions := acqs, rxIndex := idx
        work := l ++ s.work }
  | timerTick (v : Byte) (link : LinkState) (txq : Bool) (hist : List Event) (l : List Task)
      (tasks : l = [] ∨ l = [.linkDownRest]) (stats : StUsable s)
      (run : tickLink v s = { s with link := link, txqEnabled := txq, history := hist, work := l ++ s.work }) :
      Effect s (.timerTick v) { s with
        link := link, txqEnabled := txq, history := hist, work := l ++ s.work ++ [.tickRelease, .tickCheck] }
  | linkUp (p : LinkParams) (down : s.link.up = false) : Effect s (.linkUp p) (linkUp p s)
  | linkDown (up : s.link.up = true) : Effect s .linkDown (beginLinkDown s)
  | resetFull : Effect s .resetFull (beginReset .none s)
  | irq (draws : List Acquisition) (pend : CauseSet) (hist : List Event) (resets : Nat) (txq : Bool) (l : List Task)
      (tasks : l = [.resetRest .none] ∨ ∃ p, l = passesFor p) (range : drawsOk s.cfg draws = true)
      (run : irq (takeDraws draws s) = { s with
        irqPending := pend, freeCount := s.freeCount + 1, history := hist, acquisitions := draws, ctrResets := resets
        txqEnabled := txq, work := l ++ s.work }) :
      Effect s (.irq draws) { s with
        irqPending := pend, freeCount := s.freeCount + 1, history := hist, acquisitions := draws, ctrResets := resets
        txqEnabled := txq, work := l ++ s.work }
  | statsReq (p : Bool) (r : BitVec 64) (hist : List Event) (stats : StUsable s)
      (run : requestStats s = { s with
        statsPending := p, regs := { s.regs with statsBase := r }, history := hist }) :
      Effect s .statsReq { s with statsPending := p, regs := { s.regs with statsBase := r }, history := hist }
  | statsDone (p : Bool) (hist : List Event) (run : finishStats s = { s with statsPending := p, history := hist }) :
      Effect s .statsDone { s with statsPending := p, history := hist }
  | enableFails (d : EnableDraws) (slots : List (Option RxBuffer)) (bufs : List Handle) (hist : List Event)
      (off : s.enabled = false)
      (run : enableFrom d (dropUnspecified s) = .next { dropUnspecified s with
        rxSlot := slots, heldBuffers := bufs, history := hist, result := .fatalInit }) :
      Effect s (.enable d) { dropUnspecified s with
        rxSlot := slots, heldBuffers := bufs, history := hist, result := .fatalInit }
  | enableUp (d : EnableDraws) (m1 m2 m3 : DmaMem) (v : State) (mem : Memory) (hist : List Event)
      (slots : List (Option Handle)) (held : List HeldPacket) (a b c d' e : Nat) (off : s.enabled = false)
      (got : Acquired d (dropUnspecified s) m1 m2 m3 v)
      (run : bringUp v = .next { resetTxRegs s with
        mem := mem, history := hist, txSlot := slots, heldPackets := held
        txMem := some m1, rxMem := some m2, stMem := some m3, rxSlot := v.rxSlot, heldBuffers := v.heldBuffers
        rxIndex := 0, link := { s.link with up := false }, txqEnabled := false, statsPending := false
        ctrResourceErrors := a, ctrFrameTooLong := b, ctrTimeouts := c, ctrResets := d', ctrTxDrops := e
        irqPending := CauseSet.empty, nicTxBusy := none, nicSeen := []
        regs := resetRegs v, freeCount := s.freeCount + 3
        enabled := true, everEnabled := true, timerOn := true, result := .ok }) :
      Effect s (.enable d) { resetTxRegs s with
        mem := mem, history := hist, txSlot := slots, heldPackets := held
        txMem := some m1, rxMem := some m2, stMem := some m3, rxSlot := v.rxSlot, heldBuffers := v.heldBuffers
        rxIndex := 0, link := { s.link with up := false }, txqEnabled := false, statsPending := false
        ctrResourceErrors := a, ctrFrameTooLong := b, ctrTimeouts := c, ctrResets := d', ctrTxDrops := e
        irqPending := CauseSet.empty, nicTxBusy := none, nicSeen := []
        regs := resetRegs v, freeCount := s.freeCount + 3
        enabled := true, everEnabled := true, timerOn := true, result := .ok }
  | disable (mem : Memory) (hist : List Event) (slots : List (Option Handle)) (held : List HeldPacket)
      (rx : List (Option RxBuffer)) (bufs : List Handle) (regs : NicRegs) (stats : StUsable s)
      (run : bringDown s = .next { resetTxRegs s with
        mem := mem, history := hist, txSlot := slots, heldPackets := held
        rxSlot := rx, heldBuffers := bufs, enabled := false, timerOn := false
        txqEnabled := false, link := { s.link with up := false }, statsPending := false
        irqPending := CauseSet.empty, nicTxBusy := none, nicSeen := []
        regs := { regs with intrMask := 0#16 }, freeCount := s.freeCount + 3
        txMem := none, rxMem := none, stMem := none }) :
      Effect s .disable { resetTxRegs s with
        mem := mem, history := hist, txSlot := slots, heldPackets := held
        rxSlot := rx, heldBuffers := bufs, enabled := false, timerOn := false
        txqEnabled := false, link := { s.link with up := false }, statsPending := false
        irqPending := CauseSet.empty, nicTxBusy := none, nicSeen := []
        regs := { regs with intrMask := 0#16 }, freeCount := s.freeCount + 3
        txMem := none, rxMem := none, stMem := none }
  | nicTxDone (i : Nat) (d : TxDoneDraws) (mem : Memory) (hist : List Event) (seen : List Seen)
      (busy : Option Handle) (pend : CauseSet) (range : i < s.cfg.nTx)
      (run : txDone i d s = .next { s with
        mem := mem, history := hist, nicSeen := seen, nicTxBusy := busy, irqPending := pend }) :
      Effect s (.nicTxDone i d) { s with
        mem := mem, history := hist, nicSeen := seen, nicTxBusy := busy, irqPending := pend }
  | nicRxFill (i : Nat) (frame : List Byte) (x : RxStatus) (d : RxFillDraws) (mem : Memory) (hist : List Event)
      (seen : List Seen) (pend : CauseSet) (range : i < s.cfg.nRx)
      (run : rxFill i frame x d s = .next { s with
        mem := mem, history := hist, nicSeen := seen, irqPending := pend }) :
      Effect s (.nicRxFill i frame x d) { s with mem := mem, history := hist, nicSeen := seen, irqPending := pend }
  | nicIrqRaise (c : Cause) : Effect s (.nicIrqRaise c) (latchCause c s)
  | nicReset : Effect s .nicReset (nicReset s)
  | nicTxQuiesce : Effect s .nicTxQuiesce { s with nicTxBusy := none }

/-- The first round of IRQ (R241): the causes acknowledged, and the reset begun or the passes left as tasks. -/
theorem irq_shape (s : State) : ∃ pend hist resets txq l,
    (l = [.resetRest .none] ∨ ∃ p, l = passesFor p) ∧ irq s = { s with
      irqPending := pend, freeCount := s.freeCount + 1, history := hist, ctrResets := resets, txqEnabled := txq
      work := l ++ s.work } := by
  rcases irq_cases s with ⟨-, e⟩ | ⟨-, e⟩
  · refine ⟨(acknowledge s).irqPending, (irq s).history, countUp s.cfg s.ctrResets, false, [.resetRest .none], .inl rfl, ?_⟩
    apply State.eq_of_fields <;> simp [e]
  · refine ⟨(acknowledge s).irqPending, (irq s).history, s.ctrResets, s.txqEnabled,
      passesFor (causesIn s.cfg.reg (intrStatus s)), .inr ⟨_, rfl⟩, ?_⟩
    apply State.eq_of_fields <;> simp [e]

/-- TX.DLCHK (R153), with and without a reset. -/
theorem dlchk_frame (rest : List Task) (ends : Result) (s : State) : ∃ warn last tmo resets hist txq l,
    (l = rest ∨ l = .txBegin :: .dlSnapshot :: rest ∨ l = [.resetRest ends]) ∧ (dlchk rest ends s).1 = { s with
      deadlockWarn := warn, txDoneLast := last, ctrTimeouts := tmo, ctrResets := resets, history := hist
      txqEnabled := txq, work := l ++ s.work } := by
  rcases dlchk_shape rest ends s with ⟨-, warn, last, tmo, hist, l, hl, e⟩ | ⟨-, hist, e⟩
  · rw [e]; exact ⟨warn, last, tmo, s.ctrResets, hist, s.txqEnabled, l, hl.imp_right .inl, rfl⟩
  · rw [e]; exact ⟨_, s.txDoneLast, s.ctrTimeouts, _, hist, _, [.resetRest ends], .inr (.inr rfl), rfl⟩

/-- Memory the allocator hands out is apart from all that is live (R57, H8). -/
theorem memFresh_iff {s : State} {a len : Nat} : memFresh s a len = true ↔
    ∀ m ∈ liveMems s, a + len ≤ m.addr.toNat ∨ m.addr.toNat + m.len ≤ a := by
  simp [memFresh, disjoint]

/-- The memories ENABLE acquires are apart: each is drawn apart from what is live (R57, R200). -/
theorem enableFrom_apart {d : EnableDraws} {s t : State} {m1 m2 m3 : DmaMem} (h : enableFrom d s = .next t)
    (h1 : allocDma (descSize * s.cfg.nTx) s.cfg.ringAlign d.tx = some m1)
    (h2 : allocDma (descSize * s.cfg.nRx) s.cfg.ringAlign d.rx = some m2)
    (h3 : allocDma s.cfg.statsSize s.cfg.statsAlign d.st = some m3) : [m1, m2, m3].Pairwise memsApart := by
  have hlive : ∀ {u : State} {m n : DmaMem}, dmaLawful u m = true → n ∈ liveMems u → memsApart n m :=
    fun hu hn => (memFresh_iff.1 hu _ hn).symm
  simp only [enableFrom, h1, enableRxRing, h2] at h
  split at h
  · cases h
  · rename_i hf2
    simp only [enableStats, h3] at h
    split at h
    · cases h
    · rename_i hf3
      rw [Bool.not_eq_false] at hf2 hf3
      have h12 := hlive (n := m1) hf2 (by simp [liveMems])
      have h13 := hlive (n := m1) hf3 (by simp [liveMems])
      have h23 := hlive (n := m2) hf3 (by simp [liveMems])
      simp [h12, h13, h23]

/-- ENABLE from a state with no memory (R200): it unwinds what it had acquired, or it has acquired everything and
brings the block up. -/
theorem enableFrom_effect {d : EnableDraws} {s t : State}
    (hm : s.txMem = none ∧ s.rxMem = none ∧ s.stMem = none) (h : enableFrom d s = .next t) :
    (∃ slots bufs hist, t = { s with
      rxSlot := slots, heldBuffers := bufs, history := hist, result := .fatalInit }) ∨
    (∃ m1 m2 m3 v, Acquired d s m1 m2 m3 v ∧ bringUp v = .next t) := by
  refine (enableFrom_next hm h).imp_right ?_
  rintro ⟨u, r, m1, m2, m3, hist, rfl, h1, h2, h3, hr, hn, hb⟩
  exact ⟨m1, m2, m3, r.1, ⟨h1, h2, h3, enableFrom_apart h h1 h2 h3, hist, by rw [hr, ← hn]⟩, hb⟩

theorem Refused.recorded {s t : State} (h : Refused s t) : Recorded s t := by
  obtain ⟨r, rfl⟩ := h
  exact ⟨_, _, .inr (.inl ⟨r, rfl⟩), rfl⟩

theorem Recorded.result (s : State) (r : Result) : Recorded s (s.withResult r) :=
  ⟨[], r, .inl rfl, by simp [State.withResult]⟩

/-- Refused, or no more than a result. -/
theorem recorded_of_pure {s t : State} (h : Refused s t ∨ ∃ r, t = s.withResult r) : Recorded s t := by
  rcases h with h | ⟨r, rfl⟩
  · exact h.recorded
  · exact .result s r

/-- What TX.SUBMIT leaves (R145): dropped, stalled or sent. -/
theorem submitHeld_effect {p : Packet} {s t : State} (hr : regionsOk s.cfg p.regions = true)
    (h : submitHeld p (holdPacket p.h s) = .next t) : ∃ u res, Effect s (.txSubmit p) u ∧ t = u.withResult res := by
  have hdrop : ∀ {v u : State} {drops : Nat}, (∃ held hist, v = { s with
      heldPackets := held, history := hist, ctrTxDrops := drops }) → freePacket p.h v = .next u →
      t = u.withResult .dropped → ∃ u res, Effect s (.txSubmit p) u ∧ t = u.withResult res := by
    rintro v u drops ⟨held, hist, rfl⟩ hu rfl
    obtain ⟨-, hist', rfl⟩ := freePacket_shape hu
    exact ⟨_, .dropped, .txDrop p _ hist' drops h, rfl⟩
  rcases submitHeld_next h with ⟨-, u, hu, ht⟩ | ⟨c, u, hu, ht⟩ | ⟨s0, ss, c, hseg, henc, ⟨-, ht⟩ | ⟨hf, ht⟩⟩
  · exact hdrop ⟨_, _, rfl⟩ hu ht
  · exact hdrop ⟨_, _, rfl⟩ hu ht
  · obtain ⟨he, hist, hst⟩ := stallSubmit_shape p.h (preparePacket p.h (holdPacket p.h s))
    rw [ht, hst] at h
    exact ⟨_, .stall, .txStall p he hist h, by rw [ht, hst]; rfl⟩
  · obtain ⟨m, hist, us, hsub⟩ := submitSegs_shape p.h s0 ss c p.vlan (preparePacket p.h (holdPacket p.h s))
    exact ⟨_, .success, .txSend p s0 ss c m hist us _ hr hseg henc hf hsub, by rw [ht, hsub]; rfl⟩

/-- An operation that answers next was refused or computed a result, or it was admitted and had its effect. -/
theorem exec_effect {i : Instr} {s t : State} (h : exec i s = .next t) : Recorded s t ∨
    ∃ u res, Admitted (agentsOf i) (needOf i) s ∧ Effect s i u ∧ t = u.withResult res := by
  unfold exec at h
  cases i with
  | ringAlloc n =>
    rcases execRingAlloc_next h with h | ⟨ha, h1, h2, ⟨-, rfl⟩ | ⟨h3, rfl⟩⟩
    · exact .inl h.recorded
    · exact .inl ⟨_, _, .inr (.inr rfl), rfl⟩
    · exact .inr ⟨_, _, ha, .ringAlloc n h1 h2 h3, rfl⟩
  | ringWrite ring index seg flags1 flags2 own =>
    rcases execRingWrite_next h with h | ⟨ha, h1, h2, rfl⟩
    · exact .inl h.recorded
    · have hrun : ∃ mem hist unsub, (if ring = .tx ∧ own then
          submitIndex index (writeDesc ring index seg flags1 flags2 own s)
          else writeDesc ring index seg flags1 flags2 own s) =
          { s with mem := mem, history := hist, txUnsubmitted := unsub } := by
        rw [writeDesc_eq]
        split
        · exact ⟨_, _, _, rfl⟩
        · exact ⟨_, _, s.txUnsubmitted, rfl⟩
      obtain ⟨mem, hist, unsub, hrun⟩ := hrun
      rw [hrun]
      exact .inr ⟨_, _, ha, .ringWrite ring index seg flags1 flags2 own mem hist unsub h1 h2 hrun, rfl⟩
  | ringReclaim =>
    rcases execRingReclaim_next h with h | ⟨ha, ⟨r, l⟩, hr, rfl⟩
    · exact .inl h.recorded
    · obtain ⟨hist, d, f, c, us, e⟩ := reclaimLoop_shape hr
      dsimp only at e
      subst e
      exact .inr ⟨_, _, ha, .ringReclaim hist d f c us l hr, rfl⟩
  | ringClearTx =>
    rcases execRingClearTx_next h with h | ⟨ha, -, u, hu, rfl⟩
    · exact .inl h.recorded
    · obtain ⟨m, hist, sl, he, rfl⟩ := clearTx_shape hu
      exact .inr ⟨_, _, ha, .ringClearTx m hist sl he hu, rfl⟩
  | ringClearRx =>
    rcases execRingClearRx_next h with h | ⟨ha, rfl⟩
    · exact .inl h.recorded
    · obtain ⟨m, hist, e⟩ := clearRx_shape (noteSeen .rx s)
      rw [e]
      exact .inr ⟨_, _, ha, .ringClearRx m hist e, rfl⟩
  | segTx regions => exact .inl (recorded_of_pure (execSegTx_next h))
  | segRx regions => exact .inl (recorded_of_pure (execSegRx_next h))
  | encV1 off => exact .inl (recorded_of_pure (execEncV1_next h))
  | encV2 off => exact .inl (recorded_of_pure (execEncV2_next h))
  | encVlan vlan => exact .inl (recorded_of_pure (execEncVlan_next h))
  | txSubmit p =>
    rcases execTxSubmit_next h with ⟨r, rfl⟩ | ⟨ha, h1, -, h⟩
    · obtain ⟨res, e⟩ := submitRefused_shape r s
      exact .inl ⟨_, res, .inr (.inl ⟨r, rfl⟩), e⟩
    · obtain ⟨u, res, he, rfl⟩ := submitHeld_effect h1 h
      exact .inr ⟨u, res, ha, he, rfl⟩
  | txIrq =>
    rcases execTxIrq_next h with h | ⟨ha, u, hu, rfl⟩
    · exact .inl h.recorded
    · obtain ⟨p, sl, he, hist, d, f, c, us, st, l, hl, rfl⟩ := txScan_shape hu
      exact .inr ⟨_, _, ha, .txIrq p sl he hist d f c us st l hl hu, rfl⟩
  | txDlchk =>
    rcases execTxDlchk_next h with h | ⟨ha, rfl⟩
    · exact .inl h.recorded
    · obtain ⟨w, la, tm, rs, hist, q, l, hl, e⟩ := dlchk_frame [] .didReset s
      exact .inr ⟨_, _, ha, .txDlchk w la tm rs hist q l hl e, by rw [e]⟩
  | rxIrq draws =>
    rcases execRxIrq_next h with h | ⟨ha, h1, u, hu, rfl⟩
    · exact .inl h.recorded
    · obtain ⟨m, hist, sl, bf, ho, c, c', aq, ix, l, hl, rfl⟩ := rxNext_shape hu
      exact .inr ⟨_, _, ha, .rxIrq draws m hist sl bf ho c c' aq ix l hl h1 hu, rfl⟩
  | rxCsumV1 w1 w2 => exact .inl (recorded_of_pure (execRxCsumV1_next h))
  | rxCsumV2 w1 w2 => exact .inl (recorded_of_pure (execRxCsumV2_next h))
  | rxVlan w2 => exact .inl (recorded_of_pure (execRxVlan_next h))
  | timerTick v =>
    rcases execTimerTick_next h with h | ⟨ha, h1, rfl⟩
    · exact .inl h.recorded
    · obtain ⟨link, q, hist, l, hl, e⟩ := tickLink_shape v s
      exact .inr ⟨_, _, ha, .timerTick v link q hist l hl h1 e, by rw [e]; rfl⟩
  | linkUp p =>
    rcases execLinkUp_next h with h | ⟨ha, h1, rfl⟩
    · exact .inl h.recorded
    · exact .inr ⟨_, _, ha, .linkUp p h1, rfl⟩
  | linkDown =>
    rcases execLinkDown_next h with h | ⟨ha, h1, rfl⟩
    · exact .inl h.recorded
    · exact .inr ⟨_, _, ha, .linkDown h1, rfl⟩
  | resetFull =>
    rcases execResetFull_next h with h | ⟨ha, rfl⟩
    · exact .inl h.recorded
    · exact .inr ⟨_, _, ha, .resetFull, rfl⟩
  | irq draws =>
    rcases execIrq_next h with h | ⟨ha, h1, rfl⟩
    · exact .inl h.recorded
    · obtain ⟨pend, hist, rs, q, l, hl, e⟩ := irq_shape (takeDraws draws s)
      exact .inr ⟨_, _, ha, .irq draws pend hist rs q l hl h1 e, by rw [e]; rfl⟩
  | statsReq =>
    rcases execStatsReq_next h with h | ⟨ha, h1, rfl⟩
    · exact .inl h.recorded
    · obtain ⟨p, r, hist, e⟩ := requestStats_shape s
      exact .inr ⟨_, _, ha, .statsReq p r hist h1 e, by rw [e]⟩
  | statsDone =>
    rcases execStatsDone_next h with h | ⟨ha, rfl⟩
    · exact .inl h.recorded
    · obtain ⟨p, hist, e⟩ := finishStats_shape s
      exact .inr ⟨_, _, ha, .statsDone p hist e, by rw [e]⟩
  | enable d =>
    rcases execEnable_next h with h | ⟨ha, h1, -, h⟩
    · exact .inl h.recorded
    · rcases enableFrom_effect ⟨rfl, rfl, rfl⟩ h with ⟨sl, bf, hist, rfl⟩ | ⟨m1, m2, m3, v, hv, hb⟩
      · exact .inr ⟨_, _, ha, .enableFails d sl bf hist h1 h, rfl⟩
      · obtain ⟨hist, hf⟩ := hv.fill
        obtain ⟨sl, bf, hist', rfl⟩ := fillSlots_shape hf
        obtain ⟨m, hist'', tsl, he, a, b, c, d', e, rfl⟩ := bringUp_shape hb
        exact .inr ⟨_, _, ha, .enableUp d m1 m2 m3 _ m hist'' tsl he a b c d' e h1 hv hb, rfl⟩
  | disable =>
    rcases execDisable_next h with h | ⟨ha, h1, u, hu, rfl⟩
    · exact .inl h.recorded
    · obtain ⟨m, hist, sl, he, rx, bf, regs, rfl⟩ := bringDown_shape hu
      exact .inr ⟨_, _, ha, .disable m hist sl he rx bf regs h1 hu, rfl⟩
  | nicTxDone i d =>
    rcases execNicTxDone_next h with h | ⟨ha, h1, u, hu, rfl⟩
    · exact .inl h.recorded
    · obtain ⟨m, hist, sn, b, q, rfl⟩ := txDone_shape hu
      exact .inr ⟨_, _, ha, .nicTxDone i d m hist sn b q h1 hu, rfl⟩
  | nicRxFill i frame x d =>
    rcases execNicRxFill_next h with h | ⟨ha, h1, u, hu, rfl⟩
    · exact .inl h.recorded
    · obtain ⟨m, hist, sn, q, rfl⟩ := rxFill_shape hu
      exact .inr ⟨_, _, ha, .nicRxFill i frame x d m hist sn q h1 hu, rfl⟩
  | nicIrqRaise c =>
    rcases execNicIrqRaise_next h with h | ⟨ha, rfl⟩
    · exact .inl h.recorded
    · exact .inr ⟨_, _, ha, .nicIrqRaise c, rfl⟩
  | nicReset =>
    rcases execNicReset_next h with h | ⟨ha, rfl⟩
    · exact .inl h.recorded
    · exact .inr ⟨_, _, ha, .nicReset, rfl⟩
  | nicTxQuiesce =>
    rcases execNicTxQuiesce_next h with h | ⟨ha, u, hu, rfl⟩
    · exact .inl h.recorded
    · obtain rfl := txQuiesce_shape hu
      exact .inr ⟨_, _, ha, .nicTxQuiesce, rfl⟩
  | txd1V1Csum | txd1V1Tso | txd1V2 | txd2V1 | txd2V2 | rxdArmed | rxd1V1 | rxd1V2 | rxd2V1 | rxd2V2 =>
    exact .inl (recorded_of_pure (descResult_next h))

/-! ### What a task leaves -/

/-- What each task leaves, as `Effect` has it for an operation. -/
inductive TaskEffect (s : State) : Task → State → Prop
  | rxNext (d : Bool) (mem : Memory) (hist : List Event) (slots : List (Option RxBuffer))
      (bufs : List Handle) (host : List (Handle × List Byte)) (ctr ctr' : Nat) (acqs : List Acquisition) (idx : Nat)
      (l : List Task) (tasks : l = [] ∨ ∃ d', l = [.rxNext d'])
      (run : rxNext d s = .next { s with
        mem := mem, history := hist, rxSlot := slots, heldBuffers := bufs, hostBufs := host
        ctrResourceErrors := ctr, ctrFrameTooLong := ctr', acquisitions := acqs, rxIndex := idx
        work := l ++ s.work }) :
      TaskEffect s (.rxNext d) { s with
        mem := mem, history := hist, rxSlot := slots, heldBuffers := bufs, hostBufs := host
        ctrResourceErrors := ctr, ctrFrameTooLong := ctr', acquisitions := acqs, rxIndex := idx
        work := l ++ s.work }
  | txScan (x : Task) (k old : Nat) (pend : Option Handle) (slots : List (Option Handle)) (held : List HeldPacket)
      (hist : List Event) (dirty : Nat) (free : Int) (count : Nat) (unsub : List Nat) (stalled : Bool) (l : List Task)
      (scan : x = .txScan k old ∨ (x = .txBegin ∧ k = outstandingCount s ∧ old = s.txDirty))
      (tasks : l = [] ∨ ∃ j, k = j + 1 ∧ l = [.txScan j old])
      (run : txScan k old s = .next { s with
        txPending := pend, txSlot := slots, heldPackets := held, history := hist, txDirty := dirty, txFree := free
        txDoneCount := count, txUnsubmitted := unsub, txStalled := stalled, work := l ++ s.work }) :
      TaskEffect s x { s with
        txPending := pend, txSlot := slots, heldPackets := held, history := hist, txDirty := dirty, txFree := free
        txDoneCount := count, txUnsubmitted := unsub, txStalled := stalled, work := l ++ s.work }
  | dlSnapshot : TaskEffect s .dlSnapshot (snapshotDone s)
  | tickRelease (held : List HeldPacket) (hist : List Event)
      (run : tickRelease s = .next { s with heldPackets := held, history := hist, txPending := none }) :
      TaskEffect s .tickRelease { s with heldPackets := held, history := hist, txPending := none }
  | tickCheck (warn last tmo resets : Nat) (hist : List Event) (txq : Bool) (l : List Task)
      (tasks : l = [.tickStats] ∨ l = [.txBegin, .dlSnapshot, .tickStats] ∨ l = [.resetRest .none])
      (run : (dlchk [.tickStats] .none s).1 = { s with
        deadlockWarn := warn, txDoneLast := last, ctrTimeouts := tmo, ctrResets := resets, history := hist
        txqEnabled := txq, work := l ++ s.work }) :
      TaskEffect s .tickCheck { s with
        deadlockWarn := warn, txDoneLast := last, ctrTimeouts := tmo, ctrResets := resets, history := hist
        txqEnabled := txq, work := l ++ s.work }
  | tickStats (p : Bool) (r : BitVec 64) (hist : List Event)
      (run : tickStats s = { s with statsPending := p, regs := { s.regs with statsBase := r }, history := hist }) :
      TaskEffect s .tickStats { s with statsPending := p, regs := { s.regs with statsBase := r }, history := hist }
  | statsDone (p : Bool) (hist : List Event) (run : finishStats s = { s with statsPending := p, history := hist }) :
      TaskEffect s .statsDone { s with statsPending := p, history := hist }
  | resetRest (ends : Result) (mem : Memory) (hist : List Event) (slots : List (Option Handle))
      (held : List HeldPacket)
      (run : fullReset s = .next { resetTxRegs s with
        mem := mem, history := hist, txSlot := slots, heldPackets := held, rxIndex := 0
        txqEnabled := (s.link.up || s.txqEnabled), statsPending := false, irqPending := CauseSet.empty
        nicTxBusy := none, nicSeen := [], regs := resetRegs s, freeCount := s.freeCount + 3 }) :
      TaskEffect s (.resetRest ends) { resetTxRegs s with
        mem := mem, history := hist, txSlot := slots, heldPackets := held, rxIndex := 0
        txqEnabled := (s.link.up || s.txqEnabled), statsPending := false, irqPending := CauseSet.empty
        nicTxBusy := none, nicSeen := [], regs := resetRegs s, freeCount := s.freeCount + 3 }
  | linkDownRest (mem : Memory) (hist : List Event) (slots : List (Option Handle)) (held : List HeldPacket)
      (seen : List Seen)
      (run : linkDown s = .next { resetTxRegs s with
        mem := mem, history := hist, txSlot := slots, heldPackets := held, nicSeen := seen
        link := { s.link with up := false } }) :
      TaskEffect s .linkDownRest { resetTxRegs s with
        mem := mem, history := hist, txSlot := slots, heldPackets := held, nicSeen := seen
        link := { s.link with up := false } }

theorem runTask_effect {x : Task} {s t : State} (h : runTask x s = .next t) : TaskEffect s x t := by
  cases x with
  | rxNext d =>
    obtain ⟨m, hist, sl, bf, ho, c, c', aq, ix, l, hl, rfl⟩ := rxNext_shape h
    exact .rxNext d m hist sl bf ho c c' aq ix l hl h
  | txBegin =>
    obtain ⟨p, sl, he, hist, d, f, c, us, st, l, hl, rfl⟩ := txScan_shape h
    exact .txScan .txBegin _ _ p sl he hist d f c us st l (.inr ⟨rfl, rfl, rfl⟩) hl h
  | txScan k old =>
    obtain ⟨p, sl, he, hist, d, f, c, us, st, l, hl, rfl⟩ := txScan_shape h
    exact .txScan (.txScan k old) k old p sl he hist d f c us st l (.inl rfl) hl h
  | dlSnapshot => cases h; exact .dlSnapshot
  | tickRelease =>
    obtain ⟨he, hist, rfl⟩ := tickRelease_shape h
    exact .tickRelease he hist h
  | tickCheck =>
    obtain ⟨w, la, tm, rs, hist, q, l, hl, e⟩ := dlchk_frame [.tickStats] .none s
    have ht : (dlchk [.tickStats] .none s).1 = t := by injection h
    rw [← ht, e]
    exact .tickCheck w la tm rs hist q l hl e
  | tickStats =>
    obtain ⟨p, r, hist, e⟩ := tickStats_shape s
    have ht : tickStats s = t := by injection h
    rw [← ht, e]
    exact .tickStats p r hist e
  | statsDone =>
    obtain ⟨p, hist, e⟩ := finishStats_shape s
    have ht : finishStats s = t := by injection h
    rw [← ht, e]
    exact .statsDone p hist e
  | resetRest ends =>
    obtain ⟨m, hist, sl, he, rfl⟩ := fullReset_shape h
    exact .resetRest ends m hist sl he h
  | linkDownRest =>
    obtain ⟨m, hist, sl, he, sn, rfl⟩ := linkDown_shape h
    exact .linkDownRest m hist sl he sn h

/-! ### What a step leaves -/

/-- Only the queue, the agent acting, the history and the result may be new. -/
def Bookkept (s t : State) : Prop := ∃ inp cal hist res,
  t = { s with input := inp, caller := cal, history := hist, result := res }

/-- A step is bookkeeping, or an operation has its effect, or a task has its own. -/
theorem step_effect {s t : State} (h : step s = .next t) :
    Bookkept s t ∨
    (∃ x rest i u res, s.input = x :: rest ∧ decode x.code = .ok i ∧
      Admitted (agentsOf i) (needOf i) (takeInput x rest s) ∧ Effect (takeInput x rest s) i u ∧
      t = u.withResult res) ∨
    (∃ x rest inp u res, s.work = x :: rest ∧
      TaskEffect { s with input := inp, work := rest, caller := .serialized } x u ∧ t = u.withResult res) := by
  rcases step_eq_next h with ⟨u, hu, h⟩ | ⟨x, rest, hin, -, ⟨i, hi, h⟩ | ⟨e, -, rfl⟩⟩
  · obtain ⟨inp, rfl⟩ : ∃ inp, u = { s with input := inp } := by
      rcases hu with rfl | ⟨x, rest, rfl⟩
      · exact ⟨_, rfl⟩
      · exact ⟨_, rfl⟩
    rcases goOn_eq_next h with ⟨-, rfl⟩ | ⟨x, rest, v, hw, hv, rfl⟩
    · exact .inl ⟨inp, s.caller, s.history, s.result, rfl⟩
    · exact .inr (.inr ⟨x, rest, inp, v, _, hw, runTask_effect hv, rfl⟩)
  · rcases exec_effect h with ⟨l, res, -, rfl⟩ | ⟨u, res, ha, he, rfl⟩
    · exact .inl ⟨_, _, _, _, rfl⟩
    · exact .inr (.inl ⟨x, rest, i, u, res, hin, hi, ha, he, rfl⟩)
  · exact .inl ⟨_, _, _, _, rfl⟩

/-- What bookkeeping, the operations that are `allowed` and every task keep, a step keeps whose next invocation is
allowed. -/
theorem step_keeps_allowed {P : State → Prop} {allowed : State → Instr → Prop}
    (hbook : ∀ s inp cal hist res, P s → P { s with input := inp, caller := cal, history := hist, result := res })
    (hall : ∀ s x rest i, allowed s i → allowed (takeInput x rest s) i)
    (hop : ∀ i s u, P s → allowed s i → Admitted (agentsOf i) (needOf i) s → Effect s i u → P u)
    (htask : ∀ x rest s u, P s → s.work = x :: rest →
      TaskEffect { s with work := rest, caller := .serialized } x u → P u)
    {s t : State} (hs : P s) (hin : ∀ x ∈ s.input.head?, ∀ i, decode x.code = .ok i → allowed s i)
    (h : step s = .next t) : P t := by
  rcases step_effect h with ⟨inp, cal, hist, res, rfl⟩ | ⟨x, rest, i, u, res, hi, hd, ha, he, rfl⟩ |
    ⟨x, rest, inp, u, res, hw, he, rfl⟩
  · exact hbook s _ _ _ _ hs
  · have hx := hall s x rest i (hin x (by simp [hi]) i hd)
    exact hbook u u.input u.caller u.history res (hop i _ u (hbook s rest x.agent s.history s.result hs) hx ha he)
  · have hs' := hbook s inp s.caller s.history s.result hs
    exact hbook u u.input u.caller u.history res (htask x rest _ u hs' hw he)

/-- What bookkeeping, every operation and every task keep, every step keeps. -/
theorem step_keeps_effects {P : State → Prop}
    (hbook : ∀ s inp cal hist res, P s → P { s with input := inp, caller := cal, history := hist, result := res })
    (hop : ∀ i s u, P s → Admitted (agentsOf i) (needOf i) s → Effect s i u → P u)
    (htask : ∀ x rest s u, P s → s.work = x :: rest →
      TaskEffect { s with work := rest, caller := .serialized } x u → P u)
    {s t : State} (hs : P s) (h : step s = .next t) : P t :=
  step_keeps_allowed (allowed := fun _ _ => True) hbook (fun _ _ _ _ _ => trivial)
    (fun i s u hp _ => hop i s u hp) htask hs (fun _ _ _ _ => trivial) h

/-! ### What an admitted operation finds -/

/-- An operation of the serialized domain finds nothing in progress (R210 H6). -/
theorem Admitted.idle {agents : List Agent} {need : Need} {s : State} (h : Admitted agents need s)
    (hd : ∀ a ∈ agents, inDomain a = true) : s.work = [] :=
  overlaps_eq_false.1 h.2 (hd _ (precheck_eq_none.1 h.1).1)

theorem Admitted.cfg {agents : List Agent} {need : Need} {s : State} (h : Admitted agents need s) :
    cfgWf s.cfg = true := (precheck_eq_none.1 h.1).2.1

/-- An operation that needs more than its agent finds the block enabled (R34). -/
theorem Admitted.enabled {agents : List Agent} {need : Need} {s : State} (h : Admitted agents need s)
    (hn : need ≠ .always) : s.enabled = true := by
  obtain ⟨-, -, hneed⟩ := precheck_eq_none.1 h.1
  cases need
  case always => exact absurd rfl hn
  case enabled => exact hneed
  all_goals exact hneed.1

end Sys2Proof.Machine
end

section
/-! SUPPORT. O13, O14: an operation in progress is one of an enabled block, the deadlock counter stays below its reset
threshold, and the mask, the timer and the disabled block's flags follow the enabled flag. -/

namespace Sys2Proof.Machine

-- One declaration at a time: each thread of the elaborator reserves a stack of its own.
set_option Elab.async false

variable {s u : State}

/-! ### What is in progress (O14) -/

/-- An operation that asks for an enabled block leaves work of one; ENABLE and DISABLE find none and leave none. -/
theorem Effect.workInv {i : Instr} (ha : Admitted (agentsOf i) (needOf i) s) (he : Effect s i u) (hs : WorkInv s) :
    WorkInv u := by
  cases he
  case enableFails | enableUp | disable =>
    exact fun hw => absurd (ha.idle (by simp [agentsOf, inDomain])) hw
  case txIrq | txDlchk | rxIrq | timerTick | linkDown | resetFull | irq => exact fun _ => ⟨ha.enabled nofun, ha.cfg⟩
  all_goals exact hs

theorem TaskEffect.workInv {x : Task} (he : TaskEffect s x u) (hen : s.enabled = true) (hc : cfgWf s.cfg = true) :
    WorkInv u := by
  cases he <;> exact fun _ => ⟨hen, hc⟩

/-- Every step keeps `WorkInv` (R34, R210 H6). -/
theorem step_workInv {s t : State} (hs : WorkInv s) (h : step s = .next t) : WorkInv t :=
  step_keeps_effects (fun _ _ _ _ _ h => h) (fun _ _ _ hs ha he => he.workInv ha hs)
    (fun _ _ s _ hs hw he =>
      have hwork := hs (by rw [hw]; exact List.cons_ne_nil _ _)
      he.workInv hwork.1 hwork.2) hs h

/-! ### The deadlock counter (O14) -/

/-- TX.DLCHK counts at most one up, and at the second threshold leaves the reset that zeroes the counter (R153). -/
theorem dlchk_warn {rest : List Task} {ends : Result} {s u : State} (hc : cfgWf s.cfg = true) (hs : WarnInv s)
    (hu : (dlchk rest ends s).1 = u) : WarnInv u := by
  have hlow := (cfgOk hc).dl1
  have hdl := (cfgOk hc).dl2
  have hcount : countUp s.cfg s.deadlockWarn ≤ s.deadlockWarn + 1 := Nat.mod_le _ _
  have hold : ∀ l, (l ++ s.work).any isReset = false → s.deadlockWarn < s.cfg.dlThresh2 := fun l h =>
    hs (by simp only [List.any_append, Bool.or_eq_false_iff] at h; exact h.2)
  subst hu
  unfold dlchk
  split
  · dsimp only
    split
    · rename_i h1
      exact fun _ => by
        show countUp s.cfg s.deadlockWarn < s.cfg.dlThresh2
        have : countUp s.cfg s.deadlockWarn = s.cfg.dlThresh1 := h1
        omega
    · split
      · exact fun h => absurd h (by simp [isReset])
      · rename_i h2
        exact fun h => by
          show countUp s.cfg s.deadlockWarn < s.cfg.dlThresh2
          have : ¬ countUp s.cfg s.deadlockWarn = s.cfg.dlThresh2 := h2
          have := hold _ h
          omega
  · exact fun _ => by show 0 < s.cfg.dlThresh2; omega

/-- A state whose counter and tasks are those of another, but for tasks that are no reset. -/
theorem WarnInv.push {l : List Task} (hs : WarnInv s) (hwork : u.work = l ++ s.work)
    (hwarn : u.deadlockWarn = s.deadlockWarn) (hcfg : u.cfg = s.cfg) : WarnInv u := fun h => by
  rw [hwork, List.any_append, Bool.or_eq_false_iff] at h
  rw [hwarn, hcfg]
  exact hs h.2

/-- Behind a ring clear the counter is 0. -/
theorem warnInv_zero (hc : cfgWf u.cfg = true) (h : u.deadlockWarn = 0) : WarnInv u := fun _ => by
  have := (cfgOk hc).dl2
  omega

theorem Effect.warnInv {i : Instr} (ha : Admitted (agentsOf i) (needOf i) s) (he : Effect s i u) (hs : WarnInv s) :
    WarnInv u := by
  cases he
  case ringClearTx | enableUp | disable => exact warnInv_zero ha.cfg rfl
  case txDlchk run => exact dlchk_warn ha.cfg hs run
  case txIrq | rxIrq | irq => exact hs.push rfl rfl rfl
  case linkDown => exact hs.push (l := [.linkDownRest]) rfl rfl rfl
  case resetFull => exact hs.push (l := [.resetRest .none]) rfl rfl rfl
  case timerTick l _ _ _ =>
    have hw := ha.idle (by simp [agentsOf, inDomain])
    exact hs.push (l := l ++ s.work ++ [.tickRelease, .tickCheck]) (by simp [hw]) rfl rfl
  all_goals exact hs

/-- A task that is no reset, taken from the tasks in progress. -/
theorem WarnInv.take {x : Task} {rest : List Task} (hs : WarnInv s) (hw : s.work = x :: rest) (hx : isReset x = false) :
    WarnInv { s with work := rest, caller := .serialized } := fun h => hs (by
  rw [hw, List.any_cons, hx]; exact h)

theorem TaskEffect.warnInv {x : Task} {rest : List Task} (hc : cfgWf s.cfg = true) (hw : s.work = x :: rest)
    (he : TaskEffect { s with work := rest, caller := .serialized } x u) (hs : WarnInv s) : WarnInv u := by
  cases he
  case resetRest | linkDownRest => exact warnInv_zero hc rfl
  case txScan =>
    rename_i scan
    exact (hs.take hw (by rcases scan with rfl | ⟨rfl, -⟩ <;> rfl)).push rfl rfl rfl
  case rxNext => exact (hs.take hw rfl).push rfl rfl rfl
  case tickCheck =>
    rename_i run
    exact dlchk_warn (s := { s with work := rest, caller := .serialized }) hc (hs.take hw rfl) run
  all_goals exact hs.take hw rfl

/-- Settles O14: work is left by operations of an enabled block alone; only TX.DLCHK counts the deadlock counter up,
and at the second threshold it leaves a reset. -/
theorem stepKeepsWarningBelowThreshold : Obligations.StepKeepsWarningBelowThreshold := by
  refine ⟨fun s t hs h => step_workInv hs h, fun s t hwork hs h => ?_, fun s hs hw => hs (by simp [hw])⟩
  refine (step_keeps_effects (P := fun s => WorkInv s ∧ WarnInv s) (fun _ _ _ _ _ h => h)
    (fun i s u hs ha he => ⟨he.workInv ha hs.1, he.warnInv ha hs.2⟩) (fun x rest s u hs hw he => ?_) ⟨hwork, hs⟩ h).2
  obtain ⟨hen, hc⟩ := hs.1 (by rw [hw]; exact List.cons_ne_nil _ _)
  exact ⟨he.workInv hen hc, he.warnInv hc hw hs.2⟩

/-! ### The control state (O13) -/

/-- An enabled block is in control when all causes are unmasked and the timer runs. -/
theorem controlInv_on (he : u.enabled = true) (hm : u.regs.intrMask = allCauses u.cfg.reg) (ht : u.timerOn = true) :
    ControlInv u :=
  ⟨by rw [if_pos he, hm], by rw [ht, he], fun h => by rw [he] at h; cases h⟩

theorem ControlInv.mask_on (hs : ControlInv s) (he : s.enabled = true) : s.regs.intrMask = allCauses s.cfg.reg := by
  rw [hs.mask, if_pos he]

/-- What an enabled block keeps that keeps its mask and its timer. -/
theorem ControlInv.keep (hs : ControlInv s) (he : s.enabled = true) (he' : u.enabled = s.enabled)
    (hc : u.cfg = s.cfg) (hm : u.regs.intrMask = s.regs.intrMask) (ht : u.timerOn = s.timerOn) : ControlInv u :=
  controlInv_on (he'.trans he) (by rw [hm, hc, hs.mask_on he]) (by rw [ht, hs.timer, he])

theorem Effect.controlInv {i : Instr} (ha : Admitted (agentsOf i) (needOf i) s) (he : Effect s i u)
    (hs : ControlInv s) : ControlInv u := by
  cases he
  case txDlchk | timerTick | linkUp | linkDown | resetFull | irq | statsReq | statsDone =>
    exact hs.keep (ha.enabled nofun) rfl rfl rfl rfl
  case enableUp got _ =>
    obtain ⟨_, fill⟩ := got.fill
    obtain ⟨_, _, _, rfl⟩ := fillSlots_shape fill
    exact controlInv_on rfl rfl rfl
  case disable => exact ⟨rfl, rfl, fun _ => ⟨rfl, rfl, rfl⟩⟩
  all_goals exact ⟨hs.mask, hs.timer, hs.down⟩

theorem TaskEffect.controlInv {x : Task} (hen : s.enabled = true) (he : TaskEffect s x u) (hs : ControlInv s) :
    ControlInv u := by
  cases he
  case resetRest => exact controlInv_on hen rfl (hs.timer.trans hen)
  all_goals exact hs.keep hen rfl rfl rfl rfl

/-- Settles O13: the mask and the timer are written where `enabled` is, by ENABLE, DISABLE and RESET.FULL; the flags of
a disabled block are raised only by what an enabled one runs. -/
theorem stepKeepsControlState : Obligations.StepKeepsControlState := by
  intro s t hwork hs h
  refine (step_keeps_effects (P := fun s => WorkInv s ∧ ControlInv s)
    (fun _ _ _ _ _ h => ⟨h.1, h.2.mask, h.2.timer, h.2.down⟩)
    (fun i s u hs ha he => ⟨he.workInv ha hs.1, he.controlInv ha hs.2⟩) (fun x rest s u hs hw he => ?_) ⟨hwork, hs⟩ h).2
  obtain ⟨hen, hc⟩ := hs.1 (by rw [hw]; exact List.cons_ne_nil _ _)
  exact ⟨he.workInv hen hc, TaskEffect.controlInv (s := { s with work := rest, caller := .serialized }) hen he
    ⟨hs.2.mask, hs.2.timer, hs.2.down⟩⟩

end Sys2Proof.Machine
end

section
/-! SUPPORT. O18, O20: who writes the link record, and what the NIC's own steps may write. -/

namespace Sys2Proof.Machine

-- One declaration at a time: each thread of the elaborator reserves a stack of its own.
set_option Elab.async false

variable {s u : State}

/-! ### The link record (O18) -/

theorem Effect.link {i : Instr} (he : Effect s i u) (hne : u.link ≠ s.link) :
    (∃ p, i = .linkUp p) ∨ (∃ v, i = .timerTick v) ∨ (∃ d, i = .enable d) ∨ i = .disable := by
  cases he
  case linkUp p _ => exact .inl ⟨p, rfl⟩
  case timerTick v _ _ _ _ _ _ _ => exact .inr (.inl ⟨v, rfl⟩)
  case enableUp d _ _ _ _ _ _ _ _ _ _ _ _ _ _ _ _ => exact .inr (.inr (.inl ⟨d, rfl⟩))
  case disable => exact .inr (.inr (.inr rfl))
  all_goals exact absurd rfl hne

/-- The tasks left by the passes and checks are none of LINK.DOWN's. -/
theorem not_linkDownRest_mem_passesFor (p : CauseSet) : Task.linkDownRest ∉ passesFor p := by
  simp only [passesFor, List.mem_append]
  rintro ((h | h) | h) <;> revert h <;> split <;> simp

theorem Effect.linkDownRest {i : Instr} (he : Effect s i u) (hm : .linkDownRest ∈ u.work) :
    .linkDownRest ∈ s.work ∨ i = .linkDown ∨ ∃ v, i = .timerTick v := by
  cases he
  case linkDown => exact .inr (.inl rfl)
  case timerTick v _ _ _ _ _ _ _ => exact .inr (.inr ⟨v, rfl⟩)
  case txIrq tasks _ =>
    rcases tasks with rfl | ⟨j, -, rfl⟩
    · exact .inl hm
    · exact .inl (by simpa using hm)
  case txDlchk tasks _ => rcases tasks with rfl | rfl | rfl <;> exact .inl (by simpa using hm)
  case rxIrq tasks _ _ => rcases tasks with rfl | ⟨d, rfl⟩ <;> exact .inl (by simpa using hm)
  case resetFull => exact .inl (by simpa [beginReset, State.pushWork, closeQueue] using hm)
  case irq tasks _ _ =>
    rcases tasks with rfl | ⟨p, rfl⟩
    · exact .inl (by simpa using hm)
    · exact .inl ((List.mem_append.1 hm).resolve_left (not_linkDownRest_mem_passesFor p))
  all_goals exact .inl hm

theorem TaskEffect.link {x : Task} (he : TaskEffect s x u) (hne : u.link ≠ s.link) : x = .linkDownRest := by
  cases he
  case linkDownRest => rfl
  all_goals exact absurd rfl hne

theorem TaskEffect.linkDownRest_mem {x : Task} (he : TaskEffect s x u) (hm : .linkDownRest ∈ u.work) :
    .linkDownRest ∈ s.work := by
  cases he
  case rxNext tasks _ => rcases tasks with rfl | ⟨d, rfl⟩ <;> simpa using hm
  case txScan =>
    rename_i tasks _ _
    rcases tasks with rfl | ⟨j, -, rfl⟩ <;> simpa using hm
  case tickCheck =>
    rename_i tasks _
    rcases tasks with rfl | rfl | rfl <;> simpa using hm
  all_goals exact hm

/-- Settles O18: the cases of what an operation and what a task leave. -/
theorem onlyMonitorAndControlWriteLink : Obligations.OnlyMonitorAndControlWriteLink := by
  refine ⟨fun i s t h => ?_, fun x s t h => ⟨(runTask_effect h).link, (runTask_effect h).linkDownRest_mem⟩⟩
  rcases exec_effect h with ⟨l, res, -, rfl⟩ | ⟨u, res, -, he, rfl⟩
  · exact ⟨fun hne => absurd rfl hne, .inl⟩
  · exact ⟨he.link, he.linkDownRest⟩

/-! ### The steps of the NIC (O20) -/

/-- Settles O20: each of the four writes none but the fields named. -/
theorem nicStepsLeaveTheEngineAlone : Obligations.NicStepsLeaveTheEngineAlone := by
  intro i s t hi h
  rcases exec_effect h with ⟨l, res, -, rfl⟩ | ⟨u, res, -, he, rfl⟩
  · rfl
  · cases he
    case nicTxDone | nicRxFill | nicIrqRaise | nicTxQuiesce => rfl
    all_goals cases hi

end Sys2Proof.Machine
end

section
/-! SUPPORT. O9: the ring cursors. What a round of TX.IRQ, a reclaim, an allocation and a ring clear do to the cursors
and to the slots, and the arithmetic modulo the ring size they need. -/

namespace Sys2Proof.Machine

-- One declaration at a time: each thread of the elaborator reserves a stack of its own.
set_option Elab.async false

variable {s t u : State}

/-! ### Distances on a ring of `n` -/

theorem ringDist_eq {n a b : Nat} (ha : a < n) (hb : b < n) : (a + n - b) % n = if b ≤ a then a - b else a + n - b := by
  split
  · rw [show a + n - b = a - b + n by omega, Nat.add_mod_right, Nat.mod_eq_of_lt (by omega)]
  · exact Nat.mod_eq_of_lt (by omega)

theorem ringStep_eq {n a k : Nat} (ha : a < n) (hk : k ≤ n) : (a + k) % n = if a + k < n then a + k else a + k - n := by
  split
  · exact Nat.mod_eq_of_lt ‹_›
  · rw [Nat.mod_eq_sub_mod (by omega), Nat.mod_eq_of_lt (by omega)]

theorem CursorsOk.outstanding_eq (hs : CursorsOk s) :
    outstanding s = if s.txDirty ≤ s.txNext then s.txNext - s.txDirty else s.txNext + s.cfg.nTx - s.txDirty :=
  ringDist_eq hs.next hs.dirty

theorem CursorsOk.outstanding_lt (hs : CursorsOk s) : outstanding s < s.cfg.nTx :=
  Nat.mod_lt _ (by have := hs.next; omega)

theorem CursorsOk.isOutstanding_iff (hs : CursorsOk s) {i : Nat} (hi : i < s.cfg.nTx) :
    isOutstanding s i ↔ (if s.txDirty ≤ i then i - s.txDirty else i + s.cfg.nTx - s.txDirty) < outstanding s := by
  rw [isOutstanding, ringDist_eq hi hs.dirty]

theorem CursorsOk.outstandingCount_eq (hs : CursorsOk s) : outstandingCount s = outstanding s := by
  have := hs.free
  rw [outstandingCount]
  omega

/-- One slot, one descriptor, none outstanding. -/
theorem outstanding_zero (hn : u.txNext = 0) (hd : u.txDirty = 0) : outstanding u = 0 := by
  simp [outstanding, hn, hd]

/-! ### Tasks that are no scan -/

def NoScan (l : List Task) : Prop := ∀ x ∈ l, isScan x = false

theorem NoScan.scanLeft {l : List Task} (h : NoScan l) : scanLeft l = 0 := by
  cases l with
  | nil => rfl
  | cons x rest =>
    cases x
    case txScan => cases h _ List.mem_cons_self
    all_goals rfl

theorem NoScan.tail {l : List Task} (h : NoScan l) : ∀ x ∈ l.tail, isScan x = false :=
  fun x hx => h x (List.mem_of_mem_tail hx)

theorem NoScan.append {l w : List Task} (hl : NoScan l) (hw : NoScan w) : NoScan (l ++ w) := fun x hx =>
  (List.mem_append.1 hx).elim (hl x) (hw x)

theorem noScan_nil : NoScan [] := nofun

theorem noScan_passesFor (p : CauseSet) : NoScan (passesFor p) := by
  intro x hx
  simp only [passesFor, List.mem_append] at hx
  rcases hx with (hx | hx) | hx <;> revert hx <;> split <;> simp +contextual [isScan]

/-! ### Cursors that stay, and cursors re-set -/

/-- The cursors of another state, with tasks that are no scan. -/
theorem CursorsOk.carry (hs : CursorsOk s) (hw : NoScan u.work) (hcfg : u.cfg = s.cfg) (hnext : u.txNext = s.txNext)
    (hdirty : u.txDirty = s.txDirty) (hfree : u.txFree = s.txFree) (hrx : u.rxIndex < u.cfg.nRx)
    (hslots : u.txSlot.length = s.txSlot.length) : CursorsOk u where
  next := by rw [hnext, hcfg]; exact hs.next
  dirty := by rw [hdirty, hcfg]; exact hs.dirty
  rx := hrx
  free := by rw [hfree, outstanding, hnext, hdirty, hcfg]; exact hs.free
  slots := by rw [hslots, hcfg]; exact hs.slots
  scan := by rw [hw.scanLeft]; exact Nat.zero_le _
  once := hw.tail

/-- Behind a ring clear nothing is outstanding. -/
theorem cursorsOk_cleared (hc : cfgWf u.cfg = true) (hnext : u.txNext = 0) (hdirty : u.txDirty = 0)
    (hfree : u.txFree = u.cfg.nTx) (hrx : u.rxIndex < u.cfg.nRx) (hslots : u.txSlot.length = u.cfg.nTx)
    (hw : NoScan u.work) : CursorsOk u := by
  have h2 := (cfgOk hc).nTx2
  refine ⟨by omega, by omega, hrx, ?_, hslots, by rw [hw.scanLeft]; exact Nat.zero_le _, hw.tail⟩
  rw [hfree, outstanding_zero hnext hdirty]
  simp

/-! ### The slots behind a ring clear -/

theorem set_of_txPkt_none {i : Nat} (h : s.txPkt i = none) : s.txSlot.set i none = s.txSlot := by
  rw [State.txPkt, List.getD_eq_getElem?_getD] at h
  rcases lt_or_ge i s.txSlot.length with hi | hi
  · rw [List.getElem?_eq_getElem hi, Option.getD_some] at h
    rw [← h, List.set_getElem_self]
  · exact List.set_eq_of_length_le hi

theorem clearTxOne_slots {i : Nat} (h : clearTxOne i s = .next t) : t.txSlot = s.txSlot.set i none := by
  rw [clearTxOne_eq, clearTxWords_eq] at h
  generalize (clearTxWords i s).mem = m at h
  split at h
  · obtain ⟨u, hu, h⟩ := andThen_eq_next.1 h
    obtain ⟨-, -, hist, rfl⟩ := freeSent_shape hu
    cases h
    rfl
  · rename_i hi
    cases h
    exact (set_of_txPkt_none (s := s) hi).symm

theorem clearTxLoop_slots {k i : Nat} (h : clearTxLoop k i s = .next t) : t.txSlot.length = s.txSlot.length ∧
    ∀ j, t.txPkt j = if i ≤ j ∧ j < i + k then none else s.txPkt j := by
  induction k generalizing i s with
  | zero =>
    cases h
    exact ⟨rfl, fun j => by rw [if_neg (by omega)]⟩
  | succ k ih =>
    obtain ⟨u, hu, h⟩ := andThen_eq_next.1 h
    have hset := clearTxOne_slots hu
    obtain ⟨hlen, hpkt⟩ := ih h
    refine ⟨by rw [hlen, hset, List.length_set], fun j => ?_⟩
    have hu : u.txPkt j = if j = i then none else s.txPkt j := by
      rw [State.txPkt, hset, txPkt_set s i j none _ rfl]
      by_cases hj : j = i
      · by_cases hi : i < s.txSlot.length
        · rw [if_pos ⟨hj, hi⟩, if_pos hj]
        · rw [if_neg (by omega), if_pos hj, hj, State.txPkt, List.getD_eq_default _ _ (by omega)]
      · rw [if_neg (by omega), if_neg hj]
    rw [hpkt, hu]
    split
    · rw [if_pos (by omega)]
    · split
      · rw [if_pos (by omega)]
      · rw [if_neg (by omega)]

/-- RING.CLEAR_TX leaves one slot a descriptor and nothing in any (R116). -/
theorem clearTx_slots (h : clearTx s = .next t) : t.txSlot.length = s.txSlot.length ∧
    ∀ j < s.cfg.nTx, t.txPkt j = none := by
  obtain ⟨u, hu, h⟩ := andThen_eq_next.1 h
  obtain ⟨v, hv, h⟩ := andThen_eq_next.1 h
  obtain ⟨hlen, hpkt⟩ := clearTxLoop_slots hu
  obtain ⟨he, hist, rfl⟩ := freeSentOpt_shape hv
  cases h
  exact ⟨hlen, fun j hj => (hpkt j).trans (if_pos ⟨Nat.zero_le _, by omega⟩)⟩

/-! ### A round of the scans -/

/-- A visit of TX.IRQ (R149): the held-back packet is freed, the slot's own takes its place. -/
theorem visitTx_next {i : Nat} (h : visitTx i s = .next t) : ∃ held hist,
    (∃ v, freeSentOpt s.txPending s = .next v ∧ v.heldPackets = held ∧ v.history = hist) ∧
    t = { s with
      txPending := s.txPkt i, txSlot := s.txSlot.set i none, heldPackets := held, history := hist } := by
  obtain ⟨v, hv, h⟩ := andThen_eq_next.1 h
  obtain ⟨held, hist, rfl⟩ := freeSentOpt_shape hv
  refine ⟨held, hist, ⟨_, hv, rfl, rfl⟩, ?_⟩
  dsimp only at h
  split at h
  · rename_i x hx
    cases h
    rw [show s.txPkt i = some x from hx]
  · rename_i hx
    have hpkt : s.txPkt i = none := hx
    cases h
    rw [hpkt, set_of_txPkt_none hpkt]

/-- A round of TX.IRQ: the pass ends, or the descriptor at `tx_dirty` is the engine's, and is visited and reclaimed. -/
theorem txScan_cases {k old : Nat} (h : txScan k old s = .next t) :
    ((k = 0 ∨ s.nicOwned .tx s.txDirty = true) ∧ ∃ stalled hist, t = { s with txStalled := stalled, history := hist }) ∨
    ∃ j held hist, k = j + 1 ∧ s.nicOwned .tx s.txDirty = false ∧
      (∃ v, freeSentOpt s.txPending ((s.noteRead .tx s.txDirty .opts1).emit .acquire) = .next v ∧
        v.heldPackets = held ∧ v.history = hist) ∧
      t = { s with
        txPending := s.txPkt s.txDirty, txSlot := s.txSlot.set s.txDirty none, heldPackets := held, history := hist
        txDirty := txIdx s.cfg s.txDirty 1, txFree := wrapI32 (s.txFree + 1)
        txDoneCount := countUp s.cfg s.txDoneCount, txUnsubmitted := s.txUnsubmitted.filter (· != s.txDirty)
        work := .txScan j old :: s.work } := by
  cases k with
  | zero =>
    obtain ⟨st, hist, he⟩ := endTxPass_shape old s
    exact .inl ⟨.inl rfl, st, hist, by rw [← he]; injection h with h; exact h.symm⟩
  | succ j =>
    obtain ⟨r, hr, h⟩ := andThen_eq_next.1 h
    simp only [reclaimOne] at hr
    split at hr
    · rename_i howned
      cases hr
      obtain ⟨st, hist, he⟩ := endTxPass_shape old (s.noteRead .tx s.txDirty .opts1)
      refine .inl ⟨.inr howned, st, hist, ?_⟩
      injection h with h
      have e : endTxPass old (s.noteRead .tx s.txDirty .opts1) = t := h
      rw [← e, he]
      apply State.eq_of_fields <;> rfl
    · rename_i howned
      obtain ⟨v, hv, hr⟩ := andThen_eq_next.1 hr
      obtain ⟨held, hist, hw, rfl⟩ := visitTx_next hv
      injection hr with hr
      injection h with h
      subst hr
      refine .inr ⟨j, held, hist, rfl, by simpa using howned, hw, ?_⟩
      rw [← h]
      apply State.eq_of_fields <;> rfl

/-- `tx_dirty` one further, over an outstanding descriptor. -/
theorem CursorsOk.advance (hs : CursorsOk s) (hc : cfgWf s.cfg = true) (ho : 1 ≤ outstanding s)
    (hcfg : u.cfg = s.cfg) (hnext : u.txNext = s.txNext) (hdirty : u.txDirty = txIdx s.cfg s.txDirty 1)
    (hfree : u.txFree = wrapI32 (s.txFree + 1)) :
    u.txDirty < u.cfg.nTx ∧ outstanding u + 1 = outstanding s ∧ u.txFree = (u.cfg.nTx : Int) - (outstanding u : Int) := by
  have hmax := (cfgOk hc).nTxMax
  have hn := hs.next
  have hd := hs.dirty
  have hf := hs.free
  have hlt := hs.outstanding_lt
  have hoeq := hs.outstanding_eq
  have hd1 : u.txDirty = if s.txDirty + 1 < s.cfg.nTx then s.txDirty + 1 else s.txDirty + 1 - s.cfg.nTx := by
    rw [hdirty, txIdx, ringStep_eq hd (by omega)]
  have hd2 : u.txDirty < s.cfg.nTx := by rw [hd1]; split <;> omega
  have hueq : outstanding u = if u.txDirty ≤ s.txNext then s.txNext - u.txDirty
      else s.txNext + s.cfg.nTx - u.txDirty := by
    rw [outstanding, hcfg, hnext, ringDist_eq hn hd2]
  have hstep : outstanding u + 1 = outstanding s := by
    rw [hueq, hoeq, hd1]
    rw [hoeq] at ho
    grind
  rw [hfree, wrapI32_of_bounds (by omega) (by omega), hcfg]
  omega

theorem txScan_cursors {k old : Nat} (hc : cfgWf s.cfg = true) (hs : CursorsOk s) (hw : NoScan s.work)
    (hk : k ≤ outstanding s) (h : txScan k old s = .next t) : CursorsOk t := by
  rcases txScan_cases h with ⟨-, st, hist, rfl⟩ | ⟨j, held, hist, rfl, -, -, ht⟩
  · exact ⟨hs.next, hs.dirty, hs.rx, hs.free, hs.slots, hs.scan, hs.once⟩
  · obtain ⟨hd, ho, hf⟩ := hs.advance hc (u := t) (by omega) (by rw [ht]) (by rw [ht]) (by rw [ht]) (by rw [ht])
    have hwork : t.work = .txScan j old :: s.work := by rw [ht]
    refine ⟨by rw [ht]; exact hs.next, hd, by rw [ht]; exact hs.rx, hf, by rw [ht]; simp [hs.slots], ?_, ?_⟩
    · rw [hwork]
      show j ≤ _
      omega
    · rw [hwork]
      exact hw

theorem CursorsOk.advanceDirty (hs : CursorsOk s) (hc : cfgWf s.cfg = true) (hw : NoScan s.work)
    (ho : 1 ≤ outstanding s) : CursorsOk (advanceDirty s) ∧ outstanding (advanceDirty s) + 1 = outstanding s := by
  obtain ⟨hd, ho, hf⟩ := hs.advance hc ho (u := Machine.advanceDirty s) rfl rfl rfl rfl
  exact ⟨⟨hs.next, hd, hs.rx, hf, hs.slots, by rw [advanceDirty_work, hw.scanLeft]; exact Nat.zero_le _, hw.tail⟩, ho⟩

/-- RING.RECLAIM's own loop (R114) keeps the cursors in order. -/
theorem reclaimLoop_cursors {k : Nat} {done : List Nat} {r : State × List Nat} (hc : cfgWf s.cfg = true)
    (hs : CursorsOk s) (hw : NoScan s.work) (hk : k ≤ outstanding s) (h : reclaimLoop k done s = .next r) :
    CursorsOk r.1 := by
  induction k generalizing done s with
  | zero => cases h; exact hs
  | succ k ih =>
    obtain ⟨v, hv, h⟩ := andThen_eq_next.1 h
    simp only [reclaimOne, andThen_next] at hv
    have hread : CursorsOk (s.noteRead .tx s.txDirty .opts1) :=
      ⟨hs.next, hs.dirty, hs.rx, hs.free, hs.slots, hs.scan, hs.once⟩
    split at hv <;> cases hv
    · cases h
      exact hread
    · have hacq : CursorsOk ((s.noteRead .tx s.txDirty .opts1).emit .acquire) :=
        ⟨hs.next, hs.dirty, hs.rx, hs.free, hs.slots, hs.scan, hs.once⟩
      obtain ⟨ha, ho⟩ := hacq.advanceDirty hc hw (by show 1 ≤ outstanding s; omega)
      have ho : outstanding (Machine.advanceDirty ((s.noteRead .tx s.txDirty .opts1).emit .acquire)) + 1 =
        outstanding s := ho
      exact ih (s := Machine.advanceDirty ((s.noteRead .tx s.txDirty .opts1).emit .acquire)) hc ha hw (by omega) h

end Sys2Proof.Machine
end

section
/-! SUPPORT. O9: every operation and every task keeps the cursors in order. -/

namespace Sys2Proof.Machine

-- One declaration at a time: each thread of the elaborator reserves a stack of its own.
set_option Elab.async false

variable {s t u : State}

/-! ### The end of ENABLE, said once -/

/-- What ENABLE clears the transmit ring of (R200 E5). -/
def emptied (s : State) : State := { s with txSlot := List.replicate s.cfg.nTx none, txPending := none }

/-- The rest of ENABLE behind the two ring clears (R200 E6 to E8). -/
def finishUp (u : State) : State :=
  let s6 := firstCounters { u with link := { u.link with up := false }, txqEnabled := false, statsPending := false }
  let s7 := reinitRegs (nicReset s6)
  ({ s7 with enabled := true, everEnabled := true, timerOn := true }.emit .startTimer).withResult .ok

theorem bringUp_eq (s : State) : bringUp s =
    andThen (clearTx (emptied s)) fun u => .next (finishUp (clearRx u)) := rfl

/-- The events of those steps. -/
def upEvents (u : State) : List Event :=
  [.nicReset, .applyChipQuirks] ++ regWrite64 u.cfg u.cfg.reg.txRingBase (u.base .tx) ++
    regWrite64 u.cfg u.cfg.reg.rxRingBase (u.base .rx) ++
    (if u.cfg.reg.statsAtInit then regWrite64 u.cfg u.cfg.reg.statsBase (statsAddr u) else []) ++
    [.regWrite u.cfg.reg.intrMask 16 ((allCauses u.cfg.reg).setWidth 64), .startTimer]

theorem finishUp_eq (u : State) : finishUp u = { u with
    link := { u.link with up := false }, txqEnabled := false, statsPending := false
    ctrResourceErrors := if u.everEnabled then u.ctrResourceErrors else 0
    ctrFrameTooLong := if u.everEnabled then u.ctrFrameTooLong else 0
    ctrTimeouts := if u.everEnabled then u.ctrTimeouts else 0
    ctrResets := if u.everEnabled then u.ctrResets else 0
    ctrTxDrops := if u.everEnabled then u.ctrTxDrops else 0
    irqPending := CauseSet.empty, nicTxBusy := none, nicSeen := [], freeCount := u.freeCount + 3
    regs := ⟨allCauses u.cfg.reg, u.base .tx, u.base .rx,
      if u.cfg.reg.statsAtInit then statsAddr u else Config.freeReg (u.freeCount + 2)⟩
    enabled := true, everEnabled := true, timerOn := true, result := .ok, history := u.history ++ upEvents u } := by
  unfold finishUp upEvents
  dsimp only
  rw [reinitRegs_eq]
  cases he : u.everEnabled <;> simp only [firstCounters, ← halves_eq, ← statsBase_eq, State.emit, State.withResult,
    nicReset, List.append_assoc, List.cons_append, List.nil_append] <;> rfl

@[simp] theorem finishUp_txSlot (u : State) : (finishUp u).txSlot = u.txSlot := by rw [finishUp_eq]

/-! ### The slots behind each ring clear -/

theorem bringUp_slots (h : bringUp s = .next t) : t.txSlot.length = s.cfg.nTx ∧ ∀ j < s.cfg.nTx, t.txPkt j = none := by
  rw [bringUp_eq] at h
  obtain ⟨u, hu, h⟩ := andThen_eq_next.1 h
  obtain ⟨hlen, hpkt⟩ := clearTx_slots hu
  injection h with h
  have hslot : t.txSlot = u.txSlot := by rw [← h, finishUp_txSlot, clearRx_txSlot]
  exact ⟨by rw [hslot, hlen]; exact List.length_replicate, fun j hj => by rw [State.txPkt, hslot]; exact hpkt j hj⟩

theorem fullReset_slots (h : fullReset s = .next t) :
    t.txSlot.length = s.txSlot.length ∧ ∀ j < s.cfg.nTx, t.txPkt j = none := by
  rw [fullReset_eq] at h
  obtain ⟨u, hu, h⟩ := andThen_eq_next.1 h
  obtain ⟨hlen, hpkt⟩ := clearTx_slots hu
  injection h with h
  have hslot : t.txSlot = u.txSlot := by rw [← h, finishReset_eq, clearRx_txSlot]
  exact ⟨by rw [hslot, hlen]; rfl, fun j hj => by rw [State.txPkt, hslot]; exact hpkt j hj⟩

theorem linkDown_slots (h : linkDown s = .next t) :
    t.txSlot.length = s.txSlot.length ∧ ∀ j < s.cfg.nTx, t.txPkt j = none := by
  obtain ⟨u, hu, h⟩ := andThen_eq_next.1 h
  obtain ⟨hlen, hpkt⟩ := clearTx_slots hu
  injection h with h
  subst h
  exact ⟨hlen, hpkt⟩

/-! ### The cursors behind each operation -/

/-- RX.IRQ leaves `rx_index` where it is, or one further. -/
theorem rxNext_index {d : Bool} (h : rxNext d s = .next t) :
    t.rxIndex = s.rxIndex ∨ t.rxIndex = (s.rxIndex + 1) % s.cfg.nRx := by
  simp only [rxNext] at h
  split at h
  · injection h with h
    rw [← h]
    split <;> exact .inl rfl
  · obtain ⟨v, hv, h⟩ := andThen_eq_next.1 h
    obtain ⟨sl, bf, ho, c, c', acqs, hist, hv'⟩ := handleRx_shape hv
    injection h with h
    refine .inr ?_
    rw [← h]
    simp [rearmAdvance, hv', State.noteRead, State.emit]

theorem rxNext_inRange {d : Bool} (h : rxNext d s = .next t) (hrx : s.rxIndex < s.cfg.nRx) : t.rxIndex < s.cfg.nRx := by
  rcases rxNext_index h with e | e
  · omega
  · rw [e]
    exact Nat.mod_lt _ (by omega)

/-- `tx_next` further by an allocation that fits (R110). -/
theorem CursorsOk.allocate (hs : CursorsOk s) (hc : cfgWf s.cfg = true) {n : Nat} (hn : (n : Int) < s.txFree)
    (hcfg : u.cfg = s.cfg) (hnext : u.txNext = txIdx s.cfg s.txNext n) (hdirty : u.txDirty = s.txDirty)
    (hfree : u.txFree = wrapI32 (s.txFree + -(n : Int))) :
    u.txNext < u.cfg.nTx ∧ outstanding u = outstanding s + n ∧ u.txFree = (u.cfg.nTx : Int) - (outstanding u : Int) := by
  have hmax := (cfgOk hc).nTxMax
  have hn0 := hs.next
  have hd := hs.dirty
  have hf := hs.free
  have hoeq := hs.outstanding_eq
  have hn1 : u.txNext = if s.txNext + n < s.cfg.nTx then s.txNext + n else s.txNext + n - s.cfg.nTx := by
    rw [hnext, txIdx, ringStep_eq hn0 (by omega)]
  have hn2 : u.txNext < s.cfg.nTx := by rw [hn1]; split <;> omega
  have hueq : outstanding u = if s.txDirty ≤ u.txNext then u.txNext - s.txDirty
      else u.txNext + s.cfg.nTx - s.txDirty := by
    rw [outstanding, hcfg, hdirty, ringDist_eq hn2 hd]
  have hstep : outstanding u = outstanding s + n := by
    have hroom : n + outstanding s < s.cfg.nTx := by omega
    rw [hoeq] at hroom
    rw [hueq, hoeq, hn1]
    grind
  rw [hfree, wrapI32_of_bounds (by omega) (by omega), hcfg]
  omega

/-- What TX.SUBMIT and RING.ALLOC leave of the cursors, whatever is in progress. -/
theorem CursorsOk.allocated (hs : CursorsOk s) (hc : cfgWf s.cfg = true) {n : Nat} (hn : (n : Int) < s.txFree)
    (hcfg : u.cfg = s.cfg) (hnext : u.txNext = txIdx s.cfg s.txNext n) (hdirty : u.txDirty = s.txDirty)
    (hfree : u.txFree = wrapI32 (s.txFree + -(n : Int))) (hrx : u.rxIndex = s.rxIndex)
    (hslots : u.txSlot.length = s.txSlot.length) (hwork : u.work = s.work) : CursorsOk u := by
  obtain ⟨h1, h2, h3⟩ := hs.allocate hc hn hcfg hnext hdirty hfree
  have hscan := hs.scan
  exact ⟨h1, by rw [hcfg, hdirty]; exact hs.dirty, by rw [hcfg, hrx]; exact hs.rx, h3, by rw [hslots, hcfg]; exact hs.slots,
    by rw [hwork]; omega, by rw [hwork]; exact hs.once⟩

/-! ### Every operation and every task -/

theorem Effect.cursorInv {i : Instr} (ha : Admitted (agentsOf i) (needOf i) s) (he : Effect s i u) (hs : CursorInv s) :
    CursorInv u := by
  have hc := ha.cfg
  have h2 := (cfgOk hc).nRx2
  cases he
  case disable => exact nofun
  case enableUp d m1 m2 m3 v mem hist slots held a b c d' e off got run =>
    obtain ⟨_, fill⟩ := got.fill
    obtain ⟨sl, bf, hist', rfl⟩ := fillSlots_shape fill
    exact fun _ => ⟨hc, cursorsOk_cleared hc rfl rfl rfl (by show 0 < s.cfg.nRx; omega) (bringUp_slots run).1
      (ha.idle (by simp [agentsOf, inDomain]) ▸ noScan_nil)⟩
  case enableFails off _ => exact fun h => absurd (off.symm.trans h) nofun
  case ringAlloc n _ _ free =>
    exact fun h => ⟨hc, (hs h).2.allocated hc free rfl rfl rfl rfl rfl rfl rfl⟩
  case txSend free _ =>
    exact fun h => ⟨hc, (hs h).2.allocated hc free rfl rfl rfl rfl rfl (List.length_set ..) rfl⟩
  case ringReclaim run =>
    exact fun h => ⟨hc, reclaimLoop_cursors hc (hs h).2 (ha.idle (by simp [agentsOf, inDomain]) ▸ noScan_nil)
      (hs h).2.outstandingCount_eq.le run⟩
  case ringClearTx run =>
    exact fun h => ⟨hc, cursorsOk_cleared hc rfl rfl rfl (hs h).2.rx ((clearTx_slots run).1.trans (hs h).2.slots)
      (ha.idle (by simp [agentsOf, inDomain]) ▸ noScan_nil)⟩
  case ringClearRx =>
    exact fun h =>
      have hs := (hs h).2
      ⟨hc, hs.next, hs.dirty, by show 0 < s.cfg.nRx; omega, hs.free, hs.slots, hs.scan, hs.once⟩
  case txIrq run =>
    exact fun h => ⟨hc, txScan_cursors hc (hs h).2 (ha.idle (by simp [agentsOf, inDomain]) ▸ noScan_nil)
      (hs h).2.outstandingCount_eq.le run⟩
  case txDlchk l tasks _ =>
    have hw := ha.idle (by simp [agentsOf, inDomain])
    exact fun h => ⟨hc, (hs h).2.carry (NoScan.append (by rcases tasks with rfl | rfl | rfl <;> simp [NoScan, isScan])
      (hw ▸ noScan_nil)) rfl rfl rfl rfl (hs h).2.rx rfl⟩
  case rxIrq l tasks _ run =>
    have hw := ha.idle (by simp [agentsOf, inDomain])
    intro h
    have hrx := rxNext_inRange run (hs h).2.rx
    exact ⟨hc, (hs h).2.carry (NoScan.append (by rcases tasks with rfl | ⟨d, rfl⟩ <;> simp [NoScan, isScan])
      (hw ▸ noScan_nil)) rfl rfl rfl rfl hrx rfl⟩
  case timerTick l tasks _ _ =>
    have hw := ha.idle (by simp [agentsOf, inDomain])
    exact fun h => ⟨hc, (hs h).2.carry (NoScan.append (NoScan.append (by rcases tasks with rfl | rfl <;> simp [NoScan, isScan])
      (hw ▸ noScan_nil)) (by simp [NoScan, isScan])) rfl rfl rfl rfl (hs h).2.rx rfl⟩
  case linkDown | resetFull =>
    have hw := ha.idle (by simp [agentsOf, inDomain])
    exact fun h => ⟨hc, (hs h).2.carry (by
      show NoScan (_ :: s.work); rw [hw]; simp [NoScan, isScan]) rfl rfl rfl rfl (hs h).2.rx rfl⟩
  case irq l tasks _ _ =>
    have hw := ha.idle (by simp [agentsOf, inDomain])
    exact fun h => ⟨hc, (hs h).2.carry (NoScan.append (by
        rcases tasks with rfl | ⟨p, rfl⟩
        · simp [NoScan, isScan]
        · exact noScan_passesFor p)
      (hw ▸ noScan_nil)) rfl rfl rfl rfl (hs h).2.rx rfl⟩
  all_goals
    exact fun h =>
      have hs := (hs h).2
      ⟨hc, hs.next, hs.dirty, hs.rx, hs.free, hs.slots, hs.scan, hs.once⟩

/-- The task in progress, and behind it no scan. -/
theorem CursorsOk.take {x : Task} {rest : List Task} (hs : CursorsOk s) (hw : s.work = x :: rest) :
    NoScan rest ∧ CursorsOk { s with work := rest, caller := .serialized } := by
  have hrest : NoScan rest := by have := hs.once; rwa [hw] at this
  exact ⟨hrest, hs.carry hrest rfl rfl rfl rfl hs.rx rfl⟩

theorem TaskEffect.cursorsOk {x : Task} (hc : cfgWf s.cfg = true) (hw : NoScan s.work) (hs : CursorsOk s)
    (hk : ∀ k old, x = .txScan k old → k ≤ outstanding s) (he : TaskEffect s x u) : CursorsOk u := by
  have h2 := (cfgOk hc).nRx2
  cases he
  case rxNext l tasks run =>
    have hrx := rxNext_inRange run hs.rx
    exact hs.carry (NoScan.append (by rcases tasks with rfl | ⟨d, rfl⟩ <;> simp [NoScan, isScan]) hw) rfl rfl rfl rfl
      hrx rfl
  case txScan =>
    rename_i tasks run scan
    refine txScan_cursors hc hs hw ?_ run
    rcases scan with rfl | ⟨-, rfl, -⟩
    · exact hk _ _ rfl
    · exact hs.outstandingCount_eq.le
  case tickCheck =>
    rename_i l tasks run
    exact hs.carry (NoScan.append (by rcases tasks with rfl | rfl | rfl <;> simp [NoScan, isScan]) hw) rfl rfl rfl rfl
      hs.rx rfl
  case resetRest run =>
    exact cursorsOk_cleared hc rfl rfl rfl (by show 0 < s.cfg.nRx; omega) ((fullReset_slots run).1.trans hs.slots) hw
  case linkDownRest run =>
    exact cursorsOk_cleared hc rfl rfl rfl hs.rx ((linkDown_slots run).1.trans hs.slots) hw
  all_goals exact ⟨hs.next, hs.dirty, hs.rx, hs.free, hs.slots, hs.scan, hs.once⟩

/-- No task enables or disables the block, or changes its configuration. -/
theorem TaskEffect.enabled {x : Task} (he : TaskEffect s x u) : u.enabled = s.enabled := by
  cases he <;> rfl

theorem TaskEffect.cfg {x : Task} (he : TaskEffect s x u) : u.cfg = s.cfg := by
  cases he <;> rfl

theorem TaskEffect.cursorInv {x : Task} {rest : List Task} (hs : CursorInv s) (hw : s.work = x :: rest)
    (he : TaskEffect { s with work := rest, caller := .serialized } x u) : CursorInv u := fun h => by
  obtain ⟨hc, hcur⟩ := hs (he.enabled.symm.trans h)
  obtain ⟨hrest, htake⟩ := hcur.take hw
  have hcfg : u.cfg = s.cfg := he.cfg
  refine ⟨hcfg ▸ hc, TaskEffect.cursorsOk (s := { s with work := rest, caller := .serialized }) hc hrest htake (he := he)
    fun k old hx => ?_⟩
  have := hcur.scan
  rwa [hw, hx] at this

/-- Every step keeps the cursors in order. -/
theorem step_cursorInv (hs : CursorInv s) (h : step s = .next t) : CursorInv t :=
  step_keeps_effects
    (fun _ _ _ _ _ hs he =>
      have hcur := (hs he).2
      ⟨(hs he).1, hcur.next, hcur.dirty, hcur.rx, hcur.free, hcur.slots, hcur.scan, hcur.once⟩)
    (fun _ _ _ hs ha he => he.cursorInv ha hs) (fun _ _ _ _ hs hw he => he.cursorInv hs hw) hs h

/-- Settles O9: an allocation, a reclaim and a ring clear each move a cursor and the free count together; what is
outstanding is fewer than the ring has. -/
theorem stepKeepsFreeCount : Obligations.StepKeepsFreeCount := by
  refine ⟨fun s t hs h => step_cursorInv hs h, fun s hs he => ?_⟩
  have hcur := (hs he).2
  have hlt := hcur.outstanding_lt
  have hfree := hcur.free
  exact ⟨hfree, by omega, by omega⟩

end Sys2Proof.Machine
end

section
/-! SUPPORT. O10: which descriptors are outstanding behind an allocation and behind a reclaim, and the slots. -/

namespace Sys2Proof.Machine

-- One declaration at a time: each thread of the elaborator reserves a stack of its own.
set_option Elab.async false

variable {s t u : State}

/-! ### Outstanding descriptors (R12) -/

/-- What is outstanding stays so when `tx_next` moves on. -/
theorem isOutstanding_of_allocate {i n : Nat} (ho : outstanding u = outstanding s + n) (hcfg : u.cfg = s.cfg)
    (hdirty : u.txDirty = s.txDirty) (hi : isOutstanding s i) : isOutstanding u i := by
  unfold isOutstanding at hi ⊢
  rw [ho, hcfg, hdirty]
  omega

/-- What is handed out becomes outstanding. -/
theorem CursorsOk.isOutstanding_allocated (hs : CursorsOk s) {j n : Nat} (ho : outstanding u = outstanding s + n)
    (hroom : outstanding s + n < s.cfg.nTx) (hj : j < n) (hcfg : u.cfg = s.cfg) (hdirty : u.txDirty = s.txDirty) :
    isOutstanding u (txIdx s.cfg s.txNext j) := by
  have hn := hs.next
  have hd := hs.dirty
  have hoeq := hs.outstanding_eq
  have hidx : txIdx s.cfg s.txNext j = if s.txNext + j < s.cfg.nTx then s.txNext + j else s.txNext + j - s.cfg.nTx :=
    ringStep_eq hn (by omega)
  have hlt : txIdx s.cfg s.txNext j < s.cfg.nTx := Nat.mod_lt _ (by omega)
  rw [isOutstanding, hcfg, hdirty, ho, ringDist_eq hlt hd, hidx]
  grind

/-- Behind the reclaim of the descriptor at `tx_dirty` all others outstanding still are, and it is not. -/
theorem CursorsOk.isOutstanding_advance (hs : CursorsOk s) (ho : outstanding u + 1 = outstanding s)
    (hcfg : u.cfg = s.cfg) (hdirty : u.txDirty = txIdx s.cfg s.txDirty 1) {i : Nat} (hi : i < s.cfg.nTx) :
    isOutstanding u i ↔ isOutstanding s i ∧ i ≠ s.txDirty := by
  have hd := hs.dirty
  have hlt := hs.outstanding_lt
  have hd1 : u.txDirty = if s.txDirty + 1 < s.cfg.nTx then s.txDirty + 1 else s.txDirty + 1 - s.cfg.nTx := by
    rw [hdirty, txIdx, ringStep_eq hd (by omega)]
  have hd2 : u.txDirty < s.cfg.nTx := by rw [hd1]; split <;> omega
  rw [isOutstanding, hcfg, ringDist_eq hi hd2, hs.isOutstanding_iff hi, hd1]
  grind

/-! ### The slots (O10) -/

theorem slotInv_empty (h : ∀ j < u.cfg.nTx, u.txPkt j = none) : SlotInv u := fun _ i hi x hx => by
  rw [h i hi] at hx
  cases hx

/-- A round of TX.IRQ takes the slot of the descriptor it reclaims. -/
theorem txScan_slotInv {k old : Nat} (hc : cfgWf s.cfg = true) (hcur : CursorsOk s) (hk : k ≤ outstanding s)
    (hs : SlotInv s) (h : txScan k old s = .next t) : SlotInv t := by
  rcases txScan_cases h with ⟨-, st, hist, rfl⟩ | ⟨j, held, hist, rfl, -, -, ht⟩
  · exact hs
  · obtain ⟨hd, ho, hf⟩ := hcur.advance hc (u := t) (by omega) (by rw [ht]) (by rw [ht]) (by rw [ht]) (by rw [ht])
    have hcfg : t.cfg = s.cfg := by rw [ht]
    have hpkt : ∀ i, t.txPkt i = if i = s.txDirty ∧ s.txDirty < s.txSlot.length then none else s.txPkt i := fun i => by
      rw [ht]
      exact txPkt_set s s.txDirty i none _ rfl
    intro hen i hi x hx
    rw [hcfg] at hi
    rw [hpkt] at hx
    split at hx
    · cases hx
    · have hdirty := hcur.dirty
      have hlen := hcur.slots
      have hout := hs (by rw [ht] at hen; exact hen) i hi x hx
      exact (hcur.isOutstanding_advance ho hcfg (by rw [ht]) hi).2 ⟨hout, by omega⟩

theorem Effect.slotInv {i : Instr} (ha : Admitted (agentsOf i) (needOf i) s) (hi : i ≠ .ringReclaim) (he : Effect s i u)
    (hcur : CursorInv s) (hs : SlotInv s) : SlotInv u := by
  have hc := ha.cfg
  cases he
  case ringReclaim => exact absurd rfl hi
  case ringClearTx run => exact slotInv_empty (clearTx_slots run).2
  case disable => exact nofun
  case enableUp d m1 m2 m3 v mem hist slots held a b c d' e off got run =>
    obtain ⟨_, fill⟩ := got.fill
    obtain ⟨sl, bf, hist', rfl⟩ := fillSlots_shape fill
    exact slotInv_empty (bringUp_slots run).2
  case ringAlloc n _ _ free =>
    intro hen j hj x hx
    obtain ⟨-, ho, -⟩ := (hcur hen).2.allocate hc (u := takeDescs n s) free rfl rfl rfl rfl
    exact isOutstanding_of_allocate ho rfl rfl (hs hen j hj x hx)
  case txSend p seg0 segs cmd mem hist unsub held _ _ _ free _ =>
    intro hen j hj x hx
    obtain ⟨-, ho, hfree⟩ := (hcur hen).2.allocate hc (u := { s with
        mem := mem, history := hist, txUnsubmitted := unsub, heldPackets := held
        txNext := txIdx s.cfg s.txNext (segs.length + 1)
        txFree := wrapI32 (s.txFree + -((segs.length + 1 : Nat) : Int))
        txSlot := s.txSlot.set (txIdx s.cfg s.txNext segs.length) (some p.h) }) free rfl rfl rfl rfl
    by_cases hlast : j = txIdx s.cfg s.txNext segs.length
    · have hroom := (hcur hen).2.free
      rw [hlast]
      exact (hcur hen).2.isOutstanding_allocated ho (by omega) (Nat.lt_succ_self _) rfl rfl
    · have hx' : _ = some x := (txPkt_set s _ j (some p.h) _ rfl).symm.trans hx
      rw [if_neg fun h => hlast h.1] at hx'
      exact isOutstanding_of_allocate ho rfl rfl (hs hen j hj x hx')
  case txIrq run => exact fun hen => txScan_slotInv hc (hcur hen).2 (hcur hen).2.outstandingCount_eq.le hs run hen
  all_goals exact hs

theorem TaskEffect.slotInv {x : Task} (hc : cfgWf s.cfg = true) (hcur : CursorsOk s)
    (hk : ∀ k old, x = .txScan k old → k ≤ outstanding s) (he : TaskEffect s x u) (hs : SlotInv s) : SlotInv u := by
  cases he
  case txScan =>
    rename_i tasks run scan
    refine txScan_slotInv hc hcur ?_ hs run
    rcases scan with rfl | ⟨-, rfl, -⟩
    · exact hk _ _ rfl
    · exact hcur.outstandingCount_eq.le
  case resetRest run => exact slotInv_empty (fullReset_slots run).2
  case linkDownRest run => exact slotInv_empty (linkDown_slots run).2
  all_goals exact hs

/-- Settles O10: a packet goes into the slot of a descriptor just handed out, and leaves it when that is reclaimed. -/
theorem slotsFollowOutstandingDescriptors : Obligations.SlotsFollowOutstandingDescriptors := by
  intro s t hin hcur hs h
  refine (step_keeps_allowed (P := fun s => CursorInv s ∧ SlotInv s) (allowed := fun _ i => i ≠ .ringReclaim)
    (fun s inp cal hist res hs => ?_) (fun _ _ _ _ hi => hi)
    (fun i s u hs hi ha he => ⟨he.cursorInv ha hs.1, he.slotInv ha hi hs.1 hs.2⟩)
    (fun x rest s u hs hw he => ⟨he.cursorInv hs.1 hw, fun hen => ?_⟩) ⟨hcur, hs⟩
    (fun x hx i hd hi => hin x hx (by rw [hd, hi])) h).2
  · exact ⟨fun hen =>
      have hcur := (hs.1 hen).2
      ⟨(hs.1 hen).1, hcur.next, hcur.dirty, hcur.rx, hcur.free, hcur.slots, hcur.scan, hcur.once⟩, hs.2⟩
  · obtain ⟨hc, hcur⟩ := hs.1 (he.enabled.symm.trans hen)
    refine TaskEffect.slotInv (s := { s with work := rest, caller := .serialized }) hc (hcur.take hw).2
      (fun k old hx => ?_) he hs.2 hen
    have := hcur.scan
    rwa [hw, hx] at this

end Sys2Proof.Machine
end

section
/-! SUPPORT. O12: the memories and the receive buffers. What the segmenter yields, what the slots hold behind ENABLE,
DISABLE and an iteration of RX.IRQ. -/

namespace Sys2Proof.Machine

-- One declaration at a time: each thread of the elaborator reserves a stack of its own.
set_option Elab.async false

variable {s t u : State}

/-! ### Segments (R126, R129) -/

/-- A segment inside the address space and of a length a descriptor can carry. -/
def SegmentIn (bound : Nat) (seg : Segment) : Prop :=
  seg.addr.toNat + seg.len ≤ 2 ^ 64 ∧ 1 ≤ seg.len ∧ seg.len ≤ bound

/-- The segmenter yields such segments from such regions. -/
theorem segmentLoop_in {maxSegs maxLen bound : Nat} {regions : List Region} {done : List Segment}
    {last : Option Segment} {segs : List Segment} (hb : maxLen ≤ bound)
    (hr : ∀ r ∈ regions, r.len ≠ 0 → SegmentIn bound ⟨r.pa, r.len⟩) (hd : ∀ x ∈ done, SegmentIn bound x)
    (hl : ∀ x, last = some x → SegmentIn bound x) (h : segmentLoop maxSegs maxLen done last regions = some segs) :
    ∀ x ∈ segs, SegmentIn bound x := by
  induction regions generalizing done last with
  | nil =>
    cases last with
    | none => cases h; simpa using hd
    | some l =>
      cases h
      intro x hx
      rcases List.mem_cons.1 (List.mem_reverse.1 hx) with rfl | hx
      · exact hl _ rfl
      · exact hd x hx
  | cons r rs ih =>
    have hrs : ∀ r ∈ rs, r.len ≠ 0 → SegmentIn bound ⟨r.pa, r.len⟩ := fun x hx => hr x (List.mem_cons_of_mem _ hx)
    unfold segmentLoop at h
    split at h
    · exact ih hrs hd hl h
    · rename_i hlen
      have hhead := hr r List.mem_cons_self hlen
      split at h
      · split at h
        · cases h
        · exact ih hrs hd (fun x hx => by cases hx; exact hhead) h
      · rename_i l
        obtain ⟨ha, h1, hm⟩ := hl l rfl
        split at h
        · rename_i hmerge
          simp only [mergeable, Bool.and_eq_true, beq_iff_eq, decide_eq_true_eq] at hmerge
          obtain ⟨ha', h1', hm'⟩ := hhead
          refine ih hrs hd (fun x hx => ?_) h
          cases hx
          exact ⟨by simp only at ha' ⊢; omega, by simp only; omega, hmerge.2.trans hb⟩
        · split at h
          · cases h
          · refine ih hrs (fun x hx => ?_) (fun x hx => by cases hx; exact hhead) h
            rcases List.mem_cons.1 hx with rfl | hx
            · exact ⟨ha, h1, hm⟩
            · exact hd x hx

theorem regionsOk_in {c : Cfg} {bound : Nat} {regions : List Region} (hb : segLenMax c ≤ bound)
    (h : regionsOk c regions = true) : ∀ r ∈ regions, r.len ≠ 0 → SegmentIn bound ⟨r.pa, r.len⟩ := by
  intro r hr hlen
  have hok := List.all_eq_true.1 h r hr
  simp only [regionOk, Bool.and_eq_true, decide_eq_true_eq] at hok
  exact ⟨hok.1, Nat.one_le_iff_ne_zero.2 hlen, hok.2.trans hb⟩

/-- What SEG.TX yields fits a TX descriptor (R126). -/
theorem segmentTx_in {c : Cfg} {regions : List Region} {segs : List Segment} (hr : regionsOk c regions = true)
    (h : segmentTx c regions = some segs) : ∀ x ∈ segs, SegmentIn (segLenMax c) x :=
  segmentLoop_in le_rfl (regionsOk_in le_rfl hr) (by simp) (by simp) h

/-- A drawn buffer that SEG.RX accepts makes a slot in order (R27, R129). -/
theorem rxSlotOk_bufferOf {c : Cfg} {regions : List Region} {seg : Segment} (h : Handle)
    (hseg : drawnSegment c regions = some seg) : rxSlotOk c (some (bufferOf h seg)) = true := by
  unfold drawnSegment at hseg
  split at hseg
  · rename_i hr
    unfold segmentRx at hseg
    split at hseg
    · rename_i x hx
      split at hseg
      · rename_i hlen
        cases hseg
        obtain ⟨ha, -, -⟩ := segmentLoop_in (le_max_left _ _) (regionsOk_in (le_max_right _ _) hr) (by simp) (by simp) hx seg
          List.mem_cons_self
        simp only [rxSlotOk, bufferOf, beq_self_eq_true, Bool.true_and, Bool.and_eq_true]
        exact ⟨decide_eq_true ha, decide_eq_true hlen⟩
      · cases hseg
    · cases hseg
  · cases hseg

/-! ### The receive slots -/

theorem buffersIn_eq_nil : buffersIn s = [] ↔ ∀ j, s.rxBuf j = none := by
  simp only [buffersIn, List.filterMap_eq_nil_iff, Option.map_eq_none_iff]
  constructor
  · intro h j
    rw [State.rxBuf, List.getD_eq_getElem?_getD]
    rcases lt_or_ge j s.rxSlot.length with hj | hj
    · rw [List.getElem?_eq_getElem hj]
      exact h _ (List.getElem_mem hj)
    · rw [List.getElem?_eq_none hj]
      rfl
  · intro h x hx
    obtain ⟨j, hj, rfl⟩ := List.getElem_of_mem hx
    have := h j
    rwa [State.rxBuf, List.getD_eq_getElem?_getD, List.getElem?_eq_getElem hj] at this

theorem getD_set_eq {α : Type} (l : List (Option α)) (i j : Nat) (o : Option α) :
    (l.set i o).getD j none = if j = i ∧ i < l.length then o else l.getD j none := by
  simp only [List.getD_eq_getElem?_getD, List.getElem?_set]
  by_cases h : i = j
  · subst h
    by_cases hi : i < l.length <;> simp [hi]
  · rw [if_neg h, if_neg fun e => h e.1.symm]

theorem getD_replicate_none {α : Type} (n j : Nat) : (List.replicate n (none : Option α)).getD j none = none := by
  rw [List.getD_eq_getElem?_getD, List.getElem?_replicate]
  split <;> rfl

/-- Freeing the first `n` slots empties them (R201, R203 X5). -/
theorem freeSlots_slots {n : Nat} (h : freeSlots n s = .next t) : t.rxSlot.length = s.rxSlot.length ∧
    ∀ j, t.rxBuf j = if j < n then none else s.rxBuf j := by
  induction n generalizing s with
  | zero => cases h; exact ⟨rfl, fun j => rfl⟩
  | succ n ih =>
    simp only [freeSlots] at h
    split at h
    · obtain ⟨u, hu, h⟩ := andThen_eq_next.1 h
      obtain ⟨-, rfl⟩ := freeBuffer_eq_next hu
      obtain ⟨hlen, hbuf⟩ := ih h
      refine ⟨by rw [hlen]; exact List.length_set .., fun j => ?_⟩
      rw [hbuf]
      split
      · rw [if_pos (by omega)]
      · by_cases hj : j = n
        · subst hj
          rw [if_pos (by omega), State.rxBuf, getD_set_eq]
          split
          · rfl
          · rename_i hn
            exact List.getD_eq_default _ _ (by simpa using hn)
        · rw [if_neg (by omega), State.rxBuf, getD_set_eq, if_neg fun e => hj e.1]
          rfl
    · cases h

/-- One iteration of step E4 (R200): a buffer in order in the slot, or the slots as they were. -/
theorem fillSlot_slots {i : Nat} {d : Option BufferDraw} {r : State × Bool} (h : fillSlot i d s = .next r) :
    (r.2 = false ∧ r.1.rxSlot = s.rxSlot) ∨
    ∃ b seg, d = some b ∧ r.2 = true ∧ drawnSegment s.cfg b.regions = some seg ∧ handleFresh s b.h = true ∧
      memFresh s seg.addr.toNat seg.len = true ∧ r.1 = { holdBuffer b.h s with
        rxSlot := s.rxSlot.set i (some (bufferOf b.h seg)) } := by
  unfold fillSlot at h
  split at h
  · cases h
    exact .inl ⟨rfl, rfl⟩
  · rename_i b
    split at h
    · cases h
    · rename_i hfresh
      dsimp only at h
      split at h
      · obtain ⟨u, hu, h⟩ := andThen_eq_next.1 h
        obtain ⟨-, rfl⟩ := freeBuffer_eq_next hu
        cases h
        exact .inl ⟨rfl, rfl⟩
      · rename_i seg hseg
        split at h
        · cases h
        · rename_i hmem
          cases h
          exact .inr ⟨b, seg, rfl, rfl, hseg, by simpa using hfresh, by simpa using hmem, rfl⟩

/-- Step E4 fails at a slot of its range. -/
theorem fillSlots_fails {k i n : Nat} {d : List (Option BufferDraw)} {r : State × Option Nat}
    (h : fillSlots k i d s = .next r) (hn : r.2 = some n) : i ≤ n := by
  induction k generalizing i d s with
  | zero => cases h; cases hn
  | succ k ih =>
    obtain ⟨v, hv, h⟩ := andThen_eq_next.1 h
    split at h
    · exact (Nat.le_succ i).trans (ih h)
    · cases h
      cases hn
      exact le_rfl

/-- Step E4 (R200): all slots of the range are filled in order, or those before the failing one and no other are
touched. -/
theorem fillSlots_slots {k i : Nat} {d : List (Option BufferDraw)} {r : State × Option Nat}
    (h : fillSlots k i d s = .next r) : r.1.rxSlot.length = s.rxSlot.length ∧
    (∀ j, j < i → r.1.rxBuf j = s.rxBuf j) ∧
    (∀ n, r.2 = some n → ∀ j, n ≤ j → r.1.rxBuf j = s.rxBuf j) ∧
    (r.2 = none → ∀ j, i ≤ j → j < i + k → j < s.rxSlot.length → rxSlotOk s.cfg (r.1.rxBuf j) = true) := by
  induction k generalizing i d s with
  | zero => cases h; exact ⟨rfl, fun _ _ => rfl, nofun, fun _ j h1 h2 => by omega⟩
  | succ k ih =>
    obtain ⟨v, hv, h⟩ := andThen_eq_next.1 h
    rcases fillSlot_slots hv with ⟨h2, hs⟩ | ⟨b, seg, -, h2, hseg, -, -, hs⟩
    · rw [if_neg (by rw [h2]; exact Bool.false_ne_true)] at h
      cases h
      have hsame : ∀ j, v.1.rxBuf j = s.rxBuf j := fun j => by rw [State.rxBuf, hs]; rfl
      exact ⟨by rw [hs], fun j _ => hsame j, fun n _ j _ => hsame j, nofun⟩
    · rw [if_pos h2] at h
      obtain ⟨hlen, hlow, hfail, hok⟩ := ih h
      have hslot : v.1.rxSlot = s.rxSlot.set i (some (bufferOf b.h seg)) := by rw [hs]
      have hcfg : v.1.cfg = s.cfg := by rw [hs]; rfl
      have hset : ∀ j, v.1.rxBuf j = if j = i ∧ i < s.rxSlot.length then some (bufferOf b.h seg) else s.rxBuf j :=
        fun j => by rw [State.rxBuf, hslot, getD_set_eq]; rfl
      have hlen' : r.1.rxSlot.length = s.rxSlot.length := by rw [hlen, hslot, List.length_set]
      refine ⟨hlen', fun j hj => by rw [hlow j (by omega), hset, if_neg (by omega)], fun n hn j hj => ?_,
        fun hn j h1 h2 h3 => ?_⟩
      · rw [hfail n hn j hj, hset, if_neg (by have := fillSlots_fails h hn; omega)]
      · by_cases hj : j = i
        · rw [hlow j (by omega), hset, if_pos ⟨hj, by omega⟩]
          exact rxSlotOk_bufferOf b.h hseg
        · rw [← hcfg]
          exact hok hn j (by omega) (by omega) (by rw [hslot, List.length_set]; exact h3)

/-! ### The memories -/

/-- An allocation that succeeds (R53, R56). -/
theorem allocDma_some {size align : Nat} {d : Option Addr} {m : DmaMem} (h : allocDma size align d = some m) :
    m.life = .prepared ∧ m.len = size ∧ (align = 0 ∨ m.addr.toNat % align = 0) ∧ m.addr.toNat + size ≤ 2 ^ 64 := by
  unfold allocDma at h
  split at h
  · split at h
    · cases h
    · rename_i hbad
      cases h
      simp only [allocBad, Bool.or_eq_true, Bool.and_eq_true, bne_iff_ne, decide_eq_true_eq, not_or, not_and,
        not_not, not_lt] at hbad
      exact ⟨rfl, rfl, or_iff_not_imp_left.2 hbad.1, hbad.2⟩
  · cases h

theorem ringProblem_of_alloc {c : Cfg} {n : Nat} {d : Option Addr} {m : DmaMem} (hc : cfgWf c = true)
    (h : allocDma (descSize * n) c.ringAlign d = some m) : ringProblem c (some m) n = none := by
  obtain ⟨hlife, -, halign, htop⟩ := allocDma_some h
  have h16 : 16 ≤ c.ringAlign := by
    simp only [cfgWf, Bool.and_eq_true, decide_eq_true_eq] at hc
    exact hc.1.1.2
  rw [ringProblem, if_neg (by simp [hlife]), if_neg (by omega)]

theorem fail4_slots {n : Nat} (h : fail4 n s = .next t) (hs : ∀ j, n ≤ j → s.rxBuf j = none) :
    ∀ j, t.rxBuf j = none := by
  obtain ⟨u, hu, h⟩ := andThen_eq_next.1 h
  obtain ⟨v, hv, h⟩ := andThen_eq_next.1 h
  obtain ⟨-, hbuf⟩ := freeSlots_slots hu
  obtain ⟨h1, rfl⟩ := freeStMem_shape hv
  obtain ⟨h2, rfl⟩ := fail3_shape h
  intro j
  refine (hbuf j).trans ?_
  split
  · rfl
  · exact hs j (by omega)

/-- ENABLE brings the block up, or leaves no buffer in a slot (R200, R201). -/
theorem enableFrom_slots {d : EnableDraws} (hs : s.rxSlot = []) (h : enableFrom d s = .next t) :
    t.enabled = true ∨ ∀ j, t.rxBuf j = none := by
  have hnil : ∀ {v : State}, v.rxSlot = [] → ∀ j, v.rxBuf j = none := fun {v} hv j => by rw [State.rxBuf, hv]; rfl
  unfold enableFrom at h
  split at h
  · cases h
    exact .inr (hnil hs)
  · unfold enableRxRing at h
    split at h
    · obtain ⟨h1, rfl⟩ := fail2_shape h
      exact .inr (hnil hs)
    · split at h
      · cases h
      · unfold enableStats at h
        split at h
        · obtain ⟨h1, rfl⟩ := fail3_shape h
          exact .inr (hnil hs)
        · split at h
          · cases h
          · obtain ⟨r, hr, h⟩ := andThen_eq_next.1 h
            obtain ⟨-, -, hfail, -⟩ := fillSlots_slots hr
            split at h
            · rename_i n hn
              refine .inr (fail4_slots h fun j hj => (hfail n hn j hj).trans (getD_replicate_none _ j))
            · obtain ⟨_, _, _, _, _, _, _, _, _, rfl⟩ := bringUp_shape h
              exact .inl rfl

/-- What ENABLE has acquired is usable (R27, R53, R59). -/
theorem Acquired.usable {d : EnableDraws} {m1 m2 m3 : DmaMem} {v : State} (hc : cfgWf s.cfg = true)
    (h : Acquired d s m1 m2 m3 v) : TxUsable v ∧ RxUsable v ∧ StUsable v := by
  obtain ⟨hist, hfill⟩ := h.fill
  obtain ⟨hlen, -, -, hok⟩ := fillSlots_slots hfill
  obtain ⟨slots, bufs, hist', hv⟩ := fillSlots_shape hfill
  dsimp only at hlen hok hv
  rw [List.length_replicate] at hlen
  subst hv
  have hlen : slots.length = s.cfg.nRx := hlen
  refine ⟨ringProblem_of_alloc hc h.tx, ?_, ?_⟩
  · have hall : slots.all (rxSlotOk s.cfg) = true := List.all_eq_true.2 fun b hb => by
      obtain ⟨j, hj, rfl⟩ := List.getElem_of_mem hb
      have := hok rfl j (Nat.zero_le j) (by omega) (by rw [List.length_replicate]; omega)
      rwa [State.rxBuf, List.getD_eq_getElem?_getD, List.getElem?_eq_getElem hj] at this
    rw [RxUsable, rxProblem, ringProblem_of_alloc hc h.rx]
    exact if_pos ⟨hlen, hall⟩
  · exact if_pos (allocDma_some h.st).1

/-! ### An iteration of RX.IRQ -/

/-- The slots behind the case split of RX.IRQ on an acquisition: only an accepted replacement writes one (R172). -/
inductive SlotStep (s : State) : List (Option RxBuffer) → Prop
  | keep : SlotStep s s.rxSlot
  | replace (old : RxBuffer) (h : Handle) (regions : List Region) (seg : Segment) (at_ : s.rxBuf s.rxIndex = some old)
      (drawn : drawnSegment s.cfg regions = some seg) (apart : memFresh s seg.addr.toNat seg.len = true) :
      SlotStep s (s.rxSlot.set s.rxIndex (some (bufferOf h seg)))

theorem acquire_slots {a : Acquisition} {len : Nat} {opts : DeliverOpts} {r : State × Bool}
    (h : acquire s.rxIndex a len opts s = .next r) : SlotStep s r.1.rxSlot := by
  cases a with
  | failed => cases h; exact .keep
  | replaced b regions =>
    simp only [acquire] at h
    split at h
    · rename_i old hold
      simp only [acquireReplaced] at h
      split at h
      · cases h
      · split at h
        · obtain ⟨u, hu, h⟩ := andThen_eq_next.1 h
          obtain ⟨-, rfl⟩ := freeBuffer_eq_next hu
          cases h
          exact .keep
        · rename_i seg hseg
          split at h
          · cases h
          · rename_i hfresh
            cases h
            exact .replace old b regions seg hold hseg (by simpa [memFresh, liveMems, holdBuffer, State.emit] using hfresh)
    · cases h
  | copied b size =>
    simp only [acquire] at h
    split at h
    · simp only [acquireCopied] at h
      split at h
      · cases h; exact .keep
      split at h
      · cases h
      · cases h; exact .keep
    · cases h

theorem handleRx_slots {r : State × Bool} (h : handleRx s = .next r) : SlotStep s r.1.rxSlot := by
  simp only [handleRx] at h
  split at h
  · injection h with h
    rw [← h]
    exact .keep
  · split at h
    · cases h
    · have hstep := acquire_slots (s := { (s.emit .acquire).noteRead .rx s.rxIndex .opts2 with
        acquisitions := ((s.emit .acquire).noteRead .rx s.rxIndex .opts2).acquisitions.tail }) h
      generalize r.1.rxSlot = slots at hstep
      cases hstep with
      | keep => exact .keep
      | replace old b regions seg hold hseg hfresh => exact .replace old b regions seg hold hseg hfresh

/-- An iteration of RX.IRQ: the pass ends, or the descriptor at `rx_index` is handled, re-armed with its slot's buffer,
and `rx_index` moves on. -/
theorem rxNext_cases {d : Bool} (h : rxNext d s = .next t) :
    (s.nicOwned .rx s.rxIndex = true ∧ ∃ hist, t = { s with history := hist }) ∨
    (s.nicOwned .rx s.rxIndex = false ∧ ∃ slots bufs host ctr ctr' acqs hist d' v, SlotStep s slots ∧
      v = { s with
        rxSlot := slots, heldBuffers := bufs, hostBufs := host, ctrResourceErrors := ctr
        ctrFrameTooLong := ctr', acquisitions := acqs, history := hist } ∧
      t = (rearmAdvance v).pushWork [.rxNext d']) := by
  simp only [rxNext] at h
  split at h
  · rename_i howned
    injection h with h
    refine .inl ⟨howned, t.history, ?_⟩
    rw [← h]
    split <;> rfl
  · rename_i howned
    obtain ⟨v, hv, h⟩ := andThen_eq_next.1 h
    obtain ⟨sl, bf, ho, c, c', acqs, hist, hv'⟩ := handleRx_shape hv
    have hstep := handleRx_slots hv
    injection h with h
    rw [hv'] at hstep
    refine .inr ⟨by simpa using howned, sl, bf, ho, c, c', acqs, hist, _, v.1, ?_, hv', h.symm⟩
    cases hstep with
    | keep => exact .keep
    | replace old b regions seg hold hseg hfresh => exact .replace old b regions seg hold hseg hfresh

end Sys2Proof.Machine
end

section
/-! SUPPORT. O12: the memories are there and Prepared exactly while the block is enabled. -/

namespace Sys2Proof.Machine

-- One declaration at a time: each thread of the elaborator reserves a stack of its own.
set_option Elab.async false

variable {s t u : State}

/-- A slot re-filled by RX.IRQ is in order (R172). -/
theorem SlotStep.usable {slots : List (Option RxBuffer)} (h : SlotStep s slots) (hs : RxUsable s)
    (hcfg : u.cfg = s.cfg) (hrx : u.rxMem = s.rxMem) (hslot : u.rxSlot = slots) : RxUsable u := by
  obtain ⟨hring, hlen, hall⟩ := rxProblem_none hs
  rw [RxUsable, rxProblem, hcfg, hrx, hring, hslot]
  cases h with
  | keep => exact if_pos ⟨hlen, hall⟩
  | replace old h regions seg hold hseg hfresh =>
    refine if_pos ⟨by rw [List.length_set, hlen], List.all_eq_true.2 fun b hb => ?_⟩
    rcases List.mem_or_eq_of_mem_set hb with hb | rfl
    · exact List.all_eq_true.1 hall b hb
    · exact rxSlotOk_bufferOf h hseg

/-- While disabled no slot holds a buffer, so none is re-filled. -/
theorem SlotStep.empty {slots : List (Option RxBuffer)} (h : SlotStep s slots) (hs : buffersIn s = []) :
    slots = s.rxSlot := by
  cases h with
  | keep => rfl
  | replace old _ _ _ hold _ _ =>
    rw [buffersIn_eq_nil.1 hs] at hold
    cases hold

/-- What keeps the memories and the enabled flag, and re-fills a slot at most, keeps the invariant. -/
theorem PlatformInv.carry (hs : PlatformInv s) (hslot : SlotStep s u.rxSlot) (hcfg : u.cfg = s.cfg)
    (he : u.enabled = s.enabled) (htx : u.txMem = s.txMem) (hrx : u.rxMem = s.rxMem) (hst : u.stMem = s.stMem) :
    PlatformInv u where
  on h := by
    obtain ⟨h1, h2, h3, h4⟩ := hs.on (he ▸ h)
    refine ⟨hcfg ▸ h1, ?_, hslot.usable h3 hcfg hrx rfl, ?_⟩
    · rwa [TxUsable, txProblem, hcfg, htx]
    · rwa [StUsable, stProblem, hst]
  off h := by
    obtain ⟨h1, h2, h3, h4⟩ := hs.off (he ▸ h)
    exact ⟨htx.trans h1, hrx.trans h2, hst.trans h3, by rwa [buffersIn, hslot.empty h4]⟩

theorem rxNext_platformInv {d : Bool} (h : rxNext d s = .next t) (hs : PlatformInv s) : PlatformInv t := by
  rcases rxNext_cases h with ⟨-, hist, rfl⟩ | ⟨-, slots, bufs, host, ctr, ctr', acqs, hist, d', v, hstep, rfl, rfl⟩
  · exact hs.carry .keep rfl rfl rfl rfl rfl
  · obtain ⟨m, hist', hr⟩ := rearmAdvance_shape { s with
      rxSlot := slots, heldBuffers := bufs, hostBufs := host, ctrResourceErrors := ctr
      ctrFrameTooLong := ctr', acquisitions := acqs, history := hist }
    rw [hr]
    exact hs.carry hstep rfl rfl rfl rfl rfl

/-- DISABLE leaves no memory and no buffer (R203). -/
theorem bringDown_empty (hrx : RxUsable s) (h : bringDown s = .next t) : buffersIn t = [] := by
  obtain ⟨r, hist0, hq⟩ := quiesce_shape s
  simp only [bringDown, hq] at h
  obtain ⟨u, hu, hrest⟩ := andThen_eq_next.1 h
  obtain ⟨v, hv, hmems⟩ := andThen_eq_next.1 hrest
  obtain ⟨m, hist, sl, he, rfl⟩ := clearTx_shape hu
  obtain ⟨-, hbuf⟩ := freeSlots_slots hv
  obtain ⟨hist3, rfl⟩ := freeMems_shape hmems
  refine buffersIn_eq_nil.2 fun j => (hbuf j).trans ?_
  obtain ⟨-, hlen, -⟩ := rxProblem_none hrx
  split
  · rfl
  · rename_i hj
    have hj : ¬ j < s.cfg.nRx := hj
    exact List.getD_eq_default _ _ (by show s.rxSlot.length ≤ j; omega)

theorem Effect.platformInv {i : Instr} (ha : Admitted (agentsOf i) (needOf i) s) (he : Effect s i u)
    (hs : PlatformInv s) : PlatformInv u := by
  cases he
  case rxIrq draws _ _ _ _ _ _ _ _ _ _ _ _ run =>
    exact rxNext_platformInv run (hs.carry (u := takeDraws draws s) .keep rfl rfl rfl rfl rfl)
  case enableFails off run =>
    refine ⟨fun h => absurd (off.symm.trans h) nofun, fun _ => ⟨rfl, rfl, rfl, buffersIn_eq_nil.2 ?_⟩⟩
    exact (enableFrom_slots rfl run).resolve_left fun h => absurd (off.symm.trans h) nofun
  case enableUp got _ =>
    obtain ⟨htx, hrx, hst⟩ := Acquired.usable (s := dropUnspecified s) ha.cfg got
    obtain ⟨_, fill⟩ := got.fill
    obtain ⟨sl, bf, hist', rfl⟩ := fillSlots_shape fill
    exact ⟨fun _ => ⟨ha.cfg, htx, hrx, hst⟩, nofun⟩
  case disable run =>
    obtain ⟨-, -, hrx, -⟩ := hs.on (ha.enabled nofun)
    exact ⟨nofun, fun _ => ⟨rfl, rfl, rfl, bringDown_empty hrx run⟩⟩
  all_goals exact hs.carry .keep rfl rfl rfl rfl rfl

theorem TaskEffect.platformInv {x : Task} (he : TaskEffect s x u) (hs : PlatformInv s) : PlatformInv u := by
  cases he
  case rxNext run => exact rxNext_platformInv run hs
  all_goals exact hs.carry .keep rfl rfl rfl rfl rfl

/-- Every step keeps the memories Prepared. -/
theorem step_platformInv (hs : PlatformInv s) (h : step s = .next t) : PlatformInv t :=
  step_keeps_effects (fun _ _ _ _ _ hs => hs.carry .keep rfl rfl rfl rfl rfl) (fun _ _ _ hs ha he => he.platformInv ha hs)
    (fun _ rest s _ hs _ he => TaskEffect.platformInv (s := { s with work := rest, caller := .serialized }) he
      (hs.carry .keep rfl rfl rfl rfl rfl)) hs h

/-- Settles O12: ENABLE acquires memories in order or releases all of them, DISABLE releases them, and an accepted
replacement in RX.IRQ is in order. -/
theorem stepKeepsMemoriesPrepared : Obligations.StepKeepsMemoriesPrepared := fun _ _ hs h => step_platformInv hs h

end Sys2Proof.Machine
end

section
/-! SUPPORT. O15, O16: the bits of the words the engine and the NIC store in `opts1`: the ring-end marker, ownership,
the packet marks and the length. -/

namespace Sys2Proof.Machine

-- One declaration at a time: each thread of the elaborator reserves a stack of its own.
set_option Elab.async false

variable {c : Cfg} {l : Layout}

/-! ### Which bits are apart -/

/-- The packet marks and ownership are bits other than the ring-end marker (R76). -/
theorem eor_ne_marks (h : layoutWf l = true) : l.own ≠ l.eor ∧ l.fs ≠ l.eor ∧ l.ls ≠ l.eor := by
  have h1 := tx1_apart h
  simp only [List.pairwise_cons, List.mem_cons, forall_eq_or_imp] at h1
  refine ⟨own_ne_eor h, fun e => ?_, fun e => ?_⟩
  · have := flag_of_apart (eor_lt h) h1.2.1.1
    rw [e, flag_bit_self (eor_lt h)] at this
    cases this
  · have := flag_of_apart (eor_lt h) h1.2.1.2.1
    rw [e, flag_bit_self (eor_lt h)] at this
    cases this

theorem marks_ne (h : layoutWf l = true) : l.own ≠ l.fs ∧ l.own ≠ l.ls ∧ l.fs ≠ l.ls := by
  have h1 := tx1_apart h
  simp only [List.pairwise_cons, List.mem_cons, forall_eq_or_imp] at h1
  refine ⟨fun e => ?_, fun e => ?_, fun e => ?_⟩
  · have := flag_of_apart (own_lt h) h1.1.2.1
    rw [e, flag_bit_self (fs_lt h)] at this
    cases this
  · have := flag_of_apart (own_lt h) h1.1.2.2.1
    rw [e, flag_bit_self (ls_lt h)] at this
    cases this
  · have := flag_of_apart (fs_lt h) h1.2.2.1.1
    rw [e, flag_bit_self (ls_lt h)] at this
    cases this

/-- The ring-end marker lies in no command bit of `opts1` (R78, R79). -/
theorem eor_not_command (h : layoutWf l = true) : flag (bit l.lgsen) l.eor = false ∧ flag (bit l.ipcs1) l.eor = false ∧
    flag (bit l.udpcs1) l.eor = false ∧ flag (bit l.tcpcs1) l.eor = false ∧ flag (fieldMask l.mss1) l.eor = false := by
  have h1 := tx1_apart h
  have h2 := tso_apart h
  simp only [List.pairwise_cons, List.mem_cons, forall_eq_or_imp] at h1 h2
  obtain ⟨-, ⟨-, -, hlgsen, -, hip, hudp, htcp, -⟩, -⟩ := h1
  obtain ⟨-, ⟨-, -, -, -, hmss, -⟩, -⟩ := h2
  exact ⟨flag_of_apart (eor_lt h) hlgsen, flag_of_apart (eor_lt h) hip, flag_of_apart (eor_lt h) hudp,
    flag_of_apart (eor_lt h) htcp, flag_of_apart (eor_lt h) hmss⟩

/-- The bits of the receive length field are none of `OWN`, `EOR`, `FS` and `LS` (R83). -/
theorem rxlen_not_marks (h : layoutWf l = true) {q : Nat} (hq : flag (fieldMask l.rxlen) q = true) :
    q ≠ l.own ∧ q ≠ l.eor ∧ q ≠ l.fs ∧ q ≠ l.ls := by
  have h1 := rx1_apart h
  simp only [List.pairwise_cons, List.mem_cons, forall_eq_or_imp] at h1
  obtain ⟨⟨-, -, -, -, -, -, hown, -⟩, ⟨-, -, -, -, -, heor, -⟩, ⟨-, -, -, -, hfs, -⟩, ⟨-, -, -, hls, -⟩, -⟩ := h1
  have hne : ∀ {p : Nat}, p < 32 → bit p &&& fieldMask l.rxlen = 0#32 → q ≠ p := fun hp ha e => by
    rw [e, flag_of_apart hp ha] at hq
    cases hq
  exact ⟨hne (own_lt h) hown, hne (eor_lt h) heor, hne (fs_lt h) hfs, hne (ls_lt h) hls⟩

theorem marks_not_rxlen (h : layoutWf l = true) : flag (fieldMask l.rxlen) l.own = false ∧
    flag (fieldMask l.rxlen) l.eor = false ∧ flag (fieldMask l.rxlen) l.fs = false ∧
    flag (fieldMask l.rxlen) l.ls = false := by
  refine ⟨?_, ?_, ?_, ?_⟩ <;> by_contra hq <;> rw [Bool.not_eq_false] at hq
  · exact (rxlen_not_marks h hq).1 rfl
  · exact (rxlen_not_marks h hq).2.1 rfl
  · exact (rxlen_not_marks h hq).2.2.1 rfl
  · exact (rxlen_not_marks h hq).2.2.2 rfl

theorem rxlen_inWord (h : layoutWf l = true) : l.rxlen.lo + l.rxlen.w ≤ 32 := by
  simp only [layoutWf, Bool.and_eq_true] at h
  have hf := List.all_eq_true.1 h.1.1.1.1.1.2 l.rxlen (by simp)
  simpa [fieldInWord] using hf

/-- A field reads as the value its bits spell. -/
theorem getField_eq {f : BitField} {w : Word} {v : Nat} (hv : v ≤ maxOf f.w)
    (h : ∀ k < f.w, flag w (f.lo + k) = v.testBit k) : getField f w = v := by
  refine Nat.eq_of_testBit_eq fun k => ?_
  rw [getField, BitVec.testBit_toNat, BitVec.getLsbD_extractLsb']
  by_cases hk : k < f.w
  · rw [decide_eq_true hk, Bool.true_and]
    exact h k hk
  · have hlt : v < 2 ^ k := by
      have h1 := Nat.pow_le_pow_right (n := 2) (by norm_num) (Nat.le_of_not_lt hk)
      have h2 := Nat.two_pow_pos f.w
      rw [maxOf] at hv
      omega
    simp [hk, Nat.testBit_lt_two_pow hlt]

/-! ### The marker in the stores of the engine (R19, R269) -/

theorem flag_eorBit (h : layoutWf c.layout = true) (ring : Ring) (i : Nat) :
    flag (eorBit c ring i) c.layout.eor = decide (i + 1 = ringSize c ring) := by
  unfold eorBit
  split
  · rename_i hi
    rw [flag_bit_self (eor_lt h), decide_eq_true hi]
  · rename_i hi
    rw [flag_zero, decide_eq_false hi]

/-- The flags of a descriptor write leave the marker to the ring. -/
def NoEor (c : Cfg) (flags1 : Word) : Prop := flag flags1 c.layout.eor = false

theorem flag_opts1Word (h : layoutWf c.layout = true) {ring : Ring} {i len : Nat} {flags1 : Word} (hf : NoEor c flags1)
    (hlen : len ≤ maxOf (lenField c ring).w) :
    flag (opts1Word c ring i flags1 len) c.layout.eor = decide (i + 1 = ringSize c ring) := by
  rw [opts1Word, flag_or, flag_or, flag_eorBit h, show flag flags1 c.layout.eor = false from hf,
    flag_putField_of_fits hlen (len_flag_eor h ring), Bool.or_false, Bool.or_false]

theorem flag_ownedWord (h : layoutWf c.layout = true) {ring : Ring} {i len : Nat} {flags1 : Word} (hf : NoEor c flags1)
    (hlen : len ≤ maxOf (lenField c ring).w) :
    flag (ownedWord c ring i flags1 len) c.layout.eor = decide (i + 1 = ringSize c ring) := by
  rw [ownedWord, flag_or, flag_opts1Word h hf hlen, flag_bit_ne (own_ne_eor h).symm, Bool.false_or]

theorem flag_finalWord (h : layoutWf c.layout = true) {ring : Ring} {i len : Nat} {flags1 : Word} (own : Bool)
    (hf : NoEor c flags1) (hlen : len ≤ maxOf (lenField c ring).w) :
    flag (finalWord c ring i flags1 len own) c.layout.eor = decide (i + 1 = ringSize c ring) := by
  unfold finalWord
  split
  · exact flag_ownedWord h hf hlen
  · exact flag_opts1Word h hf hlen

theorem noEor_zero : NoEor c 0#32 := flag_zero _

/-- The command bits of a packet leave the marker alone (R136, R137, R140). -/
theorem noEor_command (h : layoutWf c.layout = true) {off : OffloadReq} {cmd : Cmd}
    (hcmd : encodeOffload c off = some cmd) : NoEor c cmd.cmd1 := by
  obtain ⟨hlgsen, hip, hudp, htcp, hmss⟩ := eor_not_command h
  unfold encodeOffload encodeV1 encodeV2 at hcmd
  have hflag : ∀ {b p}, flag (bit p) c.layout.eor = false → flag (flagIf b p) c.layout.eor = false := fun hp => by
    rw [flag_flagIf, hp, Bool.and_false]
  split at hcmd
  · split at hcmd
    · cases hcmd
    · split at hcmd <;> cases hcmd
      · exact hlgsen
      · exact noEor_zero
  · split at hcmd
    · cases hcmd
    · rename_i hok
      split at hcmd <;> cases hcmd
      · rename_i htso
        have hfit : off.mss ≤ maxOf c.layout.mss1.w := by
          simp only [unsupported, htso, Bool.true_and, Bool.or_eq_true, decide_eq_true_eq, not_or, not_lt] at hok
          exact hok.2.2
        rw [NoEor, flag_or, hlgsen, flag_putField_of_fits hfit hmss, Bool.or_false]
      · rw [NoEor, flag_or, flag_or, hflag hip, hflag hudp, hflag htcp, Bool.or_false, Bool.or_false]

theorem noEor_packetFlags1 (h : layoutWf c.layout = true) {cmd : Cmd} (hcmd : NoEor c cmd.cmd1) (j n : Nat) :
    NoEor c (packetFlags1 c cmd j n) := by
  obtain ⟨-, hfs, hls⟩ := eor_ne_marks h
  rw [NoEor, packetFlags1, flag_or, flag_or, show flag cmd.cmd1 c.layout.eor = false from hcmd, flag_flagIf, flag_flagIf,
    flag_bit_ne hfs.symm, flag_bit_ne hls.symm, Bool.and_false, Bool.and_false, Bool.or_false, Bool.or_false]

/-- The flags RING.WRITE accepts leave the marker alone (R91, R112). -/
theorem noEor_flagsOk (h : layoutWf c.layout = true) {ring : Ring} {flags1 flags2 : Word}
    (hf : flagsOk c ring flags1 flags2 = true) : NoEor c flags1 := by
  have hmask : flag (flags1Mask c ring flags1) c.layout.eor = false := by
    obtain ⟨hlgsen, hip, hudp, htcp, hmss⟩ := eor_not_command h
    obtain ⟨-, hfs, hls⟩ := eor_ne_marks h
    cases ring with
    | rx => exact flag_zero _
    | tx =>
      simp only [flags1Mask, flag_or, flag_bit_ne hfs.symm, flag_bit_ne hls.symm, hlgsen, Bool.false_or]
      split
      · exact flag_zero _
      · split
        · exact hmss
        · simp only [flag_or, hip, hudp, htcp, Bool.or_false]
  simp only [flagsOk, within, Bool.and_eq_true, beq_iff_eq] at hf
  rw [NoEor, ← hf.1, flag_and, hmask, Bool.and_false]

/-! ### An RX descriptor as the engine and the NIC leave it -/

theorem own_eorBit (h : layoutWf c.layout = true) (ring : Ring) (i : Nat) :
    flag (eorBit c ring i) c.layout.own = false := by
  unfold eorBit
  split
  · exact flag_bit_ne (own_ne_eor h)
  · exact flag_zero _

theorem fs_eorBit (h : layoutWf c.layout = true) (ring : Ring) (i : Nat) :
    flag (eorBit c ring i) c.layout.fs = false := by
  unfold eorBit
  split
  · exact flag_bit_ne (eor_ne_marks h).2.1
  · exact flag_zero _

/-- A word whose bits in the length field are those of `v` reads as length `v`. -/
theorem getField_rxlen_or (h : layoutWf l = true) {w : Word} {v : Nat} (hv : v ≤ maxOf l.rxlen.w)
    (hw : ∀ q, flag (fieldMask l.rxlen) q = true → flag w q = false) :
    getField l.rxlen (w ||| putField l.rxlen v) = v := by
  have hin := rxlen_inWord h
  refine getField_eq hv fun k hk => ?_
  have hq : flag (fieldMask l.rxlen) (l.rxlen.lo + k) = true := by
    rw [flag_fieldMask]
    simp [hk, show l.rxlen.lo + k < 32 by omega]
  rw [flag_or, hw _ hq, flag_putField]
  simp [show l.rxlen.lo + k < 32 by omega]

theorem flag_bit_off_rxlen (h : layoutWf l = true) {q : Nat} (hq : flag (fieldMask l.rxlen) q = true) :
    flag (bit l.own) q = false ∧ flag (bit l.eor) q = false ∧ flag (bit l.fs) q = false ∧ flag (bit l.ls) q = false := by
  obtain ⟨h1, h2, h3, h4⟩ := rxlen_not_marks h hq
  exact ⟨flag_bit_ne h1, flag_bit_ne h2, flag_bit_ne h3, flag_bit_ne h4⟩

/-- An armed descriptor offers the length it was armed with (R82). -/
theorem getField_armed (hc : cfgWf c = true) (i : Nat) : getField c.layout.rxlen
    (bit c.layout.own ||| eorOn c .rx i ||| putField c.layout.rxlen c.rxBufSize) = c.rxBufSize := by
  have h := (cfgOk hc).layout
  refine getField_rxlen_or h (cfgOk hc).bufFits fun q hq => ?_
  obtain ⟨hown, heor, -, -⟩ := flag_bit_off_rxlen h hq
  rw [flag_or, hown, eorOn, flag_flagIf, heor, Bool.and_false, Bool.or_false]

/-- What NIC.RX_FILL stores in `opts1` (R219). -/
structure FilledAs (l : Layout) (w v : Word) (x : RxStatus) (len : Nat) : Prop where
  eor : flag v l.eor = flag w l.eor
  own : flag v l.own = false
  marks : fragmented l v = !(x.fs && x.ls)
  length : getField l.rxlen v = len

theorem filledWord_as (h : layoutWf l = true) (w : Word) (x : RxStatus) {len : Nat} (hlen : len ≤ maxOf l.rxlen.w) :
    FilledAs l w (filledWord l w x len) x len := by
  obtain ⟨hoe, hfe, hle⟩ := eor_ne_marks h
  obtain ⟨hof, hol, hfl⟩ := marks_ne h
  obtain ⟨mown, meor, mfs, mls⟩ := marks_not_rxlen h
  have hmask : ∀ q, q < 32 → (q = l.own ∨ q = l.eor ∨ q = l.fs ∨ q = l.ls ∨ flag (fieldMask l.rxlen) q = true) →
      flag (status1Mask l) q = false := fun q hq hm => by
    have hor : flag (bit l.own ||| bit l.eor ||| bit l.fs ||| bit l.ls ||| fieldMask l.rxlen) q = true := by
      simp only [flag_or, flag_bit, hq, decide_true, Bool.true_and, Bool.or_eq_true, decide_eq_true_eq]
      tauto
    simp only [flag] at hor ⊢
    rw [status1Mask, BitVec.getLsbD_not, hor]
    simp
  refine ⟨?_, ?_, ?_, ?_⟩
  · simp only [filledWord, flag_or, flag_and, flag_flagIf, flag_bit_self (eor_lt h), flag_bit_ne hfe.symm,
      flag_bit_ne hle.symm, hmask _ (eor_lt h) (by simp), flag_putField_of_fits hlen meor, Bool.and_true, Bool.and_false,
      Bool.or_false]
  · simp only [filledWord, flag_or, flag_and, flag_flagIf, flag_bit_ne hoe, flag_bit_ne hof, flag_bit_ne hol,
      hmask _ (own_lt h) (by simp), flag_putField_of_fits hlen mown, Bool.and_false, Bool.or_false]
  · simp only [fragmented, filledWord, flag_or, flag_and, flag_flagIf, flag_bit_self (fs_lt h), flag_bit_self (ls_lt h),
      flag_bit_ne hfe, flag_bit_ne hle, flag_bit_ne hfl, flag_bit_ne hfl.symm, hmask _ (fs_lt h) (by simp),
      hmask _ (ls_lt h) (by simp), flag_putField_of_fits hlen mfs, flag_putField_of_fits hlen mls, Bool.and_false,
      Bool.and_true, Bool.or_false, Bool.false_or]
  · refine getField_rxlen_or h hlen fun q hq => ?_
    obtain ⟨-, heor, hfs, hls⟩ := flag_bit_off_rxlen h hq
    have hq32 : q < 32 := by
      rw [flag_fieldMask] at hq
      simp only [Bool.and_eq_true, decide_eq_true_eq] at hq
      exact hq.1.1
    simp only [flag_or, flag_and, flag_flagIf, heor, hfs, hls, hmask q hq32 (by simp [hq]), Bool.and_false, Bool.or_false]

end Sys2Proof.Machine
end

section
/-! SUPPORT. O16: what the two rings hold, taken apart: the sites of the memories, the transmit ring, each receive
descriptor, and what the NIC remembers; and what keeps each part. -/

namespace Sys2Proof.Machine

-- One declaration at a time: each thread of the elaborator reserves a stack of its own.
set_option Elab.async false

variable {s t u : State}

/-! ### The parts of `RingsOk` -/

structure SitesOk (s : State) : Prop where
  apart : MemsApart s
  txLen : ∀ m, s.txMem = some m → m.len = descSize * s.cfg.nTx
  rxLen : ∀ m, s.rxMem = some m → m.len = descSize * s.cfg.nRx

structure TxRingOk (s : State) : Prop where
  ends  : ringEndOk s .tx
  idle  : ∀ i < s.cfg.nTx, ¬ isOutstanding s i → s.nicOwned .tx i = false
  unsub : ∀ i ∈ s.txUnsubmitted, i < s.cfg.nTx ∧ isOutstanding s i

structure RxDescOk (s : State) (i : Nat) : Prop where
  ends  : flag (s.desc32 .rx i .opts1) s.cfg.layout.eor = decide (i + 1 = s.cfg.nRx)
  buf   : s.descBuf .rx i = s.slotPhys i
  armed : s.nicOwned .rx i = true → getField s.cfg.layout.rxlen (s.desc32 .rx i .opts1) = s.cfg.rxBufSize
  whole : s.nicOwned .rx i = false → fragmented s.cfg.layout (s.desc32 .rx i .opts1) = false →
    badRxLength s.cfg (s.desc32 .rx i .opts1) = false

structure SeenOk (s : State) : Prop where
  ends : ∀ x ∈ s.nicSeen, flag x.word s.cfg.layout.eor = decide (x.index + 1 = ringSize s.cfg x.ring)
  kept : ∀ x ∈ s.nicSeen, x.ring = .rx → x.index < s.cfg.nRx ∧ s.nicOwned .rx x.index = true ∧
    getField s.cfg.layout.rxlen x.word = s.cfg.rxBufSize ∧ x.addr = s.slotPhys x.index

theorem ringsOk_iff : RingsOk s ↔ SitesOk s ∧ TxRingOk s ∧ (∀ i < s.cfg.nRx, RxDescOk s i) ∧ SeenOk s := by
  constructor
  · intro h
    exact ⟨⟨h.apart, h.txLen, h.rxLen⟩, ⟨h.endTx, h.idle, h.unsub⟩,
      fun i hi => ⟨h.endRx i hi, h.bufs i hi, h.armed i hi, h.whole i hi⟩, ⟨h.seen, h.kept⟩⟩
  · rintro ⟨hsite, htx, hrx, hseen⟩
    exact ⟨hsite.apart, hsite.txLen, hsite.rxLen, htx.ends, fun i hi => (hrx i hi).ends, htx.idle, htx.unsub,
      fun i hi => (hrx i hi).buf, fun i hi => (hrx i hi).armed, fun i hi => (hrx i hi).whole, hseen.ends, hseen.kept⟩

/-! ### What keeps them -/

theorem SitesOk.carry (hs : SitesOk s) (hst : Sited s u) (hm : u.stMem = s.stMem) (hslot : u.rxSlot = s.rxSlot) :
    SitesOk u where
  apart := by rw [MemsApart, liveMems, hst.tx, hst.rx, hm, hslot]; exact hs.apart
  txLen := by rw [hst.tx, hst.cfg]; exact hs.txLen
  rxLen := by rw [hst.rx, hst.cfg]; exact hs.rxLen

/-- The transmit ring whose bytes stand: what is no longer outstanding is the engine's. -/
theorem TxRingOk.carry (hs : TxRingOk s) (hl : OffsetsOk s.cfg.layout) (hst : Sited s u)
    (hb : ∀ a, s.inRing .tx a → u.mem.read a = s.mem.read a)
    (hidle : ∀ i < s.cfg.nTx, isOutstanding s i → s.nicOwned .tx i = true → isOutstanding u i)
    (hunsub : ∀ i ∈ u.txUnsubmitted, i < s.cfg.nTx ∧ isOutstanding u i) : TxRingOk u where
  ends i hi := by
    rw [hst.cfg] at hi ⊢
    rw [desc32_of_bytes hst hl (fun a ha => hb a (inRing_of_inDesc hi ha)) (by simp)]
    exact hs.ends i hi
  idle i hi hout := by
    rw [hst.cfg] at hi
    rw [nicOwned_of_bytes hst hl fun a ha => hb a (inRing_of_inDesc (ring := .tx) hi ha)]
    by_contra hown
    rw [Bool.not_eq_false] at hown
    by_cases ho : isOutstanding s i
    · exact hout (hidle i hi ho hown)
    · rw [hs.idle i hi ho] at hown
      cases hown
  unsub i hi := by rw [hst.cfg]; exact hunsub i hi

/-- A receive descriptor whose bytes and buffer stand. -/
theorem RxDescOk.carry {i : Nat} (hs : RxDescOk s i) (hl : OffsetsOk s.cfg.layout) (hst : Sited s u)
    (hslot : u.slotPhys i = s.slotPhys i) (hb : ∀ a, s.inDesc .rx i a → u.mem.read a = s.mem.read a) : RxDescOk u i := by
  have hword := desc32_of_bytes hst hl hb (f := .opts1) (by simp)
  have hown := nicOwned_of_bytes hst hl hb
  exact ⟨by rw [hword, hst.cfg]; exact hs.ends, by rw [descBuf_of_bytes hst hl hb, hslot]; exact hs.buf,
    by rw [hown, hword, hst.cfg]; exact hs.armed, by rw [hown, hword, hst.cfg]; exact hs.whole⟩

/-- What the NIC still remembers, of descriptors still armed with the same buffer. -/
theorem SeenOk.carry (hs : SeenOk s) (hcfg : u.cfg = s.cfg) (hsub : ∀ x ∈ u.nicSeen, x ∈ s.nicSeen)
    (hown : ∀ x ∈ u.nicSeen, x.ring = .rx → s.nicOwned .rx x.index = true → u.nicOwned .rx x.index = true)
    (hslot : ∀ x ∈ u.nicSeen, x.ring = .rx → s.nicOwned .rx x.index = true → u.slotPhys x.index = s.slotPhys x.index) :
    SeenOk u where
  ends x hx := by rw [hcfg]; exact hs.ends x (hsub x hx)
  kept x hx hr := by
    obtain ⟨h1, h2, h3, h4⟩ := hs.kept x (hsub x hx) hr
    rw [hcfg, hslot x hx hr h2]
    exact ⟨h1, hown x hx hr h2, h3, h4⟩

theorem seenOk_nil (h : u.nicSeen = []) : SeenOk u := ⟨by simp [h], by simp [h]⟩

/-- An armed receive descriptor is in order (R82). -/
theorem ArmedAt.descOk {i : Nat} (h : ArmedAt u i) (hc : cfgWf u.cfg = true) : RxDescOk u i := by
  have hl := (cfgOk hc).layout
  refine ⟨?_, h.addr, fun _ => ?_, fun hown => ?_⟩
  · obtain ⟨-, heor, -, -⟩ := marks_not_rxlen hl
    rw [h.opts1, flag_or, flag_or, flag_bit_ne (own_ne_eor hl).symm, eorOn_eq, flag_eorBit hl,
      flag_putField_of_fits (cfgOk hc).bufFits heor, Bool.false_or, Bool.or_false]
    rfl
  · rw [h.opts1]
    exact getField_armed hc i
  · rw [h.owned hl] at hown
    cases hown

/-- A cleared transmit ring is in order (R116). -/
theorem txRingOk_cleared (hc : cfgWf u.cfg = true) (hclr : ∀ j < u.cfg.nTx, ClearedAt u j) (hun : u.txUnsubmitted = []) :
    TxRingOk u where
  ends i hi := by
    rw [(hclr i hi).opts1, eorOn_eq]
    exact flag_eorBit (cfgOk hc).layout .tx i
  idle i hi _ := by
    rw [State.nicOwned, (hclr i hi).opts1, eorOn_eq]
    exact own_eorBit (cfgOk hc).layout .tx i
  unsub := by simp [hun]

/-! ### What the NIC keeps of a ring about to be cleared (R268; log entry 8) -/

theorem seenAt_eq_some {ring : Ring} {i : Nat} {x : Seen} : seenAt s ring i = some x ↔ s.nicOwned ring i = true ∧
    x = ⟨ring, i, s.desc32 ring i .opts1, s.descBuf ring i, if ring = .tx then s.txPkt i else none⟩ := by
  unfold seenAt
  split
  · rename_i h
    simp [h, eq_comm]
  · rename_i h
    simp [h]

theorem mem_noteSeen {ring : Ring} {x : Seen} : x ∈ (noteSeen ring s).nicSeen ↔ x ∈ s.nicSeen ∨
    ∃ i < ringSize s.cfg ring, s.nicOwned ring i = true ∧
      x = ⟨ring, i, s.desc32 ring i .opts1, s.descBuf ring i, if ring = .tx then s.txPkt i else none⟩ := by
  simp only [noteSeen, List.mem_append, List.mem_filterMap, List.mem_range, seenAt_eq_some]
  exact Or.comm

/-- What it remembers is in order with the descriptors it remembers it of. -/
theorem SeenOk.noteSeen (hs : SeenOk s) (hrx : ∀ i < s.cfg.nRx, RxDescOk s i) (htx : ringEndOk s .tx) (ring : Ring) :
    SeenOk (noteSeen ring s) where
  ends x hx := by
    rcases mem_noteSeen.1 hx with hx | ⟨i, hi, -, rfl⟩
    · exact hs.ends x hx
    · cases ring with
      | tx => exact htx i hi
      | rx => exact (hrx i hi).ends
  kept x hx hr := by
    rcases mem_noteSeen.1 hx with hx | ⟨i, hi, hown, rfl⟩
    · exact hs.kept x hx hr
    · cases hr
      exact ⟨hi, hown, (hrx i hi).armed hown, (hrx i hi).buf⟩

/-! ### The bytes of the other ring -/

/-- What an operation on one ring leaves of the other: the rings share no byte (R57). -/
theorem SitesOk.rx_of_tx (h : RingsOk s) (ht : TxUsable s) (hr : RxUsable s) {i a : Nat} (hi : i < s.cfg.nRx)
    (ha : s.inDesc .rx i a) : ¬ s.inRing .tx a := fun htx =>
  rings_apart h ht hr htx (inRing_of_inDesc (ring := .rx) hi ha)

end Sys2Proof.Machine
end

section
/-! SUPPORT. O16: the transmit ring behind RING.WRITE, TX.SUBMIT, TX.IRQ, RING.RECLAIM, RING.CLEAR_TX and
NIC.TX_DONE. -/

namespace Sys2Proof.Machine

-- One declaration at a time: each thread of the elaborator reserves a stack of its own.
set_option Elab.async false

variable {s t u : State}

/-- An enabled block with everything in order. -/
structure InOrder (s : State) : Prop where
  cfg : cfgWf s.cfg = true
  mem : s.mem.wf
  cur : CursorsOk s
  tx : TxUsable s
  rx : RxUsable s
  rings : RingsOk s

theorem InOrder.layout (hs : InOrder s) : layoutWf s.cfg.layout = true := (cfgOk hs.cfg).layout

theorem InOrder.offsets (hs : InOrder s) : OffsetsOk s.cfg.layout := offsetsOk hs.layout

theorem InOrder.sites (hs : InOrder s) : SitesOk s := (ringsOk_iff.1 hs.rings).1
theorem InOrder.txRing (hs : InOrder s) : TxRingOk s := (ringsOk_iff.1 hs.rings).2.1
theorem InOrder.rxDesc (hs : InOrder s) : ∀ i < s.cfg.nRx, RxDescOk s i := (ringsOk_iff.1 hs.rings).2.2.1
theorem InOrder.seen (hs : InOrder s) : SeenOk s := (ringsOk_iff.1 hs.rings).2.2.2

/-- The NIC keeping what it had read of a ring changes nothing else. -/
theorem InOrder.noteSeen (hs : InOrder s) (ring : Ring) : InOrder (noteSeen ring s) where
  cfg := hs.cfg
  mem := hs.mem
  cur := ⟨hs.cur.next, hs.cur.dirty, hs.cur.rx, hs.cur.free, hs.cur.slots, hs.cur.scan, hs.cur.once⟩
  tx := hs.tx
  rx := hs.rx
  rings := ringsOk_iff.2 ⟨⟨hs.sites.apart, hs.sites.txLen, hs.sites.rxLen⟩,
    ⟨hs.txRing.ends, hs.txRing.idle, hs.txRing.unsub⟩,
    fun i hi => ⟨(hs.rxDesc i hi).ends, (hs.rxDesc i hi).buf, (hs.rxDesc i hi).armed, (hs.rxDesc i hi).whole⟩,
    hs.seen.noteSeen hs.rxDesc hs.txRing.ends ring⟩

/-- An operation that stores to the transmit ring alone. -/
theorem InOrder.txChanged (hs : InOrder s) (hst : Sited s u) (hm : u.stMem = s.stMem) (hslot : u.rxSlot = s.rxSlot)
    (hout : ∀ a, ¬ s.inRing .tx a → u.mem.read a = s.mem.read a) (htx : TxRingOk u)
    (hseen : ∀ x ∈ u.nicSeen, x ∈ s.nicSeen) : RingsOk u := by
  have hrx : ∀ i < s.cfg.nRx, ∀ a, s.inDesc .rx i a → u.mem.read a = s.mem.read a := fun i hi a ha =>
    hout a (SitesOk.rx_of_tx hs.rings hs.tx hs.rx hi ha)
  refine ringsOk_iff.2 ⟨hs.sites.carry hst hm hslot, htx, fun i hi => ?_, hs.seen.carry hst.cfg hseen
    (fun x hx hr hown => ?_) fun x _ _ _ => slotPhys_congr hslot _⟩
  · rw [hst.cfg] at hi
    exact (hs.rxDesc i hi).carry hs.offsets hst (slotPhys_congr hslot i) (hrx i hi)
  · have hi := (hs.seen.kept x (hseen x hx) hr).1
    rw [nicOwned_of_bytes hst hs.offsets (hrx _ hi)]
    exact hown

/-! ### Stores to the transmit ring -/

/-- The marker stays right behind a descriptor write with flags that leave it alone (R19). -/
theorem writeDesc_ringEnd {ring : Ring} {i : Nat} {seg : Segment} {flags1 flags2 : Word} {own : Bool}
    (hl : layoutWf s.cfg.layout = true) (hw : s.mem.wf) (hf : NoEor s.cfg flags1)
    (hlen : seg.len ≤ maxOf (lenField s.cfg ring).w) (hs : ringEndOk s ring) :
    ringEndOk (writeDesc ring i seg flags1 flags2 own s) ring := by
  have hst := writeDesc_sited ring i seg flags1 flags2 own s
  intro j hj
  rw [hst.cfg] at hj ⊢
  by_cases hij : j = i
  · subst hij
    rw [(writeDesc_fields hw (offsetsOk hl) ring j seg flags1 flags2 own).1]
    exact flag_finalWord hl own hf hlen
  · rw [desc32_of_bytes hst (offsetsOk hl) (writeDesc_other hw (offsetsOk hl) hij seg flags1 flags2 own) (by simp)]
    exact hs j hj

theorem ringEndOk_congr {ring : Ring} (hs : ringEndOk s ring) (hst : Sited s u) (hm : u.mem = s.mem) :
    ringEndOk u ring := by
  intro i hi
  rw [hst.cfg] at hi ⊢
  rw [State.desc32, hst.descAddr, hm]
  exact hs i hi

/-- A store of `opts1` alone: the other bytes stand. -/
theorem opts1Store_read_of_ne (hw : s.mem.wf) (hl : OffsetsOk s.cfg.layout) {ring : Ring} {i a : Nat} (v : Word)
    (ha : ¬ s.inDesc ring i a) : (s.mem.write32 (s.descAddr ring i .opts1) v).read a = s.mem.read a := by
  have h1 := hl.opts1
  have e1 : s.descAddr ring i .opts1 = (s.base ring).toNat + 16 * i + s.cfg.layout.offOpts1 := rfl
  simp only [State.inDesc, descSize] at ha
  exact Memory.read_write32_of_ne hw _ _ (by omega)

theorem opts1Store_desc32 (hw : s.mem.wf) {ring : Ring} {i : Nat} {v : Word} (hst : Sited s u)
    (hm : u.mem = s.mem.write32 (s.descAddr ring i .opts1) v) : u.desc32 ring i .opts1 = v := by
  rw [State.desc32, hst.descAddr, hm, Memory.read32_write32 hw]

theorem opts1Store_ringEnd {ring : Ring} {i : Nat} {v : Word} (hl : OffsetsOk s.cfg.layout) (hw : s.mem.wf)
    (hst : Sited s u) (hm : u.mem = s.mem.write32 (s.descAddr ring i .opts1) v)
    (hv : flag v s.cfg.layout.eor = decide (i + 1 = ringSize s.cfg ring)) (hs : ringEndOk s ring) : ringEndOk u ring := by
  intro j hj
  rw [hst.cfg] at hj ⊢
  by_cases hij : j = i
  · subst hij
    rw [opts1Store_desc32 hw hst hm]
    exact hv
  · rw [desc32_of_bytes hst hl (fun a ha => ?_) (by simp)]
    · exact hs j hj
    · rw [hm]
      exact opts1Store_read_of_ne hw hl v fun h => hij (inDesc_unique ha h)

/-- The descriptors of a packet written (R140, R145 step 5), and no other byte. -/
theorem writePacket_bytes {first n : Nat} {cmd : Cmd} {vlan : Option Half} (segs : List Segment) (j : Nat) {s : State}
    (hl : OffsetsOk s.cfg.layout) (hw : s.mem.wf) :
    (writePacket first n cmd vlan j segs s).mem.wf ∧ Sited s (writePacket first n cmd vlan j segs s) ∧
    ∀ a, (∀ k < segs.length, ¬ s.inDesc .tx (txIdx s.cfg first (j + k)) a) →
      (writePacket first n cmd vlan j segs s).mem.read a = s.mem.read a := by
  induction segs generalizing j s with
  | nil => exact ⟨hw, .refl s, fun _ _ => rfl⟩
  | cons seg rest ih =>
    rw [writePacket]
    generalize hd : writeDesc .tx (txIdx s.cfg first j) seg (packetFlags1 s.cfg cmd j n) (packetFlags2 s.cfg cmd vlan)
      (j != 0) s = d
    have hst : Sited s d := hd ▸ writeDesc_sited ..
    obtain ⟨w, st, out⟩ := ih (j + 1) (s := d) (by rw [hst.cfg]; exact hl) (hd ▸ writeDesc_wf hw ..)
    refine ⟨w, hst.trans st, fun a ha => ?_⟩
    rw [out a fun k hk => ?_, ← hd]
    · exact writeDesc_read_of_ne hw hl _ _ _ _ (ha 0 (Nat.succ_pos _))
    · rw [hst.inDesc, hst.cfg, Nat.add_right_comm]
      exact ha (k + 1) (Nat.succ_lt_succ hk)

theorem writePacket_ringEnd {first n : Nat} {cmd : Cmd} {vlan : Option Half} (segs : List Segment) (j : Nat) {s : State}
    (hl : layoutWf s.cfg.layout = true) (hw : s.mem.wf) (hf : NoEor s.cfg cmd.cmd1)
    (hlen : ∀ x ∈ segs, SegmentIn (segLenMax s.cfg) x) (hs : ringEndOk s .tx) :
    ringEndOk (writePacket first n cmd vlan j segs s) .tx := by
  induction segs generalizing j s with
  | nil => exact hs
  | cons seg rest ih =>
    rw [writePacket]
    generalize hd : writeDesc .tx (txIdx s.cfg first j) seg (packetFlags1 s.cfg cmd j n) (packetFlags2 s.cfg cmd vlan)
      (j != 0) s = d
    have hcfg : d.cfg = s.cfg := hd ▸ (writeDesc_sited ..).cfg
    have hlen0 : seg.len ≤ maxOf (lenField s.cfg .tx).w := (hlen seg List.mem_cons_self).2.2
    exact ih (j + 1) (s := d) (by rw [hcfg]; exact hl) (hd ▸ writeDesc_wf hw ..)
      (by rw [hcfg]; exact hf) (by rw [hcfg]; exact fun x hx => hlen x (List.mem_cons_of_mem _ hx))
      (hd ▸ writeDesc_ringEnd hl hw (noEor_packetFlags1 hl hf j n) hlen0 hs)

/-- What TX.SUBMIT writes before its last store (R145 steps 5 and 6). -/
def packetWritten (seg0 : Segment) (segs : List Segment) (cmd : Cmd) (vlan : Option Half) (s : State) : State :=
  writePacket s.txNext (segs.length + 1) cmd vlan 0 (seg0 :: segs) (takeDescs (segs.length + 1) s)

theorem packetWritten_bytes {seg0 : Segment} {segs : List Segment} {cmd : Cmd} {vlan : Option Half} {s : State}
    (hl : OffsetsOk s.cfg.layout) (hw : s.mem.wf) :
    (packetWritten seg0 segs cmd vlan s).mem.wf ∧ Sited s (packetWritten seg0 segs cmd vlan s) ∧
    ∀ a, (∀ k < segs.length + 1, ¬ s.inDesc .tx (txIdx s.cfg s.txNext k) a) →
      (packetWritten seg0 segs cmd vlan s).mem.read a = s.mem.read a := by
  obtain ⟨w, st, out⟩ := writePacket_bytes (first := s.txNext) (n := segs.length + 1) (cmd := cmd) (vlan := vlan)
    (seg0 :: segs) 0 (s := takeDescs (segs.length + 1) s) hl hw
  refine ⟨w, ⟨st.cfg, st.tx, st.rx⟩, fun a ha => out a fun k hk => ?_⟩
  rw [Nat.zero_add]
  exact ha k hk

/-- The last store of TX.SUBMIT is that of the first descriptor's `opts1` (R147). -/
theorem submitSegs_mem (h : Handle) (seg0 : Segment) (segs : List Segment) (cmd : Cmd) (vlan : Option Half) (s : State) :
    (submitSegs h seg0 segs cmd vlan s).mem =
      (packetWritten seg0 segs cmd vlan s).mem.write32 ((packetWritten seg0 segs cmd vlan s).descAddr .tx s.txNext .opts1)
        (ownedWord (packetWritten seg0 segs cmd vlan s).cfg .tx s.txNext (packetFlags1 s.cfg cmd 0 (segs.length + 1))
          seg0.len) := by
  rw [submitSegs, packetWritten]
  generalize writePacket _ _ _ _ _ _ _ = d
  rfl

theorem submitSegs_sited (h : Handle) (seg0 : Segment) (segs : List Segment) (cmd : Cmd) (vlan : Option Half) (s : State) :
    Sited (packetWritten seg0 segs cmd vlan s) (submitSegs h seg0 segs cmd vlan s) := by
  rw [submitSegs, packetWritten]
  generalize writePacket _ _ _ _ _ _ _ = d
  exact ⟨rfl, rfl, rfl⟩

/-- What TX.SUBMIT stores (R145 steps 5 to 7): the packet's descriptors, and no other byte. -/
theorem submitSegs_bytes {h : Handle} {seg0 : Segment} {segs : List Segment} {cmd : Cmd} {vlan : Option Half} {s : State}
    (hl : OffsetsOk s.cfg.layout) (hw : s.mem.wf) (hnext : s.txNext < s.cfg.nTx) {a : Nat}
    (ha : ∀ k < segs.length + 1, ¬ s.inDesc .tx (txIdx s.cfg s.txNext k) a) :
    (submitSegs h seg0 segs cmd vlan s).mem.read a = s.mem.read a := by
  obtain ⟨w, hst, out⟩ := packetWritten_bytes (seg0 := seg0) (segs := segs) (cmd := cmd) (vlan := vlan) hl hw
  have hfirst : txIdx s.cfg s.txNext 0 = s.txNext := Nat.mod_eq_of_lt hnext
  rw [submitSegs_mem, opts1Store_read_of_ne w (by rw [hst.cfg]; exact hl) _ ?_, out a ha]
  rw [hst.inDesc, ← hfirst]
  exact ha 0 (Nat.succ_pos _)

theorem submitSegs_ringEnd {h : Handle} {seg0 : Segment} {segs : List Segment} {cmd : Cmd} {vlan : Option Half} {s : State}
    (hl : layoutWf s.cfg.layout = true) (hw : s.mem.wf) (hf : NoEor s.cfg cmd.cmd1)
    (hlen : ∀ x ∈ seg0 :: segs, SegmentIn (segLenMax s.cfg) x) (hs : ringEndOk s .tx) :
    Sited s (submitSegs h seg0 segs cmd vlan s) ∧ ringEndOk (submitSegs h seg0 segs cmd vlan s) .tx := by
  obtain ⟨w, hst, -⟩ := packetWritten_bytes (seg0 := seg0) (segs := segs) (cmd := cmd) (vlan := vlan) (offsetsOk hl) hw
  have ends : ringEndOk (packetWritten seg0 segs cmd vlan s) .tx :=
    writePacket_ringEnd (s := takeDescs (segs.length + 1) s) (seg0 :: segs) 0 hl hw hf hlen hs
  have hsub := submitSegs_sited h seg0 segs cmd vlan s
  have hlen0 : seg0.len ≤ maxOf (lenField s.cfg .tx).w := (hlen seg0 List.mem_cons_self).2.2
  refine ⟨hst.trans hsub, opts1Store_ringEnd (by rw [hst.cfg]; exact offsetsOk hl) w hsub (submitSegs_mem ..) ?_ ends⟩
  rw [hst.cfg]
  exact flag_ownedWord hl (noEor_packetFlags1 hl hf _ _) hlen0

/-- The indices of a packet are submitted with it (log entry 34). -/
theorem mem_txUnsubmitted_of_submitSegs {h : Handle} {seg0 : Segment} {segs : List Segment} {cmd : Cmd}
    {vlan : Option Half} {i : Nat} (hi : i ∈ (submitSegs h seg0 segs cmd vlan s).txUnsubmitted) :
    i ∈ s.txUnsubmitted := by
  have he : (submitSegs h seg0 segs cmd vlan s).txUnsubmitted =
      (s.txUnsubmitted ++ txRange s.cfg s.txNext (segs.length + 1)).filter
        fun i => i ∉ txRange s.cfg s.txNext (segs.length + 1) := by
    simp [submitSegs, submitRange, ownFirst, storeSlot]
  rw [he, List.mem_filter, List.mem_append] at hi
  exact hi.1.resolve_right fun h => absurd h (by simpa using hi.2)

/-! ### The transmit ring behind each operation -/

/-- The transmit ring re-written in part: what is not outstanding now was not before, or is the engine's. -/
theorem TxRingOk.rewrite (hs : TxRingOk s) (hcfg : u.cfg = s.cfg) (hends : ringEndOk u .tx)
    (hown : ∀ i < s.cfg.nTx, ¬ isOutstanding u i → u.nicOwned .tx i = true →
      s.nicOwned .tx i = true ∧ ¬ isOutstanding s i)
    (hunsub : ∀ i ∈ u.txUnsubmitted, i < s.cfg.nTx ∧ isOutstanding u i) : TxRingOk u where
  ends := hends
  idle i hi hout := by
    rw [hcfg] at hi
    by_contra h
    obtain ⟨h1, h2⟩ := hown i hi hout (by simpa using h)
    rw [hs.idle i hi h2] at h1
    cases h1
  unsub i hi := by rw [hcfg]; exact hunsub i hi

/-- RING.ALLOC (R110): what it hands out is outstanding and may be written. -/
theorem InOrder.takeDescs (hs : InOrder s) {n : Nat} (hn : (n : Int) < s.txFree) : RingsOk (takeDescs n s) := by
  obtain ⟨-, ho, -⟩ := hs.cur.allocate hs.cfg (u := Machine.takeDescs n s) hn rfl rfl rfl rfl
  have hfree := hs.cur.free
  refine hs.txChanged ⟨rfl, rfl, rfl⟩ rfl rfl (fun _ _ => rfl) ?_ fun _ hx => hx
  refine hs.txRing.carry hs.offsets ⟨rfl, rfl, rfl⟩ (fun _ _ => rfl)
    (fun i _ hi _ => isOutstanding_of_allocate ho rfl rfl hi) fun i hi => ?_
  rw [takeDescs_txUnsubmitted, List.mem_append] at hi
  rcases hi with hi | hi
  · obtain ⟨h1, h2⟩ := hs.txRing.unsub i hi
    exact ⟨h1, isOutstanding_of_allocate ho rfl rfl h2⟩
  · obtain ⟨j, hj, rfl⟩ := List.mem_map.1 hi
    refine ⟨Nat.mod_lt _ (by have := hs.cur.next; omega), ?_⟩
    exact hs.cur.isOutstanding_allocated ho (by omega) (List.mem_range.1 hj) rfl rfl

/-- RING.WRITE on the transmit ring (R112): it writes what is outstanding. -/
theorem InOrder.writeTx (hs : InOrder s) {index : Nat} {seg : Segment} {flags1 flags2 : Word} {own : Bool}
    (hr : writeOperandsOk s.cfg .tx index seg flags1 flags2 = true) (hf : writeProblem .tx index s = none)
    (hst : Sited s u) (hm : u.mem = (writeDesc .tx index seg flags1 flags2 own s).mem) (hstm : u.stMem = s.stMem)
    (hslot : u.rxSlot = s.rxSlot) (hseen : u.nicSeen = s.nicSeen) (hnext : u.txNext = s.txNext)
    (hdirty : u.txDirty = s.txDirty) (hun : ∀ i ∈ u.txUnsubmitted, i ∈ s.txUnsubmitted) : RingsOk u := by
  simp only [writeOperandsOk, Bool.and_eq_true, decide_eq_true_eq] at hr
  obtain ⟨⟨⟨hi, -⟩, hlen⟩, hflags⟩ := hr
  have hidx : index ∈ s.txUnsubmitted := by
    by_contra h
    unfold writeProblem at hf
    split at hf
    · cases hf
    · rw [if_pos ⟨rfl, h⟩] at hf
      cases hf
  have hout : ∀ i, isOutstanding u i ↔ isOutstanding s i := fun i => by
    simp only [isOutstanding, outstanding, hst.cfg, hnext, hdirty]
  have hw : Sited (writeDesc .tx index seg flags1 flags2 own s) u := (writeDesc_sited ..).symm.trans hst
  refine hs.txChanged hst hstm hslot (fun a ha => ?_) ?_ fun x hx => hseen ▸ hx
  · rw [hm]
    exact writeDesc_read_of_ne hs.mem hs.offsets _ _ _ _ fun h => ha (inRing_of_inDesc (ring := .tx) hi h)
  · refine hs.txRing.rewrite hst.cfg (fun i hi => ?_) (fun i _ ho hown => ?_) fun i hi => ?_
    · exact ringEndOk_congr (writeDesc_ringEnd hs.layout hs.mem (noEor_flagsOk hs.layout hflags) hlen hs.txRing.ends) hw hm
        i hi
    · rw [hout] at ho
      have hne : i ≠ index := fun h => ho (h ▸ (hs.txRing.unsub index hidx).2)
      refine ⟨?_, ho⟩
      rw [← hown]
      exact (nicOwned_of_bytes hst hs.offsets fun a ha => by
        rw [hm]
        exact writeDesc_other hs.mem hs.offsets hne seg flags1 flags2 own a ha).symm
    · obtain ⟨h1, h2⟩ := hs.txRing.unsub i (hun i hi)
      exact ⟨h1, (hout i).2 h2⟩

/-- TX.SUBMIT (R145): it writes what it has just been handed out. -/
theorem InOrder.submit (hs : InOrder s) {h : Handle} {seg0 : Segment} {segs : List Segment} {cmd : Cmd}
    {vlan : Option Half} {v : State} (hf : NoEor s.cfg cmd.cmd1)
    (hlen : ∀ x ∈ seg0 :: segs, SegmentIn (segLenMax s.cfg) x) (hroom : ((segs.length + 1 : Nat) : Int) < s.txFree)
    (hv : ∃ held hist, v = { s with heldPackets := held, history := hist })
    (hu : submitSegs h seg0 segs cmd vlan v = u) : RingsOk u := by
  obtain ⟨held, hist, rfl⟩ := hv
  obtain ⟨hst, ends⟩ := submitSegs_ringEnd (h := h) (vlan := vlan)
    (s := { s with heldPackets := held, history := hist }) hs.layout hs.mem hf hlen hs.txRing.ends
  have out : ∀ a, (∀ k < segs.length + 1, ¬ s.inDesc .tx (txIdx s.cfg s.txNext k) a) →
      (submitSegs h seg0 segs cmd vlan { s with heldPackets := held, history := hist }).mem.read a = s.mem.read a :=
    fun a ha => submitSegs_bytes (s := { s with heldPackets := held, history := hist }) hs.offsets hs.mem hs.cur.next ha
  obtain ⟨m, hist', us, he⟩ := submitSegs_shape h seg0 segs cmd vlan { s with heldPackets := held, history := hist }
  have hun : ∀ i ∈ u.txUnsubmitted, i ∈ s.txUnsubmitted := fun i hi => by
    rw [← hu] at hi
    exact mem_txUnsubmitted_of_submitSegs (s := { s with heldPackets := held, history := hist }) hi
  rw [hu] at hst ends out he
  have hst' : Sited s u := ⟨hst.cfg, hst.tx, hst.rx⟩
  have hcfg := hst'.cfg
  have hdirty : u.txDirty = s.txDirty := by rw [he]
  obtain ⟨-, ho, -⟩ := hs.cur.allocate hs.cfg (u := u) hroom hcfg (by rw [he]) hdirty (by rw [he])
  have hfree := hs.cur.free
  have hwritten : ∀ k < segs.length + 1, isOutstanding u (txIdx s.cfg s.txNext k) := fun k hk =>
    hs.cur.isOutstanding_allocated ho (by omega) hk hcfg hdirty
  refine hs.txChanged hst' (by rw [he]) (by rw [he]) (fun a ha => out a fun k _ hd => ha ?_) ?_ fun x hx => by
    rw [he] at hx
    exact hx
  · exact inRing_of_inDesc (ring := .tx) (Nat.mod_lt _ (by have := hs.cur.next; show 0 < s.cfg.nTx; omega)) hd
  · refine hs.txRing.rewrite hcfg ends (fun i _ hi hown => ⟨?_, fun h => hi ?_⟩) fun i hi => ?_
    · rw [← hown]
      refine (nicOwned_of_bytes hst' hs.offsets fun a ha => out a fun k hk hd => hi ?_).symm
      rw [inDesc_unique ha hd]
      exact hwritten k hk
    · exact isOutstanding_of_allocate ho hcfg hdirty h
    · obtain ⟨h1, h2⟩ := hs.txRing.unsub i (hun i hi)
      exact ⟨h1, isOutstanding_of_allocate ho hcfg hdirty h2⟩

/-- A round of TX.IRQ (R149): what it reclaims is the engine's. -/
theorem InOrder.scan (hs : InOrder s) {k old : Nat} (hk : k ≤ outstanding s) (h : txScan k old s = .next t) :
    RingsOk t := by
  rcases txScan_cases h with ⟨-, st, hist, rfl⟩ | ⟨j, held, hist, rfl, hown, -, ht⟩
  · exact hs.txChanged ⟨rfl, rfl, rfl⟩ rfl rfl (fun _ _ => rfl)
      (hs.txRing.carry hs.offsets ⟨rfl, rfl, rfl⟩ (fun _ _ => rfl) (fun _ _ h _ => h) hs.txRing.unsub) fun _ hx => hx
  · obtain ⟨-, ho, -⟩ := hs.cur.advance hs.cfg (u := t) (by omega) (by rw [ht]) (by rw [ht]) (by rw [ht]) (by rw [ht])
    have hout : ∀ i < s.cfg.nTx, (isOutstanding t i ↔ isOutstanding s i ∧ i ≠ s.txDirty) := fun i hi =>
      hs.cur.isOutstanding_advance ho (by rw [ht]) (by rw [ht]) hi
    have hst : Sited s t := by rw [ht]; exact ⟨rfl, rfl, rfl⟩
    refine hs.txChanged hst (by rw [ht]) (by rw [ht]) (fun _ _ => by rw [ht]) ?_ fun x hx => by rw [ht] at hx; exact hx
    refine hs.txRing.carry hs.offsets hst (fun _ _ => by rw [ht]) (fun i hi h1 h2 => (hout i hi).2 ⟨h1, fun e => ?_⟩)
      fun i hi => ?_
    · rw [e, hown] at h2
      cases h2
    · rw [ht] at hi
      obtain ⟨hmem, hne⟩ := List.mem_filter.1 hi
      obtain ⟨h1, h2⟩ := hs.txRing.unsub i hmem
      exact ⟨h1, (hout i h1).2 ⟨h2, by simpa using hne⟩⟩

/-- The reclaim of one descriptor the NIC has given back (R114). -/
theorem InOrder.advanceDirty (hs : InOrder s) (hw : NoScan s.work) (ho : 1 ≤ outstanding s)
    (hown : s.nicOwned .tx s.txDirty = false) : InOrder (advanceDirty s) := by
  obtain ⟨hcur, ho⟩ := hs.cur.advanceDirty hs.cfg hw ho
  have hout : ∀ i < s.cfg.nTx, (isOutstanding (Machine.advanceDirty s) i ↔ isOutstanding s i ∧ i ≠ s.txDirty) :=
    fun i hi => hs.cur.isOutstanding_advance ho rfl rfl hi
  refine ⟨hs.cfg, hs.mem, hcur, hs.tx, hs.rx, ?_⟩
  refine hs.txChanged ⟨rfl, rfl, rfl⟩ rfl rfl (fun _ _ => rfl) ?_ fun _ hx => hx
  refine hs.txRing.carry hs.offsets ⟨rfl, rfl, rfl⟩ (fun _ _ => rfl) (fun i hi h1 h2 => (hout i hi).2 ⟨h1, fun e => ?_⟩)
    fun i hi => ?_
  · rw [e, hown] at h2
    cases h2
  · obtain ⟨hmem, hne⟩ := List.mem_filter.1 hi
    obtain ⟨h1, h2⟩ := hs.txRing.unsub i hmem
    exact ⟨h1, (hout i h1).2 ⟨h2, by simpa using hne⟩⟩

/-- What only records keeps all in order. -/
theorem InOrder.emit (hs : InOrder s) (e : Event) : InOrder (s.emit e) where
  cfg := hs.cfg
  mem := hs.mem
  cur := ⟨hs.cur.next, hs.cur.dirty, hs.cur.rx, hs.cur.free, hs.cur.slots, hs.cur.scan, hs.cur.once⟩
  tx := hs.tx
  rx := hs.rx
  rings := ringsOk_iff.2 ⟨⟨hs.sites.apart, hs.sites.txLen, hs.sites.rxLen⟩,
    ⟨hs.txRing.ends, hs.txRing.idle, hs.txRing.unsub⟩,
    fun i hi => ⟨(hs.rxDesc i hi).ends, (hs.rxDesc i hi).buf, (hs.rxDesc i hi).armed, (hs.rxDesc i hi).whole⟩,
    ⟨hs.seen.ends, hs.seen.kept⟩⟩

/-- RING.RECLAIM's loop (R114). -/
theorem InOrder.reclaim {k : Nat} {done : List Nat} {s : State} {r : State × List Nat} (hs : InOrder s)
    (hw : NoScan s.work) (hk : k ≤ outstanding s) (h : reclaimLoop k done s = .next r) : RingsOk r.1 := by
  induction k generalizing done s with
  | zero => cases h; exact hs.rings
  | succ k ih =>
    obtain ⟨v, hv, h⟩ := andThen_eq_next.1 h
    simp only [reclaimOne, andThen_next] at hv
    have hread : InOrder (s.noteRead .tx s.txDirty .opts1) := hs.emit _
    split at hv
    · cases hv
      cases h
      exact hread.rings
    · rename_i hown
      cases hv
      have hacq := hread.emit .acquire
      have hadv := hacq.advanceDirty hw (by show 1 ≤ outstanding s; omega) (eq_false_of_ne_true hown)
      have ho := (hacq.cur.advanceDirty hs.cfg hw (by show 1 ≤ outstanding s; omega)).2
      have ho : outstanding (Machine.advanceDirty ((s.noteRead .tx s.txDirty .opts1).emit .acquire)) + 1 =
        outstanding s := ho
      exact ih hadv hw (by omega) h

/-- RING.CLEAR_TX (R116). -/
theorem InOrder.clearTx (hs : InOrder s) (h : clearTx s = .next t) : RingsOk t := by
  obtain ⟨-, hst, hout, hclr, -⟩ := clearTx_effect hs.mem hs.offsets h
  obtain ⟨m, hist, sl, he, ht⟩ := clearTx_shape h
  refine hs.txChanged hst (by rw [ht]; rfl) (by rw [ht]; rfl) hout ?_ fun x hx => by rw [ht] at hx; exact hx
  exact txRingOk_cleared (by rw [hst.cfg]; exact hs.cfg) (by rw [hst.cfg]; exact hclr) (by rw [ht]; rfl)

/-- What NIC.TX_DONE acts on is a transmit descriptor of that index with the marker right (R217, R218). -/
theorem InOrder.txDoneWord (hs : InOrder s) {i : Nat} {d : TxDoneDraws} {x : Seen} (hi : i < s.cfg.nTx)
    (h : txDoneWord i d s = some x) : flag x.word s.cfg.layout.eor = decide (i + 1 = s.cfg.nTx) := by
  unfold Machine.txDoneWord at h
  split at h
  · have hmem := List.mem_of_getElem? h
    obtain ⟨hx, hkey⟩ := List.mem_filter.1 hmem
    simp only [Bool.and_eq_true, beq_iff_eq] at hkey
    have hends := hs.seen.ends x hx
    rw [hkey.1, hkey.2] at hends
    exact hends
  · obtain ⟨-, rfl⟩ := seenAt_eq_some.1 h
    exact hs.txRing.ends i hi

/-- NIC.TX_DONE (R218): one store, of the word it acts on without `OWN`. -/
theorem txDone_next {i : Nat} {d : TxDoneDraws} (h : txDone i d s = .next t) : ∃ x, txDoneWord i d s = some x ∧
    t.mem = s.mem.write32 (s.descAddr .tx i .opts1) (clearBit x.word s.cfg.layout.own) ∧
    ∀ y ∈ t.nicSeen, y ∈ s.nicSeen := by
  unfold txDone at h
  split at h
  · cases h
  · split at h
    · cases h
    · rename_i x hx
      split at h
      · cases h
      · refine ⟨x, hx, ?_⟩
        dsimp only at h
        split at h <;> cases h
        · exact ⟨rfl, fun y hy => (List.mem_filter.1 hy).1⟩
        · exact ⟨rfl, fun y hy => (List.mem_filter.1 hy).1⟩

/-- NIC.TX_DONE (R218). -/
theorem InOrder.txDone (hs : InOrder s) {i : Nat} {d : TxDoneDraws} (hi : i < s.cfg.nTx) (h : txDone i d s = .next t) :
    RingsOk t := by
  obtain ⟨m, hist, sn, b, q, ht⟩ := txDone_shape h
  have hst : Sited s t := by rw [ht]; exact ⟨rfl, rfl, rfl⟩
  obtain ⟨x, hx, hm, hseen⟩ := txDone_next h
  have hbit : flag (clearBit x.word s.cfg.layout.own) s.cfg.layout.eor = decide (i + 1 = s.cfg.nTx) := by
    rw [flag_clearBit _ _ _ (eor_lt hs.layout), hs.txDoneWord hi hx, decide_eq_false (own_ne_eor hs.layout).symm]
    simp
  have hout : ∀ j, isOutstanding t j ↔ isOutstanding s j := fun j => by rw [ht]; rfl
  refine hs.txChanged hst (by rw [ht]) (by rw [ht]) (fun a ha => ?_) ?_ hseen
  · rw [hm]
    exact opts1Store_read_of_ne hs.mem hs.offsets _ fun h => ha (inRing_of_inDesc (ring := .tx) hi h)
  · refine hs.txRing.rewrite hst.cfg (opts1Store_ringEnd hs.offsets hs.mem hst hm hbit hs.txRing.ends)
      (fun j _ hj hown => ⟨?_, fun h => hj ((hout j).2 h)⟩) fun j hj => ?_
    · by_cases hij : j = i
      · rw [hij, State.nicOwned, opts1Store_desc32 hs.mem hst hm, hst.cfg, flag_clearBit _ _ _ (own_lt hs.layout)] at hown
        simp at hown
      · rw [← hown]
        refine (nicOwned_of_bytes hst hs.offsets fun a ha => ?_).symm
        rw [hm]
        exact opts1Store_read_of_ne hs.mem hs.offsets _ fun h => hij (inDesc_unique ha h)
    · obtain ⟨h1, h2⟩ := hs.txRing.unsub j (by rw [ht] at hj; exact hj)
      exact ⟨h1, (hout j).2 h2⟩

end Sys2Proof.Machine
end

section
/-! SUPPORT. O16: the receive ring behind RX.IRQ, RING.WRITE, RING.CLEAR_RX, NIC.RX_FILL, and both rings behind the
resets, LINK.DOWN and ENABLE. -/

namespace Sys2Proof.Machine

-- One declaration at a time: each thread of the elaborator reserves a stack of its own.
set_option Elab.async false

variable {s t u : State}

/-! ### The memories apart -/

theorem memsApart_symm {m n : DmaMem} (h : memsApart m n) : memsApart n m := Or.symm h

/-- A list of memories with one taken out, by its place. -/
theorem liveMems_perm (hs : u.txMem = s.txMem ∧ u.rxMem = s.rxMem ∧ u.stMem = s.stMem) {i : Nat}
    (hi : i < s.rxSlot.length) {b : RxBuffer} (hslot : u.rxSlot = s.rxSlot.set i (some b)) :
    (liveMems u).Perm (b.mem :: liveMems { s with rxSlot := s.rxSlot.set i none }) := by
  obtain ⟨h1, h2, h3⟩ := hs
  have hb : (s.rxSlot.set i (some b)).getD i none = some b := by rw [getD_set_eq, if_pos ⟨rfl, hi⟩]
  have hset : ((s.rxSlot.set i (some b)).filterMap (Option.map RxBuffer.mem)).Perm
      (b.mem :: (s.rxSlot.set i none).filterMap (Option.map RxBuffer.mem)) := by
    have hi' : i < (s.rxSlot.set i (some b)).length := by simpa using hi
    have h := filterMap_perm_set (Option.map RxBuffer.mem) (z := none) rfl hi'
    simpa using h
  rw [liveMems, h1, h2, h3, hslot]
  exact (hset.append_left _).trans List.perm_middle

theorem filterMap_set_none_sublist {α β : Type} (g : α → β) (l : List (Option α)) (i : Nat) :
    ((l.set i none).filterMap (Option.map g)).Sublist (l.filterMap (Option.map g)) := by
  induction l generalizing i with
  | nil => exact .refl _
  | cons a l ih =>
    cases i with
    | zero =>
      cases a with
      | none => exact .refl _
      | some a => exact .cons _ (.refl _)
    | succ i =>
      cases a with
      | none => exact ih i
      | some a => exact .cons_cons _ (ih i)

/-- A buffer drawn apart from all live memory may take any slot (R57). -/
theorem memsApart_store (hm : u.txMem = s.txMem ∧ u.rxMem = s.rxMem ∧ u.stMem = s.stMem) {i : Nat} {h : Handle}
    {seg : Segment} (hslot : u.rxSlot = s.rxSlot.set i (some (bufferOf h seg)))
    (hfresh : memFresh s seg.addr.toNat seg.len = true) (hs : MemsApart s) : MemsApart u := by
  by_cases hi : i < s.rxSlot.length
  · have hsub : (liveMems { s with rxSlot := s.rxSlot.set i none }).Sublist (liveMems s) := by
      exact (filterMap_set_none_sublist _ _ _).append_left _
    rw [MemsApart, (liveMems_perm hm hi hslot).pairwise_iff fun h => memsApart_symm h, List.pairwise_cons]
    exact ⟨fun n hn => (memFresh_iff.1 hfresh n (hsub.subset hn)), hs.sublist hsub⟩
  · rw [MemsApart, liveMems, hm.1, hm.2.1, hm.2.2, hslot, List.set_eq_of_length_le (Nat.le_of_not_lt hi)]
    exact hs

theorem SlotStep.memsApart {slots : List (Option RxBuffer)} (h : SlotStep s slots)
    (hm : u.txMem = s.txMem ∧ u.rxMem = s.rxMem ∧ u.stMem = s.stMem) (hslot : u.rxSlot = slots) (hs : MemsApart s) :
    MemsApart u := by
  cases h with
  | keep => rw [MemsApart, liveMems, hm.1, hm.2.1, hm.2.2, hslot]; exact hs
  | replace old b regions seg hold hseg hfresh => exact memsApart_store hm hslot hfresh hs

theorem SlotStep.slotPhys {slots : List (Option RxBuffer)} (h : SlotStep s slots) (hslot : u.rxSlot = slots) {i : Nat}
    (hi : i ≠ s.rxIndex) : u.slotPhys i = s.slotPhys i := by
  cases h with
  | keep => exact slotPhys_congr hslot i
  | replace old b regions seg hold hseg hfresh =>
    rw [State.slotPhys, State.slotPhys, State.rxBuf, hslot, getD_set_eq, if_neg fun e => hi e.1]
    rfl

/-- The rings share no byte (R57). -/
theorem SitesOk.rings_apart (h : SitesOk s) (ht : TxUsable s) (hr : RxUsable s) {a : Nat} (h1 : s.inRing .tx a) :
    ¬ s.inRing .rx a := by
  obtain ⟨d, hd, -, -, -⟩ := ringProblem_none ht
  obtain ⟨e, he, -, -, -⟩ := ringProblem_none (rxProblem_none hr).1
  have hap := h.apart
  have l1 := h.txLen d hd
  have l2 := h.rxLen e he
  rw [MemsApart, liveMems, hd, he] at hap
  have h3 : memsApart d e := (List.pairwise_cons.1 hap).1 e (by simp)
  simp only [State.inRing, State.base, State.ringMem, hd, he, memsApart, l1, l2, ringSize] at h1 h3 ⊢
  omega

/-! ### Changes to the receive ring -/

/-- An operation that stores to the receive ring alone, and may re-fill a slot. -/
theorem InOrder.rxChanged (hs : InOrder s) (hst : Sited s u) (hap : MemsApart u)
    (hout : ∀ a, s.inRing .tx a → u.mem.read a = s.mem.read a)
    (hcur : u.txNext = s.txNext ∧ u.txDirty = s.txDirty ∧ u.txUnsubmitted = s.txUnsubmitted)
    (hrx : ∀ i < s.cfg.nRx, RxDescOk u i) (hseen : SeenOk u) : RingsOk u := by
  have hiff : ∀ i, isOutstanding u i ↔ isOutstanding s i := fun i => by
    simp only [isOutstanding, outstanding, hst.cfg, hcur.1, hcur.2.1]
  refine ringsOk_iff.2 ⟨⟨hap, ?_, ?_⟩, hs.txRing.carry hs.offsets hst hout (fun i _ h _ => (hiff i).2 h) fun i hi => ?_,
    hst.cfg ▸ hrx, hseen⟩
  · rw [hst.tx, hst.cfg]
    exact hs.sites.txLen
  · rw [hst.rx, hst.cfg]
    exact hs.sites.rxLen
  · obtain ⟨h1, h2⟩ := hs.txRing.unsub i (hcur.2.2 ▸ hi)
    exact ⟨h1, (hiff i).2 h2⟩

theorem InOrder.tx_of_rx (hs : InOrder s) {i a : Nat} (hi : i < s.cfg.nRx) (ha : s.inRing .tx a) : ¬ s.inDesc .rx i a :=
  fun h => SitesOk.rx_of_tx hs.rings hs.tx hs.rx hi h ha

/-- One receive descriptor re-written that the NIC did not own, and its slot perhaps re-filled. -/
theorem InOrder.rxDescChanged (hs : InOrder s) {i : Nat} (hst : Sited s u) (hap : MemsApart u)
    (hout : ∀ a, (s.inRing .tx a ∨ ∃ j < s.cfg.nRx, j ≠ i ∧ s.inDesc .rx j a) → u.mem.read a = s.mem.read a)
    (hcur : u.txNext = s.txNext ∧ u.txDirty = s.txDirty ∧ u.txUnsubmitted = s.txUnsubmitted)
    (hslot : ∀ j, j ≠ i → u.slotPhys j = s.slotPhys j) (hdesc : RxDescOk u i) (hseen : ∀ x ∈ u.nicSeen, x ∈ s.nicSeen)
    (hne : ∀ x ∈ u.nicSeen, x.ring = .rx → s.nicOwned .rx x.index = true → x.index ≠ i) : RingsOk u := by
  have hother : ∀ j < s.cfg.nRx, j ≠ i → ∀ a, s.inDesc .rx j a → u.mem.read a = s.mem.read a := fun j hj hij a ha =>
    hout a (.inr ⟨j, hj, hij, ha⟩)
  refine hs.rxChanged hst hap (fun a ha => hout a (.inl ha)) hcur (fun j hj => ?_) (hs.seen.carry hst.cfg hseen
    (fun x hx hr hown => ?_) fun x hx hr hown => hslot _ (hne x hx hr hown))
  · by_cases hij : j = i
    · exact hij ▸ hdesc
    · exact (hs.rxDesc j hj).carry hs.offsets hst (hslot j hij) (hother j hj hij)
  · have hj := (hs.seen.kept x (hseen x hx) hr).1
    rw [nicOwned_of_bytes hst hs.offsets (hother _ hj (hne x hx hr hown))]
    exact hown

/-- The NIC is not the owner of a descriptor the engine writes, so it remembers nothing of it that still holds. -/
theorem InOrder.index_ne (_ : InOrder s) {i : Nat} (hown : s.nicOwned .rx i = false) {x : Seen}
    (h : s.nicOwned .rx x.index = true) : x.index ≠ i := fun e => by
  rw [e, hown] at h
  cases h

/-- An iteration of RX.IRQ (R165, R178). -/
theorem InOrder.rxNext (hs : InOrder s) {d : Bool} (h : rxNext d s = .next t) : RingsOk t := by
  have hi := hs.cur.rx
  rcases rxNext_cases h with ⟨-, hist, rfl⟩ | ⟨hown, slots, bufs, host, ctr, ctr', acqs, hist, d', v, hstep, hv, rfl⟩
  · have := hs.rings
    exact ⟨this.apart, this.txLen, this.rxLen, this.endTx, this.endRx, this.idle, this.unsub, this.bufs, this.armed,
      this.whole, this.seen, this.kept⟩
  · have hsv : Sited s v := by rw [hv]; exact ⟨rfl, rfl, rfl⟩
    have hidx : v.rxIndex = s.rxIndex := by rw [hv]
    have hmv : v.mem = s.mem := by rw [hv]
    have hslot : v.rxSlot = slots := by rw [hv]
    have hwv : v.mem.wf := hmv ▸ hs.mem
    have hlv : OffsetsOk v.cfg.layout := by rw [hsv.cfg]; exact hs.offsets
    have hst : Sited v ((rearmAdvance v).pushWork [.rxNext d']) := by constructor <;> simp
    have hmem : ((rearmAdvance v).pushWork [.rxNext d']).mem = (rearm v.rxIndex v).mem := by
      rw [State.pushWork_mem, rearmAdvance]
    have hread : ∀ a, ¬ s.inDesc .rx s.rxIndex a →
        ((rearmAdvance v).pushWork [.rxNext d']).mem.read a = s.mem.read a := fun a ha => by
      have hne : ¬ v.inDesc .rx v.rxIndex a := by rwa [hidx, hsv.inDesc]
      rw [hmem, rearm_read_of_ne hwv hlv hne, hmv]
    have hslot' : ((rearmAdvance v).pushWork [.rxNext d']).rxSlot = slots := by simp [hslot]
    have harm : ArmedAt ((rearmAdvance v).pushWork [.rxNext d']) s.rxIndex := by
      rw [← hidx]
      exact (rearm_armed hwv hlv v.rxIndex).congr ((rearm_sited _ _).symm.trans hst)
        (by rw [(rearm_sited _ _).cfg]; exact hlv) (by simp) fun a _ => by rw [hmem]
    refine hs.rxDescChanged (hsv.trans hst) (hstep.memsApart (by rw [hv]; simp) hslot' hs.sites.apart)
      (fun a ha => hread a ?_) (by rw [hv]; simp) (fun j hj => hstep.slotPhys hslot' hj)
      (harm.descOk (by rw [(hsv.trans hst).cfg]; exact hs.cfg)) (fun x hx => by rw [hv] at hx; simpa using hx)
      fun x _ _ h => hs.index_ne hown h
    rcases ha with ha | ⟨j, -, hj, ha⟩
    · exact hs.tx_of_rx hi ha
    · exact fun h => hj (inDesc_unique ha h)

/-- A receive descriptor written without flags offers the length of its segment (R82). -/
theorem getField_finalWord {c : Cfg} (h : layoutWf c.layout = true) {i len : Nat} {own : Bool}
    (hlen : len ≤ maxOf (lenField c .rx).w) : getField c.layout.rxlen (finalWord c .rx i 0#32 len own) = len := by
  have hoff : ∀ q, flag (fieldMask c.layout.rxlen) q = true → flag (eorBit c .rx i) q = false := fun q hq => by
    rw [← eorOn_eq, eorOn, flag_flagIf, (flag_bit_off_rxlen h hq).2.1, Bool.and_false]
  cases own with
  | true =>
    rw [finalWord, if_pos rfl, ownedWord, opts1Word, BitVec.or_zero, ← BitVec.or_assoc]
    refine getField_rxlen_or h hlen fun q hq => ?_
    rw [flag_or, hoff q hq, (flag_bit_off_rxlen h hq).1]
    rfl
  | false =>
    rw [finalWord, if_neg Bool.false_ne_true, opts1Word, BitVec.or_zero]
    exact getField_rxlen_or h hlen hoff

/-- RING.WRITE on the receive ring with the operands of a re-arm (R112, R117). -/
theorem InOrder.writeRx (hs : InOrder s) {index : Nat} {seg : Segment} {flags1 flags2 : Word} {own : Bool}
    (hr : writeOperandsOk s.cfg .rx index seg flags1 flags2 = true) (hf : writeProblem .rx index s = none)
    (hseg : seg = ⟨s.slotPhys index, s.cfg.rxBufSize⟩) : RingsOk (writeDesc .rx index seg flags1 flags2 own s) := by
  simp only [writeOperandsOk, Bool.and_eq_true, decide_eq_true_eq] at hr
  obtain ⟨⟨⟨hi, -⟩, hlen⟩, hflags⟩ := hr
  have hzero : flags1 = 0#32 := by
    simp only [flagsOk, within, flags1Mask, Bool.and_eq_true, beq_iff_eq, BitVec.and_zero] at hflags
    exact hflags.1.symm
  have hown : s.nicOwned .rx index = false := by
    unfold writeProblem at hf
    split at hf
    · cases hf
    · exact eq_false_of_ne_true ‹_›
  have hst := writeDesc_sited .rx index seg flags1 flags2 own s
  obtain ⟨f1, -, f3⟩ := writeDesc_fields hs.mem hs.offsets .rx index seg flags1 flags2 own
  have hdesc : RxDescOk (writeDesc .rx index seg flags1 flags2 own s) index := by
    have hfs : flag (opts1Word s.cfg .rx index 0#32 seg.len) s.cfg.layout.fs = false := by
      obtain ⟨-, -, hfs, -⟩ := marks_not_rxlen hs.layout
      rw [opts1Word, flag_or, flag_or, fs_eorBit hs.layout, flag_zero, flag_putField_of_fits hlen hfs]
      rfl
    refine ⟨?_, ?_, fun ho => ?_, fun ho hw => ?_⟩
    · rw [f1, hst.cfg, flag_finalWord hs.layout own (noEor_flagsOk hs.layout hflags) hlen]
      rfl
    · rw [f3, hseg]
      exact (slotPhys_congr (by simp) index).symm
    · rw [f1, hst.cfg, hzero, getField_finalWord hs.layout hlen, hseg]
    · rw [State.nicOwned, f1, hst.cfg, hzero] at ho
      rw [f1, hst.cfg, hzero] at hw
      cases own with
      | true =>
        rw [finalWord, if_pos rfl, ownedWord, flag_or, flag_bit_self (own_lt hs.layout)] at ho
        cases ho
      | false =>
        rw [finalWord, if_neg Bool.false_ne_true, fragmented, hfs] at hw
        cases hw
  exact hs.rxDescChanged hst (by
      have := hs.sites.apart
      rwa [MemsApart, liveMems, hst.tx, hst.rx, writeDesc_stMem, writeDesc_rxSlot]) (fun a ha => by
      refine writeDesc_read_of_ne hs.mem hs.offsets _ _ _ _ ?_
      rcases ha with ha | ⟨j, -, hj, ha⟩
      · exact hs.tx_of_rx hi ha
      · exact fun h => hj (inDesc_unique ha h)) (by simp) (fun j _ => slotPhys_congr (by simp) j) hdesc
    (fun x hx => by simpa using hx) fun x _ _ h => hs.index_ne hown h

end Sys2Proof.Machine
end

section
/-! SUPPORT. O16: RING.CLEAR_RX and NIC.RX_FILL, and both rings behind the resets, LINK.DOWN and ENABLE. -/

namespace Sys2Proof.Machine

-- One declaration at a time: each thread of the elaborator reserves a stack of its own.
set_option Elab.async false

variable {s t u : State}

/-- States alike in all that the rings are made of. -/
theorem RingsOk.same (h : RingsOk s) (hst : Sited s u) (hm : u.mem = s.mem) (hstm : u.stMem = s.stMem)
    (hslot : u.rxSlot = s.rxSlot) (hcur : u.txNext = s.txNext ∧ u.txDirty = s.txDirty ∧ u.txUnsubmitted = s.txUnsubmitted)
    (hseen : u.nicSeen = s.nicSeen) : RingsOk u := by
  have hiff : ∀ i, isOutstanding u i ↔ isOutstanding s i := fun i => by
    simp only [isOutstanding, outstanding, hst.cfg, hcur.1, hcur.2.1]
  have hword : ∀ ring i f, u.desc32 ring i f = s.desc32 ring i f := fun ring i f => by
    rw [State.desc32, State.desc32, hst.descAddr, hm]
  have hbuf : ∀ ring i, u.descBuf ring i = s.descBuf ring i := fun ring i => by
    rw [State.descBuf, State.descBuf, hst.descAddr, hm]
  have hown : ∀ ring i, u.nicOwned ring i = s.nicOwned ring i := fun ring i => by
    rw [State.nicOwned, State.nicOwned, hword, hst.cfg]
  have hphys : ∀ i, u.slotPhys i = s.slotPhys i := slotPhys_congr hslot
  constructor
  · rw [MemsApart, liveMems, hst.tx, hst.rx, hstm, hslot]
    exact h.apart
  · rw [hst.tx, hst.cfg]
    exact h.txLen
  · rw [hst.rx, hst.cfg]
    exact h.rxLen
  · exact ringEndOk_congr h.endTx hst hm
  · exact ringEndOk_congr h.endRx hst hm
  · simpa only [hst.cfg, hiff, hown] using h.idle
  · simpa only [hst.cfg, hiff, hcur.2.2] using h.unsub
  · simpa only [hst.cfg, hbuf, hphys] using h.bufs
  · simpa only [hst.cfg, hown, hword] using h.armed
  · simpa only [hst.cfg, hown, hword] using h.whole
  · simpa only [hst.cfg, hseen] using h.seen
  · simpa only [hst.cfg, hseen, hown, hphys] using h.kept

theorem InOrder.same (h : InOrder s) (hst : Sited s u) (hm : u.mem = s.mem) (hstm : u.stMem = s.stMem)
    (hslot : u.rxSlot = s.rxSlot) (hcur : u.txNext = s.txNext ∧ u.txDirty = s.txDirty ∧ u.txUnsubmitted = s.txUnsubmitted)
    (hseen : u.nicSeen = s.nicSeen) (hc : CursorsOk u) : InOrder u where
  cfg := by rw [hst.cfg]; exact h.cfg
  mem := by rw [hm]; exact h.mem
  cur := hc
  tx := by rw [TxUsable, txProblem, hst.cfg, hst.tx]; exact h.tx
  rx := by rw [RxUsable, rxProblem, hst.cfg, hst.rx, hslot]; exact h.rx
  rings := h.rings.same hst hm hstm hslot hcur hseen

/-- NIC.RESET (R222): the NIC remembers nothing. -/
theorem InOrder.forgetAll (h : InOrder s) (hst : Sited s u) (hm : u.mem = s.mem) (hstm : u.stMem = s.stMem)
    (hslot : u.rxSlot = s.rxSlot) (hcur : u.txNext = s.txNext ∧ u.txDirty = s.txDirty ∧ u.txUnsubmitted = s.txUnsubmitted)
    (hseen : u.nicSeen = []) : RingsOk u := by
  have hiff : ∀ i, isOutstanding u i ↔ isOutstanding s i := fun i => by
    simp only [isOutstanding, outstanding, hst.cfg, hcur.1, hcur.2.1]
  refine h.txChanged hst hstm hslot (fun _ _ => by rw [hm]) ?_ (by simp [hseen])
  exact h.txRing.carry h.offsets hst (fun _ _ => by rw [hm]) (fun i _ hi _ => (hiff i).2 hi) fun i hi => by
    obtain ⟨h1, h2⟩ := h.txRing.unsub i (hcur.2.2 ▸ hi)
    exact ⟨h1, (hiff i).2 h2⟩

/-! ### RING.CLEAR_RX -/

/-- RING.CLEAR_RX arms every descriptor with the buffer it already has (R117). -/
theorem InOrder.clearRx (hs : InOrder s) : RingsOk (clearRx s) := by
  obtain ⟨-, hst, hout, harm⟩ := clearRx_effect hs.mem hs.offsets
  obtain ⟨m, hist, he⟩ := clearRx_shape s
  have hslot : (Machine.clearRx s).rxSlot = s.rxSlot := by rw [he]
  have hcfg : cfgWf (Machine.clearRx s).cfg = true := by rw [hst.cfg]; exact hs.cfg
  have hseen : (Machine.clearRx s).nicSeen = s.nicSeen := by rw [he]
  refine hs.rxChanged hst ?_ (fun a ha => hout a (rings_apart hs.rings hs.tx hs.rx ha)) (by rw [he]; simp)
    (fun i hi => (harm i hi).descOk hcfg) (hs.seen.carry hst.cfg (fun x hx => hseen ▸ hx) (fun x hx hr _ => ?_)
    fun x _ _ _ => slotPhys_congr hslot _)
  · rw [MemsApart, liveMems, hst.tx, hst.rx, hslot, show (Machine.clearRx s).stMem = s.stMem by rw [he]]
    exact hs.sites.apart
  · exact (harm _ (hs.seen.kept x (hseen ▸ hx) hr).1).owned (cfgOk hcfg).layout

/-! ### NIC.RX_FILL -/

/-- What NIC.RX_FILL acts on: a word that offers the armed length, with the marker right, of a descriptor still the
NIC's (R217, R219). -/
theorem InOrder.rxFillWord (hs : InOrder s) {i : Nat} {d : RxFillDraws} {w : Word} {a : Addr} (hi : i < s.cfg.nRx)
    (h : rxFillWord i d s = some (w, a)) : flag w s.cfg.layout.eor = decide (i + 1 = s.cfg.nRx) ∧
    getField s.cfg.layout.rxlen w = s.cfg.rxBufSize ∧ s.nicOwned .rx i = true ∧ a = s.slotPhys i := by
  have hof : ∀ {k : Nat} {x : Seen}, (seenOf .rx i s)[k]? = some x → flag x.word s.cfg.layout.eor =
      decide (i + 1 = s.cfg.nRx) ∧ getField s.cfg.layout.rxlen x.word = s.cfg.rxBufSize ∧ s.nicOwned .rx i = true ∧
      x.addr = s.slotPhys i := fun {k x} hk => by
    obtain ⟨hx, hkey⟩ := List.mem_filter.1 (List.mem_of_getElem? hk)
    simp only [Bool.and_eq_true, beq_iff_eq] at hkey
    have hends := hs.seen.ends x hx
    obtain ⟨-, h2, h3, h4⟩ := hs.seen.kept x hx hkey.1
    rw [hkey.1, hkey.2] at hends
    rw [hkey.2] at h2 h4
    exact ⟨hends, h3, h2, h4⟩
  have hnow := hs.rxDesc i hi
  unfold Machine.rxFillWord at h
  split at h
  · obtain ⟨x, hx, he⟩ := Option.map_eq_some_iff.1 h
    obtain ⟨hown, rfl⟩ := seenAt_eq_some.1 hx
    cases he
    exact ⟨hnow.ends, hnow.armed hown, hown, hnow.buf⟩
  · split at h
    · cases h
    · rename_i hx _
      cases h
      obtain ⟨h1, h2, h3, -⟩ := hof hx
      exact ⟨h1, h2, h3, hnow.buf⟩
    · rename_i hx _
      split at h
      · obtain ⟨z, hz, he⟩ := Option.map_eq_some_iff.1 h
        cases he
        obtain ⟨h1, h2, h3, -⟩ := hof hx
        exact ⟨h1, h2, h3, (hof hz).2.2.2⟩
      · cases h

/-- Bytes the NIC may store a frame to are in neither ring (R216 (f)). -/
theorem SitesOk.not_inRing_of_offRings (hs : SitesOk s) (ht : TxUsable s) (hr : RxUsable s) {a len : Nat}
    (h : offRings s a len = true) (ring : Ring) {x : Nat} (hx : a ≤ x ∧ x < a + len) : ¬ s.inRing ring x := by
  obtain ⟨d, hd, -, -, -⟩ := ringProblem_none ht
  obtain ⟨e, he, -, -, -⟩ := ringProblem_none (rxProblem_none hr).1
  have l1 := hs.txLen d hd
  have l2 := hs.rxLen e he
  simp only [offRings, hd, he, Option.toList_some, List.cons_append, List.nil_append, List.all_cons, List.all_nil,
    disjoint, Bool.or_eq_true, Bool.and_eq_true, beq_iff_eq, decide_eq_true_eq, and_true] at h
  cases ring
  · simp only [State.inRing, State.base, State.ringMem, hd, ringSize]
    omega
  · simp only [State.inRing, State.base, State.ringMem, he, ringSize]
    omega

/-- The stores of NIC.RX_FILL (R219): the frame, and two words of the descriptor. -/
theorem fillDesc_effect {i : Nat} {frame : List Byte} {x : RxStatus} {w : Word} {a : Addr} (hw : s.mem.wf)
    (hl : OffsetsOk s.cfg.layout) (hfree : ∀ b, a.toNat ≤ b → b < a.toNat + frame.length → ¬ s.inDesc .rx i b) :
    (∀ b, ¬ (a.toNat ≤ b ∧ b < a.toNat + frame.length) → ¬ s.inDesc .rx i b →
      (fillDesc i frame x w a s).mem.read b = s.mem.read b) ∧
    (fillDesc i frame x w a s).desc32 .rx i .opts1 = filledWord s.cfg.layout w x frame.length ∧
    (fillDesc i frame x w a s).descBuf .rx i = s.descBuf .rx i := by
  obtain ⟨h1, h2, h3, h12, h1a, h2a⟩ := hl
  have hm : (fillDesc i frame x w a s).mem = ((s.mem.writeBytes a.toNat frame).write32 (s.descAddr .rx i .opts2) x.s2).write32
      (s.descAddr .rx i .opts1) (filledWord s.cfg.layout w x frame.length) := rfl
  have hst : Sited s (fillDesc i frame x w a s) := ⟨rfl, rfl, rfl⟩
  have w0 := Memory.wf_writeBytes hw a.toNat frame
  have w1 := Memory.wf_write32 w0 (s.descAddr .rx i .opts2) x.s2
  have e1 : s.descAddr .rx i .opts1 = (s.base .rx).toNat + 16 * i + s.cfg.layout.offOpts1 := rfl
  have e2 : s.descAddr .rx i .opts2 = (s.base .rx).toNat + 16 * i + s.cfg.layout.offOpts2 := rfl
  have e3 : s.descAddr .rx i .addr = (s.base .rx).toNat + 16 * i + s.cfg.layout.offAddr := rfl
  simp only [State.inDesc, descSize] at hfree ⊢
  refine ⟨fun b hb hd => ?_, ?_, ?_⟩
  · rw [hm, Memory.read_write32_of_ne w1 _ _ (by omega), Memory.read_write32_of_ne w0 _ _ (by omega),
      Memory.read_writeBytes_of_ne hw _ _ (by omega)]
  · rw [State.desc32, hst.descAddr, hm, Memory.read32_write32 w1]
  · rw [State.descBuf, State.descBuf, hst.descAddr, hm, Memory.read64_write32_of_ne w1 _ _ (by omega),
      Memory.read64_write32_of_ne w0 _ _ (by omega)]
    refine Memory.read64_congr fun b hb hb' => Memory.read_writeBytes_of_ne hw _ _ ?_
    by_contra hin
    exact hfree b (by omega) (by omega) ⟨by omega, by omega⟩

/-- NIC.RX_FILL (R219): what it takes, and what it leaves in memory and of its memory. -/
theorem rxFill_next {i : Nat} {frame : List Byte} {x : RxStatus} {d : RxFillDraws} (h : rxFill i frame x d s = .next t) :
    ∃ w a, rxFillWord i d s = some (w, a) ∧ rxFillEnabled frame.length x w a s = true ∧
      t.mem = (fillDesc i frame x w a s).mem ∧ t.nicSeen = (forget .rx i s).nicSeen := by
  unfold rxFill at h
  split at h
  · cases h
  · split at h
    · cases h
    · rename_i w a hwa
      split at h
      · cases h
      · rename_i hen
        split at h
        · cases h
        · refine ⟨w, a, hwa, by simpa using hen, ?_⟩
          dsimp only at h
          split at h <;> cases h
          · exact ⟨rfl, rfl⟩
          · exact ⟨rfl, rfl⟩

/-- NIC.RX_FILL (R219). -/
theorem InOrder.rxFill (hs : InOrder s) {i : Nat} {frame : List Byte} {x : RxStatus} {d : RxFillDraws}
    (hi : i < s.cfg.nRx) (h : rxFill i frame x d s = .next t) : RingsOk t := by
  obtain ⟨m, hist, sn, q, ht⟩ := rxFill_shape h
  obtain ⟨w, a, hwa, hen, hm, hseen⟩ := rxFill_next h
  obtain ⟨heor, hlen, -, -⟩ := hs.rxFillWord hi hwa
  simp only [rxFillEnabled, Bool.and_eq_true, decide_eq_true_eq, hlen] at hen
  obtain ⟨⟨hfit, hlong⟩, hoff⟩ := hen
  have hst : Sited s t := by rw [ht]; exact ⟨rfl, rfl, rfl⟩
  have hfree : ∀ ring {b}, a.toNat ≤ b ∧ b < a.toNat + frame.length → ¬ s.inRing ring b := fun ring _ hb =>
    hs.sites.not_inRing_of_offRings hs.tx hs.rx hoff ring hb
  obtain ⟨hread, hword, hbuf⟩ := fillDesc_effect (i := i) (frame := frame) (x := x) (w := w) (a := a) hs.mem hs.offsets
    fun b h1 h2 hd => hfree .rx ⟨h1, h2⟩ (inRing_of_inDesc (ring := .rx) hi hd)
  have hst' : Sited (fillDesc i frame x w a s) t := ⟨hst.cfg, hst.tx, hst.rx⟩
  have hword' : t.desc32 .rx i .opts1 = filledWord s.cfg.layout w x frame.length := by
    rw [State.desc32, hst'.descAddr, hm]
    exact hword
  have hbuf' : t.descBuf .rx i = s.descBuf .rx i := by
    rw [State.descBuf, hst'.descAddr, hm]
    exact hbuf
  have hslot : t.rxSlot = s.rxSlot := by rw [ht]
  obtain ⟨f1, f2, f3, f4⟩ := filledWord_as hs.layout w x (hfit.trans (cfgOk hs.cfg).bufFits)
  have hdesc : RxDescOk t i := by
    refine ⟨?_, ?_, fun ho => ?_, fun _ hfr => ?_⟩
    · rw [hword', hst.cfg, f1, heor]
    · rw [hbuf', slotPhys_congr hslot]
      exact (hs.rxDesc i hi).buf
    · rw [State.nicOwned, hword', hst.cfg, f2] at ho
      cases ho
    · rw [hword', hst.cfg, f3] at hfr
      have hfcs : s.cfg.fcsLen < frame.length := by
        simpa [show (x.fs && x.ls) = true by simpa using hfr] using hlong
      rw [hword', hst.cfg, badRxLength, f4, decide_eq_false (by omega), decide_eq_false (by omega)]
      rfl
  refine hs.rxDescChanged hst ?_ (fun b hb => ?_) (by rw [ht]; simp) (fun j _ => slotPhys_congr hslot j) hdesc
    (fun y hy => ?_) fun y hy hr _ => ?_
  · rw [MemsApart, liveMems, hst.tx, hst.rx, hslot, show t.stMem = s.stMem by rw [ht]]
    exact hs.sites.apart
  · rw [hm]
    refine hread b (fun hin => ?_) ?_
    · rcases hb with hb | ⟨j, hj, -, hb⟩
      · exact hfree .tx hin hb
      · exact hfree .rx hin (inRing_of_inDesc (ring := .rx) hj hb)
    · rcases hb with hb | ⟨j, -, hj, hb⟩
      · exact hs.tx_of_rx hi hb
      · exact fun h => hj (inDesc_unique hb h)
  · rw [hseen] at hy
    exact (List.mem_filter.1 hy).1
  · rw [hseen] at hy
    have hkey := (List.mem_filter.1 hy).2
    rintro rfl
    simp [hr] at hkey

/-! ### The resets and LINK.DOWN -/

theorem CursorsOk.same (hs : CursorsOk s) (hcfg : u.cfg = s.cfg)
    (hcur : u.txNext = s.txNext ∧ u.txDirty = s.txDirty ∧ u.txFree = s.txFree ∧ u.rxIndex = s.rxIndex)
    (hslots : u.txSlot = s.txSlot) (hwork : u.work = s.work) : CursorsOk u := by
  obtain ⟨h1, h2, h3, h4⟩ := hcur
  have hout : outstanding u = outstanding s := by simp only [outstanding, h1, h2, hcfg]
  exact ⟨by rw [h1, hcfg]; exact hs.next, by rw [h2, hcfg]; exact hs.dirty, by rw [h4, hcfg]; exact hs.rx,
    by rw [h3, hcfg, hout]; exact hs.free, by rw [hslots, hcfg]; exact hs.slots, by rw [hwork, hout]; exact hs.scan,
    by rw [hwork]; exact hs.once⟩

/-- RING.CLEAR_TX leaves the whole block in order (R116). -/
theorem InOrder.clearTx_inOrder (hs : InOrder s) (hw : NoScan s.work) (h : Machine.clearTx s = .next t) : InOrder t := by
  obtain ⟨hwf, hst, -, -, -⟩ := clearTx_effect hs.mem hs.offsets h
  obtain ⟨hlen, -⟩ := clearTx_slots h
  obtain ⟨m, hist, sl, he, ht⟩ := clearTx_shape h
  have hc : cfgWf t.cfg = true := by rw [hst.cfg]; exact hs.cfg
  refine ⟨hc, hwf, ?_, ?_, ?_, hs.clearTx h⟩
  · exact cursorsOk_cleared hc (by rw [ht]; rfl) (by rw [ht]; rfl) (by rw [ht]; rfl) (by rw [ht]; exact hs.cur.rx)
      (by rw [hlen, hst.cfg]; exact hs.cur.slots) (by rw [ht]; exact hw)
  · rw [TxUsable, txProblem, hst.cfg, hst.tx]
    exact hs.tx
  · rw [RxUsable, rxProblem, hst.cfg, hst.rx, show t.rxSlot = s.rxSlot by rw [ht]; rfl]
    exact hs.rx

/-- RESET.FULL's rest (R190). -/
theorem InOrder.fullReset (hs : InOrder s) (hw : NoScan s.work) (h : fullReset s = .next t) : RingsOk t := by
  rw [fullReset_eq] at h
  obtain ⟨v, hv, h⟩ := andThen_eq_next.1 h
  have hreset : InOrder (nicReset (flushQueue s)) := by
    have hcur : CursorsOk (nicReset (flushQueue s)) := hs.cur.same rfl ⟨rfl, rfl, rfl, rfl⟩ rfl rfl
    exact ⟨hs.cfg, hs.mem, hcur, hs.tx, hs.rx, hs.forgetAll ⟨rfl, rfl, rfl⟩ rfl rfl rfl ⟨rfl, rfl, rfl⟩ rfl⟩
  have hclr := (hreset.clearTx_inOrder hw hv).clearRx
  injection h with h
  rw [← h, finishReset_eq]
  exact hclr.same ⟨rfl, rfl, rfl⟩ rfl rfl rfl ⟨rfl, rfl, rfl⟩ rfl

/-- LINK.DOWN's rest (R188). -/
theorem InOrder.linkDown (hs : InOrder s) (h : linkDown s = .next t) : RingsOk t := by
  obtain ⟨v, hv, h⟩ := andThen_eq_next.1 h
  have hflush : InOrder { flushQueue s with link := { (flushQueue s).link with up := false } } :=
    hs.same ⟨rfl, rfl, rfl⟩ rfl rfl rfl ⟨rfl, rfl, rfl⟩ rfl (hs.cur.same rfl ⟨rfl, rfl, rfl, rfl⟩ rfl rfl)
  have hclr := (hflush.noteSeen .tx).clearTx hv
  injection h with h
  rw [← h]
  exact hclr.same ⟨rfl, rfl, rfl⟩ rfl rfl rfl ⟨rfl, rfl, rfl⟩ rfl

/-! ### ENABLE -/

/-- The receive buffers are acquired apart from each other and from the three memories (R57, R200). -/
theorem fillSlots_apart {k i : Nat} {d : List (Option BufferDraw)} {r : State × Option Nat}
    (h : fillSlots k i d s = .next r) (hs : MemsApart s) : MemsApart r.1 := by
  induction k generalizing i d s with
  | zero => cases h; exact hs
  | succ k ih =>
    obtain ⟨v, hv, h⟩ := andThen_eq_next.1 h
    obtain ⟨sl, bf, hist, hshape⟩ := fillSlot_shape hv
    have hap : MemsApart v.1 := by
      rcases fillSlot_slots hv with ⟨-, hsl⟩ | ⟨b, seg, -, -, -, -, hfresh, hsl⟩
      · rw [MemsApart, liveMems, hsl, hshape]
        exact hs
      · exact memsApart_store (i := i) (h := b.h) (seg := seg) (by rw [hshape]; simp) (by rw [hsl]) hfresh hs
    split at h
    · exact ih h hap
    · cases h
      exact hap

/-- What ENABLE leaves in memory from step E5 on (R200): both rings cleared, no other byte touched. -/
theorem bringUp_effect (hc : cfgWf s.cfg = true) (hw : s.mem.wf) (hsite : SitesOk s) (ht : TxUsable s) (hr : RxUsable s)
    (h : bringUp s = .next t) : Sited s t ∧ (∀ i < s.cfg.nTx, ClearedAt t i) ∧ (∀ i < s.cfg.nRx, ArmedAt t i) ∧
      ∀ a, ¬ s.inRing .tx a → ¬ s.inRing .rx a → t.mem.read a = s.mem.read a := by
  rw [bringUp_eq] at h
  obtain ⟨v, hv, h⟩ := andThen_eq_next.1 h
  have hl := offsetsOk (cfgOk hc).layout
  obtain ⟨hwv, hsv, hread, hclr, -⟩ := clearTx_effect (s := emptied s) hw hl hv
  have hsv : Sited s v := ⟨hsv.cfg, hsv.tx, hsv.rx⟩
  have hlv : OffsetsOk v.cfg.layout := by rw [hsv.cfg]; exact hl
  obtain ⟨-, hsu, hout, harm⟩ := clearRx_effect (s := v) hwv hlv
  injection h with h
  have hst : Sited (Machine.clearRx v) t := by rw [← h, finishUp_eq]; exact ⟨rfl, rfl, rfl⟩
  have hmem : t.mem = (Machine.clearRx v).mem := by rw [← h, finishUp_eq]
  have hrxs : t.rxSlot = (Machine.clearRx v).rxSlot := by rw [← h, finishUp_eq]
  have hlu : OffsetsOk (Machine.clearRx v).cfg.layout := by rw [hsu.cfg]; exact hlv
  refine ⟨(hsv.trans hsu).trans hst, fun j hj => ?_, fun i hi => ?_, fun a htx hrx => ?_⟩
  · refine (hclr j hj).congr (hsu.trans hst) hlv fun a ha => ?_
    rw [hmem]
    refine hout a fun hrx => ?_
    rw [hsv.inDesc] at ha
    rw [hsv.inRing] at hrx
    exact hsite.rings_apart ht hr (inRing_of_inDesc (ring := .tx) hj ha) hrx
  · exact (harm i (by rw [hsv.cfg]; exact hi)).congr hst hlu hrxs fun a _ => by rw [hmem]
  · rw [hmem, hout a (by rw [hsv.inRing]; exact hrx)]
    exact hread a htx

/-- ENABLE leaves both rings in order (R200). -/
theorem ringsOk_bringUp (hc : cfgWf s.cfg = true) (hw : s.mem.wf) (hsite : SitesOk s) (ht : TxUsable s) (hr : RxUsable s)
    (h : bringUp s = .next t) : RingsOk t := by
  obtain ⟨hst, hclr, harm, -⟩ := bringUp_effect hc hw hsite ht hr h
  rw [bringUp_eq] at h
  obtain ⟨v, hv, h⟩ := andThen_eq_next.1 h
  obtain ⟨m, hist, sl, he, hvs⟩ := clearTx_shape hv
  obtain ⟨m', hist', he'⟩ := clearRx_shape v
  injection h with h
  have hsl : t.rxSlot = s.rxSlot := by rw [← h, finishUp_eq, he', hvs]; rfl
  have hstm : t.stMem = s.stMem := by rw [← h, finishUp_eq, he', hvs]; rfl
  have hun : t.txUnsubmitted = [] := by rw [← h, finishUp_eq, he', hvs]; rfl
  have hseen : t.nicSeen = [] := by rw [← h, finishUp_eq]
  have hct : cfgWf t.cfg = true := by rw [hst.cfg]; exact hc
  refine ringsOk_iff.2 ⟨hsite.carry hst hstm hsl, txRingOk_cleared hct (fun j hj => ?_) hun, fun i hi => ?_,
    seenOk_nil hseen⟩
  · exact hclr j (by rw [← hst.cfg]; exact hj)
  · exact (harm i (by rw [← hst.cfg]; exact hi)).descOk hct

/-- What ENABLE has acquired stands apart and has the lengths of the rings (R56, R57). -/
theorem Acquired.sites {d : EnableDraws} {m1 m2 m3 : DmaMem} {v : State} (h : Acquired d s m1 m2 m3 v) : SitesOk v := by
  obtain ⟨hist, hfill⟩ := h.fill
  have hap := fillSlots_apart hfill (by
    have : liveMems { s with
        txMem := some m1, rxMem := some m2, stMem := some m3, rxSlot := List.replicate s.cfg.nRx none
        history := hist } = [m1, m2, m3] := by simp [liveMems]
    rw [MemsApart, this]
    exact h.apart)
  obtain ⟨sl, bf, hist', rfl⟩ := fillSlots_shape hfill
  refine ⟨hap, fun m hm => ?_, fun m hm => ?_⟩
  · cases hm
    exact (allocDma_some h.tx).2.1
  · cases hm
    exact (allocDma_some h.rx).2.1

end Sys2Proof.Machine
end

section
/-! SUPPORT. O16: every operation and every task keeps the rings in order. -/

namespace Sys2Proof.Machine

-- One declaration at a time: each thread of the elaborator reserves a stack of its own.
set_option Elab.async false

variable {s t u : State}

/-- An enabled block that meets the invariants is in order. -/
theorem inOrder_of (hw : s.mem.wf) (hcur : CursorInv s) (hp : PlatformInv s) (hr : RingInv s) (he : s.enabled = true) :
    InOrder s := by
  obtain ⟨hc, htx, hrx, -⟩ := hp.on he
  exact ⟨hc, hw, (hcur he).2, htx, hrx, hr he⟩

theorem Acquired.frame {d : EnableDraws} {m1 m2 m3 : DmaMem} {v : State} (h : Acquired d s m1 m2 m3 v) :
    v.cfg = s.cfg ∧ v.mem = s.mem := by
  obtain ⟨hist, hfill⟩ := h.fill
  obtain ⟨sl, bf, hist', rfl⟩ := fillSlots_shape hfill
  exact ⟨rfl, rfl⟩

/-- An operation keeps the rings in order (R19, R22, R27, R217). -/
theorem Effect.ringInv {i : Instr} (ha : Admitted (agentsOf i) (needOf i) s) (hi : RxWritesRearm i s) (he : Effect s i u)
    (hw : s.mem.wf) (hcur : CursorInv s) (hp : PlatformInv s) (hr : RingInv s) : RingInv u := by
  have hin : s.enabled = true → InOrder s := inOrder_of hw hcur hp hr
  have hc := ha.cfg
  cases he
  case disable => exact nofun
  case enableFails off _ => exact fun h => absurd (off.symm.trans h) nofun
  case enableUp d m1 m2 m3 v mem hist slots held a b c d' e off got run =>
    obtain ⟨htx, hrx, -⟩ := Acquired.usable (s := dropUnspecified s) hc got
    obtain ⟨hcfg, hmem⟩ := got.frame
    exact fun _ => ringsOk_bringUp (hcfg ▸ hc) (hmem ▸ hw) got.sites htx hrx run
  case ringAlloc free => exact fun h => (hin h).takeDescs free
  case ringWrite ring index seg flags1 flags2 own mem hist unsub range free run =>
    intro h
    have hs := hin h
    cases ring with
    | tx =>
      have hmem : _ = mem := congrArg State.mem run
      have hun : _ = unsub := congrArg State.txUnsubmitted run
      refine hs.writeTx (own := own) range free ⟨rfl, rfl, rfl⟩ ?_ rfl rfl rfl rfl rfl fun i hi => ?_
      · rw [← hmem]
        split <;> rfl
      · change i ∈ unsub at hi
        rw [← hun] at hi
        split at hi
        · exact writeDesc_txUnsubmitted .. ▸ (List.mem_filter.1 hi).1
        · exact writeDesc_txUnsubmitted .. ▸ hi
    | rx =>
      rw [if_neg (by simp)] at run
      rw [← run]
      exact hs.writeRx range free (hi _ _ _ _ _ rfl)
  case ringReclaim run =>
    exact fun h => (hin h).reclaim (ha.idle (by simp [agentsOf, inDomain]) ▸ noScan_nil)
      (hin h).cur.outstandingCount_eq.le run
  case ringClearTx run => exact fun h => ((hin h).noteSeen .tx).clearTx run
  case ringClearRx run => exact fun h => run ▸ ((hin h).noteSeen .rx).clearRx
  case txSend p seg0 segs cmd mem hist unsub held range segments command free run =>
    intro h
    have hs := hin h
    exact hs.submit (noEor_command hs.layout command) (segmentTx_in range segments) free
      ⟨_, _, by rw [preparePacket, holdPacket]⟩ run
  case txIrq run => exact fun h => (hin h).scan (hin h).cur.outstandingCount_eq.le run
  case rxIrq draws _ _ _ _ _ _ _ _ _ _ _ _ run =>
    intro h
    have hs : InOrder (takeDraws draws s) := (hin h).same ⟨rfl, rfl, rfl⟩ rfl rfl rfl ⟨rfl, rfl, rfl⟩ rfl
      ((hin h).cur.same rfl ⟨rfl, rfl, rfl, rfl⟩ rfl rfl)
    exact hs.rxNext run
  case nicTxDone range run => exact fun h => (hin h).txDone range run
  case nicRxFill range run => exact fun h => (hin h).rxFill range run
  case nicReset => exact fun h => (hin h).forgetAll ⟨rfl, rfl, rfl⟩ rfl rfl rfl ⟨rfl, rfl, rfl⟩ rfl
  all_goals exact fun h => (hr h).same ⟨rfl, rfl, rfl⟩ rfl rfl rfl ⟨rfl, rfl, rfl⟩ rfl

/-- A task keeps the rings in order. -/
theorem TaskEffect.ringsOk {x : Task} (hs : InOrder s) (hw : NoScan s.work) (hk : ∀ k old, x = .txScan k old → k ≤ outstanding s)
    (he : TaskEffect s x u) : RingsOk u := by
  cases he
  case rxNext run => exact hs.rxNext run
  case txScan =>
    rename_i tasks run scan
    refine hs.scan ?_ run
    rcases scan with rfl | ⟨-, rfl, -⟩
    · exact hk _ _ rfl
    · exact hs.cur.outstandingCount_eq.le
  case resetRest run => exact hs.fullReset hw run
  case linkDownRest run => exact hs.linkDown run
  all_goals exact hs.rings.same ⟨rfl, rfl, rfl⟩ rfl rfl rfl ⟨rfl, rfl, rfl⟩ rfl

/-- Every step from a block in order keeps its rings so. -/
theorem step_ringInv (hb : BlockInv s) (hin : ∀ x ∈ s.input.head?, ∀ i, decode x.code = .ok i → RxWritesRearm i s)
    (h : step s = .next t) : RingInv t := by
  rcases step_effect h with ⟨inp, cal, hist, res, rfl⟩ | ⟨x, rest, i, u, res, hi, hd, ha, he, rfl⟩ |
    ⟨x, rest, inp, u, res, hw, he, rfl⟩
  · exact fun h => (hb.rings h).same ⟨rfl, rfl, rfl⟩ rfl rfl rfl ⟨rfl, rfl, rfl⟩ rfl
  · have hr := he.ringInv ha (hin x (by simp [hi]) i hd) hb.memory
      (fun h => ⟨(hb.cursors h).1, (hb.cursors h).2.same rfl ⟨rfl, rfl, rfl, rfl⟩ rfl rfl⟩)
      (hb.platform.carry .keep rfl rfl rfl rfl rfl)
      (fun h => (hb.rings h).same ⟨rfl, rfl, rfl⟩ rfl rfl rfl ⟨rfl, rfl, rfl⟩ rfl)
    exact fun h => (hr h).same ⟨rfl, rfl, rfl⟩ rfl rfl rfl ⟨rfl, rfl, rfl⟩ rfl
  · intro h
    have hen : s.enabled = true := he.enabled.symm.trans h
    obtain ⟨hrest, htake⟩ := (hb.cursors hen).2.take hw
    have hs := (inOrder_of hb.memory hb.cursors hb.platform hb.rings hen).same
      (u := { s with input := inp, work := rest, caller := .serialized }) ⟨rfl, rfl, rfl⟩ rfl rfl rfl ⟨rfl, rfl, rfl⟩ rfl
      (htake.same rfl ⟨rfl, rfl, rfl, rfl⟩ rfl rfl)
    have hr := TaskEffect.ringsOk (s := { s with input := inp, work := rest, caller := .serialized }) hs hrest
      (fun k old hx => by
        have := (hb.cursors hen).2.scan
        rwa [hw, hx] at this) he
    exact hr.same ⟨rfl, rfl, rfl⟩ rfl rfl rfl ⟨rfl, rfl, rfl⟩ rfl

end Sys2Proof.Machine
end

section
/-! SUPPORT. O16: which faults a part of a step may end in. A free may fault for want of the handle (R8), and one of
sent memory for the NIC reading it (U14); a block in order reaches no other. -/

namespace Sys2Proof.Machine

-- One declaration at a time: each thread of the elaborator reserves a stack of its own.
set_option Elab.async false

/-- Where it faults, it is with a fault of `F`. -/
def FaultsIn {α : Type} (F : Fault → Prop) (x : Out α) : Prop := ∀ f, x = .fault f → F f

section
variable {α β : Type} {F : Fault → Prop} {x : Out α}

theorem FaultsIn.next (a : α) : FaultsIn F (.next a) := nofun

theorem FaultsIn.refused (r : Refusal) : FaultsIn F (.refused r : Out α) := nofun

theorem FaultsIn.fault {f : Fault} (h : F f) : FaultsIn F (.fault f : Out α) := fun g hg => by cases hg; exact h

theorem FaultsIn.andThen {g : α → Out β} (hx : FaultsIn F x) (hg : ∀ a, x = .next a → FaultsIn F (g a)) :
    FaultsIn F (andThen x g) := fun f h => by
  rcases andThen_eq_fault.1 h with h | ⟨a, ha, h⟩
  · exact hx f h
  · exact hg a ha f h

theorem FaultsIn.then_next {g : α → β} (hx : FaultsIn F x) : FaultsIn F (Machine.andThen x fun a => .next (g a)) :=
  hx.andThen fun _ _ => .next _

theorem FaultsIn.guardedBy {refusal : RefusedReason → State → State} {agents : List Agent} {need : Need} {s : State}
    {body : State → Out State} (h : Admitted agents need s → FaultsIn F (body s)) :
    FaultsIn F (guardedBy refusal agents need s body) := fun f hf => by
  obtain ⟨ha, hb⟩ := guardedBy_eq_fault hf
  exact h ha f hb

theorem FaultsIn.guarded {agents : List Agent} {need : Need} {s : State} {body : State → Out State}
    (h : Admitted agents need s → FaultsIn F (body s)) : FaultsIn F (guarded agents need s body) := .guardedBy h

end

/-- The fault of U14 is one of `F` where the NIC reads a packet of the engine's. -/
def BusyIn (F : Fault → Prop) (s : State) : Prop := ∀ h ∈ packetsIn s, s.nicTxBusy = some h → F .freedMemoryRead

/-- The fault of U14 is one of `F` where the NIC reads the packet held back. -/
def PendingBusyIn (F : Fault → Prop) (s : State) : Prop :=
  ∀ h, s.txPending = some h → s.nicTxBusy = some h → F .freedMemoryRead

section
variable {F : Fault → Prop} {s : State}

theorem busyIn_of_idle (h : s.nicTxBusy = none) : BusyIn F s := fun _ _ hb => absurd (h.symm.trans hb) nofun

theorem BusyIn.pending (hb : BusyIn F s) : PendingBusyIn F s := fun h hp =>
  hb h (List.mem_append_right _ (by simp [hp]))

variable (hF : F .freeNotHeld)
include hF

/-! ### Frees -/

theorem freePacket_faults (h : Handle) (s : State) : FaultsIn F (freePacket h s) := by
  unfold freePacket
  split
  · exact .next _
  · exact .fault hF

theorem freeBuffer_faults (h : Handle) (s : State) : FaultsIn F (freeBuffer h s) := by
  unfold freeBuffer
  split
  · exact .next _
  · exact .fault hF

/-- A free of what the NIC may be reading: the one more fault is that of U14. -/
theorem freeSentOpt_faults (o : Option Handle) (hb : ∀ h, o = some h → s.nicTxBusy = some h → F .freedMemoryRead) :
    FaultsIn F (freeSentOpt o s) := by
  cases o with
  | none => exact .next _
  | some h =>
    rw [freeSentOpt_some, freeSent]
    split
    · exact .fault (hb h rfl ‹_›)
    · exact freePacket_faults hF h s

theorem clearTxOne_faults {i : Nat} (hb : BusyIn F s) : FaultsIn F (clearTxOne i s) := by
  rw [clearTxOne_eq, clearTxWords_eq]
  generalize (clearTxWords i s).mem = m
  split
  · rename_i h hi
    refine FaultsIn.andThen ?_ fun _ _ => .next _
    rw [freeSent]
    split
    · rename_i hbusy
      have hm : h ∈ packetsIn s := (packetsIn_perm (s := s) hi).mem_iff.2 List.mem_cons_self
      exact .fault (hb h hm hbusy)
    · exact freePacket_faults hF h _
  · exact .next _

theorem clearTxLoop_faults {k i : Nat} (hb : BusyIn F s) : FaultsIn F (clearTxLoop k i s) := by
  induction k generalizing i s with
  | zero => exact .next _
  | succ k ih =>
    refine FaultsIn.andThen (clearTxOne_faults hF hb) fun t ht => ih ?_
    have hslot := clearTxOne_slots ht
    obtain ⟨m, hist, sl, he, rfl⟩ := clearTxOne_shape ht
    intro h hm
    refine hb h ?_
    rw [packetsIn, List.mem_append] at hm ⊢
    refine hm.imp_left fun hm => ?_
    rw [show sl = s.txSlot.set i none from hslot] at hm
    have hsub := filterMap_set_none_sublist (id : Handle → Handle) s.txSlot i
    simp only [Option.map_id] at hsub
    exact hsub.subset hm

/-- RING.CLEAR_TX frees every packet, and faults when the NIC is still reading one (R116, U14). -/
theorem clearTx_faults (hb : BusyIn F s) : FaultsIn F (clearTx s) := by
  refine FaultsIn.andThen (clearTxLoop_faults hF hb) fun t ht => ?_
  obtain ⟨m, hist, sl, he, rfl⟩ := clearTxLoop_shape ht
  exact FaultsIn.then_next (freeSentOpt_faults hF _ hb.pending)

theorem freeSlots_faults (n : Nat) (s : State) : FaultsIn F (freeSlots n s) := by
  induction n generalizing s with
  | zero => exact .next _
  | succ n ih =>
    unfold freeSlots
    split
    · exact (freeBuffer_faults hF _ _).andThen fun t _ => ih _
    · exact .fault hF

theorem freeTxMem_faults (s : State) : FaultsIn F (freeTxMem s) := by
  unfold freeTxMem
  split
  · exact .next _
  · exact .fault hF

theorem freeRxMem_faults (s : State) : FaultsIn F (freeRxMem s) := by
  unfold freeRxMem
  split
  · exact .next _
  · exact .fault hF

theorem freeStMem_faults (s : State) : FaultsIn F (freeStMem s) := by
  unfold freeStMem
  split
  · exact .next _
  · exact .fault hF

/-! ### Transmit -/

theorem submitHeld_faults (p : Packet) (s : State) : FaultsIn F (submitHeld p s) := by
  unfold submitHeld
  split
  · exact (freePacket_faults hF _ _).then_next
  · dsimp only
    split
    · exact (freePacket_faults hF _ _).then_next
    · exact (freePacket_faults hF _ _).then_next
    · split
      · exact (freePacket_faults hF _ _).then_next
      · split <;> exact .next _

/-- A pass frees the held-back packet, and faults when the NIC is still reading it (R149, U14). -/
theorem txScan_faults {k old : Nat} (hb : PendingBusyIn F s) :
    FaultsIn F (txScan k old s) := by
  cases k with
  | zero => exact .next _
  | succ k =>
    refine FaultsIn.then_next ?_
    unfold reclaimOne
    dsimp only
    split
    · exact .next _
    · refine FaultsIn.then_next (FaultsIn.andThen (freeSentOpt_faults hF _ hb) fun t _ => ?_)
      dsimp only
      split <;> exact .next _

theorem tickRelease_faults (hb : PendingBusyIn F s) :
    FaultsIn F (tickRelease s) := (freeSentOpt_faults hF _ hb).then_next

omit hF in
theorem reclaimLoop_faults (k : Nat) (done : List Nat) (s : State) : FaultsIn F (reclaimLoop k done s) := by
  induction k generalizing done s with
  | zero => exact .next _
  | succ k ih =>
    refine FaultsIn.andThen ?_ fun r _ => ?_
    · unfold reclaimOne
      dsimp only
      split
      · exact .next _
      · exact .next _
    · split
      · exact ih _ _
      · exact .next _

/-! ### Receive -/

theorem acquire_faults (i : Nat) (a : Acquisition) (len : Nat) (opts : DeliverOpts) (s : State) :
    FaultsIn F (acquire i a len opts s) := by
  unfold acquire
  split
  · exact .next _
  · split
    · unfold acquireReplaced
      split
      · exact .refused _
      · dsimp only
        split
        · exact (freeBuffer_faults hF _ _).then_next
        · split
          · exact .refused _
          · exact .next _
    · exact .fault hF
  · split
    · unfold acquireCopied
      split
      · exact .next _
      · split
        · exact .refused _
        · exact .next _
    · exact .fault hF

/-- A receive pass over descriptors in order meets no length RX.IRQ has no behaviour for (R169, U6). -/
theorem rxNext_faults {d : Bool} (hw : s.nicOwned .rx s.rxIndex = false →
      fragmented s.cfg.layout (s.desc32 .rx s.rxIndex .opts1) = false →
      badRxLength s.cfg (s.desc32 .rx s.rxIndex .opts1) = false) : FaultsIn F (rxNext d s) := by
  unfold rxNext
  dsimp only
  split
  · exact .next _
  · rename_i hown
    refine FaultsIn.then_next ?_
    unfold handleRx
    dsimp only
    split
    · exact .next _
    · rename_i hfr
      split
      · rename_i hbad
        have hgood := hw (eq_false_of_ne_true hown) (eq_false_of_ne_true hfr)
        exact absurd (hbad.symm.trans hgood) nofun
      · exact acquire_faults hF _ _ _ _ _

/-! ### Control -/

theorem fullReset_faults (s : State) : FaultsIn F (fullReset s) := by
  rw [fullReset_eq]
  exact (clearTx_faults hF (s := nicReset (flushQueue s)) (busyIn_of_idle (by simp))).then_next

theorem linkDown_faults (hb : BusyIn F s) : FaultsIn F (linkDown s) := by
  unfold linkDown
  exact FaultsIn.then_next (clearTx_faults hF hb)

theorem bringUp_faults (s : State) : FaultsIn F (bringUp s) := by
  rw [bringUp_eq]
  refine (clearTx_faults hF fun h hm => ?_).then_next
  have hnil : packetsIn (emptied s) = [] := by simp [packetsIn, emptied]
  rw [hnil] at hm
  cases hm

theorem bringDown_faults (s : State) : FaultsIn F (bringDown s) := by
  obtain ⟨r, hist, hq⟩ := quiesce_shape s
  rw [bringDown, hq]
  refine FaultsIn.andThen (clearTx_faults hF (busyIn_of_idle (by simp))) fun t _ => ?_
  refine (freeSlots_faults hF _ _).andThen fun u _ => ?_
  exact (freeStMem_faults hF _).andThen fun _ _ => (freeRxMem_faults hF _).andThen fun _ _ => freeTxMem_faults hF _

theorem fillSlots_faults (k i : Nat) (d : List (Option BufferDraw)) (s : State) : FaultsIn F (fillSlots k i d s) := by
  induction k generalizing i d s with
  | zero => exact .next _
  | succ k ih =>
    refine FaultsIn.andThen ?_ fun r _ => ?_
    · unfold fillSlot
      split
      · exact .next _
      · split
        · exact .refused _
        · dsimp only
          split
          · exact (freeBuffer_faults hF _ _).then_next
          · split
            · exact .refused _
            · exact .next _
    · split
      · exact ih _ _ _
      · exact .next _

theorem fail2_faults (s : State) : FaultsIn F (fail2 s) := (freeTxMem_faults hF s).then_next

theorem fail3_faults (s : State) : FaultsIn F (fail3 s) :=
  (freeRxMem_faults hF s).andThen fun t _ => fail2_faults hF t

theorem enableFrom_faults (d : EnableDraws) (s : State) : FaultsIn F (enableFrom d s) := by
  unfold enableFrom
  split
  · exact .next _
  · unfold enableRxRing
    split
    · exact fail2_faults hF _
    · split
      · exact .refused _
      · unfold enableStats
        split
        · exact fail3_faults hF _
        · split
          · exact .refused _
          · refine (fillSlots_faults hF _ _ _ _).andThen fun r _ => ?_
            split
            · exact (freeSlots_faults hF _ _).andThen fun _ _ => (freeStMem_faults hF _).andThen fun t _ => fail3_faults hF t
            · exact bringUp_faults hF _

end

end Sys2Proof.Machine
end

section
/-! SUPPORT. O16: the faults of an operation, of a task and of a step of a block in order. -/

namespace Sys2Proof.Machine

-- One declaration at a time: each thread of the elaborator reserves a stack of its own.
set_option Elab.async false

section
variable {F : Fault → Prop} {s : State}

/-! ### The NIC -/

/-- NIC.TX_DONE reads a freed packet only with a word of before a ring clear (U15). -/
theorem txDone_faults {i : Nat} {d : TxDoneDraws} (hb : d.stale ≠ none → F .freedMemoryRead) :
    FaultsIn F (txDone i d s) := by
  unfold txDone
  split
  · exact .refused _
  · split
    · exact .refused _
    · split
      · rename_i hread
        refine .fault (hb fun hnone => ?_)
        rw [readsFreed, hnone] at hread
        cases hread
      · exact .next _

/-- What NIC.RX_FILL stores fits the slot's buffer, which lies in the address space (R219, R27). -/
theorem InOrder.rxFill_inSpace (hs : InOrder s) {i len : Nat} {x : RxStatus} {d : RxFillDraws} {w : Word} {a : Addr}
    (hi : i < s.cfg.nRx) (h : Machine.rxFillWord i d s = some (w, a)) (hen : rxFillEnabled len x w a s = true) :
    a.toNat + len ≤ 2 ^ 64 := by
  obtain ⟨-, hlen, -, rfl⟩ := hs.rxFillWord hi h
  obtain ⟨b, hb, hok⟩ := rxSlot_some hs.rx hi
  simp only [rxFillEnabled, Bool.and_eq_true, decide_eq_true_eq, hlen] at hen
  have hslot : s.slotPhys i = b.mem.addr := by simp [State.slotPhys, hb, hok.1]
  have hfit := hen.1.1
  have hspace := hok.2
  rw [hslot]
  omega

theorem rxFill_faults {i : Nat} {frame : List Byte} {x : RxStatus} {d : RxFillDraws}
    (hin : s.enabled = true → InOrder s) (hp : PlatformInv s) (hi : i < s.cfg.nRx) :
    FaultsIn F (rxFill i frame x d s) := by
  unfold Machine.rxFill
  split
  · exact .refused _
  · rename_i hmem
    have hen : s.enabled = true := by
      refine eq_true_of_ne_false fun hoff => hmem ?_
      simp [(hp.off hoff).2.1, ringProblem]
    split
    · exact .refused _
    · rename_i w a hwa
      split
      · exact .refused _
      · rename_i hfill
        rw [if_neg (Nat.not_lt.2 ((hin hen).rxFill_inSpace hi hwa (by simpa using hfill)))]
        exact .next _

theorem txQuiesce_faults : FaultsIn F (txQuiesce s) := by
  unfold txQuiesce
  split
  · exact .refused _
  · split
    · exact .next _
    · exact .refused _

/-! ### Operations -/

/-- A descriptor word moves no state (R78 to R85). -/
theorem descResult_faults (f : DescFormat) (fits : Bool) (w : Layout → Word) : FaultsIn F (descResult f fits w s) := by
  unfold descResult
  split
  · exact .next _
  · split
    · exact .next _
    · exact .next _

/-- One iteration of a receive pass of a block in order. -/
theorem InOrder.rxNext_faults (hs : InOrder s) (hF : F .freeNotHeld) (d : Bool) :
    FaultsIn F (Machine.rxNext d s) :=
  Machine.rxNext_faults hF (hs.rxDesc _ hs.cur.rx).whole

end

section
variable {F : Fault → Prop} {s : State} (hF : F .freeNotHeld)
include hF

/-- An operation of a block in order faults for want of a handle, or with a read of freed memory: of the packet held
back, of one a direct RING.CLEAR_TX frees, or of one whose words of before a clear NIC.TX_DONE acts on. -/
theorem exec_faults (i : Instr) (hin : s.enabled = true → InOrder s) (hp : PlatformInv s) (hb : PendingBusyIn F s)
    (hclear : i = .ringClearTx → F .freedMemoryRead)
    (hstale : ∀ n d, i = .nicTxDone n d → d.stale ≠ none → F .freedMemoryRead) : FaultsIn F (exec i s) := by
  unfold exec
  cases i with
  | ringAlloc n =>
    refine .guarded fun _ => ?_
    split
    · exact .next _
    · split
      · exact .next _
      · exact .next _
  | ringWrite ring index seg flags1 flags2 own =>
    refine .guarded fun _ => ?_
    split
    · exact .next _
    · split
      · exact .next _
      · exact .next _
  | ringReclaim => exact .guarded fun _ => (reclaimLoop_faults _ _ _).then_next
  | ringClearTx =>
    refine .guarded fun _ => ?_
    split
    · exact .next _
    · exact (clearTx_faults hF fun _ _ _ => hclear rfl).then_next
  | ringClearRx => exact .guarded fun _ => .next _
  | segTx regions =>
    refine .guarded fun _ => ?_
    split
    · exact .next _
    · split
      · exact .next _
      · exact .next _
  | segRx regions =>
    refine .guarded fun _ => ?_
    split
    · exact .next _
    · split
      · exact .next _
      · exact .next _
  | encV1 _ => exact .guarded fun _ => .next _
  | encV2 _ => exact .guarded fun _ => .next _
  | encVlan _ => exact .guarded fun _ => .next _
  | txSubmit p =>
    refine .guardedBy fun _ => ?_
    split
    · exact .next _
    · split
      · exact .refused _
      · exact submitHeld_faults hF p _
  | txIrq => exact .guarded fun _ => (txScan_faults hF hb).then_next
  | txDlchk => exact .guarded fun _ => .next _
  | rxIrq draws =>
    refine .guarded fun ha => ?_
    split
    · exact .next _
    · refine FaultsIn.then_next (Machine.rxNext_faults hF ?_)
      have hs := hin (ha.enabled (by simp))
      exact (hs.rxDesc _ hs.cur.rx).whole
  | rxCsumV1 _ _ => exact .guarded fun _ => .next _
  | rxCsumV2 _ _ => exact .guarded fun _ => .next _
  | rxVlan _ => exact .guarded fun _ => .next _
  | timerTick v =>
    refine .guarded fun _ => ?_
    split
    · exact .next _
    · exact .next _
  | linkUp p =>
    refine .guarded fun _ => ?_
    split
    · exact .next _
    · exact .next _
  | linkDown =>
    refine .guarded fun _ => ?_
    split
    · exact .next _
    · exact .next _
  | resetFull => exact .guarded fun _ => .next _
  | irq draws =>
    refine .guarded fun _ => ?_
    split
    · exact .next _
    · exact .next _
  | statsReq =>
    refine .guarded fun _ => ?_
    split
    · exact .next _
    · exact .next _
  | statsDone => exact .guarded fun _ => .next _
  | enable d =>
    refine .guarded fun _ => ?_
    split
    · exact .next _
    · split
      · exact .next _
      · exact enableFrom_faults hF d _
  | disable =>
    refine .guarded fun _ => ?_
    split
    · exact .next _
    · exact (bringDown_faults hF s).then_next
  | nicTxDone n d =>
    refine .guarded fun _ => ?_
    split
    · exact .next _
    · exact (txDone_faults (hstale n d rfl)).then_next
  | nicRxFill n frame x d =>
    refine .guarded fun _ => ?_
    split
    · exact .next _
    · exact (rxFill_faults hin hp (by omega)).then_next
  | nicIrqRaise _ => exact .guarded fun _ => .next _
  | nicReset => exact .guarded fun _ => .next _
  | nicTxQuiesce => exact .guarded fun _ => txQuiesce_faults.then_next
  | txd1V1Csum | txd1V1Tso | txd1V2 | txd2V1 | txd2V2 | rxdArmed | rxd1V1 | rxd1V2 | rxd2V1 | rxd2V2 =>
    exact descResult_faults _ _ _

/-- So does a task; the rest of LINK.DOWN frees every packet, the NIC not reset. -/
theorem runTask_faults (x : Task) (hs : InOrder s) (hb : PendingBusyIn F s)
    (hdown : x = .linkDownRest → BusyIn F s) : FaultsIn F (runTask x s) := by
  cases x with
  | rxNext d => exact hs.rxNext_faults hF d
  | txBegin => exact txScan_faults hF hb
  | txScan k old => exact txScan_faults hF hb
  | dlSnapshot => exact .next _
  | tickRelease => exact tickRelease_faults hF hb
  | tickCheck => exact .next _
  | tickStats => exact .next _
  | statsDone => exact .next _
  | resetRest _ => exact fullReset_faults hF s
  | linkDownRest => exact linkDown_faults hF (hdown rfl)

omit hF in
/-- What a task of a block in order starts from. -/
theorem BlockInv.taken {u : State} {x : Task} {rest : List Task} (hs : BlockInv s) (hu : Waited s u)
    (hw : s.work = x :: rest) : InOrder (takeTask rest u) := by
  have hen : s.enabled = true := (hs.work (by simp [hw])).1
  have hin := inOrder_of hs.memory hs.cursors hs.platform hs.rings hen
  obtain ⟨-, htake⟩ := (hs.cursors hen).2.take hw
  rcases hu with rfl | ⟨y, tl, rfl⟩
  · exact hin.same ⟨rfl, rfl, rfl⟩ rfl rfl rfl ⟨rfl, rfl, rfl⟩ rfl
      (htake.same (u := takeTask rest u) rfl ⟨rfl, rfl, rfl, rfl⟩ rfl rfl)
  · exact hin.same ⟨rfl, rfl, rfl⟩ rfl rfl rfl ⟨rfl, rfl, rfl⟩ rfl
      (htake.same (u := takeTask rest (waited y tl s)) rfl ⟨rfl, rfl, rfl, rfl⟩ rfl rfl)

/-- And so does a step of a block in order. -/
theorem step_faults (hs : BlockInv s) (hb : PendingBusyIn F s) (hdown : .linkDownRest ∈ s.work → BusyIn F s)
    (hhead : ∀ x ∈ s.input.head?, ∀ i, decode x.code = .ok i →
      (i = .ringClearTx → F .freedMemoryRead) ∧ ∀ n d, i = .nicTxDone n d → d.stale ≠ none → F .freedMemoryRead) :
    FaultsIn F (step s) := fun f hf => by
  rcases step_eq_fault hf with ⟨u, hu, h⟩ | ⟨x, rest, i, hi, -, hd, h⟩
  · obtain ⟨x, rest, hw, h⟩ := goOn_eq_fault h
    have hw' : s.work = x :: rest := hu.work ▸ hw
    have hin := hs.taken hu hw'
    have hmem : x = .linkDownRest → Task.linkDownRest ∈ s.work := fun hx => by simp [hw', hx]
    rcases hu with rfl | ⟨y, tl, rfl⟩
    · exact runTask_faults hF x hin hb (fun hx => hdown (hmem hx)) f h
    · exact runTask_faults hF x hin hb (fun hx => hdown (hmem hx)) f h
  · obtain ⟨hclear, hstale⟩ := hhead x (by simp [hi]) i hd
    refine exec_faults hF i (s := takeInput x rest s) (fun hen => ?_) (hs.platform.carry .keep rfl rfl rfl rfl rfl) hb
      hclear hstale f h
    exact (inOrder_of hs.memory hs.cursors hs.platform hs.rings hen).same ⟨rfl, rfl, rfl⟩ rfl rfl rfl ⟨rfl, rfl, rfl⟩ rfl
      ((hs.cursors hen).2.same rfl ⟨rfl, rfl, rfl, rfl⟩ rfl rfl)

end

/-! ### O16 -/

section
variable {s t : State}

/-- The block invariant is kept, part by part. -/
theorem step_blockInv (hs : BlockInv s) (hin : ∀ x ∈ s.input.head?, ∀ i, decode x.code = .ok i → RxWritesRearm i s)
    (h : step s = .next t) : BlockInv t where
  memory := (stepKeepsConfigurationAndMemoryForm s t h).2 hs.memory
  work := step_workInv hs.work h
  cursors := step_cursorInv hs.cursors h
  handles := noHandleIsFreedTwice.1 s t hs.handles h
  platform := step_platformInv hs.platform h
  control := stepKeepsControlState s t hs.work hs.control h
  rings := step_ringInv hs hin h

theorem step_ne_freeNotHeld (hs : BlockInv s) : step s ≠ .fault .freeNotHeld :=
  noHandleIsFreedTwice.2 s hs.handles hs.cursors hs.platform hs.work

end

/-- Settles O16: each part of the invariant is kept by every step; a step faults only at a free, for want of the handle
(which O11 excludes) or because the NIC still reads the packet, and the premises exclude each packet it could be. -/
theorem everyOperationKeepsTheBlockInOrder : Obligations.EveryOperationKeepsTheBlockInOrder := by
  intro s hs hin
  refine ⟨fun t => step_blockInv hs hin, fun f hf => ?_, fun herr hidle hhead f hf => ?_⟩
  · have hF : FaultsIn (fun f => f = .freeNotHeld ∨ f = .freedMemoryRead) (step s) :=
      step_faults (.inl rfl) hs (fun _ _ _ => .inr rfl) (fun _ _ _ _ => .inr rfl)
        fun _ _ _ _ => ⟨fun _ => .inr rfl, fun _ _ _ _ => .inr rfl⟩
    refine (hF f hf).resolve_left fun hfree => ?_
    exact step_ne_freeNotHeld hs (hfree ▸ hf)
  · have hF : FaultsIn (· = .freeNotHeld) (step s) := by
      refine step_faults rfl hs (fun h hp hb => absurd hb (herr h hp)) (fun hd => ?_) fun x hx i hd => ?_
      · exact busyIn_of_idle (hidle (.inl hd)).1
      · obtain ⟨hclear, hstale⟩ := hhead x hx i hd
        exact ⟨fun hi => absurd hi hclear, fun n d hi hne => absurd (hstale n d hi) hne⟩
    exact step_ne_freeNotHeld hs (hF f hf ▸ hf)

end Sys2Proof.Machine
end

section
/-! SUPPORT. O17, O5: the state after reset, and what a step runs. -/

namespace Sys2Proof.Machine

-- One declaration at a time: each thread of the elaborator reserves a stack of its own.
set_option Elab.async false

/-! ### O17 -/

theorem blockInv_reset : BlockInv State.reset where
  memory := by decide
  work := nofun
  cursors := nofun
  handles := ⟨by decide, nofun, by decide, nofun⟩
  platform := ⟨nofun, fun _ => ⟨rfl, rfl, rfl, rfl⟩⟩
  control := ⟨rfl, rfl, fun _ => ⟨rfl, rfl, rfl⟩⟩
  rings := nofun

/-- Settles O17: a disabled block with nothing held, nothing in progress and nothing recorded. -/
theorem resetMeetsInvariants : Obligations.ResetMeetsInvariants :=
  ⟨blockInv_reset, nofun, fun _ => by decide, nofun⟩

/-! ### O5 -/

variable {s : State}

/-- An invocation that does not wait is the one the step runs. -/
theorem step_of_taken {x : Invocation} {rest : List Invocation} (hin : s.input = x :: rest)
    (hw : s.work = [] ∨ (x.after = 0 ∧ inDomain x.agent = false)) : step s = runCode x.code (takeInput x rest s) := by
  rw [step, hin]
  exact if_neg (by simp [waits_eq_false.2 hw])

theorem step_of_empty (hin : s.input = []) : step s = goOn s := by rw [step, hin]

theorem goOn_of_work {x : Task} {rest : List Task} (hw : s.work = x :: rest) :
    goOn s = andThen (runTask x (takeTask rest s)) fun t => .next (t.withResult (taskResult x)) := by
  rw [goOn, hw]

/-- An invocation that waits lets the next task run. -/
theorem step_of_waits {x : Invocation} {rest : List Invocation} {task : Task} {tasks : List Task}
    (hin : s.input = x :: rest) (hw : s.work = task :: tasks) (hx : x.after ≠ 0 ∨ inDomain x.agent = true) :
    step s = goOn (waited x rest s) := by
  rw [step, hin]
  refine if_pos ?_
  rcases hx with h | h <;> simp [waits, hw, h]

theorem decode_of_decodeTableWord {nbits w : Nat} {i : Instr} (h : decodeTableWord nbits w = some i) :
    decode (tableCode nbits w) = .ok i := by
  rw [decodeTableWord] at h
  split at h
  · rename_i j hj; cases h; exact hj
  · cases h

/-- The queued table word waits for nothing: it is the submitter's or the NIC's, or nothing is in progress. -/
theorem step_withFetchWord {nbits w : Nat} {i : Instr} (h : decodeTableWord nbits w = some i) :
    step (s.withFetchWord nbits w) = exec i { s with
      caller := (agentsOf i).headD .host
      work := if inDomain ((agentsOf i).headD .host) = true then [] else s.work } := by
  have hd := decode_of_decodeTableWord h
  have ha : agentFor (tableCode nbits w) = (agentsOf i).headD .host := by simp [agentFor, hd]
  have hw : (s.withFetchWord nbits w).work = [] ∨ inDomain ((agentsOf i).headD .host) = false := by
    rw [State.withFetchWord, ha]
    cases inDomain ((agentsOf i).headD .host)
    · exact .inr rfl
    · exact .inl rfl
  rw [step_of_taken (x := ⟨agentFor (tableCode nbits w), tableCode nbits w, 0⟩) (rest := s.input) rfl
    (hw.imp_right fun h => ⟨rfl, by rw [ha, h]⟩), runCode, hd]
  simp only [takeInput, State.withFetchWord, ha]

/-- Settles O5: what waits is decided first; what is taken runs by its code, and else the next task runs. -/
theorem stepRunsDecodedInvocation : Obligations.StepRunsDecodedInvocation := by
  refine ⟨fun s x rest i hin hw hd => ?_, fun s x rest e hin hw hd => ?_, fun s x rest task tasks hin hw hx => ?_,
    fun s task tasks hin hw => ?_, fun s hin hw => ?_, fun s nbits w i => step_withFetchWord⟩
  · rw [step_of_taken hin hw, runCode, hd]
    rfl
  · rw [step_of_taken hin hw, runCode, hd]
    rfl
  · rw [step_of_waits hin hw hx, goOn_of_work (s := waited x rest s) (by rw [waited, hw])]
    simp only [takeTask, waited, State.withResult]
  · rw [step_of_empty hin, goOn_of_work hw]
    simp only [takeTask, State.withResult]
  · rw [step_of_empty hin, goOn, hw]

end Sys2Proof.Machine
end

section
/-! SUPPORT. O26: RING.CLEAR_TX, where it reads freed memory and what it leaves. -/

namespace Sys2Proof.Machine

-- One declaration at a time: each thread of the elaborator reserves a stack of its own.
set_option Elab.async false

variable {s : State}

/-- The clear of a descriptor whose packet the NIC is still reading (U14). -/
theorem clearTxOne_of_busy {i : Nat} {h : Handle} (hi : s.txPkt i = some h) (hb : s.nicTxBusy = some h) :
    clearTxOne i s = .fault .freedMemoryRead := by
  rw [clearTxOne_eq, clearTxWords_eq]
  generalize (clearTxWords i s).mem = m
  generalize s.history ++ _ = hist
  have hslot : State.txPkt { s with mem := m, history := hist } i = some h := hi
  rw [hslot]
  exact congrArg (andThen · _) (freeSent_of_busy (s := { s with mem := m, history := hist }) hb)

/-- The loop reaches the packet the NIC is reading: those before it are freed. -/
theorem clearTxLoop_of_busy {k i : Nat} {h : Handle} (hn : (slotsFrom s i k).Nodup)
    (hh : ∀ x ∈ slotsFrom s i k, s.holdsPacket x = true) (hm : h ∈ slotsFrom s i k) (hb : s.nicTxBusy = some h) :
    clearTxLoop k i s = .fault .freedMemoryRead := by
  induction k generalizing i s with
  | zero => simp [slotsFrom] at hm
  | succ k ih =>
    rw [slotsFrom_succ] at hn hh hm
    show andThen (clearTxOne i s) _ = _
    by_cases hi : s.txPkt i = some h
    · rw [clearTxOne_of_busy hi hb]
      rfl
    · obtain ⟨u, l, hu, -, -, -, hs, hp⟩ := clearTxOne_completes (i := i) (s := s) (fun x hx => hh x (by simp [hx]))
        fun x hx hbx => hi (hx.trans (hbx.symm.trans hb))
      have hsl : slotsFrom u (i + 1) k = slotsFrom s (i + 1) k := by
        refine List.filterMap_congr fun j hj => ?_
        have := List.mem_range'_1.1 hj
        rw [hs, if_neg (by omega)]
      have hn' := List.nodup_append.1 hn
      have hbu : u.nicTxBusy = some h := by
        obtain ⟨m, hist, sl, he, rfl⟩ := clearTxOne_shape hu
        exact hb
      rw [hu]
      refine ih (i := i + 1) (hsl ▸ hn'.2.1) (fun x hx => ?_) ?_ hbu
      · rw [hsl] at hx
        rw [hp, hh x (List.mem_append_right _ hx)]
        simp only [Bool.true_and, decide_eq_true_eq]
        exact fun he => hn'.2.2 x (by simp [he]) x hx rfl
      · rw [hsl]
        exact (List.mem_append.1 hm).resolve_left (by simpa using hi)

/-- RING.CLEAR_TX while the NIC is reading one of the packets is the read of freed memory (R33, U14). -/
theorem clearTx_of_busy (hlen : s.txSlot.length = s.cfg.nTx) (hi : HandleInv s) (hb : ¬ NothingBusy s) :
    clearTx s = .fault .freedMemoryRead := by
  obtain ⟨h, hm, hbusy⟩ : ∃ h ∈ packetsIn s, s.nicTxBusy = some h := by simpa [NothingBusy] using hb
  have hn := hi.packetsOnce
  have hh := hi.packetsHeld
  unfold packetsIn at hm hn hh
  rw [← slotsFrom_all hlen] at hm hn hh
  have hn' := List.nodup_append.1 hn
  have hheld : ∀ x ∈ slotsFrom s 0 s.cfg.nTx, s.holdsPacket x = true := fun x hx => hh x (List.mem_append_left _ hx)
  rcases List.mem_append.1 hm with hslot | hpend
  · exact congrArg (andThen · _) (clearTxLoop_of_busy hn'.1 hheld hslot hbusy)
  · obtain ⟨u, l, hu, -, -, -, -⟩ := clearTxLoop_completes hn'.1 hheld fun x hx hbx => by
      cases hbx.symm.trans hbusy
      exact hn'.2.2 h hx h hpend rfl
    have hpend' : u.txPending = some h ∧ u.nicTxBusy = some h := by
      obtain ⟨m, hist, sl, he, rfl⟩ := clearTxLoop_shape hu
      exact ⟨Option.mem_toList.1 hpend, hbusy⟩
    rw [clearTx, hu]
    show andThen (freeSentOpt u.txPending u) _ = _
    rw [hpend'.1, freeSentOpt_some, freeSent_of_busy hpend'.2]
    rfl

/-- What the NIC keeps of a ring cleared under it (R268). -/
theorem remembersCleared_of_noteSeen {ring : Ring} {t : State} (h : t.nicSeen = (noteSeen ring s).nicSeen) :
    RemembersCleared s t ring := fun x => by
  rw [h, mem_noteSeen]
  refine or_congr_right ⟨?_, ?_⟩
  · rintro ⟨i, hi, hown, rfl⟩
    exact ⟨rfl, hi, hown, rfl, rfl, rfl⟩
  · rintro ⟨hr, hi, hown, hw, ha, hp⟩
    exact ⟨x.index, hi, hown, by cases x; simp_all⟩

theorem execRingClearTx_of_ready (hr : Ready .serialized s) (ht : TxUsable s) : exec .ringClearTx s =
    if s.txqEnabled then .next (s.refuse .precondition)
    else andThen (clearTx (noteSeen .tx s)) fun t => .next (t.withResult .none) := by
  have hpre : precheck [.serialized] .tx s = none :=
    precheck_eq_none.2 ⟨by simp [hr.1.caller], hr.1.cfg, hr.2, ht⟩
  show execRingClearTx s = _
  rw [execRingClearTx, guarded_ok hpre hr.1.overlaps]

/-- Settles O26: the packets are freed slot by slot and the held-back one last, the first that the NIC still reads being
the fault; with none such the loop clears every descriptor. -/
theorem ringClearTxEmptiesTheRing : Obligations.RingClearTxEmptiesTheRing := by
  intro s hr ht hw
  have hseen : HandleInv s → HandleInv (noteSeen .tx s) := fun hi => ⟨hi.1, hi.2, hi.3, hi.4⟩
  refine ⟨fun hq => ?_, fun hq hlen hi => ⟨fun hb => ?_, fun hb => ?_⟩⟩
  · rw [execRingClearTx_of_ready hr ht, if_pos hq]
    rfl
  · rw [execRingClearTx_of_ready hr ht, if_neg (by simp [hq]), clearTx_of_busy (s := noteSeen .tx s) hlen (hseen hi) hb]
    rfl
  · obtain ⟨t, l, htx, hl, hfreed, -, hheld⟩ := clearTx_completes (s := noteSeen .tx s) hlen (hseen hi) hb
    obtain ⟨-, hst, hout, hclr, hslots⟩ := clearTx_effect (s := noteSeen .tx s) hw
      (offsetsOk (cfgOk hr.1.cfg).layout) htx
    refine ⟨t.withResult .none, l, ?_, fun i hi => ?_, ?_, hl, hfreed, hheld, ?_, ?_⟩
    · rw [execRingClearTx_of_ready hr ht, if_neg (by simp [hq]), htx]
      rfl
    · obtain ⟨h1, h2, h3⟩ := hclr i hi
      exact ⟨⟨h1, h2, h3⟩, (hslots i).trans (if_pos hi)⟩
    · intro a ha
      exact hout a ha
    · refine remembersCleared_of_noteSeen ?_
      obtain ⟨m, hist, sl, he, rfl⟩ := clearTx_shape htx
      rfl
    · obtain ⟨m, hist, sl, he, rfl⟩ := clearTx_shape htx
      rfl

end Sys2Proof.Machine
end

section
/-! SUPPORT. O24: RING.WRITE, its operands and its stores. -/

namespace Sys2Proof.Machine

-- One declaration at a time: each thread of the elaborator reserves a stack of its own.
set_option Elab.async false

/-! ### The operands -/

theorem within_iff {w m : Word} : within w m = true ↔ w &&& ~~~ m = 0#32 := by
  rw [within, beq_iff_eq]
  constructor
  · intro h
    refine BitVec.eq_of_getLsbD_eq fun i hi => ?_
    have hbit := congrArg (BitVec.getLsbD · i) h
    simp only [BitVec.getLsbD_and, BitVec.getLsbD_not, BitVec.getLsbD_zero, hi, decide_true, Bool.true_and] at hbit ⊢
    cases hw : w.getLsbD i <;> simp_all
  · intro h
    refine BitVec.eq_of_getLsbD_eq fun i hi => ?_
    have hbit := congrArg (BitVec.getLsbD · i) h
    simp only [BitVec.getLsbD_and, BitVec.getLsbD_not, BitVec.getLsbD_zero, hi, decide_true, Bool.true_and] at hbit ⊢
    cases hw : w.getLsbD i <;> simp_all

/-- The bits RING.WRITE accepts are the command bits of the ring's format (R91; log entry 32). -/
theorem flagsOk_iff {c : Cfg} {ring : Ring} {flags1 flags2 : Word} :
    flagsOk c ring flags1 flags2 = true ↔ CommandBits c ring flags1 flags2 := by
  rw [flagsOk, Bool.and_eq_true, within_iff, within_iff]
  cases ring with
  | rx =>
    have hzero : ∀ w : Word, w &&& ~~~ (0#32) = w := fun w => by rw [BitVec.not_zero, BitVec.and_allOnes]
    rw [flags1Mask, flags2Mask, hzero, hzero]
    rfl
  | tx =>
    cases hr : c.revision2
    · simp only [flags1Mask, flags2Mask, CommandBits, hr, Bool.false_eq_true, if_false]
      rfl
    · simp only [flags1Mask, flags2Mask, CommandBits, hr, if_true, BitVec.or_zero]
      rw [BitVec.or_comm (bit c.layout.txvtag ||| _), ← BitVec.or_assoc]
      rfl

theorem writeOperandsOk_iff {c : Cfg} {ring : Ring} {index : Nat} {seg : Segment} {flags1 flags2 : Word} :
    writeOperandsOk c ring index seg flags1 flags2 = true ↔ index < ringSize c ring ∧ 1 ≤ seg.len ∧
      seg.len ≤ 2 ^ (lenField c ring).w - 1 ∧ CommandBits c ring flags1 flags2 := by
  simp only [writeOperandsOk, Bool.and_eq_true, decide_eq_true_eq, flagsOk_iff, and_assoc]
  rfl

/-! ### The operation -/

variable {ring : Ring} {index : Nat} {seg : Segment} {flags1 flags2 : Word} {own : Bool} {s : State}

/-- What an admitted RING.WRITE does (R112). -/
theorem execRingWrite_of_admitted (ha : Admitted (agentsOf (.ringWrite ring index seg flags1 flags2 own)) (writeNeed ring) s) :
    exec (.ringWrite ring index seg flags1 flags2 own) s =
      if writeOperandsOk s.cfg ring index seg flags1 flags2 = false then .next (s.refuse .operandRange)
      else match writeProblem ring index s with
        | some r => .next (s.refuse r)
        | none => .next ((if ring = .tx ∧ own then submitIndex index (writeDesc ring index seg flags1 flags2 own s)
            else writeDesc ring index seg flags1 flags2 own s).withResult .none) := by
  show execRingWrite ring index seg flags1 flags2 own s = _
  exact (guarded_ok (need := writeNeed ring) ha.1 ha.2).trans rfl

theorem writeNeed_admitted (hag : s.caller ∈ agentsOf (.ringWrite ring index seg flags1 flags2 own))
    (hwork : ring = .rx → s.work = []) (hc : cfgWf s.cfg = true) (hen : s.enabled = true)
    (htx : ring = .tx → TxUsable s) (hrx : ring = .rx → RxUsable s) :
    Admitted (agentsOf (.ringWrite ring index seg flags1 flags2 own)) (writeNeed ring) s := by
  cases ring with
  | tx =>
    refine ⟨precheck_eq_none.2 ⟨hag, hc, hen, htx rfl⟩, overlaps_eq_false.2 fun hd => ?_⟩
    rw [show s.caller = .submitter by simpa [agentsOf] using hag] at hd
    cases hd
  | rx => exact ⟨precheck_eq_none.2 ⟨hag, hc, hen, hrx rfl⟩, overlaps_eq_false.2 fun _ => hwork rfl⟩

/-- The state RING.WRITE leaves: three fields stored, and with `OWN` the index no longer writable (R112). -/
theorem ringWrite_state : ((if ring = .tx ∧ own then submitIndex index (writeDesc ring index seg flags1 flags2 own s)
      else writeDesc ring index seg flags1 flags2 own s).withResult .none) = { s with
    mem := (writeDesc ring index seg flags1 flags2 own s).mem
    txUnsubmitted := if ring = .tx ∧ own = true then s.txUnsubmitted.filter (· != index) else s.txUnsubmitted
    history := s.history ++ writeEvents s.cfg ring index seg flags1 flags2 own
    result := .none } := by
  rw [writeDesc_eq]
  split
  · rfl
  · rfl

/-- Settles O24: the operands decide, then the owner, then the allocation; what is written reads back, and no other byte
changes. -/
theorem ringWriteStoresOwnershipLast : Obligations.RingWriteStoresOwnershipLast := by
  intro ring index seg flags1 flags2 own s hag hwork hc hen htx hrx hw len inRange e w2 w3 w4
  have hl := offsetsOk (cfgOk hc).layout
  have hexec := execRingWrite_of_admitted (writeNeed_admitted hag hwork hc hen htx hrx)
  have hin : inRange ↔ writeOperandsOk s.cfg ring index seg flags1 flags2 = true := writeOperandsOk_iff.symm
  refine ⟨fun hr hown hun => ?_, fun hr hown => ?_, fun hr hown htx hun => ?_, fun hr => ?_⟩
  · have hprob : writeProblem ring index s = none := by
      rw [writeProblem, if_neg (by simp [hown]), if_neg fun h => h.2 (hun h.1)]
    obtain ⟨h1, h2, h3⟩ := writeDesc_fields hw hl ring index seg flags1 flags2 own
    have e3 : opts1Word s.cfg ring index flags1 seg.len = w3 := by rw [opts1Word, ← eorOn_eq]
    have e2 : opts1Word s.cfg ring index 0#32 seg.len = w2 := by rw [opts1Word, ← eorOn_eq, BitVec.or_zero]
    have e4 : ownedWord s.cfg ring index flags1 seg.len = w4 := congrArg (bit s.cfg.layout.own ||| ·) e3
    rw [finalWord, e3, e4] at h1
    refine ⟨_, by rw [hexec, if_neg (by simp [hin.1 hr]), hprob], ?_⟩
    have hread := fun a => writeDesc_read_of_ne hw hl seg flags1 flags2 own (a := a) (ring := ring) (i := index)
    have hst := writeDesc_sited ring index seg flags1 flags2 own s
    have ht := ringWrite_state (ring := ring) (index := index) (seg := seg) (flags1 := flags1) (flags2 := flags2)
      (own := own) (s := s)
    generalize State.withResult _ _ = t at ht ⊢
    generalize writeDesc ring index seg flags1 flags2 own s = u at h1 h2 h3 hread hst ht
    have hmem : t.mem = u.mem := by rw [ht]
    have hut : Sited u t := hst.symm.trans ⟨by rw [ht], by rw [ht], by rw [ht]⟩
    refine ⟨?_, ?_, ?_, fun a ha => ?_, ?_⟩
    · rw [← h3, State.descBuf, State.descBuf, hut.descAddr, hmem]
    · rw [← h2, State.desc32, State.desc32, hut.descAddr, hmem]
    · rw [← h1, State.desc32, State.desc32, hut.descAddr, hmem]
    · rw [hmem, hread a ha]
    · rw [writeEvents, e2, e3, e4, ← List.append_assoc] at ht
      rw [hmem]
      exact ht
  · rw [hexec, if_neg (by simp [hin.1 hr]), writeProblem, if_pos hown]
    rfl
  · rw [hexec, if_neg (by simp [hin.1 hr]), writeProblem, if_neg (by simp [hown]), if_pos ⟨htx, hun⟩]
    rfl
  · rw [hexec, if_pos (by simpa using hin.not.1 hr)]
    rfl

end Sys2Proof.Machine
end

section
/-! SUPPORT. O37: a pass of TX.IRQ, visit by visit. -/

namespace Sys2Proof.Machine

-- One declaration at a time: each thread of the elaborator reserves a stack of its own.
set_option Elab.async false

variable {s v : State}

/-! ### One visit -/

/-- The packets held once the packet held back, if any, has been freed. -/
def heldAfterFree (s : State) : List HeldPacket :=
  match s.txPending with
  | some h => s.heldPackets.filter (·.h != h)
  | none => s.heldPackets

/-- What a visit of TX.IRQ records (R114, R149). -/
def visitEvents (s : State) : List Event :=
  [.descRead .tx s.txDirty .opts1, .acquire] ++ s.txPending.elim [] (freeEvents s)

/-- The state a visit of TX.IRQ to a completed descriptor leaves, the rest of the scan set aside (R114, R149). -/
def afterVisit (s : State) : State := { s with
  txPending := s.txPkt s.txDirty, txSlot := s.txSlot.set s.txDirty none, heldPackets := heldAfterFree s
  history := s.history ++ visitEvents s
  txDirty := (s.txDirty + 1) % s.cfg.nTx, txFree := wrapI32 (s.txFree + 1)
  txDoneCount := countUp s.cfg s.txDoneCount, txUnsubmitted := s.txUnsubmitted.filter (· != s.txDirty) }

/-- The free of what is held back goes through unless the NIC is reading it (R33, U14). -/
theorem freeSentOpt_pending (hh : ∀ h, s.txPending = some h → s.holdsPacket h = true)
    (hb : ∀ h, s.txPending = some h → s.nicTxBusy ≠ some h) : freeSentOpt s.txPending s = .next { s with
      heldPackets := heldAfterFree s, history := s.history ++ s.txPending.elim [] (freeEvents s) } := by
  obtain hp | ⟨h, hp⟩ := Option.eq_none_or_eq_some s.txPending
  · have hfree : freeSentOpt s.txPending s = .next s := by rw [hp]; rfl
    have hheld : heldAfterFree s = s.heldPackets := by rw [heldAfterFree, hp]
    have hev : s.txPending.elim [] (freeEvents s) = [] := by rw [hp]; rfl
    rw [hfree, hheld, hev, List.append_nil]
  · have hfree : freeSentOpt s.txPending s = freeSent h s := by rw [hp]; rfl
    have hheld : heldAfterFree s = s.heldPackets.filter (·.h != h) := by rw [heldAfterFree, hp]
    have hev : s.txPending.elim [] (freeEvents s) = freeEvents s h := by rw [hp]; rfl
    rw [hfree, hheld, hev, freeSent_of_idle (hb h hp), freePacket_held (hh h hp)]

/-- One round of TX.IRQ on a completed descriptor (R114, R149). -/
theorem txScan_visit {k old : Nat} (hown : s.nicOwned .tx s.txDirty = false)
    (hh : ∀ h, s.txPending = some h → s.holdsPacket h = true) (hb : ErratumBounded s) :
    txScan (k + 1) old s = .next ((afterVisit s).pushWork [.txScan k old]) := by
  have hfree := freeSentOpt_pending (s := (s.noteRead .tx s.txDirty .opts1).emit .acquire) hh hb
  obtain ⟨t, ht⟩ : ∃ t, txScan (k + 1) old s = .next t := by
    unfold txScan reclaimOne
    dsimp only
    rw [if_neg (by simp [hown]), visitTx, hfree]
    dsimp only [andThen_next]
    split
    · exact ⟨_, rfl⟩
    · exact ⟨_, rfl⟩
  rcases txScan_cases ht with ⟨hend | hend, -⟩ | ⟨j, held, hist, hk, -, ⟨v, hv, rfl, rfl⟩, rfl⟩
  · cases hend
  · exact absurd (hown.symm.trans hend) nofun
  · cases hk
    cases hfree.symm.trans hv
    rw [ht]
    simp only [afterVisit, visitEvents, State.pushWork, State.noteRead, State.emit, List.append_assoc]
    rfl

/-- A round that visits a completed descriptor while the NIC reads what is held back (R33, U14). -/
theorem txScan_of_busy {k old : Nat} {h : Handle} (hp : s.txPending = some h) (hb : s.nicTxBusy = some h)
    (hown : s.nicOwned .tx s.txDirty = false) : txScan (k + 1) old s = .fault .freedMemoryRead := by
  have hfree : freeSentOpt ((s.noteRead .tx s.txDirty .opts1).emit .acquire).txPending
      ((s.noteRead .tx s.txDirty .opts1).emit .acquire) = .fault .freedMemoryRead := by
    show freeSentOpt s.txPending _ = _
    rw [hp]
    exact freeSent_of_busy hb
  unfold txScan reclaimOne
  dsimp only
  rw [if_neg (by simp [hown]), visitTx, hfree]
  rfl

/-- A round that ends the pass: nothing left to visit, or the descriptor is still the NIC's (R114). -/
theorem txScan_end {k old : Nat} (hend : k = 0 ∨ s.nicOwned .tx s.txDirty = true) : ∃ v,
    txScan k old s = .next (endTxPass old v) ∧ (v = s ∨ v = s.noteRead .tx s.txDirty .opts1) := by
  cases k with
  | zero => exact ⟨s, rfl, .inl rfl⟩
  | succ k =>
    have hown : s.nicOwned .tx s.txDirty = true := hend.resolve_left nofun
    refine ⟨s.noteRead .tx s.txDirty .opts1, ?_, .inr rfl⟩
    unfold txScan reclaimOne
    dsimp only
    rw [if_pos (by simpa using hown)]
    rfl

/-! ### A pass, its end set aside -/

/-- An event of a pass before its end: no store, no doorbell, no upcall to the queue. -/
def passEvent (e : Event) : Bool := quiet e && !isStore e

/-- `v` comes from `s` by visits to the `n` descriptors from `tx_dirty` up, with the events `l` (R114, R149). -/
structure Visited (s v : State) (n : Nat) (l : List Event) : Prop where
  history : v.history = s.history ++ l
  dirty   : v.txDirty = (s.txDirty + n) % s.cfg.nTx
  free    : v.txFree = s.txFree + n
  count   : v.txDoneCount = counted s.cfg s.txDoneCount n
  slots   : ∀ i, v.txPkt i = if ∃ j < n, i = (s.txDirty + j) % s.cfg.nTx then none else s.txPkt i
  pending : v.txPending = if n = 0 then s.txPending else s.txPkt ((s.txDirty + (n - 1)) % s.cfg.nTx)
  freed   : freedPackets l = if n = 0 then [] else s.txPending.toList ++
    (List.range (n - 1)).filterMap fun j => s.txPkt ((s.txDirty + j) % s.cfg.nTx)
  held    : ∀ h, v.holdsPacket h = (s.holdsPacket h && decide (h ∉ freedPackets l))
  events  : ∀ e ∈ l, passEvent e = true
  frame   : v = { s with
    txDirty := v.txDirty, txFree := v.txFree, txDoneCount := v.txDoneCount, txSlot := v.txSlot
    txPending := v.txPending, heldPackets := v.heldPackets, txUnsubmitted := v.txUnsubmitted, history := v.history
    result := v.result }

theorem Visited.zero (hd : s.txDirty < s.cfg.nTx) : Visited s s 0 [] where
  history := (List.append_nil _).symm
  dirty := (Nat.mod_eq_of_lt hd).symm
  free := (Int.add_zero _).symm
  count := rfl
  slots := fun i => by rw [if_neg (by simp)]
  pending := rfl
  freed := rfl
  held := fun h => by simp
  events := by simp
  frame := rfl

theorem Visited.zero_read (hd : s.txDirty < s.cfg.nTx) :
    Visited s (s.noteRead .tx s.txDirty .opts1) 0 [.descRead .tx s.txDirty .opts1] where
  history := rfl
  dirty := (Nat.mod_eq_of_lt hd).symm
  free := (Int.add_zero _).symm
  count := rfl
  slots := fun i => by rw [if_neg (by simp)]; rfl
  pending := rfl
  freed := rfl
  held := fun h => by simp [freedPackets, State.holdsPacket]
  events := by simp [passEvent, quiet, isStore]
  frame := rfl

theorem counted_countUp (c : Cfg) (x n : Nat) : counted c (countUp c x) n = counted c x (n + 1) := by
  unfold counted countUp
  rw [if_neg (Nat.succ_ne_zero n)]
  split
  · rename_i hn
    rw [hn]
  · rw [Nat.mod_add_mod, Nat.add_assoc, Nat.add_comm 1 n]

theorem afterVisit_txPkt (hd : s.txDirty < s.txSlot.length) (i : Nat) :
    (afterVisit s).txPkt i = if i = s.txDirty then none else s.txPkt i := by
  have h := txPkt_set s s.txDirty i none s.txSlot rfl
  simp only [hd, and_true] at h
  exact h

theorem freedPackets_visitEvents (s : State) : freedPackets (visitEvents s) = s.txPending.toList := by
  rw [visitEvents, freedPackets_append]
  cases s.txPending with
  | none => rfl
  | some h => exact freedPackets_freeEvents s h

theorem afterVisit_holdsPacket (s : State) (h : Handle) :
    (afterVisit s).holdsPacket h = (s.holdsPacket h && decide (h ∉ s.txPending.toList)) := by
  show (heldAfterFree s).any (·.h == h) = _
  obtain hp | ⟨x, hp⟩ := Option.eq_none_or_eq_some s.txPending
  · simp [heldAfterFree, hp, State.holdsPacket]
  · rw [heldAfterFree, hp]
    dsimp only
    rw [holdsPacket_filter]
    simp [State.holdsPacket]

theorem passEvent_visitEvents (s : State) : ∀ e ∈ visitEvents s, passEvent e = true := by
  intro e he
  rcases List.mem_append.1 he with he | he
  · simp only [List.mem_cons, List.not_mem_nil, or_false] at he
    rcases he with rfl | rfl <;> rfl
  · cases hp : s.txPending with
    | none => rw [hp] at he; cases he
    | some h =>
      rw [hp] at he
      have hstore : ∀ x ∈ freeEvents s h, isStore x = false := by
        unfold freeEvents
        split <;> simp [isStore]
      rw [passEvent, quiet_freeEvents e he, hstore e he]
      rfl

/-- A visit, and what is visited after it (R149). -/
theorem Visited.cons {n : Nat} {l : List Event} (hd : s.txDirty < s.cfg.nTx) (hn : n + 1 < s.cfg.nTx)
    (hlen : s.txSlot.length = s.cfg.nTx) (hf : wrapI32 (s.txFree + 1) = s.txFree + 1)
    (h : Visited ((afterVisit s).withResult .none) v n l) : Visited s v (n + 1) (visitEvents s ++ l) := by
  have hidx : ∀ j, ((s.txDirty + 1) % s.cfg.nTx + j) % s.cfg.nTx = (s.txDirty + (j + 1)) % s.cfg.nTx := fun j => by
    rw [Nat.mod_add_mod, Nat.add_assoc, Nat.add_comm 1 j]
  have hpkt := afterVisit_txPkt (hlen ▸ hd)
  have hother : ∀ j < n, (afterVisit s).txPkt ((s.txDirty + (j + 1)) % s.cfg.nTx) =
      s.txPkt ((s.txDirty + (j + 1)) % s.cfg.nTx) := fun j hj => by
    rw [hpkt, if_neg]
    rw [ringStep_eq hd (by omega)]
    split <;> omega
  have hslots : ∀ i, v.txPkt i = if ∃ j < n, i = ((s.txDirty + 1) % s.cfg.nTx + j) % s.cfg.nTx then none
    else (afterVisit s).txPkt i := h.slots
  have hpend : v.txPending = if n = 0 then s.txPkt s.txDirty
    else (afterVisit s).txPkt (((s.txDirty + 1) % s.cfg.nTx + (n - 1)) % s.cfg.nTx) := h.pending
  have hfreed : freedPackets l = if n = 0 then [] else (s.txPkt s.txDirty).toList ++
    (List.range (n - 1)).filterMap fun j => (afterVisit s).txPkt (((s.txDirty + 1) % s.cfg.nTx + j) % s.cfg.nTx) := h.freed
  have hheld : ∀ x, v.holdsPacket x = ((afterVisit s).holdsPacket x && decide (x ∉ freedPackets l)) := h.held
  constructor
  case history => rw [h.history, ← List.append_assoc]; rfl
  case dirty => rw [h.dirty]; exact hidx n
  case free =>
    rw [h.free]
    show wrapI32 (s.txFree + 1) + n = _
    rw [hf]
    omega
  case count => rw [h.count]; exact counted_countUp ..
  case slots =>
    intro i
    simp only [hslots, hpkt, hidx, Nat.exists_lt_succ_left, Nat.add_zero, Nat.mod_eq_of_lt hd]
    by_cases hi : i = s.txDirty <;> simp [hi]
  case pending =>
    rw [hpend, if_neg (Nat.succ_ne_zero n), hidx]
    cases n with
    | zero => rw [if_pos rfl]; simp [Nat.mod_eq_of_lt hd]
    | succ m => rw [if_neg (Nat.succ_ne_zero m)]; exact hother m (Nat.lt_succ_self m)
  case freed =>
    rw [freedPackets_append, freedPackets_visitEvents, if_neg (Nat.succ_ne_zero n), hfreed]
    congr 1
    cases n with
    | zero => rfl
    | succ m =>
      rw [if_neg (Nat.succ_ne_zero m), Nat.add_sub_cancel, Nat.add_sub_cancel, List.range_succ_eq_map,
        ← List.singleton_append, List.filterMap_append, List.filterMap_map]
      congr 1
      · cases hp : s.txPkt s.txDirty <;> simp [Nat.mod_eq_of_lt hd, hp]
      · refine List.filterMap_congr fun j hj => ?_
        rw [hidx]
        exact hother j (by have := List.mem_range.1 hj; omega)
  case held =>
    intro x
    rw [hheld, afterVisit_holdsPacket, freedPackets_append, freedPackets_visitEvents, Bool.and_assoc]
    congr 1
    rw [Bool.eq_iff_iff]
    simp only [Bool.and_eq_true, decide_eq_true_eq, List.mem_append, not_or]
  case events =>
    intro e he
    rcases List.mem_append.1 he with he | he
    · exact passEvent_visitEvents s e he
    · exact h.events e he
  case frame => rw [h.frame]; rfl

end Sys2Proof.Machine
end

section
/-! SUPPORT. O37: the whole pass of TX.IRQ and its end. -/

namespace Sys2Proof.Machine

-- One declaration at a time: each thread of the elaborator reserves a stack of its own.
set_option Elab.async false

variable {s v : State}

/-! ### The end of a pass -/

/-- What the end of a pass records (R150, R151). -/
def endEvents (old : Nat) (s : State) : List Event :=
  (if s.txStalled ∧ (s.cfg.kMaxSegs : Int) < s.txFree then [.resumeQueue] else []) ++
    if s.txDirty ≠ old then [.doorbell s.cfg.reg.txDoorbell s.cfg.reg.doorbellValue] else []

theorem endTxPass_eq (old : Nat) (s : State) : endTxPass old s = { s with
    txStalled := s.txStalled && decide (s.txFree ≤ s.cfg.kMaxSegs), history := s.history ++ endEvents old s } := by
  have hun : unstall s = { s with
      txStalled := s.txStalled && decide (s.txFree ≤ s.cfg.kMaxSegs)
      history := s.history ++ if s.txStalled ∧ (s.cfg.kMaxSegs : Int) < s.txFree then [.resumeQueue] else [] } := by
    unfold unstall
    split
    · rename_i h
      simp [h.1, Int.not_le.2 h.2]
    · rename_i h
      have hst : (s.txStalled && decide (s.txFree ≤ s.cfg.kMaxSegs)) = s.txStalled := by
        cases hs : s.txStalled
        · rfl
        · simpa [hs] using h
      rw [hst, List.append_nil]
  unfold endTxPass endEvents
  rw [hun]
  dsimp only
  by_cases h : s.txDirty = old
  · simp [h]
  · simp [h, ringDoorbell, State.emit]

/-- With nothing in progress nothing more runs. -/
theorem runWork_idle (m : Nat) (hw : s.work = []) : runWork m s = .next s := by
  induction m with
  | zero => rfl
  | succ m ih => rw [runWork, goOn, hw]; exact ih

/-- The next round of a pass, taken with nothing between (R114). -/
theorem runWork_scan {m k old : Nat} {s : State} (hw : s.work = []) (hc : s.caller = .serialized) :
    runWork (m + 1) ((s.pushWork [.txScan k old]).withResult .none) =
      andThen (txScan k old (s.withResult .none)) fun u => runWork m (u.withResult .none) := by
  have hwork : ((s.pushWork [.txScan k old]).withResult .none).work = [.txScan k old] := by
    show [Task.txScan k old] ++ s.work = _
    rw [hw, List.append_nil]
  have htake : takeTask [] ((s.pushWork [.txScan k old]).withResult .none) = s.withResult .none := by
    rw [takeTask, ← hc, ← hw]
    rfl
  rw [runWork, goOn_of_work hwork, htake]
  show andThen (andThen (txScan k old (s.withResult .none)) _) _ = _
  cases txScan k old (s.withResult .none) <;> rfl

/-! ### The pass -/

/-- What a pass asks of the state it starts from, with `k` descriptors left to look at (R8, R114, U14). -/
structure PassReady (s : State) (k : Nat) : Prop where
  idle   : s.work = []
  caller : s.caller = .serialized
  held   : HandlesOwned s
  busy   : NothingBusy s
  dirty  : s.txDirty < s.cfg.nTx
  slots  : s.txSlot.length = s.cfg.nTx
  left   : k < s.cfg.nTx
  free   : 0 ≤ s.txFree ∧ s.txFree + k ≤ s.cfg.nTx
  max    : s.cfg.nTx < 2 ^ 31

theorem PassReady.pending {k : Nat} (hs : PassReady s k) :
    (∀ h, s.txPending = some h → s.holdsPacket h = true) ∧ ErratumBounded s := by
  have hmem : ∀ h, s.txPending = some h → h ∈ packetsIn s := fun h hp => List.mem_append_right _ (by simp [hp])
  exact ⟨fun h hp => (handleInv_iff.2 hs.held).packetsHeld h (hmem h hp), fun h hp => hs.busy h (hmem h hp)⟩

/-- No visit brings a packet into the engine's hands. -/
theorem packetsIn_afterVisit {h : Handle} (hm : h ∈ packetsIn (afterVisit s)) : h ∈ packetsIn s := by
  have hslots : (afterVisit s).txSlot = s.txSlot.set s.txDirty none := rfl
  have hpend : (afterVisit s).txPending = s.txPkt s.txDirty := rfl
  rw [packetsIn, hslots, hpend] at hm
  rcases List.mem_append.1 hm with hm | hm
  · have hsub := filterMap_set_none_sublist (id : Handle → Handle) s.txSlot s.txDirty
    simp only [Option.map_id] at hsub
    exact List.mem_append_left _ (hsub.subset hm)
  · exact (packetsIn_perm (s := s) (Option.mem_toList.1 hm)).mem_iff.2 List.mem_cons_self

theorem PassReady.afterVisit {k : Nat} (hs : PassReady s (k + 1)) (hown : s.nicOwned .tx s.txDirty = false) :
    PassReady ((Machine.afterVisit s).withResult .none) k := by
  obtain ⟨hf0, hfk⟩ := hs.free
  have hvisit := txScan_visit (k := k) (old := 0) hown hs.pending.1 hs.pending.2
  have hfree : wrapI32 (s.txFree + 1) = s.txFree + 1 := wrapI32_of_bounds (by omega) (by have := hs.max; omega)
  have hends : EndsIn False HandlesOwned (txScan (k + 1) 0 s) := txScan_ends (k + 1) 0 hs.held
  refine ⟨hs.idle, hs.caller, ?_, fun h hm => hs.busy h (packetsIn_afterVisit hm), Nat.mod_lt _ ((Nat.zero_le _).trans_lt hs.dirty),
    ?_, Nat.lt_of_succ_lt hs.left, ?_, hs.max⟩
  · exact (hends.of_eq_next hvisit).congr
  · exact (List.length_set ..).trans hs.slots
  · show 0 ≤ wrapI32 (s.txFree + 1) ∧ wrapI32 (s.txFree + 1) + k ≤ s.cfg.nTx
    rw [hfree]
    push_cast at hfk
    omega

/-- A pass from `s` with at most `k` descriptors to look at, all rounds one behind the other (R114, R149). -/
theorem pass_runs {k : Nat} (hs : PassReady s k) (old : Nat) : ∃ n v l,
    (n ≤ k ∧ (∀ j < n, s.nicOwned .tx ((s.txDirty + j) % s.cfg.nTx) = false) ∧
      (n < k → s.nicOwned .tx ((s.txDirty + n) % s.cfg.nTx) = true)) ∧
    Visited s v n l ∧ ∀ m, k ≤ m → andThen (txScan k old s) (fun u => runWork m (u.withResult .none)) =
      .next ((endTxPass old v).withResult .none) := by
  have hend : ∀ {k : Nat} {s : State}, PassReady s k → k = 0 ∨ s.nicOwned .tx s.txDirty = true → ∃ v l,
      Visited s v 0 l ∧ ∀ m, andThen (txScan k old s) (fun u => runWork m (u.withResult .none)) =
        .next ((endTxPass old v).withResult .none) := fun {k s} hs hk => by
    obtain ⟨v, hv, hread⟩ := txScan_end (old := old) hk
    have hvis : ∃ l, Visited s v 0 l := by
      rcases hread with rfl | rfl
      · exact ⟨_, .zero hs.dirty⟩
      · exact ⟨_, .zero_read hs.dirty⟩
    obtain ⟨l, hvis⟩ := hvis
    refine ⟨v, l, hvis, fun m => ?_⟩
    rw [hv]
    refine runWork_idle m ?_
    rw [endTxPass_eq]
    show v.work = []
    rw [hvis.frame]
    exact hs.idle
  induction k generalizing s with
  | zero =>
    obtain ⟨v, l, hvis, hrun⟩ := hend hs (.inl rfl)
    exact ⟨0, v, l, ⟨le_rfl, fun _ h => absurd h (Nat.not_lt_zero _), fun h => absurd h (Nat.not_lt_zero _)⟩, hvis,
      fun m _ => hrun m⟩
  | succ k ih =>
    by_cases hown : s.nicOwned .tx s.txDirty = true
    · obtain ⟨v, l, hvis, hrun⟩ := hend hs (.inr hown)
      refine ⟨0, v, l, ⟨Nat.zero_le _, fun _ h => absurd h (Nat.not_lt_zero _), fun _ => ?_⟩, hvis, fun m _ => hrun m⟩
      rw [Nat.add_zero, Nat.mod_eq_of_lt hs.dirty]
      exact hown
    · have hown' := eq_false_of_ne_true hown
      have hvisit := txScan_visit (k := k) (old := old) hown' hs.pending.1 hs.pending.2
      obtain ⟨n, v, l, ⟨hn, hdone, hstop⟩, hvis, hrun⟩ := ih (hs.afterVisit hown')
      obtain ⟨hf0, hfk⟩ := hs.free
      have hleft := hs.left
      have hidx : ∀ j, ((s.txDirty + 1) % s.cfg.nTx + j) % s.cfg.nTx = (s.txDirty + (j + 1)) % s.cfg.nTx := fun j => by
        rw [Nat.mod_add_mod, Nat.add_assoc, Nat.add_comm 1 j]
      refine ⟨n + 1, v, _, ⟨by omega, fun j hj => ?_, fun h => ?_⟩, hvis.cons hs.dirty (by omega) hs.slots
        (wrapI32_of_bounds (by omega) (by have := hs.max; push_cast at hfk; omega)), fun m hm => ?_⟩
      · cases j with
        | zero => rw [Nat.add_zero, Nat.mod_eq_of_lt hs.dirty]; exact hown'
        | succ j => rw [← hidx]; exact hdone j (by omega)
      · rw [← hidx]
        exact hstop (by omega)
      · obtain ⟨m, rfl⟩ : ∃ m', m = m' + 1 := ⟨m - 1, by omega⟩
        rw [hvisit]
        rw [andThen_next, runWork_scan (s := Machine.afterVisit s) hs.idle hs.caller]
        exact hrun m (by omega)

/-! ### O37 -/

theorem execTxIrq_of_ready (hr : Ready .serialized s) (ht : TxUsable s) : exec .txIrq s =
    andThen (txScan (outstandingCount s) s.txDirty s) fun u => .next (u.withResult .none) := by
  have hpre : precheck [.serialized] .tx s = none :=
    precheck_eq_none.2 ⟨by simp [hr.1.caller], hr.1.cfg, hr.2, ht⟩
  show execTxIrq s = _
  rw [execTxIrq, guarded_ok hpre hr.1.overlaps]
  rfl

theorem passReady_of_ready (hr : Ready .serialized s) (hcur : CursorsOk s) (hi : HandleInv s) (hb : NothingBusy s) :
    PassReady s (outstanding s) := by
  have hfree := hcur.free
  have hlt := hcur.outstanding_lt
  have hmax := (cfgOk hr.1.cfg).nTxMax
  exact ⟨hr.1.alone rfl, hr.1.caller, handleInv_iff.1 hi, hb, hcur.dirty, hcur.slots, hlt, ⟨by omega, by omega⟩, by omega⟩

/-- The first round of a pass goes through when the NIC reads no packet held back (R218). -/
theorem txScan_completes {k old : Nat} (hh : ∀ h, s.txPending = some h → s.holdsPacket h = true)
    (hb : ErratumBounded s) : ∃ u, txScan k old s = .next u := by
  by_cases hend : k = 0 ∨ s.nicOwned .tx s.txDirty = true
  · obtain ⟨v, hv, -⟩ := txScan_end (old := old) hend
    exact ⟨_, hv⟩
  · obtain ⟨j, rfl⟩ : ∃ j, k = j + 1 := Nat.exists_eq_succ_of_ne_zero fun h => hend (.inl h)
    exact ⟨_, txScan_visit (eq_false_of_ne_true fun h => hend (.inr h)) hh hb⟩

theorem freedPackets_endEvents (old : Nat) (s : State) : freedPackets (endEvents old s) = [] := by
  unfold endEvents
  split <;> split <;> rfl

theorem isStore_endEvents (old : Nat) (s : State) : ∀ e ∈ endEvents old s, isStore e = false := by
  unfold endEvents
  split <;> split <;> simp [isStore]

/-- Settles O37: at a free the NIC is still reading the pass faults, and else it visits the completed descriptors in
order, each visit freeing what the one before held back. -/
theorem txIrqHoldsBackTheLastPacket : Obligations.TxIrqHoldsBackTheLastPacket := by
  refine ⟨fun k old s h hp hb hown => txScan_of_busy hp hb hown, fun s hr ht hcur hi => ?_⟩
  have hexec := execTxIrq_of_ready hr ht
  rw [hcur.outstandingCount_eq] at hexec
  refine ⟨fun h hp hb hout hown => ?_, fun hb => ?_, fun hb => ?_⟩
  · obtain ⟨k, hk⟩ : ∃ k, outstanding s = k + 1 := ⟨outstanding s - 1, by omega⟩
    rw [hexec, hk, txScan_of_busy hp hb hown]
    rfl
  · obtain ⟨u, hu⟩ := txScan_completes (k := outstanding s) (old := s.txDirty)
      (fun h hp => hi.packetsHeld h (List.mem_append_right _ (by simp [hp]))) hb
    exact ⟨_, by rw [hexec, hu]; rfl⟩
  · obtain ⟨n, v, l, ⟨hn, hdone, hstop⟩, hvis, hrun⟩ := pass_runs (passReady_of_ready hr hcur hi hb) s.txDirty
    have hlt := hcur.outstanding_lt
    have hd := hcur.dirty
    have hv : v.cfg = s.cfg ∧ v.txStalled = s.txStalled := by rw [hvis.frame]; exact ⟨rfl, rfl⟩
    have hmoved : v.txDirty = s.txDirty ↔ n = 0 := by
      rw [hvis.dirty, ringStep_eq hd (by omega)]
      split <;> omega
    refine ⟨n, (endTxPass s.txDirty v).withResult .none, l ++ endEvents s.txDirty v, ⟨hn, hdone, hstop⟩, ?_, ?_⟩
    · rw [execWhole, hexec]
      have hwhole := hrun s.cfg.nTx hlt.le
      revert hwhole
      cases txScan (outstanding s) s.txDirty s <;> exact id
    · have hquiet : ∀ e ∈ l, quiet e = true ∧ isStore e = false := fun e he => by simpa [passEvent] using hvis.events e he
      rw [endTxPass_eq]
      refine ⟨?_, hvis.dirty, hvis.free, hvis.count, hvis.slots, hvis.pending, ?_, fun h => ?_, ?_, ?_, ?_, ?_, ?_⟩
      · show v.history ++ _ = _
        rw [hvis.history, List.append_assoc]
      · rw [freedPackets_append, freedPackets_endEvents, List.append_nil]
        exact hvis.freed
      · rw [freedPackets_append, freedPackets_endEvents, List.append_nil]
        exact hvis.held h
      · show (v.txStalled && decide (v.txFree ≤ v.cfg.kMaxSegs)) = _
        rw [hv.1, hv.2, hvis.free]
      · have hno : Event.resumeQueue ∉ l := fun he => absurd (hquiet _ he).1 nofun
        rw [List.mem_append, endEvents, hv.1, hv.2, hvis.free]
        split <;> split <;> simp_all
      · have hno : l.count (.doorbell s.cfg.reg.txDoorbell s.cfg.reg.doorbellValue) = 0 :=
          List.count_eq_zero.2 fun he => absurd (hquiet _ he).1 nofun
        rw [List.count_append, hno, endEvents, hv.1]
        simp only [ne_eq, hmoved]
        split <;> split <;> simp_all
      · intro e he
        rcases List.mem_append.1 he with he | he
        · exact (hquiet e he).2
        · exact isStore_endEvents _ _ e he
      · rw [hvis.frame]
        rfl

end Sys2Proof.Machine
end

section
/-! SUPPORT. O54: what ENABLE acquires when every allocation succeeds. -/

namespace Sys2Proof.Machine

-- One declaration at a time: each thread of the elaborator reserves a stack of its own.
set_option Elab.async false

variable {s : State}

theorem allocDma_of_gives {draw : Option Addr} {size align : Nat} {a : Addr} (h : AllocGives draw size align a) :
    allocDma size align draw = some ⟨a, size, .prepared⟩ := by
  obtain ⟨rfl, halign, htop⟩ := h
  refine if_neg ?_
  simp only [allocBad, Bool.or_eq_true, Bool.and_eq_true, bne_iff_ne, decide_eq_true_eq, not_or, not_and, not_not, not_lt]
  exact ⟨fun h => halign.resolve_left h, htop⟩

/-! ### Step E4 -/

/-- The buffer memory of a draw and its segment. -/
def drawnMem (b : BufferDraw × Segment) : DmaMem := ⟨b.2.addr, b.2.len, .prepared⟩

/-- The slot it fills. -/
def drawnSlot (b : BufferDraw × Segment) : Option RxBuffer := some ⟨b.1.h, drawnMem b⟩

/-- One slot filled (R200 E4). -/
theorem fillSlot_given {i : Nat} {b : BufferDraw × Segment} (hseg : drawnSegment s.cfg b.1.regions = some b.2)
    (hh : b.1.h ∉ s.heldBuffers) (hmem : ∀ m ∈ liveMems s, memsApart m (drawnMem b)) :
    fillSlot i (some b.1) s = .next ({ holdBuffer b.1.h s with rxSlot := s.rxSlot.set i (drawnSlot b) }, true) := by
  have hfresh : memFresh s b.2.addr.toNat b.2.len = true := memFresh_iff.2 fun m hm => memsApart_symm (hmem m hm)
  unfold fillSlot
  dsimp only
  rw [if_neg (by simp [handleFresh_iff.2 hh]), hseg]
  dsimp only
  rw [if_neg (by simp [hfresh])]
  rfl

/-- Step E4 with every slot filled (R200). -/
theorem fillSlots_given {bs : List (BufferDraw × Segment)} {draws : List (Option BufferDraw)} {done : List (Option RxBuffer)}
    (hslots : s.rxSlot = done ++ List.replicate bs.length none) (hd : draws.take bs.length = bs.map fun b => some b.1)
    (hseg : ∀ b ∈ bs, drawnSegment s.cfg b.1.regions = some b.2) (hn : (bs.map fun b => b.1.h).Nodup)
    (hh : ∀ b ∈ bs, b.1.h ∉ s.heldBuffers) (hap : (liveMems s ++ bs.map drawnMem).Pairwise memsApart) :
    fillSlots bs.length done.length draws s = .next ({ s with
      rxSlot := done ++ bs.map drawnSlot, heldBuffers := (bs.map fun b => b.1.h).reverse ++ s.heldBuffers
      history := s.history ++ bs.map fun b => .dmaPrepare (.buffer b.1.h) }, none) := by
  induction bs generalizing s draws done with
  | nil =>
    obtain rfl : s.rxSlot = done := by simpa using hslots
    simp only [List.map_nil, List.append_nil, List.reverse_nil, List.nil_append]
    rfl
  | cons b bs ih =>
    obtain ⟨x, draws, rfl⟩ : ∃ x xs, draws = x :: xs := by
      cases draws with
      | nil => simp at hd
      | cons x xs => exact ⟨x, xs, rfl⟩
    simp only [List.length_cons, List.take_succ_cons, List.map_cons, List.cons.injEq] at hd
    obtain ⟨rfl, hd⟩ := hd
    have hset : s.rxSlot.set done.length (drawnSlot b) = (done ++ [drawnSlot b]) ++ List.replicate bs.length none := by
      rw [hslots, List.length_cons, List.replicate_succ]
      simp
    have hone := fillSlot_given (s := s) (i := done.length) (hseg b List.mem_cons_self) (hh b List.mem_cons_self)
      fun m hm => (List.pairwise_append.1 hap).2.2 m hm _ List.mem_cons_self
    have hlive : liveMems { holdBuffer b.1.h s with rxSlot := s.rxSlot.set done.length (drawnSlot b) } =
        liveMems s ++ [drawnMem b] := by
      have hfill : ((done ++ [drawnSlot b]) ++ List.replicate bs.length none).filterMap (Option.map RxBuffer.mem) =
          s.rxSlot.filterMap (Option.map RxBuffer.mem) ++ [drawnMem b] := by
        rw [hslots]
        simp [drawnSlot]
      simp only [liveMems, hset, hfill]
      simp only [holdBuffer, List.append_assoc]
    have hrest := ih (s := { holdBuffer b.1.h s with rxSlot := s.rxSlot.set done.length (drawnSlot b) })
      (done := done ++ [drawnSlot b]) hset hd (fun x hx => hseg x (List.mem_cons_of_mem _ hx)) (List.nodup_cons.1 hn).2
      (fun x hx hmem => ?_) (by rw [hlive, List.append_assoc]; exact hap)
    · show andThen (fillSlot done.length (some b.1) s) _ = _
      rw [hone]
      rw [List.length_append] at hrest
      refine Eq.trans hrest ?_
      simp only [holdBuffer, List.append_assoc, List.singleton_append, List.map_cons, List.reverse_cons]
    · rcases List.mem_cons.1 hmem with he | hmem
      · exact (List.nodup_cons.1 hn).1 (List.mem_map.2 ⟨x, hx, he⟩)
      · exact hh x (List.mem_cons_of_mem _ hx) hmem

/-! ### Steps E1 to E4 -/

/-- What a disabled block has acquired when every allocation of ENABLE succeeds (R200). -/
def acquired (s : State) (tx rx st : Addr) (bufs : List (BufferDraw × Segment)) : State := { s with
  txMem := some ⟨tx, descSize * s.cfg.nTx, .prepared⟩, rxMem := some ⟨rx, descSize * s.cfg.nRx, .prepared⟩
  stMem := some ⟨st, s.cfg.statsSize, .prepared⟩
  rxSlot := bufs.map drawnSlot, heldBuffers := (bufs.map fun b => b.1.h).reverse
  history := s.history ++ [.dmaPrepare .txRing, .dmaPrepare .rxRing, .dmaPrepare .stats] ++
    bufs.map fun b => .dmaPrepare (.buffer b.1.h) }

/-- Every step up to E5 succeeds (R200). -/
theorem enableFrom_given {d : EnableDraws} {tx rx st : Addr} {bufs : List (BufferDraw × Segment)}
    (h : EnableTakes d s.cfg tx rx st bufs) (hlen : bufs.length = s.cfg.nRx) :
    enableFrom d (dropUnspecified s) = bringUp (acquired s tx rx st bufs) ∧
      Acquired d (dropUnspecified s) ⟨tx, descSize * s.cfg.nTx, .prepared⟩ ⟨rx, descSize * s.cfg.nRx, .prepared⟩
        ⟨st, s.cfg.statsSize, .prepared⟩ (acquired s tx rx st bufs) := by
  have htx := allocDma_of_gives h.txDraw
  have hrx := allocDma_of_gives h.rxDraw
  have hst := allocDma_of_gives h.stDraw
  obtain ⟨h1, h23⟩ := List.pairwise_cons.1 h.apart
  obtain ⟨h2, h3⟩ := List.pairwise_cons.1 h23
  have h12 := h1 _ List.mem_cons_self
  have h13 := h1 _ (List.mem_cons_of_mem _ List.mem_cons_self)
  have h23 := h2 _ List.mem_cons_self
  have hfill := fillSlots_given (s := { dropUnspecified s with
      txMem := some ⟨tx, descSize * s.cfg.nTx, .prepared⟩, rxMem := some ⟨rx, descSize * s.cfg.nRx, .prepared⟩
      stMem := some ⟨st, s.cfg.statsSize, .prepared⟩, rxSlot := List.replicate s.cfg.nRx none
      history := s.history ++ [.dmaPrepare .txRing, .dmaPrepare .rxRing, .dmaPrepare .stats] })
    (bs := bufs) (draws := d.bufs) (done := []) (by rw [hlen]; rfl) h.drawn (fun b hb => ?_) h.handles nofun ?_
  · rw [hlen] at hfill
    simp only [List.nil_append, dropUnspecified, List.append_nil] at hfill
    refine ⟨?_, ⟨htx, hrx, hst, by simp [h12, h13, h23], _, hfill⟩⟩
    have hrxLaw : ∀ u, liveMems u = [⟨tx, descSize * s.cfg.nTx, .prepared⟩] →
        dmaLawful u ⟨rx, descSize * s.cfg.nRx, .prepared⟩ = true := fun u hu =>
      memFresh_iff.2 fun m hm => by
        rw [hu, List.mem_singleton] at hm
        exact hm ▸ memsApart_symm h12
    have hstLaw : ∀ u, liveMems u = [⟨tx, descSize * s.cfg.nTx, .prepared⟩, ⟨rx, descSize * s.cfg.nRx, .prepared⟩] →
        dmaLawful u ⟨st, s.cfg.statsSize, .prepared⟩ = true := fun u hu =>
      memFresh_iff.2 fun m hm => by
        rw [hu, List.mem_pair] at hm
        rcases hm with rfl | rfl
        · exact memsApart_symm h13
        · exact memsApart_symm h23
    simp only [enableFrom, dropUnspecified, htx]
    simp only [enableRxRing, hrx]
    rw [if_neg (by rw [hrxLaw _ (by simp [liveMems])]; exact Bool.noConfusion)]
    simp only [enableStats, hst]
    rw [if_neg (by rw [hstLaw _ (by simp [liveMems])]; exact Bool.noConfusion)]
    simp only [enableBuffers, List.append_assoc, List.cons_append, List.nil_append]
    simp only [List.append_assoc, List.cons_append, List.nil_append, List.length_nil] at hfill
    rw [hfill]
    simp only [andThen_next, acquired, List.append_assoc, List.cons_append, List.nil_append]
  · obtain ⟨hok, hseg⟩ := h.segment b hb
    exact (drawnSegment_of_ok hok).trans hseg
  · have hlive : liveMems { dropUnspecified s with
        txMem := some ⟨tx, descSize * s.cfg.nTx, .prepared⟩, rxMem := some ⟨rx, descSize * s.cfg.nRx, .prepared⟩
        stMem := some ⟨st, s.cfg.statsSize, .prepared⟩, rxSlot := List.replicate s.cfg.nRx none
        history := s.history ++ [.dmaPrepare .txRing, .dmaPrepare .rxRing, .dmaPrepare .stats] } =
        [⟨tx, descSize * s.cfg.nTx, .prepared⟩, ⟨rx, descSize * s.cfg.nRx, .prepared⟩, ⟨st, s.cfg.statsSize, .prepared⟩] := by
      simp [liveMems]
    rw [hlive]
    exact h.apart

end Sys2Proof.Machine
end

section
/-! SUPPORT. O54: the state ENABLE leaves. -/

namespace Sys2Proof.Machine

-- One declaration at a time: each thread of the elaborator reserves a stack of its own.
set_option Elab.async false

variable {s t : State}

/-- RING.CLEAR_TX of a ring whose slots are empty frees nothing (R116). -/
theorem clearTxLoop_of_empty {k i : Nat} (hs : ∀ j, s.txPkt j = none) : ∃ mem l,
    clearTxLoop k i s = .next { s with mem := mem, history := s.history ++ l } ∧ ∀ e ∈ l, isRegAccess e = false := by
  induction k generalizing i s with
  | zero => exact ⟨s.mem, [], by rw [List.append_nil]; rfl, nofun⟩
  | succ k ih =>
    have hone : clearTxOne i s = .next (clearTxWords i s) := by
      rw [clearTxOne_eq, clearTxWords_eq]
      generalize (clearTxWords i s).mem = m
      generalize s.history ++ _ = hist
      have hslot : State.txPkt { s with mem := m, history := hist } i = none := hs i
      rw [hslot]
    obtain ⟨mem, l, hrun, hl⟩ := ih (i := i + 1) (s := clearTxWords i s) fun j => by
      rw [clearTxWords_eq]
      exact hs j
    refine ⟨mem, [.descWrite .tx i .opts1 ((eorBit s.cfg .tx i).setWidth 64),
      .descWrite .tx i .opts2 ((0#32).setWidth 64), .descWrite .tx i .addr 0#64] ++ l, ?_, fun e he => ?_⟩
    · show andThen (clearTxOne i s) _ = _
      rw [hone, andThen_next, hrun, clearTxWords_eq]
      simp only [List.append_assoc]
    · rcases List.mem_append.1 he with he | he
      · simp only [List.mem_cons, List.not_mem_nil, or_false] at he
        rcases he with rfl | rfl | rfl <;> rfl
      · exact hl e he

/-- Step E5 (R200). -/
theorem clearTx_emptied (s : State) : ∃ mem l, clearTx (emptied s) =
    .next (resetTxRegs { emptied s with mem := mem, history := s.history ++ l }) ∧ ∀ e ∈ l, isRegAccess e = false := by
  obtain ⟨mem, l, hrun, hl⟩ := clearTxLoop_of_empty (s := emptied s) (k := s.cfg.nTx) (i := 0)
    fun j => getD_replicate_none s.cfg.nTx j
  refine ⟨mem, l, ?_, hl⟩
  show andThen (clearTxLoop s.cfg.nTx 0 (emptied s)) _ = _
  rw [hrun]
  rfl

/-- ENABLE from step E5 on goes through; what it records before the NIC's reset touches no register (R200). -/
theorem bringUp_completes (s : State) : ∃ t l freeCount kept, bringUp s = .next t ∧ (∀ e ∈ l, isRegAccess e = false) ∧
    t = { s with
      mem := t.mem, history := s.history ++ l ++ upEvents s, nicSeen := [], freeCount := freeCount
      txSlot := List.replicate s.cfg.nTx none, txPending := none, txNext := 0, txDirty := 0
      txFree := s.cfg.nTx, txStalled := false, txDoneCount := 0, txDoneLast := 0, deadlockWarn := 0
      txUnsubmitted := [], rxIndex := 0, link := ⟨false, s.link.params⟩, txqEnabled := false
      statsPending := false, enabled := true, everEnabled := true, timerOn := true
      ctrResourceErrors := if s.everEnabled then s.ctrResourceErrors else 0
      ctrFrameTooLong := if s.everEnabled then s.ctrFrameTooLong else 0
      ctrTimeouts := if s.everEnabled then s.ctrTimeouts else 0
      ctrResets := if s.everEnabled then s.ctrResets else 0
      ctrTxDrops := if s.everEnabled then s.ctrTxDrops else 0
      irqPending := ⟨false, false, false, false⟩, nicTxBusy := none
      regs := ⟨allCauses s.cfg.reg, s.base .tx, s.base .rx, if s.cfg.reg.statsAtInit then statsAddr s else kept⟩
      result := .ok } := by
  obtain ⟨mem, l, hrun, hl⟩ := clearTx_emptied s
  obtain ⟨l', hl', hq⟩ := clearRx_history (resetTxRegs { emptied s with mem := mem, history := s.history ++ l })
  obtain ⟨mem', hist, hrx⟩ := clearRx_shape (resetTxRegs { emptied s with mem := mem, history := s.history ++ l })
  refine ⟨_, l ++ l', s.freeCount + 3, Config.freeReg (s.freeCount + 2), by rw [bringUp_eq, hrun]; rfl, fun e he => ?_, ?_⟩
  · rcases List.mem_append.1 he with he | he
    · exact hl e he
    · exact regAccess_quiet (fun e he => (hq e he).1) e he
  · have hhist : hist = s.history ++ (l ++ l') := by
      rw [hrx] at hl'
      rw [← List.append_assoc]
      exact hl'
    rw [hrx, finishUp_eq, hhist]
    rfl

theorem execEnable_of_acting {d : EnableDraws} (ha : Acting .host s) (hoff : s.enabled = false)
    (hok : bufsOk s.cfg d = true) : exec (.enable d) s = enableFrom d (dropUnspecified s) := by
  have hpre : precheck [.host] .always s = none := precheck_eq_none.2 ⟨by simp [ha.caller], ha.cfg, trivial⟩
  show execEnable d s = _
  rw [execEnable, guarded_ok hpre ha.overlaps, if_neg (by simp [hoff]), if_neg (by simp [hok])]

theorem isRegAccess_acquired {bufs : List (BufferDraw × Segment)} :
    ∀ e ∈ [Event.dmaPrepare .txRing, .dmaPrepare .rxRing, .dmaPrepare .stats] ++
      bufs.map (fun b => .dmaPrepare (.buffer b.1.h)), isRegAccess e = false := by
  intro e he
  rcases List.mem_append.1 he with he | he
  · simp only [List.mem_cons, List.not_mem_nil, or_false] at he
    rcases he with rfl | rfl | rfl <;> rfl
  · obtain ⟨b, -, rfl⟩ := List.mem_map.1 he
    rfl

/-- Settles O54: the three memories and the buffers are acquired, then both rings are cleared and the NIC reset and told
the bases. -/
theorem enableEstablishesTheResetValues : Obligations.EnableEstablishesTheResetValues := by
  intro d tx rx st bufs s ha hoff hw htakes hlen
  have hbufs : bufsOk s.cfg d = true := bufsOk_iff.2 fun b hb => by
    rw [← hlen, htakes.drawn] at hb
    obtain ⟨x, hx, he⟩ := List.mem_map.1 hb
    cases he
    exact (htakes.segment x hx).1
  obtain ⟨hrun, hgot⟩ := enableFrom_given htakes hlen
  obtain ⟨htx, hrx, -⟩ := Acquired.usable (s := dropUnspecified s) ha.cfg hgot
  obtain ⟨t, l, n, kept, hup, hl, ht⟩ := bringUp_completes (acquired s tx rx st bufs)
  obtain ⟨hst, hclr, harm, hbytes⟩ := bringUp_effect (s := acquired s tx rx st bufs) ha.cfg hw hgot.sites htx hrx hup
  refine ⟨t, [.dmaPrepare .txRing, .dmaPrepare .rxRing, .dmaPrepare .stats] ++
    bufs.map (fun b => .dmaPrepare (.buffer b.1.h)) ++ l, ?_, hclr, harm, fun a h1 h2 => ?_, ?_, fun e he => ?_, ?_⟩
  · rw [execEnable_of_acting ha hoff hbufs, hrun, hup]
  · exact hbytes a (by rwa [hst.inRing] at h1) (by rwa [hst.inRing] at h2)
  · rw [ht]
    simp only [acquired, upEvents, List.append_assoc]
    rfl
  · rcases List.mem_append.1 he with he | he
    · exact isRegAccess_acquired e he
    · exact hl e he
  · have hhist : t.history = (acquired s tx rx st bufs).history ++ l ++ upEvents (acquired s tx rx st bufs) := by rw [ht]
    have hcount : t.freeCount = n := by rw [ht]
    have hkept : t.regs.statsBase = if s.cfg.reg.statsAtInit then st else kept := by rw [ht]; rfl
    have hbase : (if s.cfg.reg.statsAtInit then st else t.regs.statsBase) = if s.cfg.reg.statsAtInit then st else kept := by
      rw [hkept]
      split <;> rfl
    rw [hhist, hcount, hbase]
    exact ht.trans rfl

end Sys2Proof.Machine
end

section
/-! SUPPORT. O15, O21: what a part of a step records, its stores to `opts1` and the error causes it counts. -/

namespace Sys2Proof.Machine

-- One declaration at a time: each thread of the elaborator reserves a stack of its own.
set_option Elab.async false

/-! ### The causes a history records and the counters -/

/-- A cause that one of the five counters counts (R30, R238). -/
def isCounted : ErrCause → Bool
  | .resourceExhaustion => true
  | .rxFragmented => true
  | .missedInterrupt => true
  | .txDeadlock => true
  | .busError => true
  | .unsupportedOffload => true
  | .tooManySegments => true
  | _ => false

/-- The counted causes among the events, in order. -/
def countedIn (l : List Event) : List ErrCause :=
  l.filterMap fun e => match e with
    | .raised c => if isCounted c then some c else none
    | _ => none

/-- The five counters, in the order of R30. -/
def counters (s : State) : Nat × Nat × Nat × Nat × Nat :=
  (s.ctrResourceErrors, s.ctrFrameTooLong, s.ctrTimeouts, s.ctrResets, s.ctrTxDrops)

/-- The counters once the causes are counted (R238). -/
def bump (c : Cfg) (l : List ErrCause) (x : Nat × Nat × Nat × Nat × Nat) : Nat × Nat × Nat × Nat × Nat :=
  (counted c x.1 (l.count .resourceExhaustion), counted c x.2.1 (l.count .rxFragmented),
    counted c x.2.2.1 (l.count .missedInterrupt), counted c x.2.2.2.1 (l.count .txDeadlock + l.count .busError),
    counted c x.2.2.2.2 (l.count .unsupportedOffload + l.count .tooManySegments))

/-- An event that is neither a store to `opts1` nor a counted cause. -/
def plainEvent : Event → Bool
  | .descWrite _ _ .opts1 _ => false
  | .raised c => !isCounted c
  | _ => true

section
variable {c : Cfg} {l m : List Event}

theorem counted_counted (x a b : Nat) : counted c (counted c x a) b = counted c x (a + b) := by
  unfold counted
  by_cases ha : a = 0
  · rw [if_pos ha, ha, Nat.zero_add]
  · by_cases hb : b = 0
    · rw [if_pos hb, if_neg ha, hb, Nat.add_zero, if_neg ha]
    · rw [if_neg hb, if_neg ha, if_neg (by omega), Nat.mod_add_mod, Nat.add_assoc]

theorem bump_bump (a b : List ErrCause) (x : Nat × Nat × Nat × Nat × Nat) : bump c b (bump c a x) = bump c (a ++ b) x := by
  simp only [bump, counted_counted, List.count_append]
  simp only [Nat.add_add_add_comm]

theorem countedIn_append : countedIn (l ++ m) = countedIn l ++ countedIn m := List.filterMap_append ..

theorem countedIn_of_plain (h : l.all plainEvent = true) : countedIn l = [] := by
  refine List.filterMap_eq_nil_iff.2 fun e he => ?_
  have hp := List.all_eq_true.1 h e he
  cases e
  case raised c => simpa [plainEvent] using hp
  all_goals rfl

theorem storeKeepsRingEnd_of_plain {e : Event} (h : plainEvent e = true) : storeKeepsRingEnd c e = true := by
  cases e
  case descWrite ring i f v =>
    cases f
    case opts1 => cases h
    all_goals rfl
  all_goals rfl

theorem count_raised {k : ErrCause} (hk : isCounted k = true) : l.count (.raised k) = (countedIn l).count k := by
  induction l with
  | nil => rfl
  | cons e l ih =>
    rw [← List.singleton_append, countedIn_append, List.count_append, List.count_append, ih]
    congr 1
    cases e
    case raised c =>
      by_cases hc : c = k
      · subst hc
        simp [countedIn, hk]
      · have hne : (Event.raised c == Event.raised k) = false := by simpa using hc
        cases hq : isCounted c <;> simp [countedIn, hq, hc]
    all_goals simp [countedIn]

end

/-! ### What a part of a step raises -/

/-- From `s` to `t` the history grows, its counted causes are `l`, every store to `opts1` it records keeps the ring end,
and the counters have counted `l`; `ok`: so much is asked of them. -/
structure Raises (ok : Prop) (l : List ErrCause) (s t : State) : Prop where
  cfg  : t.cfg = s.cfg
  log  : ∃ m, t.history = s.history ++ m ∧ countedIn m = l ∧
    (cfgWf s.cfg = true → ∀ e ∈ m, storeKeepsRingEnd s.cfg e = true)
  ctrs : ok → counters t = bump s.cfg l (counters s)

/-- Nothing is raised that a counter counts. -/
abbrev Calm (ok : Prop) (s t : State) : Prop := Raises ok [] s t

/-- At most one cause is, one of `l`. -/
def MayRaise (ok : Prop) (l : List ErrCause) (s t : State) : Prop :=
  ∃ m, (m = [] ∨ ∃ c ∈ l, m = [c]) ∧ Raises ok m s t

section
variable {ok : Prop} {l m : List ErrCause} {s t u : State}

theorem Raises.refl (s : State) : Calm ok s s := ⟨rfl, ⟨[], (List.append_nil _).symm, rfl, fun _ => nofun⟩, fun _ => rfl⟩

theorem Raises.trans (h : Raises ok l s t) (k : Raises ok m t u) : Raises ok (l ++ m) s u := by
  obtain ⟨hc, ⟨a, ha, hla, hsa⟩, hk⟩ := h
  obtain ⟨kc, ⟨b, hb, hlb, hsb⟩, kk⟩ := k
  refine ⟨kc.trans hc, ⟨a ++ b, by rw [hb, ha, List.append_assoc], by rw [countedIn_append, hla, hlb], fun hw e he => ?_⟩,
    fun h => ?_⟩
  · rcases List.mem_append.1 he with he | he
    · exact hsa hw e he
    · rw [← hc]
      exact hsb (by rw [hc]; exact hw) e he
  · rw [kk h, hk h, hc, bump_bump]

/-- Other fields change. -/
theorem Raises.congr (h : Raises ok l s t) (hc : u.cfg = t.cfg := by simp) (hh : u.history = t.history := by simp)
    (hk : counters u = counters t := by simp [counters]) : Raises ok l s u :=
  ⟨hc.trans h.cfg, by rw [hh]; exact h.log, fun hok => hk.trans (h.ctrs hok)⟩

theorem Raises.withResult (h : Raises ok l s t) (r : Result) : Raises ok l s (t.withResult r) := ⟨h.cfg, h.log, h.ctrs⟩

/-- Stores that keep the ring end and nothing that is counted. -/
theorem Raises.stores {k : List Event} (h : Raises ok l s t) (hl : countedIn k = [])
    (hs : cfgWf s.cfg = true → ∀ e ∈ k, storeKeepsRingEnd s.cfg e = true) (hc : u.cfg = t.cfg := by simp)
    (hh : u.history = t.history ++ k := by simp) (hk : counters u = counters t := by simp [counters]) : Raises ok l s u := by
  obtain ⟨hcfg, ⟨a, ha, hla, hsa⟩, hctr⟩ := h
  refine ⟨hc.trans hcfg, ⟨a ++ k, by rw [hh, ha, List.append_assoc], by rw [countedIn_append, hl, List.append_nil, hla],
    fun hw e he => ?_⟩, fun hok => hk.trans (hctr hok)⟩
  rcases List.mem_append.1 he with he | he
  · exact hsa hw e he
  · exact hs hw e he

/-- Events that are neither. -/
theorem Raises.append {k : List Event} (h : Raises ok l s t) (hl : k.all plainEvent = true) (hc : u.cfg = t.cfg := by simp)
    (hh : u.history = t.history ++ k := by simp) (hk : counters u = counters t := by simp [counters]) : Raises ok l s u :=
  h.stores (countedIn_of_plain hl) (fun _ e he => storeKeepsRingEnd_of_plain (List.all_eq_true.1 hl e he)) hc hh hk

theorem Raises.thenAnswers {x : Out State} (h : Calm ok s t) (hx : Answers (Raises ok l t) x) :
    Answers (Raises ok l s) x := hx.imp fun _ _ k => h.trans k

theorem Raises.thenFirst {α : Type} {x : Out (State × α)} (h : Calm ok s t)
    (hx : Answers (fun r => Raises ok l t r.1) x) : Answers (fun r => Raises ok l s r.1) x := hx.imp fun _ _ k => h.trans k

theorem Raises.may (h : Calm ok s t) : MayRaise ok l s t := ⟨[], .inl rfl, h⟩

theorem MayRaise.of_one {c : ErrCause} (h : Raises ok [c] s t) (hc : c ∈ l) : MayRaise ok l s t :=
  ⟨[c], .inr ⟨c, hc, rfl⟩, h⟩

theorem MayRaise.after (h : MayRaise ok l s t) (k : Calm ok t u) : MayRaise ok l s u := by
  obtain ⟨m, hm, h⟩ := h
  exact ⟨m, hm, by simpa using h.trans k⟩

theorem MayRaise.before (h : Calm ok s t) (k : MayRaise ok l t u) : MayRaise ok l s u := by
  obtain ⟨m, hm, k⟩ := k
  exact ⟨m, hm, h.trans k⟩

theorem MayRaise.congr (h : MayRaise ok l s t) (hc : u.cfg = t.cfg := by simp) (hh : u.history = t.history := by simp)
    (hk : counters u = counters t := by simp [counters]) : MayRaise ok l s u := by
  obtain ⟨m, hm, h⟩ := h
  exact ⟨m, hm, h.congr hc hh hk⟩

theorem MayRaise.withResult (h : MayRaise ok l s t) (r : Result) : MayRaise ok l s (t.withResult r) := by
  obtain ⟨m, hm, h⟩ := h
  exact ⟨m, hm, h.withResult r⟩

/-- One counted cause, raised and counted. -/
theorem raises_raise {c : ErrCause} (hc : isCounted c = true) (hcfg : t.cfg = s.cfg)
    (hh : t.history = s.history ++ [.raised c]) (hk : counters t = bump s.cfg [c] (counters s)) : Raises ok [c] s t := by
  refine ⟨hcfg, ⟨[.raised c], hh, ?_, fun _ e he => ?_⟩, fun _ => hk⟩
  · simp [countedIn, hc]
  · rw [List.mem_singleton.1 he]
    rfl

/-! ### Descriptor stores and ring clears -/

theorem countedIn_writeEvents (c : Cfg) (ring : Ring) (i : Nat) (seg : Segment) (flags1 flags2 : Word) (own : Bool) :
    countedIn (writeEvents c ring i seg flags1 flags2 own) = [] := by cases own <;> rfl

/-- A word of the engine's, as the history records it. -/
theorem storeKeepsRingEnd_opts1 {c : Cfg} {ring : Ring} {i : Nat} {w : Word}
    (h : flag w c.layout.eor = decide (i + 1 = ringSize c ring)) (hl : layoutWf c.layout = true) :
    storeKeepsRingEnd c (.descWrite ring i .opts1 (w.setWidth 64)) = true := by
  rw [storeKeepsRingEnd, beq_iff_eq, BitVec.getLsbD_setWidth, ← h, decide_eq_true (by have := eor_lt hl; omega), Bool.true_and]
  rfl

/-- The stores of a descriptor write keep the ring end (R19, R112, R269). -/
theorem storeKeepsRingEnd_writeEvents {c : Cfg} {ring : Ring} {i : Nat} {seg : Segment} {flags1 flags2 : Word} {own : Bool}
    (hl : layoutWf c.layout = true) (hf : NoEor c flags1) (hlen : seg.len ≤ maxOf (lenField c ring).w) :
    ∀ e ∈ writeEvents c ring i seg flags1 flags2 own, storeKeepsRingEnd c e = true := by
  intro e he
  simp only [writeEvents, List.mem_append, List.mem_cons, List.not_mem_nil, or_false] at he
  rcases he with (rfl | rfl | rfl | rfl) | he
  · rfl
  · exact storeKeepsRingEnd_opts1 (flag_opts1Word hl noEor_zero hlen) hl
  · rfl
  · exact storeKeepsRingEnd_opts1 (flag_opts1Word hl hf hlen) hl
  · split at he
    · simp only [List.mem_cons, List.not_mem_nil, or_false] at he
      rcases he with rfl | rfl
      · rfl
      · exact storeKeepsRingEnd_opts1 (flag_ownedWord hl hf hlen) hl
    · cases he

theorem writeDesc_calm {ring : Ring} {i : Nat} {seg : Segment} {flags1 flags2 : Word} {own : Bool}
    (hf : cfgWf s.cfg = true → NoEor s.cfg flags1) (hlen : cfgWf s.cfg = true → seg.len ≤ maxOf (lenField s.cfg ring).w) :
    Calm ok s (writeDesc ring i seg flags1 flags2 own s) :=
  (Raises.refl s).stores (countedIn_writeEvents ..)
    (fun hc => storeKeepsRingEnd_writeEvents (cfgOk hc).layout (hf hc) (hlen hc)) (by simp) (writeDesc_history ..)

theorem rearm_calm (i : Nat) (s : State) : Calm ok s (rearm i s) :=
  writeDesc_calm (fun _ => noEor_zero) fun hc => (cfgOk hc).bufFits

theorem clearRxLoop_calm (k i : Nat) (s : State) : Calm ok s (clearRxLoop k i s) := by
  induction k generalizing i s with
  | zero => exact .refl s
  | succ k ih => exact (rearm_calm i s).trans (ih (i + 1) (rearm i s))

theorem clearRx_calm (s : State) : Calm ok s (clearRx s) := (clearRxLoop_calm s.cfg.nRx 0 s).congr rfl rfl rfl

theorem clearTxWords_calm (i : Nat) (s : State) : Calm ok s (clearTxWords i s) := by
  have he := clearTxWords_eq i s
  refine (Raises.refl s).stores (k := [.descWrite .tx i .opts1 ((eorBit s.cfg .tx i).setWidth 64),
    .descWrite .tx i .opts2 ((0#32).setWidth 64), .descWrite .tx i .addr 0#64]) rfl (fun hc e hm => ?_) (by rw [he])
    (by rw [he]) (by rw [he]; rfl)
  have hl := (cfgOk hc).layout
  simp only [List.mem_cons, List.not_mem_nil, or_false] at hm
  rcases hm with rfl | rfl | rfl
  · exact storeKeepsRingEnd_opts1 (flag_eorBit hl .tx i) hl
  · rfl
  · rfl

end

end Sys2Proof.Machine
end

section
/-! SUPPORT. O15, O21: what each part of a step raises. -/

namespace Sys2Proof.Machine

-- One declaration at a time: each thread of the elaborator reserves a stack of its own.
set_option Elab.async false

section
variable {ok : Prop} {s t : State}

/-! ### Frees and ring clears -/

theorem plain_freeEvents (s : State) (h : Handle) : (freeEvents s h).all plainEvent = true := by
  unfold freeEvents
  split <;> rfl

theorem freePacket_calm (h : Handle) (s : State) : Answers (Calm ok s) (freePacket h s) := by
  by_cases hh : s.holdsPacket h = true
  · rw [freePacket_held hh]
    exact (Raises.refl s).append (plain_freeEvents s h)
  · rw [freePacket, if_neg hh]
    exact .fault _

theorem freeSentOpt_calm (o : Option Handle) (s : State) : Answers (Calm ok s) (freeSentOpt o s) := by
  cases o with
  | none => exact Raises.refl s
  | some h =>
    rw [freeSentOpt_some, freeSent]
    split
    · exact .fault _
    · exact freePacket_calm h s

theorem freeBuffer_calm (h : Handle) (s : State) : Answers (Calm ok s) (freeBuffer h s) := by
  unfold freeBuffer
  split
  · exact (Raises.refl s).append (k := [.dmaComplete (.buffer h), .freeBuffer h]) rfl
  · exact .fault _

theorem freeTxMem_calm (s : State) : Answers (Calm ok s) (freeTxMem s) := by
  unfold freeTxMem
  split
  · exact (Raises.refl s).append (k := [.dmaComplete .txRing, .freeDma .txRing]) rfl
  · exact .fault _

theorem freeRxMem_calm (s : State) : Answers (Calm ok s) (freeRxMem s) := by
  unfold freeRxMem
  split
  · exact (Raises.refl s).append (k := [.dmaComplete .rxRing, .freeDma .rxRing]) rfl
  · exact .fault _

theorem freeStMem_calm (s : State) : Answers (Calm ok s) (freeStMem s) := by
  unfold freeStMem
  split
  · exact (Raises.refl s).append (k := [.dmaComplete .stats, .freeDma .stats]) rfl
  · exact .fault _

theorem freeSlots_calm (n : Nat) (s : State) : Answers (Calm ok s) (freeSlots n s) := by
  induction n generalizing s with
  | zero => exact Raises.refl s
  | succ n ih =>
    unfold freeSlots
    split
    · exact (freeBuffer_calm _ s).andThen fun t _ ht => Raises.thenAnswers ht.congr (ih _)
    · exact .fault _

theorem freeMems_calm (s : State) : Answers (Calm ok s) (freeMems s) :=
  (freeStMem_calm s).andThen fun t _ ht => (ht.thenAnswers (freeRxMem_calm t)).andThen fun u _ hu =>
    hu.thenAnswers (freeTxMem_calm u)

theorem clearTxOne_calm (i : Nat) (s : State) : Answers (Calm ok s) (clearTxOne i s) := by
  have hw : Calm ok s (clearTxWords i s) := clearTxWords_calm i s
  rw [clearTxOne_eq]
  split
  · rename_i h _
    exact (hw.thenAnswers (freeSentOpt_calm (some h) _)).andThen fun t _ ht => .next ht.congr
  · exact hw

theorem clearTxLoop_calm (k i : Nat) (s : State) : Answers (Calm ok s) (clearTxLoop k i s) := by
  induction k generalizing i s with
  | zero => exact Raises.refl s
  | succ k ih => exact (clearTxOne_calm i s).andThen fun t _ ht => ht.thenAnswers (ih (i + 1) t)

theorem clearTx_calm (s : State) : Answers (Calm ok s) (clearTx s) :=
  (clearTxLoop_calm _ _ s).andThen fun t _ ht =>
    (ht.thenAnswers (freeSentOpt_calm t.txPending t)).andThen fun u _ hu => .next hu.congr

/-! ### Registers, the resets, the queue -/

theorem plain_halves (r : RegMap) (off : Nat) (v : BitVec 64) : (halves r off v).all plainEvent = true := by
  unfold halves
  split <;> rfl

theorem writeStatsBase_calm (v : BitVec 64) (s : State) : Calm ok s (writeStatsBase v s) :=
  (Raises.refl s).append (plain_halves s.cfg.reg s.cfg.reg.statsBase v)

theorem nicReset_calm (s : State) : Calm ok s (nicReset s) := (Raises.refl s).append (k := [.nicReset]) rfl

theorem resumeQueue_calm (s : State) : Calm ok s (resumeQueue s) := (Raises.refl s).append (k := [.resumeQueue]) rfl

theorem flushQueue_calm (s : State) : Calm ok s (flushQueue s) := (Raises.refl s).append (k := [.stopAndFlushQueue]) rfl

theorem reinitRegs_calm (s : State) : Calm ok s (reinitRegs s) := by
  rw [reinitRegs_eq]
  refine Raises.append (t := s) (k := _) (.refl s) ?_ rfl rfl rfl
  have hopt : (if s.cfg.reg.statsAtInit then halves s.cfg.reg s.cfg.reg.statsBase (statsBase s) else []).all plainEvent = true := by
    split
    · exact plain_halves ..
    · rfl
  simp only [List.cons_append, List.all_cons, List.all_append, plain_halves, hopt]
  rfl

theorem finishReset_calm (s : State) : Calm ok s (finishReset s) := by
  have h : Calm ok s (reinitRegs { s with statsPending := false }) :=
    Raises.trans (t := { s with statsPending := false }) (Raises.refl s).congr (reinitRegs_calm _)
  unfold finishReset
  dsimp only
  split
  · exact h.trans (resumeQueue_calm _)
  · exact h

theorem fullReset_calm (s : State) : Answers (Calm ok s) (fullReset s) := by
  rw [fullReset_eq]
  exact Raises.thenAnswers ((flushQueue_calm s).trans (nicReset_calm _)) ((clearTx_calm _).andThen fun t _ ht =>
    .next ((ht.trans (clearRx_calm t)).trans (finishReset_calm _)))

/-! ### Transmit -/

theorem visitTx_calm (i : Nat) (s : State) : Answers (Calm ok s) (visitTx i s) := by
  refine (freeSentOpt_calm (ok := ok) s.txPending s).andThen fun t _ ht => ?_
  dsimp only
  split
  · exact .next ht.congr
  · exact .next ht.congr

theorem reclaimOne_calm {visit : Nat → State → Out State} (hv : ∀ i s, Answers (Calm ok s) (visit i s))
    (s : State) : Answers (fun r => Calm ok s r.1) (reclaimOne visit s) := by
  have hread : Calm ok s (s.noteRead .tx s.txDirty .opts1) :=
    (Raises.refl s).append (k := [.descRead .tx s.txDirty .opts1]) rfl
  unfold reclaimOne
  dsimp only
  split
  · exact hread
  · have hacq : Calm ok s ((s.noteRead .tx s.txDirty .opts1).emit .acquire) := hread.append (k := [.acquire]) rfl
    exact (hacq.thenAnswers (hv _ _)).andThen fun t _ ht => .next ht.congr

theorem reclaimLoop_calm (k : Nat) (done : List Nat) (s : State) :
    Answers (fun r => Calm ok s r.1) (reclaimLoop k done s) := by
  induction k generalizing done s with
  | zero => exact Raises.refl s
  | succ k ih =>
    refine (reclaimOne_calm (ok := ok) (fun _ s => .next (.refl s)) s).andThen fun r _ hr => ?_
    split
    · exact hr.thenFirst (ih _ _)
    · exact hr

theorem endTxPass_calm (old : Nat) (s : State) : Calm ok s (endTxPass old s) := by
  rw [endTxPass_eq]
  refine (Raises.refl s).append (k := endEvents old s) ?_
  unfold endEvents
  split <;> split <;> rfl

theorem txScan_calm (k old : Nat) (s : State) : Answers (Calm ok s) (txScan k old s) := by
  cases k with
  | zero => exact endTxPass_calm old s
  | succ k =>
    refine (reclaimOne_calm (ok := ok) visitTx_calm s).andThen fun r _ hr => .next ?_
    split
    · exact hr.congr
    · exact hr.trans (endTxPass_calm old r.1)

theorem ringDoorbell_calm (s : State) : Calm ok s (ringDoorbell s) :=
  (Raises.refl s).append (k := [.doorbell s.cfg.reg.txDoorbell s.cfg.reg.doorbellValue]) rfl

/-- What TX.SUBMIT asks of the packet it writes, for its stores to keep the ring end. -/
def PacketFits (c : Cfg) (cmd : Cmd) (segs : List Segment) : Prop :=
  cfgWf c = true → NoEor c cmd.cmd1 ∧ ∀ x ∈ segs, x.len ≤ maxOf (lenField c .tx).w

theorem writePacket_calm {first n : Nat} {cmd : Cmd} {vlan : Option Half} (j : Nat) {segs : List Segment} {s : State}
    (hp : PacketFits s.cfg cmd segs) : Calm ok s (writePacket first n cmd vlan j segs s) := by
  induction segs generalizing j s with
  | nil => exact .refl s
  | cons seg segs ih =>
    rw [writePacket]
    have hone : Calm ok s (writeDesc .tx (txIdx s.cfg first j) seg (packetFlags1 s.cfg cmd j n)
        (packetFlags2 s.cfg cmd vlan) (j != 0) s) :=
      writeDesc_calm (fun hc => noEor_packetFlags1 (cfgOk hc).layout (hp hc).1 j n) fun hc =>
        (hp hc).2 seg List.mem_cons_self
    refine hone.trans (ih (j + 1) ?_)
    rw [hone.cfg]
    exact fun hc => ⟨(hp hc).1, fun x hx => (hp hc).2 x (List.mem_cons_of_mem _ hx)⟩

theorem ownFirst_calm {first len : Nat} {flags1 : Word} (hf : cfgWf s.cfg = true → NoEor s.cfg flags1)
    (hlen : cfgWf s.cfg = true → len ≤ maxOf (lenField s.cfg .tx).w) : Calm ok s (ownFirst first flags1 len s) := by
  refine (Raises.refl s).stores (k := [.release,
    .descWrite .tx first .opts1 ((ownedWord s.cfg .tx first flags1 len).setWidth 64)]) rfl (fun hc e he => ?_) rfl
    (by simp [ownFirst]) rfl
  have hl := (cfgOk hc).layout
  simp only [List.mem_cons, List.not_mem_nil, or_false] at he
  rcases he with rfl | rfl
  · rfl
  · exact storeKeepsRingEnd_opts1 (flag_ownedWord hl (hf hc) (hlen hc)) hl

theorem submitSegs_calm {h : Handle} {seg0 : Segment} {segs : List Segment} {cmd : Cmd} {vlan : Option Half}
    (hp : PacketFits s.cfg cmd (seg0 :: segs)) : Calm ok s (submitSegs h seg0 segs cmd vlan s) := by
  have h1 : Calm ok s (writePacket s.txNext (segs.length + 1) cmd vlan 0 (seg0 :: segs) (takeDescs (segs.length + 1) s)) :=
    Raises.trans (t := takeDescs (segs.length + 1) s) (Raises.refl s).congr (writePacket_calm 0 hp)
  generalize hw : writePacket _ _ _ _ _ _ _ = w at h1
  unfold submitSegs
  dsimp only
  rw [hw]
  have h2 : Calm ok s (storeSlot (txIdx s.cfg s.txNext (segs.length + 1 - 1)) h w) :=
    h1.append (k := [.slotStore (txIdx s.cfg s.txNext (segs.length + 1 - 1)) h]) rfl
  have h3 := h2.trans (ownFirst_calm (ok := ok) (s := storeSlot (txIdx s.cfg s.txNext (segs.length + 1 - 1)) h w)
    (first := s.txNext) (flags1 := packetFlags1 s.cfg cmd 0 (segs.length + 1)) (len := seg0.len)
    (by rw [h2.cfg]; exact fun hc => noEor_packetFlags1 (cfgOk hc).layout (hp hc).1 _ _)
    (by rw [h2.cfg]; exact fun hc => (hp hc).2 seg0 List.mem_cons_self))
  generalize ownFirst _ _ _ _ = o at h3 ⊢
  exact Raises.trans (t := submitRange s.txNext (segs.length + 1) o) (h3.congr rfl rfl rfl) (ringDoorbell_calm _)

theorem preparePacket_calm (h : Handle) (s : State) : Calm ok s (preparePacket h s) :=
  (Raises.refl s).append (k := [.dmaPrepare (.packet h)]) rfl

theorem completePacket_calm (h : Handle) (s : State) : Calm ok s (completePacket h s) := by
  unfold completePacket
  split
  · exact (Raises.refl s).append (k := [.dmaComplete (.packet h)]) rfl
  · exact .refl s

/-- `drop_config` counts and raises its cause (R146). -/
theorem dropConfig_raises {c : ErrCause} (hc : c = .tooManySegments ∨ c = .unsupportedOffload) (h : Handle) (s : State) :
    Answers (Raises ok [c] s) (dropConfig c h s) := by
  have h1 : Raises ok [c] s (countTxDrops (s.raise c)) := by
    rcases hc with rfl | rfl
    · exact raises_raise rfl rfl rfl rfl
    · exact raises_raise rfl rfl rfl rfl
  exact ((freePacket_calm h (countTxDrops (s.raise c))).imp fun t _ ht => h1.trans ht).andThen fun t _ ht => .next ht.congr

theorem stallSubmit_calm (h : Handle) (s : State) : Calm ok s (stallSubmit h s) := by
  have h1 : Calm ok s { s.raise .backpressure with txStalled := true } :=
    (Raises.refl s).append (k := [.raised .backpressure]) rfl
  exact (h1.trans (completePacket_calm h _)).congr (u := stallSubmit h s) rfl rfl rfl

/-- TX.SUBMIT once the engine holds the packet (R145, R146). -/
theorem submitHeld_raises {p : Packet} {s : State} (hr : regionsOk s.cfg p.regions = true) :
    Answers (MayRaise ok [.unsupportedOffload, .tooManySegments] s) (submitHeld p s) := by
  have hp : Calm ok s (preparePacket p.h s) := preparePacket_calm p.h s
  have hdrop : ∀ {c : ErrCause}, c = .tooManySegments ∨ c = .unsupportedOffload → Answers
      (MayRaise ok [.unsupportedOffload, .tooManySegments] s) (dropConfig c p.h (preparePacket p.h s)) := fun hc =>
    (dropConfig_raises hc p.h _).imp fun t _ ht => .of_one (hp.trans ht) (by rcases hc with rfl | rfl <;> simp)
  unfold submitHeld
  split
  · have h0 : Calm ok s (s.raise .linkDownDrop) := (Raises.refl s).append (k := [.raised .linkDownDrop]) rfl
    exact (h0.thenAnswers (freePacket_calm p.h _)).andThen fun t _ ht => .next (Raises.may ht.congr)
  · dsimp only
    split
    · exact hdrop (.inl rfl)
    · exact hdrop (.inl rfl)
    · rename_i seg0 segs hseg
      split
      · exact hdrop (.inr rfl)
      · rename_i cmd hcmd
        split
        · exact .next (hp.trans (stallSubmit_calm p.h _)).may
        · have hfits : PacketFits s.cfg cmd (seg0 :: segs) := fun hc => ?_
          · exact .next ((hp.trans (submitSegs_calm (s := preparePacket p.h s) hfits)).withResult _).may
          exact ⟨noEor_command (cfgOk hc).layout hcmd, fun x hx => (segmentTx_in hr hseg x hx).2.2⟩

end

section
variable {ok : Prop} {s t : State}

/-! ### Receive -/

/-- The causes a receive pass may count (R168, R170, R238). -/
abbrev rxCauses : List ErrCause := [.resourceExhaustion, .rxFragmented]

theorem acquisitionFailed_raises (s : State) : Raises ok [.resourceExhaustion] s (acquisitionFailed s) :=
  raises_raise rfl rfl rfl rfl

theorem dropFragment_raises (s : State) : Raises ok [.rxFragmented] s (dropFragment s) := raises_raise rfl rfl rfl rfl

theorem holdBuffer_calm (h : Handle) (s : State) : Calm ok s (holdBuffer h s) :=
  (Raises.refl s).append (k := [.dmaPrepare (.buffer h)]) rfl

theorem acquire_raises (i : Nat) (a : Acquisition) (len : Nat) (opts : DeliverOpts) (s : State) :
    Answers (fun r => MayRaise ok rxCauses s r.1) (acquire i a len opts s) := by
  have hfail : ∀ {t : State}, Calm ok s t → MayRaise ok rxCauses s (acquisitionFailed t) := fun ht =>
    MayRaise.before ht (.of_one (acquisitionFailed_raises _) (by simp))
  cases a with
  | failed => exact hfail (.refl s)
  | replaced h regions =>
    dsimp only [acquire]
    split
    · rename_i old _
      unfold acquireReplaced
      split
      · trivial
      · dsimp only
        split
        · exact ((holdBuffer_calm h s).thenAnswers (freeBuffer_calm h _)).andThen fun t _ ht => .next (hfail ht)
        · split
          · trivial
          · exact Raises.may ((holdBuffer_calm h s).append
              (k := [.dmaComplete (.buffer old.h), .deliverPacket old.h len opts]) rfl rfl
              (by simp [replaceBuffer, deliver]) rfl)
    · exact .fault _
  | copied h size =>
    dsimp only [acquire]
    split
    · rename_i old _
      unfold acquireCopied
      split
      · exact hfail (.refl s)
      · split
        · trivial
        · exact Raises.may ((Raises.refl s).append (k := [.copyBytes old.h h len, .deliverPacket h len opts]) rfl
            rfl (by simp [deliver]) rfl)
    · exact .fault _

theorem handleRx_raises (s : State) : Answers (fun r => MayRaise ok rxCauses s r.1) (handleRx s) := by
  have hread : Calm ok s ((s.emit .acquire).noteRead .rx s.rxIndex .opts2) :=
    (Raises.refl s).append (k := [.acquire, .descRead .rx s.rxIndex .opts2]) rfl rfl (by simp)
  unfold handleRx
  dsimp only
  split
  · exact MayRaise.before hread (.of_one (dropFragment_raises _) (by simp))
  · split
    · exact .fault _
    · exact (acquire_raises ..).imp fun r _ hr => MayRaise.before (hread.congr (u := { (s.emit .acquire).noteRead .rx
        s.rxIndex .opts2 with acquisitions := _ })) hr

theorem rearmAdvance_calm (s : State) : Calm ok s (rearmAdvance s) := by
  have h : Calm ok s (rearm s.rxIndex s) := rearm_calm s.rxIndex s
  unfold rearmAdvance
  generalize rearm s.rxIndex s = t at h ⊢
  exact h.congr

theorem rxNext_raises (d : Bool) (s : State) : Answers (MayRaise ok rxCauses s) (rxNext d s) := by
  have hread : Calm ok s (s.noteRead .rx s.rxIndex .opts1) :=
    (Raises.refl s).append (k := [.descRead .rx s.rxIndex .opts1]) rfl
  unfold rxNext
  dsimp only
  split
  · refine .next (Raises.may ?_)
    split
    · exact hread.append (k := [.flushInputQueue]) rfl
    · exact hread
  · refine (handleRx_raises (ok := ok) _).andThen fun r _ hr => .next ?_
    exact ((hr.before hread).after (rearmAdvance_calm r.1)).congr

/-! ### ENABLE and DISABLE -/

theorem fatalInit_calm (s : State) : Calm ok s (fatalInit s) :=
  ((Raises.refl s).append (u := s.raise .fatalInit) (k := [.raised .fatalInit]) rfl).withResult _

theorem fail2_calm (s : State) : Answers (Calm ok s) (fail2 s) :=
  (freeTxMem_calm s).andThen fun t _ ht => .next (ht.trans (fatalInit_calm t))

theorem fail3_calm (s : State) : Answers (Calm ok s) (fail3 s) :=
  (freeRxMem_calm s).andThen fun t _ ht => ht.thenAnswers (fail2_calm t)

theorem fail4_calm (i : Nat) (s : State) : Answers (Calm ok s) (fail4 i s) :=
  (freeSlots_calm i s).andThen fun t _ ht => (ht.thenAnswers (freeStMem_calm t)).andThen fun u _ hu =>
    hu.thenAnswers (fail3_calm u)

theorem fillSlot_calm (i : Nat) (draw : Option BufferDraw) (s : State) :
    Answers (fun r => Calm ok s r.1) (fillSlot i draw s) := by
  unfold fillSlot
  split
  · exact Raises.refl s
  · rename_i b
    split
    · trivial
    · dsimp only
      split
      · exact ((holdBuffer_calm b.h s).thenAnswers (freeBuffer_calm b.h _)).andThen fun _ _ ht => .next ht
      · split
        · trivial
        · exact .next (holdBuffer_calm b.h s).congr

theorem fillSlots_calm (k i : Nat) (draws : List (Option BufferDraw)) (s : State) :
    Answers (fun r => Calm ok s r.1) (fillSlots k i draws s) := by
  induction k generalizing i draws s with
  | zero => exact Raises.refl s
  | succ k ih =>
    refine (fillSlot_calm (ok := ok) i (draws.headD none) s).andThen fun r _ hr => ?_
    split
    · exact hr.thenFirst (ih _ _ _)
    · exact hr

theorem plain_upEvents (s : State) : (upEvents s).all plainEvent = true := by
  have hopt : (if s.cfg.reg.statsAtInit then halves s.cfg.reg s.cfg.reg.statsBase (statsAddr s) else []).all plainEvent = true := by
    split
    · exact plain_halves ..
    · rfl
  simp only [upEvents, ← halves_eq, List.all_append, plain_halves, hopt]
  rfl

/-- The end of ENABLE keeps the counters when the block has been enabled before (R200 E6). -/
theorem finishUp_calm (hev : ok → s.everEnabled = true) : Calm ok s (finishUp s) := by
  rw [finishUp_eq]
  refine ⟨rfl, ((Raises.refl (ok := ok) s).append (plain_upEvents s) (u := { s with history := s.history ++ upEvents s })).log,
    fun hok => ?_⟩
  simp only [counters, hev hok, if_true]
  rfl

end

end Sys2Proof.Machine
end

section
/-! SUPPORT. O15, O21: what ENABLE, DISABLE, the monitor, IRQ and the NIC raise. -/

namespace Sys2Proof.Machine

-- One declaration at a time: each thread of the elaborator reserves a stack of its own.
set_option Elab.async false

section
variable {ok : Prop} {s t : State}

/-! ### ENABLE and DISABLE -/

theorem bringUp_calm (hev : ok → s.everEnabled = true) : Answers (Calm ok s) (bringUp s) := by
  have h0 : Calm ok s (emptied s) := (Raises.refl s).congr rfl rfl rfl
  rw [bringUp_eq]
  refine (h0.thenAnswers (clearTx_calm _)).andThen fun t e ht => .next ((ht.trans (clearRx_calm t)).trans ?_)
  refine finishUp_calm fun h => ?_
  obtain ⟨mem, hist, slots, held, he⟩ := clearTx_shape e
  obtain ⟨mem', hist', hrx⟩ := clearRx_shape t
  rw [hrx, he]
  exact hev h

theorem enableBuffers_calm (draws : List (Option BufferDraw)) (hev : ok → s.everEnabled = true) :
    Answers (Calm ok s) (enableBuffers draws s) := by
  have h0 : Calm ok s { s with rxSlot := List.replicate s.cfg.nRx none } := (Raises.refl s).congr
  refine (h0.thenFirst (fillSlots_calm _ _ _ _)).andThen fun r e hr => ?_
  split
  · exact hr.thenAnswers (fail4_calm _ _)
  · refine hr.thenAnswers (bringUp_calm fun h => ?_)
    obtain ⟨slots, bufs, hist, he⟩ := fillSlots_shape e
    rw [he]
    exact hev h

/-- ENABLE of a block that has been enabled before, from its first allocation on (R200, R201). -/
theorem enableFrom_calm (d : EnableDraws) (hev : ok → s.everEnabled = true) : Answers (Calm ok s) (enableFrom d s) := by
  unfold enableFrom
  split
  · exact fatalInit_calm s
  · rename_i m1 _
    have h1 : Calm ok s { s with txMem := some m1, history := s.history ++ [.dmaPrepare .txRing] } :=
      (Raises.refl s).append (k := [.dmaPrepare .txRing]) rfl
    generalize hs1 : State.mk .. = s1 at h1 ⊢
    have hev1 : ok → s1.everEnabled = true := hs1 ▸ hev
    refine h1.thenAnswers ?_
    unfold enableRxRing
    split
    · exact fail2_calm s1
    · rename_i m2 _
      have h2 : Calm ok s1 { s1 with rxMem := some m2, history := s1.history ++ [.dmaPrepare .rxRing] } :=
        (Raises.refl s1).append (k := [.dmaPrepare .rxRing]) rfl
      split
      · trivial
      · generalize hs2 : State.mk .. = s2 at h2 ⊢
        have hev2 : ok → s2.everEnabled = true := hs2 ▸ hev1
        refine h2.thenAnswers ?_
        unfold enableStats
        split
        · exact fail3_calm s2
        · split
          · trivial
          · refine Raises.thenAnswers ?_ (enableBuffers_calm _ hev2)
            exact (Raises.refl s2).append (k := [.dmaPrepare .stats]) rfl

theorem writeIntrMask_calm (v : Half) (s : State) : Calm ok s (writeIntrMask v s) :=
  (Raises.refl s).append (k := [.regWrite s.cfg.reg.intrMask 16 (v.setWidth 64)]) rfl rfl rfl rfl

theorem stopQueue_calm (s : State) : Calm ok s (stopQueue s) :=
  Raises.trans (t := closeQueue s) (Raises.refl s).congr (flushQueue_calm _)

theorem bringDown_calm (s : State) : Answers (Calm ok s) (bringDown s) := by
  have h0 : Calm ok s (State.emit { s with enabled := false, timerOn := false } .stopTimer) :=
    (Raises.refl s).append (k := [.stopTimer]) rfl
  have h1 := (h0.trans (writeIntrMask_calm 0#16 _)).trans (stopQueue_calm _)
  refine ((h1.trans (nicReset_calm _)).thenAnswers (clearTx_calm _)).andThen fun t _ ht => ?_
  exact (ht.thenAnswers (freeSlots_calm _ t)).andThen fun u _ hu => Raises.thenAnswers hu.congr (freeMems_calm _)

/-! ### The monitor and IRQ -/

theorem linkUp_calm (p : LinkParams) (s : State) : Calm ok s (linkUp p s) :=
  (Raises.refl s).append
    (k := [.applyLinkTuning, .resumeQueue, .reportLinkStatus true (some (p.speed, p.duplex))]) rfl rfl
    (by simp [linkUp]) rfl

theorem beginLinkDown_calm (s : State) : Calm ok s (beginLinkDown s) := (Raises.refl s).congr

theorem tickLink_calm (v : Byte) (s : State) : Calm ok s (tickLink v s) := by
  have hread : Calm ok s (s.emit (.regRead s.cfg.reg.linkStatus 8 (v.setWidth 64))) :=
    (Raises.refl s).append (k := [.regRead s.cfg.reg.linkStatus 8 (v.setWidth 64)]) rfl
  rcases tickLink_cases v s with ⟨-, e⟩ | ⟨-, -, e⟩ | ⟨-, -, e⟩
  · rw [e]; exact hread
  · rw [e]; exact hread.trans (linkUp_calm _ _)
  · rw [e]; exact hread.trans (beginLinkDown_calm _)

theorem linkDown_calm (s : State) : Answers (Calm ok s) (linkDown s) := by
  have h0 : Calm ok s (noteSeen .tx { flushQueue s with link := { (flushQueue s).link with up := false } }) :=
    (flushQueue_calm s).congr
  exact (h0.thenAnswers (clearTx_calm _)).andThen fun t _ ht =>
    .next (ht.append (k := [.reportLinkStatus false none]) rfl)

theorem tickRelease_calm (s : State) : Answers (Calm ok s) (tickRelease s) :=
  (freeSentOpt_calm s.txPending s).andThen fun _ _ ht => .next ht.congr

theorem requestStats_calm (s : State) : Calm ok s (requestStats s) := by
  unfold requestStats
  split
  · exact .refl s
  · exact Raises.trans (t := { s with statsPending := true }) (Raises.refl s).congr (writeStatsBase_calm ..)

theorem tickStats_calm (s : State) : Calm ok s (tickStats s) := by
  unfold tickStats
  split
  · exact requestStats_calm s
  · exact .refl s

theorem finishStats_calm (s : State) : Calm ok s (finishStats s) := by
  unfold finishStats
  split
  · exact (Raises.refl s).append (k := [.accumulateStats]) rfl
  · exact .refl s

/-- The causes TX.DLCHK may count (R153, R238). -/
abbrev dlCauses : List ErrCause := [.missedInterrupt, .txDeadlock]

theorem dlchk_raises (rest : List Task) (ends : Result) (s : State) : MayRaise ok dlCauses s (dlchk rest ends s).1 := by
  unfold dlchk
  split
  · dsimp only
    split
    · exact .of_one (c := .missedInterrupt) (raises_raise rfl rfl rfl rfl) (by simp)
    · split
      · exact .of_one (c := .txDeadlock) (raises_raise rfl rfl rfl rfl) (by simp)
      · exact Raises.may (Raises.refl s).congr
  · exact Raises.may (Raises.refl s).congr

theorem acknowledge_calm (s : State) : Calm ok s (acknowledge s) :=
  (Raises.refl s).append (k := [.regRead s.cfg.reg.intrStatus 16 ((intrStatus s).setWidth 64),
    .regWrite s.cfg.reg.intrStatus 16 ((intrStatus s).setWidth 64)]) rfl rfl rfl rfl

theorem irq_raises (s : State) : MayRaise ok [.busError] s (irq s) := by
  have hack : Calm ok s (acknowledge s) := acknowledge_calm s
  rcases irq_cases s with ⟨-, e⟩ | ⟨-, e⟩
  · rw [e]
    exact MayRaise.before hack (.of_one (c := .busError) (raises_raise rfl rfl rfl rfl) (by simp))
  · rw [e]
    exact Raises.may hack.congr

/-! ### The NIC -/

theorem nicWrite32_calm (ring : Ring) (i : Nat) (f : DescField) (v : Word) (s : State) :
    Calm ok s (nicWrite32 ring i f v s) :=
  (Raises.refl s).append (k := [.nicDescWrite ring i f (v.setWidth 64)]) rfl

theorem nicStoreFrame_calm (a : Nat) (frame : List Byte) (s : State) : Calm ok s (nicStoreFrame a frame s) :=
  (Raises.refl s).append (k := [.nicMemWrite a frame.length]) rfl

theorem fillDesc_calm (i : Nat) (frame : List Byte) (x : RxStatus) (w : Word) (a : Addr) (s : State) :
    Calm ok s (fillDesc i frame x w a s) :=
  ((nicStoreFrame_calm ..).trans (nicWrite32_calm ..)).trans (nicWrite32_calm ..)

theorem txDone_calm (i : Nat) (d : TxDoneDraws) (s : State) : Answers (Calm ok s) (txDone i d s) := by
  unfold txDone
  split
  · trivial
  · split
    · trivial
    · rename_i x _
      split
      · exact .fault _
      · have hstore : Calm ok s _ := nicWrite32_calm .tx i .opts1 (clearBit x.word s.cfg.layout.own) s
        refine .next ?_
        split
        · exact hstore.congr
        · exact hstore.congr

theorem rxFill_calm (i : Nat) (frame : List Byte) (x : RxStatus) (d : RxFillDraws) (s : State) :
    Answers (Calm ok s) (rxFill i frame x d s) := by
  unfold rxFill
  split
  · trivial
  · split
    · trivial
    · rename_i w a _
      split
      · trivial
      · split
        · exact .fault _
        · have hstore : Calm ok s _ := fillDesc_calm i frame x w a s
          refine .next ?_
          split
          · exact hstore.congr
          · exact hstore.congr

/-- RING.WRITE (R112): flags in range leave the marker alone. -/
theorem ringWrite_calm {ring : Ring} {index : Nat} {seg : Segment} {flags1 flags2 : Word} {own : Bool}
    (h : writeOperandsOk s.cfg ring index seg flags1 flags2 = true) : Calm ok s
      (if ring = .tx ∧ own then submitIndex index (writeDesc ring index seg flags1 flags2 own s)
        else writeDesc ring index seg flags1 flags2 own s) := by
  simp only [writeOperandsOk, Bool.and_eq_true, decide_eq_true_eq] at h
  obtain ⟨⟨-, hlen⟩, hflags⟩ := h
  have hw : Calm ok s (writeDesc ring index seg flags1 flags2 own s) :=
    writeDesc_calm (fun hc => noEor_flagsOk (cfgOk hc).layout hflags) fun _ => hlen
  split
  · exact hw.congr
  · exact hw

end

section
variable {ok : Prop} {s t : State}

/-! ### Operations and tasks -/

/-- The causes an operation may count (R238). -/
def causesOfOp : Instr → List ErrCause
  | .rxIrq _ => rxCauses
  | .txDlchk => dlCauses
  | .irq _ => [.busError]
  | .txSubmit _ => [.unsupportedOffload, .tooManySegments]
  | _ => []

/-- The causes a task may count (R238). -/
def causesOfTask : Task → List ErrCause
  | .rxNext _ => rxCauses
  | .tickCheck => dlCauses
  | _ => []

theorem Recorded.calm (h : Recorded s t) : Calm ok s t := by
  obtain ⟨l, res, hl, rfl⟩ := h
  refine (Raises.refl s).append (k := l) ?_
  rcases hl with rfl | ⟨r, rfl⟩ | rfl <;> rfl

theorem effect_raises {i : Instr} {u : State} (hi : ∀ d, i ≠ .enable d) (hp : ∀ p, i ≠ .txSubmit p) (h : Effect s i u) :
    MayRaise ok (causesOfOp i) s u := by
  have hrefl : Calm ok s s := .refl s
  cases h
  case ringAlloc n _ _ _ => exact Raises.may (hrefl.congr (u := takeDescs n s))
  case ringWrite range _ run => exact Raises.may (run ▸ ringWrite_calm range)
  case ringReclaim run => exact Raises.may ((reclaimLoop_calm (ok := ok) _ _ s).of_eq_next run)
  case ringClearTx run =>
    have h0 : Calm ok s (noteSeen .tx s) := hrefl.congr
    exact Raises.may (h0.trans ((clearTx_calm (ok := ok) _).of_eq_next run))
  case ringClearRx run =>
    have h0 : Calm ok s (noteSeen .rx s) := hrefl.congr
    exact Raises.may (h0.trans (run ▸ clearRx_calm (noteSeen .rx s)))
  case txDrop p _ _ _ _ => exact absurd rfl (hp p)
  case txStall p _ _ _ => exact absurd rfl (hp p)
  case txSend p _ _ _ _ _ _ _ _ _ _ _ _ => exact absurd rfl (hp p)
  case txIrq run => exact Raises.may ((txScan_calm (ok := ok) _ _ s).of_eq_next run)
  case txDlchk run => exact run ▸ dlchk_raises [] .didReset s
  case rxIrq draws _ _ _ _ _ _ _ _ _ _ _ _ run =>
    have h0 : Calm ok s (takeDraws draws s) := hrefl.congr
    exact MayRaise.before h0 ((rxNext_raises (ok := ok) _ _).of_eq_next run)
  case timerTick v _ _ _ _ _ _ run =>
    exact Raises.may ((run ▸ tickLink_calm v s : Calm ok s _).congr)
  case linkUp p _ => exact Raises.may (linkUp_calm p s)
  case linkDown => exact Raises.may (beginLinkDown_calm s)
  case resetFull => exact Raises.may (hrefl.congr (u := beginReset .none s))
  case irq draws _ _ _ _ _ _ _ run =>
    have h0 : Calm ok s (takeDraws draws s) := hrefl.congr
    exact MayRaise.before h0 (run ▸ irq_raises (takeDraws draws s))
  case statsReq run => exact Raises.may (run ▸ requestStats_calm s)
  case statsDone run => exact Raises.may (run ▸ finishStats_calm s)
  case enableFails d _ _ _ _ _ => exact absurd rfl (hi d)
  case enableUp d _ _ _ _ _ _ _ _ _ _ _ _ _ _ _ _ => exact absurd rfl (hi d)
  case disable run => exact Raises.may ((bringDown_calm (ok := ok) s).of_eq_next run)
  case nicTxDone i d _ _ _ _ _ _ run => exact Raises.may ((txDone_calm (ok := ok) i d s).of_eq_next run)
  case nicRxFill i f x d _ _ _ _ _ run => exact Raises.may ((rxFill_calm (ok := ok) i f x d s).of_eq_next run)
  case nicIrqRaise c => exact Raises.may (hrefl.congr (u := latchCause c s))
  case nicReset => exact Raises.may (nicReset_calm s)
  case nicTxQuiesce => exact Raises.may hrefl.congr

/-- What an operation raises; ENABLE clears the counters when it is the first one (R200 E6). -/
theorem exec_raises {i : Instr} (hev : ok → (∃ d, i = .enable d) → s.everEnabled = true) (h : exec i s = .next t) :
    MayRaise ok (causesOfOp i) s t := by
  by_cases hi : ∃ d, i = .enable d
  · obtain ⟨d, rfl⟩ := hi
    rcases execEnable_next h with h | ⟨-, -, -, hu⟩
    · exact Raises.may h.recorded.calm
    · have h0 : Calm ok s (dropUnspecified s) := (Raises.refl s).congr
      exact Raises.may (h0.trans ((enableFrom_calm (s := dropUnspecified s) d fun h => hev h ⟨d, rfl⟩).of_eq_next hu))
  · by_cases hp : ∃ p, i = .txSubmit p
    · obtain ⟨p, rfl⟩ := hp
      rcases execTxSubmit_next h with ⟨r, rfl⟩ | ⟨-, hr, -, hu⟩
      · obtain ⟨res, he⟩ := submitRefused_shape r s
        exact Raises.may (Recorded.calm ⟨_, res, .inr (.inl ⟨r, rfl⟩), he⟩)
      · have h0 : Calm ok s (holdPacket p.h s) := (Raises.refl s).congr
        exact MayRaise.before h0 ((submitHeld_raises (ok := ok) (s := holdPacket p.h s) hr).of_eq_next hu)
    · rcases exec_effect h with h | ⟨u, res, -, he, rfl⟩
      · exact Raises.may h.calm
      · exact (effect_raises (fun d hd => hi ⟨d, hd⟩) (fun p hp' => hp ⟨p, hp'⟩) he).withResult res

theorem runTask_raises (x : Task) (s : State) : Answers (MayRaise ok (causesOfTask x) s) (runTask x s) := by
  have hmay : ∀ {y : Out State} {l : List ErrCause}, Answers (Calm ok s) y → Answers (MayRaise ok l s) y := fun hy =>
    hy.imp fun _ _ h => Raises.may h
  cases x with
  | rxNext d => exact rxNext_raises d s
  | txBegin => exact hmay (txScan_calm _ _ s)
  | txScan k old => exact hmay (txScan_calm k old s)
  | dlSnapshot => exact .next (Raises.may (Raises.refl s).congr)
  | tickRelease => exact hmay (tickRelease_calm s)
  | tickCheck => exact .next (dlchk_raises _ _ s)
  | tickStats => exact .next (Raises.may (tickStats_calm s))
  | statsDone => exact .next (Raises.may (finishStats_calm s))
  | resetRest _ => exact hmay (fullReset_calm s)
  | linkDownRest => exact hmay (linkDown_calm s)

end

end Sys2Proof.Machine
end

section
/-! SUPPORT. O15, O21: the stores to `opts1` and the counters. -/

namespace Sys2Proof.Machine

-- One declaration at a time: each thread of the elaborator reserves a stack of its own.
set_option Elab.async false

variable {ok : Prop} {l : List ErrCause} {s t : State}

/-! ### The ring-end marker -/

theorem MayRaise.ringEndInv (h : MayRaise ok l s t) (hc : cfgWf s.cfg = true) (hs : RingEndInv s) : RingEndInv t := by
  obtain ⟨-, -, hcfg, ⟨m, hm, -, hstores⟩, -⟩ := h
  intro e he
  rw [hm] at he
  rw [hcfg]
  rcases List.mem_append.1 he with he | he
  · exact hs e he
  · exact hstores hc e he

theorem Recorded.ringEndInv (h : Recorded s t) (hs : RingEndInv s) : RingEndInv t := by
  obtain ⟨m, res, hm, rfl⟩ := h
  intro e he
  rcases List.mem_append.1 he with he | he
  · exact hs e he
  · rcases hm with rfl | ⟨r, rfl⟩ | rfl
    · cases he
    · rw [List.mem_singleton.1 he]
      rfl
    · rw [List.mem_singleton.1 he]
      rfl

theorem exec_ringEndInv {i : Instr} (hs : RingEndInv s) (h : exec i s = .next t) : RingEndInv t := by
  rcases exec_effect h with hr | ⟨u, res, ha, -, -⟩
  · exact hr.ringEndInv hs
  · exact (exec_raises (ok := False) False.elim h).ringEndInv ha.cfg hs

/-- Settles O15: an operation stores with a well-formed configuration, a task with that of the operation it is of. -/
theorem engineStoresKeepRingEndMarker : Obligations.EngineStoresKeepRingEndMarker := by
  intro s t hw hs h
  rcases step_eq_next h with ⟨u, hu, h⟩ | ⟨x, rest, -, -, ⟨i, -, h⟩ | ⟨e, -, rfl⟩⟩
  · obtain ⟨inp, rfl⟩ : ∃ inp, u = { s with input := inp } := by
      rcases hu with rfl | ⟨x, rest, rfl⟩
      · exact ⟨_, rfl⟩
      · exact ⟨_, rfl⟩
    rcases goOn_eq_next h with ⟨-, rfl⟩ | ⟨x, rest, v, hwork, hv, rfl⟩
    · exact hs
    · obtain ⟨-, hc⟩ := hw (by rw [show s.work = x :: rest from hwork]; nofun)
      have hr : MayRaise False _ (takeTask rest { s with input := inp }) v := (runTask_raises x _).of_eq_next hv
      exact hr.ringEndInv (s := takeTask rest { s with input := inp }) hc hs
  · exact exec_ringEndInv (s := takeInput x rest s) hs h
  · exact Recorded.ringEndInv (s := takeInput x rest s) ⟨_, _, .inr (.inl ⟨decodeReason e, rfl⟩), rfl⟩ hs

/-! ### The counters -/

theorem Raises.countsWhatItRaises (h : Raises True l s t) : ∃ m, countedIn m = l ∧ CountsWhatItRaises s t m := by
  obtain ⟨-, ⟨m, hm, hl, -⟩, hk⟩ := h
  have hb := hk trivial
  simp only [counters, bump, Prod.mk.injEq] at hb
  obtain ⟨h1, h2, h3, h4, h5⟩ := hb
  refine ⟨m, hl, hm, ?_, ?_, ?_, ?_, ?_⟩
  · rw [count_raised rfl, hl, h1]
  · rw [count_raised rfl, hl, h2]
  · rw [count_raised rfl, hl, h3]
  · rw [count_raised rfl, count_raised rfl, hl, h4]
  · rw [count_raised rfl, count_raised rfl, hl, h5]

/-- What is raised is counted, at most once, and is a cause that may be raised. -/
theorem MayRaise.counts (h : MayRaise True l s t) : ∃ m, CountsWhatItRaises s t m ∧
    (∀ a b, isCounted a = true → isCounted b = true → a ≠ b → raisedOf m a b ≤ 1) ∧
    ∀ a, isCounted a = true → a ∉ l → m.count (.raised a) = 0 := by
  obtain ⟨k, hk, h⟩ := h
  obtain ⟨m, hm, hc⟩ := h.countsWhatItRaises
  refine ⟨m, hc, fun a b ha hb hab => ?_, fun a ha hal => ?_⟩
  · rw [raisedOf, count_raised ha, count_raised hb, hm]
    rcases hk with rfl | ⟨c, -, rfl⟩
    · exact Nat.zero_le _
    · by_cases hca : c = a
      · rw [List.count_singleton, List.count_eq_zero_of_not_mem (by simpa using fun h => hab (hca ▸ h.symm))]
        split <;> omega
      · rw [List.count_eq_zero_of_not_mem (by simpa using fun h => hca h.symm), List.count_singleton]
        split <;> omega
  · rw [count_raised ha, hm]
    rcases hk with rfl | ⟨c, hcl, rfl⟩
    · rfl
    · exact List.count_eq_zero_of_not_mem (by simpa using fun h : a = c => hal (h ▸ hcl))

/-- Two causes of one counter: they are raised at most once, and only by whom they are causes of. -/
theorem raisedOf_of_may {m : List Event} {a b : ErrCause} {P : Prop} (hone : raisedOf m a b ≤ 1)
    (ha : a ∉ l → m.count (.raised a) = 0) (hb : b ∉ l → m.count (.raised b) = 0) (hP : a ∈ l ∨ b ∈ l → P)
    (hne : raisedOf m a b ≠ 0) : raisedOf m a b = 1 ∧ P := by
  refine ⟨by omega, hP ?_⟩
  by_contra h
  obtain ⟨h1, h2⟩ := not_or.1 h
  exact hne (by rw [raisedOf, ha h1, hb h2])

/-- Which operations raise a cause (R238). -/
def RaisedByOp : ErrCause → Instr → Prop
  | .resourceExhaustion, i => ∃ d, i = .rxIrq d
  | .rxFragmented, i => ∃ d, i = .rxIrq d
  | .missedInterrupt, i => i = .txDlchk
  | .txDeadlock, i => i = .txDlchk
  | .busError, i => ∃ d, i = .irq d
  | .unsupportedOffload, i => ∃ p, i = .txSubmit p
  | .tooManySegments, i => ∃ p, i = .txSubmit p
  | _, _ => True

/-- Which tasks raise a cause; a bus error and a transmit drop come of no task. -/
def RaisedByTask : ErrCause → Task → Prop
  | .resourceExhaustion, x => ∃ d, x = .rxNext d
  | .rxFragmented, x => ∃ d, x = .rxNext d
  | .missedInterrupt, x => x = .tickCheck
  | .txDeadlock, x => x = .tickCheck
  | _, _ => False

theorem raisedByOp_of_mem {c : ErrCause} {i : Instr} (h : c ∈ causesOfOp i) : RaisedByOp c i := by
  unfold causesOfOp at h
  split at h
  all_goals simp only [List.mem_cons, List.not_mem_nil, or_false] at h
  case h_1 d => rcases h with rfl | rfl <;> exact ⟨d, rfl⟩
  case h_2 => rcases h with rfl | rfl <;> rfl
  case h_3 d => exact h ▸ ⟨d, rfl⟩
  case h_4 p => rcases h with rfl | rfl <;> exact ⟨p, rfl⟩

theorem raisedByTask_of_mem {c : ErrCause} {x : Task} (h : c ∈ causesOfTask x) : RaisedByTask c x := by
  unfold causesOfTask at h
  split at h
  all_goals simp only [List.mem_cons, List.not_mem_nil, or_false] at h
  case h_1 d => rcases h with rfl | rfl <;> exact ⟨d, rfl⟩
  case h_2 => rcases h with rfl | rfl <;> rfl

/-- Settles O21: a step raises at most one cause a counter counts, one of those its operation or task may raise. -/
theorem countersOnlyCountUp : Obligations.CountersOnlyCountUp := by
  refine ⟨fun i s t h hev => ?_, fun x s t h => ?_⟩
  · obtain ⟨m, hm, hone, hzero⟩ := (exec_raises (ok := True) (fun _ => hev) h).counts
    have hby : ∀ {a}, a ∈ causesOfOp i → RaisedByOp a i := raisedByOp_of_mem
    refine ⟨m, hm, raisedOf_of_may (hone _ _ rfl rfl nofun) (hzero _ rfl) (hzero _ rfl) (Or.elim · hby hby), ?_,
      fun hne => ⟨?_, ?_⟩,
      raisedOf_of_may (hone _ _ rfl rfl nofun) (hzero _ rfl) (hzero _ rfl) (Or.elim · hby hby)⟩
    · split
      · exact hone _ _ rfl rfl nofun
      · rename_i hn
        rw [raisedOf, hzero .missedInterrupt rfl fun h => hn (hby h), hzero .txDeadlock rfl fun h => hn (hby h)]
    · have hle : raisedOf m .busError .txDeadlock ≤ 1 := hone _ _ rfl rfl nofun
      rw [raisedOf] at hle
      omega
    · by_contra hn
      exact hne (hzero _ rfl fun h => hn (hby h))
  · obtain ⟨m, hm, hone, hzero⟩ := MayRaise.counts ((runTask_raises (ok := True) x s).of_eq_next h)
    have hby : ∀ {a}, a ∈ causesOfTask x → RaisedByTask a x := raisedByTask_of_mem
    refine ⟨m, hm, raisedOf_of_may (hone _ _ rfl rfl nofun) (hzero _ rfl) (hzero _ rfl) (Or.elim · hby hby), ?_,
      hzero _ rfl hby, ?_⟩
    · split
      · exact hone _ _ rfl rfl nofun
      · rename_i hn
        rw [raisedOf, hzero .missedInterrupt rfl fun h => hn (hby h), hzero .txDeadlock rfl fun h => hn (hby h)]
    · rw [raisedOf, hzero .unsupportedOffload rfl hby, hzero .tooManySegments rfl hby]

end Sys2Proof.Machine
end

section
/-! SUPPORT. O19: what the submitter touches. -/

namespace Sys2Proof.Machine

-- One declaration at a time: each thread of the elaborator reserves a stack of its own.
set_option Elab.async false

section
variable {s t u : State}

/-! ### What is recorded without a register access -/

/-- From `s` to `t` no access to a NIC register is recorded; the doorbell is none (R58). -/
def NoRegister (s t : State) : Prop := ∃ l, t.history = s.history ++ l ∧ ∀ e ∈ l, isRegAccess e = false

theorem NoRegister.of_history {l : List Event} (h : t.history = s.history ++ l) (hl : ∀ e ∈ l, isRegAccess e = false) :
    NoRegister s t := ⟨l, h, hl⟩

theorem NoRegister.trans (h : NoRegister s t) (k : NoRegister t u) : NoRegister s u := by
  obtain ⟨a, ha, hqa⟩ := h
  obtain ⟨b, hb, hqb⟩ := k
  exact ⟨a ++ b, by rw [hb, ha, List.append_assoc], fun e he => (List.mem_append.1 he).elim (hqa e) (hqb e)⟩

/-- One event more that is no such access. -/
theorem NoRegister.record (h : NoRegister s t) {e : Event} (hh : u.history = t.history ++ [e])
    (he : isRegAccess e = false := by rfl) : NoRegister s u :=
  h.trans (.of_history hh fun _ h => (List.mem_singleton.1 h).symm ▸ he)

theorem NoRegister.refl (s : State) : NoRegister s s := .of_history (List.append_nil _).symm nofun

theorem isRegAccess_writeEvents {c : Cfg} {ring : Ring} {i : Nat} {seg : Segment} {flags1 flags2 : Word} {own : Bool} :
    ∀ e ∈ writeEvents c ring i seg flags1 flags2 own, isRegAccess e = false := by
  intro e he
  rcases List.mem_append.1 he with he | he
  · simp only [List.mem_cons, List.not_mem_nil, or_false] at he
    rcases he with rfl | rfl | rfl | rfl <;> rfl
  · split at he
    · simp only [List.mem_cons, List.not_mem_nil, or_false] at he
      rcases he with rfl | rfl <;> rfl
    · cases he

theorem writeDesc_noRegister (ring : Ring) (i : Nat) (seg : Segment) (flags1 flags2 : Word) (own : Bool) (s : State) :
    NoRegister s (writeDesc ring i seg flags1 flags2 own s) :=
  .of_history (writeDesc_history ..) isRegAccess_writeEvents

theorem writePacket_noRegister {first n : Nat} {cmd : Cmd} {vlan : Option Half} (segs : List Segment) (j : Nat) (s : State) :
    NoRegister s (writePacket first n cmd vlan j segs s) := by
  induction segs generalizing j s with
  | nil => exact .refl s
  | cons seg segs ih => exact (writeDesc_noRegister ..).trans (ih (j + 1) _)

theorem submitSegs_noRegister (h : Handle) (seg0 : Segment) (segs : List Segment) (cmd : Cmd) (vlan : Option Half)
    (s : State) : NoRegister s (submitSegs h seg0 segs cmd vlan s) := by
  have hw : NoRegister s (packetWritten seg0 segs cmd vlan s) :=
    writePacket_noRegister (seg0 :: segs) 0 (takeDescs (segs.length + 1) s)
  unfold submitSegs
  unfold packetWritten at hw
  dsimp only
  generalize writePacket _ _ _ _ _ _ _ = w at hw ⊢
  have h1 : NoRegister s (storeSlot (txIdx s.cfg s.txNext segs.length) h w) :=
    hw.record (e := .slotStore (txIdx s.cfg s.txNext segs.length) h) rfl
  have h2 : NoRegister s ((storeSlot (txIdx s.cfg s.txNext segs.length) h w).emit .release) := h1.record (e := .release) rfl
  have h3 : NoRegister s (ownFirst s.txNext (packetFlags1 s.cfg cmd 0 (segs.length + 1)) seg0.len
      (storeSlot (txIdx s.cfg s.txNext segs.length) h w)) := h2.record rfl
  exact h3.record (e := .doorbell w.cfg.reg.txDoorbell w.cfg.reg.doorbellValue) rfl

theorem completePacket_noRegister (h : Handle) (s : State) : NoRegister s (completePacket h s) := by
  unfold completePacket
  split
  · exact (NoRegister.refl s).record (e := .dmaComplete (.packet h)) rfl
  · exact .refl s

theorem freePacket_noRegister {h : Handle} (hf : freePacket h s = .next t) : NoRegister s t := by
  obtain ⟨-, rfl⟩ := freePacket_eq_next hf
  exact (completePacket_noRegister h s).record (e := .freePacket h) rfl

theorem preparePacket_noRegister (h : Handle) (s : State) : NoRegister s (preparePacket h s) :=
  (NoRegister.refl s).record (e := .dmaPrepare (.packet h)) rfl

theorem submitHeld_noRegister {p : Packet} (h : submitHeld p s = .next t) : NoRegister s t := by
  have hp := preparePacket_noRegister p.h s
  rcases submitHeld_next h with ⟨-, u, hu, rfl⟩ | ⟨c, u, hu, rfl⟩ | ⟨seg0, segs, cmd, -, -, ⟨-, rfl⟩ | ⟨-, rfl⟩⟩
  · have h0 : NoRegister s (s.raise .linkDownDrop) := (NoRegister.refl s).record rfl
    have hf : NoRegister _ u := freePacket_noRegister hu
    exact h0.trans hf
  · have h0 : NoRegister s (countTxDrops ((preparePacket p.h s).raise c)) := hp.record rfl
    have hf : NoRegister _ u := freePacket_noRegister hu
    exact h0.trans hf
  · have h0 : NoRegister s { (preparePacket p.h s).raise .backpressure with txStalled := true } := hp.record rfl
    exact h0.trans (completePacket_noRegister p.h _)
  · exact hp.trans (submitSegs_noRegister ..)

end

section
variable {s t u : State}

/-! ### The submitter's part of the state -/

/-- What O19 asks of a step from `s` to `t` (R36, R58). -/
structure InItsPart (s t : State) : Prop where
  frame : t = { s with
      mem := t.mem, history := t.history, result := t.result
      txNext := t.txNext, txFree := t.txFree, txUnsubmitted := t.txUnsubmitted, txSlot := t.txSlot
      txStalled := t.txStalled, ctrTxDrops := t.ctrTxDrops, heldPackets := t.heldPackets }
  stalled : s.txStalled = true → t.txStalled = true
  slots : ∀ j, s.txPkt j ≠ none → t.txPkt j ≠ none
  bytes : ∀ a, ¬ s.inRing .tx a → t.mem.read a = s.mem.read a
  record : NoRegister s t

theorem InItsPart.withResult (h : InItsPart s t) (r : Result) : InItsPart s (t.withResult r) where
  frame := congrArg (·.withResult r) h.frame
  stalled := h.stalled
  slots := h.slots
  bytes := h.bytes
  record := h.record

theorem Recorded.inItsPart (h : Recorded s t) : InItsPart s t := by
  obtain ⟨l, res, hl, rfl⟩ := h
  refine ⟨rfl, id, fun _ => id, fun _ _ => rfl, l, rfl, fun e he => ?_⟩
  rcases hl with rfl | ⟨r, rfl⟩ | rfl
  · cases he
  · rw [List.mem_singleton.1 he]
    rfl
  · rw [List.mem_singleton.1 he]
    rfl

/-- A slot that is filled takes none away. -/
theorem getD_set_ne_none {l : List (Option Handle)} {i j : Nat} {h : Handle} (hj : l.getD j none ≠ none) :
    (l.set i (some h)).getD j none ≠ none := by
  by_cases hlt : j < l.length
  · rw [List.getD_eq_getElem _ _ (by simpa using hlt), List.getElem_set]
    split
    · nofun
    · rwa [List.getD_eq_getElem _ _ hlt] at hj
  · exact absurd (List.getD_eq_default _ _ (by omega)) hj

theorem effect_inItsPart {i : Instr} (hi : isSubmitterOp i = true) (hc : cfgWf s.cfg = true) (hw : s.mem.wf)
    (hnext : s.txNext < s.cfg.nTx) (h : Effect s i u) : InItsPart s u := by
  have hl := offsetsOk (cfgOk hc).layout
  cases h
  case ringAlloc n _ _ _ => exact ⟨rfl, id, fun _ => id, fun _ _ => rfl, .refl s⟩
  case ringWrite ring index seg flags1 flags2 own mem hist unsub range free run =>
    cases ring
    case rx => cases hi
    have he := run ▸ ringWrite_state (ring := .tx) (index := index) (seg := seg) (flags1 := flags1) (flags2 := flags2)
      (own := own) (s := s)
    have hmem : mem = (writeDesc .tx index seg flags1 flags2 own s).mem := congrArg State.mem he
    have hhist : hist = s.history ++ writeEvents s.cfg .tx index seg flags1 flags2 own := congrArg State.history he
    simp only [writeOperandsOk, Bool.and_eq_true, decide_eq_true_eq] at range
    obtain ⟨⟨⟨hlt, -⟩, -⟩, -⟩ := range
    refine ⟨rfl, id, fun _ => id, fun a ha => ?_, .of_history hhist isRegAccess_writeEvents⟩
    rw [hmem]
    exact writeDesc_read_of_ne hw hl _ _ _ _ fun h => ha (inRing_of_inDesc (ring := .tx) hlt h)
  case txDrop p held hist drops run =>
    exact ⟨rfl, id, fun _ => id, fun _ _ => rfl, submitHeld_noRegister (s := holdPacket p.h s) run⟩
  case txStall p held hist run =>
    exact ⟨rfl, fun _ => rfl, fun _ => id, fun _ _ => rfl, submitHeld_noRegister (s := holdPacket p.h s) run⟩
  case txSend p seg0 segs cmd mem hist unsub held range segments command free run =>
    generalize hv : preparePacket p.h (holdPacket p.h s) = v at run
    have hp : NoRegister s v := hv ▸ preparePacket_noRegister p.h (holdPacket p.h s)
    have hbytes : ∀ a, (∀ k < segs.length + 1, ¬ s.inDesc .tx (txIdx s.cfg s.txNext k) a) →
        (submitSegs p.h seg0 segs cmd p.vlan v).mem.read a = s.mem.read a := fun a ha => by
      rw [← hv]
      exact submitSegs_bytes (s := preparePacket p.h (holdPacket p.h s)) hl hw hnext ha
    have hrec := hp.trans (submitSegs_noRegister p.h seg0 segs cmd p.vlan v)
    rw [run] at hbytes hrec
    refine ⟨rfl, id, fun j hj => getD_set_ne_none hj, fun a ha => hbytes a fun k _ hd => ha ?_, hrec⟩
    exact inRing_of_inDesc (ring := .tx) (Nat.mod_lt _ (show 0 < s.cfg.nTx by omega)) hd
  all_goals cases hi

/-- The submitter's operations are of an enabled block (R34). -/
theorem needOf_ne_always {i : Instr} (hi : isSubmitterOp i = true) : needOf i ≠ .always := by
  cases i
  case ringWrite ring _ _ _ _ _ =>
    cases ring
    · nofun
    · nofun
  case ringAlloc | segTx | encV1 | encV2 | encVlan | txSubmit => nofun
  all_goals cases hi

/-- Settles O19: a refusal is only recorded, and each operation of the submitter has its effect. -/
theorem submitterStaysInItsPart : Obligations.SubmitterStaysInItsPart := by
  intro i s t hi hw hcur h
  have hpart : InItsPart s t := by
    rcases exec_effect h with hr | ⟨u, res, ha, he, rfl⟩
    · exact hr.inItsPart
    · obtain ⟨-, hok⟩ := hcur (ha.enabled (needOf_ne_always hi))
      exact (effect_inItsPart hi ha.cfg hw hok.next he).withResult res
  exact ⟨hpart.frame, hpart.stalled, hpart.slots, hpart.bytes, hpart.record⟩

end

end Sys2Proof.Machine
end

section
/-! SUPPORT. O36: a submission that finds too few free descriptors (R145 step 4). -/

namespace Sys2Proof.Machine

-- One declaration at a time: each thread of the elaborator reserves a stack of its own.
set_option Elab.async false

theorem submitHeld_stalls {p : Packet} {s : State} {segs : List Segment} {cmd : Cmd} (hup : s.link.up = true)
    (hq : s.txqEnabled = true) (hseg : segmentTx s.cfg p.regions = some segs) (hne : segs ≠ [])
    (henc : encodeOffload s.cfg p.off = some cmd) (hfree : s.txFree ≤ segs.length) :
    submitHeld p s = .next (stallSubmit p.h (preparePacket p.h s)) := by
  obtain ⟨seg0, rest, rfl⟩ := List.exists_cons_of_ne_nil hne
  have hfails : allocFails (rest.length + 1) (preparePacket p.h s) = true := decide_eq_true hfree
  rw [submitHeld, if_neg (by simp [hup, hq])]
  simp only [hseg, henc]
  rw [if_pos hfails]

/-- Step 4 failing leaves a packet the engine had just taken with the host, its mapping completed (R59, R145). -/
theorem stallSubmit_taken {s : State} {h : Handle} (hn : s.holdsPacket h = false) :
    stallSubmit h (preparePacket h (holdPacket h s)) = { s with
      txStalled := true
      history := s.history ++ [.dmaPrepare (.packet h), .raised .backpressure, .dmaComplete (.packet h)]
      result := .stall } := by
  rw [preparePacket_holdPacket hn, stallSubmit, returnPacket, completePacket, if_pos (by simp [State.raise])]
  simp [dropPacket, filter_holdPacket hn, State.raise, State.emit, State.withResult]

/-- Settles O36: of the branches of TX.SUBMIT this is the one at step 4. -/
theorem txSubmitStallsWithoutSpace : Obligations.TxSubmitStallsWithoutSpace := by
  intro p segs cmd s hr hu hreg hh hup hq hseg hne henc hfree
  rw [show exec (.txSubmit p) s = _ from execTxSubmit_admitted p hr hu, if_neg (by simp [hreg]), if_neg (by simp [hh]),
    submitHeld_stalls (s := holdPacket p.h s) hup hq hseg hne henc hfree, stallSubmit_taken hh]

end Sys2Proof.Machine
end

section
/-! SUPPORT. O58: NIC.RX_FILL, what it acts on and the words it leaves (R216, R219). -/

namespace Sys2Proof.Machine

-- One declaration at a time: each thread of the elaborator reserves a stack of its own.
set_option Elab.async false

/-! ### The word stored in `opts1` -/

theorem flag_status1Mask (l : Layout) {q : Nat} (hq : q < 32) : flag (status1Mask l) q =
    !(decide (q = l.own) || decide (q = l.eor) || decide (q = l.fs) || decide (q = l.ls) ||
      flag (fieldMask l.rxlen) q) := by
  have hmask : flag (status1Mask l) q =
      !flag (bit l.own ||| bit l.eor ||| bit l.fs ||| bit l.ls ||| fieldMask l.rxlen) q := by
    simp only [flag, status1Mask, BitVec.getLsbD_not, hq, decide_true, Bool.true_and]
  simp only [hmask, flag_or, flag_bit, hq, decide_true, Bool.true_and]

/-- The packet marks of the word are those given, whatever the status bits are (R219). -/
theorem filledWord_marks {l : Layout} (h : layoutWf l = true) (w : Word) (x : RxStatus) {len : Nat}
    (hlen : len ≤ maxOf l.rxlen.w) :
    flag (filledWord l w x len) l.fs = x.fs ∧ flag (filledWord l w x len) l.ls = x.ls := by
  obtain ⟨-, hfe, hle⟩ := eor_ne_marks h
  obtain ⟨-, -, hfl⟩ := marks_ne h
  obtain ⟨-, -, mfs, mls⟩ := marks_not_rxlen h
  constructor
  · simp [filledWord, flag_flagIf, flag_bit_self (fs_lt h), flag_bit_ne hfe, flag_bit_ne hfl,
      flag_status1Mask l (fs_lt h), flag_putField_of_fits hlen mfs]
  · simp [filledWord, flag_flagIf, flag_bit_self (ls_lt h), flag_bit_ne hle, flag_bit_ne hfl.symm,
      flag_status1Mask l (ls_lt h), flag_putField_of_fits hlen mls]

/-- Under `STATUS1_MASK` stand the status bits given and no other (R219). -/
theorem filledWord_status (l : Layout) (w : Word) (x : RxStatus) {len : Nat} (hlen : len ≤ maxOf l.rxlen.w) :
    filledWord l w x len &&& status1Mask l = x.s1 &&& status1Mask l := by
  refine word_ext fun q hq => ?_
  rw [flag_and, flag_and]
  cases hm : flag (status1Mask l) q with
  | false => rw [Bool.and_false, Bool.and_false]
  | true =>
    have hout := hm
    simp only [flag_status1Mask l hq, Bool.not_eq_true', Bool.or_eq_false_iff, decide_eq_false_iff_not] at hout
    obtain ⟨⟨⟨⟨-, heor⟩, hfs⟩, hls⟩, hfield⟩ := hout
    simp [filledWord, flag_flagIf, flag_bit_ne heor, flag_bit_ne hfs, flag_bit_ne hls,
      flag_putField_of_fits hlen hfield, hm]

variable {s : State} {i : Nat} {frame : List Byte} {x : RxStatus} {d : RxFillDraws} {w : Word} {a : Addr}

/-! ### What it acts on -/

theorem offRings_iff {b len : Nat} : offRings s b len = true ↔ ClearOfRings s b len := by
  simp only [offRings, Bool.or_eq_true, beq_iff_eq, List.all_eq_true, List.mem_append, Option.mem_toList,
    disjoint, decide_eq_true_eq, ClearOfRings]
  constructor
  · exact fun h m hm => h.imp_right fun h => h m hm
  · exact fun h => or_iff_not_imp_left.2 fun hlen m hm => (h m hm).resolve_left hlen

theorem rxFillWord_iff : rxFillWord i d s = some (w, a) ↔ RxFillReads s i d w a := by
  obtain ⟨latch, stale⟩ := d
  rcases stale with _ | ⟨k, _ | j⟩
  · simp only [rxFillWord, RxFillReads, Option.map_eq_some_iff, seenAt_eq_some, Prod.mk.injEq]
    constructor
    · rintro ⟨x, ⟨hown, rfl⟩, rfl, rfl⟩
      exact .inl ⟨trivial, hown, rfl, rfl⟩
    · rintro (⟨-, hown, rfl, rfl⟩ | ⟨_, _, he, -⟩ | ⟨_, _, _, _, he, -⟩)
      · exact ⟨_, ⟨hown, rfl⟩, rfl, rfl⟩
      · cases he
      · cases he
  · have hread : rxFillWord i ⟨latch, some ⟨k, none⟩⟩ s = (seenOf .rx i s)[k]?.map fun x =>
        (x.word, s.descBuf .rx i) := by
      cases hx : (seenOf .rx i s)[k]? <;> simp only [rxFillWord, hx, Option.map_none, Option.map_some]
    rw [hread, Option.map_eq_some_iff]
    constructor
    · rintro ⟨x, hx, he⟩
      cases he
      exact .inr (.inl ⟨k, x, rfl, hx, rfl, rfl⟩)
    · rintro (⟨he, -⟩ | ⟨_, x, he, hx, rfl, rfl⟩ | ⟨_, _, _, _, he, -⟩)
      · cases he
      · cases he
        exact ⟨x, hx, rfl⟩
      · cases he
  · constructor
    · intro h
      dsimp only [rxFillWord] at h
      split at h
      · cases h
      · cases ‹_ = none›
      · rename_i x j' hx he
        cases he
        split at h
        · rename_i hjk
          obtain ⟨z, hz, he⟩ := Option.map_eq_some_iff.1 h
          cases he
          exact .inr (.inr ⟨k, j, x, z, rfl, hjk, hx, hz, rfl, rfl⟩)
        · cases h
    · rintro (⟨he, -⟩ | ⟨_, _, he, -⟩ | ⟨_, _, x, z, he, hjk, hx, hz, rfl, rfl⟩)
      · cases he
      · cases he
      · cases he
        have hx' : (seenOf .rx i s)[k]? = some x := hx
        have hz' : (seenOf .rx i s)[j]? = some z := hz
        simp only [rxFillWord, hx', hz', if_pos hjk, Option.map_some]

/-- The `require` lines and the NIC's discipline, as the statements have them (R216 (f), R219). -/
theorem rxFillEnabled_iff {len : Nat} : rxFillEnabled len x w a s = true ↔ len ≤ getField s.cfg.layout.rxlen w ∧
    (x.fs = true → x.ls = true → s.cfg.fcsLen < len) ∧ ClearOfRings s a.toNat len := by
  simp only [rxFillEnabled, Bool.and_eq_true, decide_eq_true_eq, offRings_iff, and_assoc]
  refine and_congr_right fun _ => and_congr_left fun _ => ?_
  cases x.fs <;> cases x.ls <;> simp

theorem getField_le_maxOf (f : BitField) (v : Word) : getField f v ≤ maxOf f.w :=
  Nat.le_sub_one_of_lt (BitVec.isLt _)

/-! ### Its branches -/

theorem execNicRxFill_of_acting (ha : Acting .nic s) : exec (.nicRxFill i frame x d) s =
    if s.cfg.nRx ≤ i then .next (s.refuse .operandRange)
    else andThen (rxFill i frame x d s) fun t => .next (t.withResult .none) := by
  have hpre : precheck [.nic] .always s = none := precheck_eq_none.2 ⟨by simp [ha.caller], ha.cfg, trivial⟩
  show execNicRxFill i frame x d s = _
  rw [execNicRxFill, guarded_ok hpre ha.overlaps]

/-- NIC.RX_FILL has no move (R216, R219, U13). -/
theorem rxFill_stuck (h : ringProblem s.cfg s.rxMem s.cfg.nRx ≠ none ∨
    ∀ w a, rxFillWord i d s = some (w, a) → rxFillEnabled frame.length x w a s = false) :
    rxFill i frame x d s = .refused .nicNotEnabled := by
  unfold rxFill
  split
  · rfl
  · rename_i hring
    split
    · rfl
    · rename_i w a hwa
      rw [if_pos ((h.resolve_left fun hne => hring (Option.isSome_iff_ne_none.2 hne)) w a hwa)]

/-- What it does with a frame that fits (R219; log entry 26). -/
theorem rxFill_of_fits (hring : ringProblem s.cfg s.rxMem s.cfg.nRx = none) (hwa : rxFillWord i d s = some (w, a))
    (hfit : rxFillEnabled frame.length x w a s = true) : rxFill i frame x d s =
      if 2 ^ 64 < a.toNat + frame.length then .fault .outsideAddressSpace
      else .next (if d.latch then latchCause .rx (forget .rx i (fillDesc i frame x w a s))
        else forget .rx i (fillDesc i frame x w a s)) := by
  rw [rxFill, if_neg (by simp [hring]), hwa]
  simp only [hfit, Bool.true_eq_false, if_false]

/-- The bytes stored: the frame, and over it the two words of the descriptor (R219). -/
theorem fillDesc_reads (hw : s.mem.wf) (hl : OffsetsOk s.cfg.layout) :
    (fillDesc i frame x w a s).desc32 .rx i .opts1 = filledWord s.cfg.layout w x frame.length ∧
    (fillDesc i frame x w a s).desc32 .rx i .opts2 = x.s2 ∧
    ∀ b, ¬ (s.descAddr .rx i .opts1 ≤ b ∧ b < s.descAddr .rx i .opts1 + 4) →
      ¬ (s.descAddr .rx i .opts2 ≤ b ∧ b < s.descAddr .rx i .opts2 + 4) →
      (fillDesc i frame x w a s).mem.read b = (s.mem.writeBytes a.toNat frame).read b := by
  have w0 := Memory.wf_writeBytes hw a.toNat frame
  have w1 := Memory.wf_write32 w0 (s.descAddr .rx i .opts2) x.s2
  have hmem : (fillDesc i frame x w a s).mem = ((s.mem.writeBytes a.toNat frame).write32 (s.descAddr .rx i .opts2)
      x.s2).write32 (s.descAddr .rx i .opts1) (filledWord s.cfg.layout w x frame.length) := rfl
  have hst : Sited s (fillDesc i frame x w a s) := ⟨rfl, rfl, rfl⟩
  have e1 : s.descAddr .rx i .opts1 = (s.base .rx).toNat + 16 * i + s.cfg.layout.offOpts1 := rfl
  have e2 : s.descAddr .rx i .opts2 = (s.base .rx).toNat + 16 * i + s.cfg.layout.offOpts2 := rfl
  have hap := hl.apart12
  simp only [State.desc32, hst.descAddr, hmem]
  refine ⟨Memory.read32_write32 w1 _ _, ?_, fun b h1 h2 => ?_⟩
  · rw [Memory.read32_write32_of_ne w1 _ _ (by omega), Memory.read32_write32 w0]
  · rw [Memory.read_write32_of_ne w1 _ _ (by omega), Memory.read_write32_of_ne w0 _ _ (by omega)]

/-- The state NIC.RX_FILL leaves (R219, R220). -/
theorem rxFill_state : (if d.latch then latchCause .rx (forget .rx i (fillDesc i frame x w a s))
      else forget .rx i (fillDesc i frame x w a s)).withResult .none = { s with
    mem := (fillDesc i frame x w a s).mem
    history := s.history ++ [.nicMemWrite a.toNat frame.length, .nicDescWrite .rx i .opts2 (x.s2.setWidth 64),
      .nicDescWrite .rx i .opts1 ((filledWord s.cfg.layout w x frame.length).setWidth 64)]
    nicSeen := s.nicSeen.filter fun y => decide (¬ (y.ring = .rx ∧ y.index = i))
    irqPending := if d.latch then { s.irqPending with rx := true } else s.irqPending
    result := .none } := by
  have hseen : (forget .rx i s).nicSeen = s.nicSeen.filter fun y => decide (¬ (y.ring = .rx ∧ y.index = i)) :=
    List.filter_congr fun y _ => by rw [Bool.eq_iff_iff]; simp
  have hhist : (fillDesc i frame x w a s).history = s.history ++ [.nicMemWrite a.toNat frame.length,
      .nicDescWrite .rx i .opts2 (x.s2.setWidth 64),
      .nicDescWrite .rx i .opts1 ((filledWord s.cfg.layout w x frame.length).setWidth 64)] := by
    simp [fillDesc]
  rw [← hhist, ← hseen]
  cases d.latch <;> rfl

/-- A fill that fits (R219). -/
theorem execNicRxFill_fills (ha : Acting .nic s) (hi : i < s.cfg.nRx)
    (hring : ringProblem s.cfg s.rxMem s.cfg.nRx = none) (hwa : rxFillWord i d s = some (w, a))
    (hfit : rxFillEnabled frame.length x w a s = true) (htop : a.toNat + frame.length ≤ 2 ^ 64) :
    exec (.nicRxFill i frame x d) s = .next ((if d.latch then latchCause .rx (forget .rx i (fillDesc i frame x w a s))
      else forget .rx i (fillDesc i frame x w a s)).withResult .none) := by
  rw [execNicRxFill_of_acting ha, if_neg (by omega), rxFill_of_fits hring hwa hfit, if_neg (by omega), andThen_next]

/-- Settles O58: the word and the address it acts on are those the statement names, and of what it stores the words of
the descriptor come last. -/
theorem nicRxFillCompletesTheDescriptor : Obligations.NicRxFillCompletesTheDescriptor := by
  intro i frame status d s ha fits
  have hc := cfgOk ha.cfg
  have hfits : ∀ {w a}, rxFillEnabled frame.length status w a s = true ↔ fits w a := rxFillEnabled_iff
  refine ⟨fun hi => ?_, fun hi hno => ?_, fun w a hi hring hreads hfit htop => ?_,
    fun w a hi hring hw hreads hfit htop => ?_⟩
  · rw [execNicRxFill_of_acting ha, if_pos hi]
    rfl
  · rw [execNicRxFill_of_acting ha, if_neg (by omega), rxFill_stuck (hno.imp_right fun h w a hwa => ?_)]
    · rfl
    · exact eq_false_of_ne_true (hfits.not.2 (h w a (rxFillWord_iff.1 hwa)))
  · rw [execNicRxFill_of_acting ha, if_neg (by omega), rxFill_of_fits hring (rxFillWord_iff.2 hreads) (hfits.2 hfit),
      if_pos htop]
    rfl
  · intro l word
    have hlen : frame.length ≤ maxOf l.rxlen.w := hfit.1.trans (getField_le_maxOf _ _)
    obtain ⟨heor, hown, -, hlength⟩ := filledWord_as hc.layout w status hlen
    obtain ⟨hfs, hls⟩ := filledWord_marks hc.layout w status hlen
    obtain ⟨h1, h2, hread⟩ := fillDesc_reads (i := i) (frame := frame) (x := status) (w := w) (a := a) hw
      (offsetsOk hc.layout)
    have hrun := execNicRxFill_fills ha hi hring (rxFillWord_iff.2 hreads) (hfits.2 hfit) htop
    rw [rxFill_state] at hrun
    rw [← h1] at heor hown hlength hfs hls
    refine ⟨_, hrun, hown, h2, heor, hfs, hls, hlength, ?_, fun k hk n1 n2 => ?_, fun b hb n1 n2 => ?_, ?_⟩
    · exact (congrArg (· &&& status1Mask l) h1).trans (filledWord_status l w status hlen)
    · exact (hread _ n1 n2).trans (Memory.read_writeBytes hw _ _ k hk)
    · exact (hread b n1 n2).trans (Memory.read_writeBytes_of_ne hw _ _ (by omega))
    · rw [← h1]
      rfl

end Sys2Proof.Machine
end

section
/-! SUPPORT. O41: an iteration of RX.IRQ on a good frame, and the acquisition that replaces the buffer (R165, R172). -/

namespace Sys2Proof.Machine

-- One declaration at a time: each thread of the elaborator reserves a stack of its own.
set_option Elab.async false

variable {s v : State} {draws acqs : List Acquisition} {x : Acquisition} {h : Handle} {regions : List Region}
  {seg : Segment} {old : RxBuffer} {i len : Nat} {opts : DeliverOpts}

/-! ### Up to the acquisition -/

/-- RX.IRQ past its checks is the first iteration of its pass (R165). -/
theorem execRxIrq_of_ready (hr : Ready .serialized s) (hrx : RxUsable s) (hd : DrawsInRange s.cfg draws) :
    exec (.rxIrq draws) s = andThen (rxNext false (takeDraws draws s)) fun t => .next (t.withResult .none) := by
  obtain ⟨ha, he⟩ := hr
  have hpre : precheck [.serialized] .rx s = none := precheck_eq_none.2 ⟨by simp [ha.caller], ha.cfg, he, hrx⟩
  show execRxIrq draws s = _
  rw [execRxIrq, guarded_ok hpre ha.overlaps, if_neg (by simp [drawsOk_iff.2 hd])]

/-- The state an iteration draws in: the descriptor's two words are read (R165, R167). -/
def drawState (acqs : List Acquisition) (s : State) : State := { s with
  acquisitions := acqs
  history := s.history ++ [.descRead .rx s.rxIndex .opts1, .acquire, .descRead .rx s.rxIndex .opts2] }

/-- An iteration on a good frame draws an acquisition, and re-arms whatever comes of it (R165, R178). -/
theorem rxNext_of_good (d : Bool) (hown : s.nicOwned .rx s.rxIndex = false) (hgood : GoodFrame s s.rxIndex) :
    rxNext d (takeDraws (x :: acqs) s) =
      andThen (acquire s.rxIndex x (frameLen s s.rxIndex) (frameOpts s s.rxIndex) (drawState acqs s)) fun r =>
        .next ((rearmAdvance r.1).pushWork [.rxNext (d || r.2)]) := by
  obtain ⟨hwhole, hlong, hfits⟩ := hgood
  have hlen : badRxLength s.cfg (s.desc32 .rx s.rxIndex .opts1) = false := by
    simp only [badRxLength, Bool.or_eq_false_iff, decide_eq_false_iff_not]
    omega
  have hhandle : handleRx ((takeDraws (x :: acqs) s).noteRead .rx s.rxIndex .opts1) =
      acquire s.rxIndex x (frameLen s s.rxIndex) (frameOpts s s.rxIndex) (drawState acqs s) := by
    unfold handleRx
    dsimp only
    have hstate : { ((((takeDraws (x :: acqs) s).noteRead .rx s.rxIndex .opts1).emit .acquire).noteRead .rx
        s.rxIndex .opts2) with acquisitions := acqs } = drawState acqs s := by
      simp [drawState, takeDraws, State.noteRead, State.emit]
    exact (if_neg (ne_true_of_eq_false hwhole)).trans ((if_neg (ne_true_of_eq_false hlen)).trans (congrArg _ hstate))
  have hown' : ((takeDraws (x :: acqs) s).noteRead .rx s.rxIndex .opts1).nicOwned .rx s.rxIndex = false := hown
  rw [rxNext]
  exact (if_neg (by simpa using hown')).trans (congrArg (andThen · _) hhandle)

/-! ### The replacement (R172) -/

/-- Live memory and a handle already out are no move of the allocator (R57, R171, H8, U3). -/
theorem acquireReplaced_unlawful (hok : regionsOk s.cfg regions = true) (hbad : h ∈ s.heldBuffers ∨
    ∃ seg, segmentRx s.cfg regions = some seg ∧ ∃ m ∈ liveMems s, ¬ memsApart ⟨seg.addr, seg.len, .prepared⟩ m) :
    acquireReplaced i old h regions len opts s = .refused .unlawfulDraw := by
  unfold acquireReplaced
  by_cases hh : h ∈ s.heldBuffers
  · rw [if_pos (eq_false_of_ne_true (handleFresh_iff.not.2 (not_not.2 hh)))]
  · obtain ⟨seg, hseg, m, hm, hnot⟩ := hbad.resolve_left hh
    have hlive : memFresh s seg.addr.toNat seg.len = false :=
      eq_false_of_ne_true fun hf => hnot (memFresh_iff.1 hf m hm)
    have hlive' : memFresh (holdBuffer h s) seg.addr.toNat seg.len = false := hlive
    rw [if_neg (by simp [handleFresh_iff.2 hh]), drawnSegment_of_ok hok, hseg]
    exact if_pos hlive'

/-- A fresh buffer of one segment takes the slot, and the filled one is delivered (R172). -/
theorem acquireReplaced_fresh (hok : regionsOk s.cfg regions = true) (hh : h ∉ s.heldBuffers)
    (hseg : segmentRx s.cfg regions = some seg)
    (hlive : ∀ m ∈ liveMems s, memsApart ⟨seg.addr, seg.len, .prepared⟩ m) :
    acquireReplaced i old h regions len opts s = .next ({ s with
      rxSlot := s.rxSlot.set i (some ⟨h, ⟨seg.addr, seg.len, .prepared⟩⟩)
      heldBuffers := (h :: s.heldBuffers).erase old.h
      history := s.history ++ [.dmaPrepare (.buffer h), .dmaComplete (.buffer old.h),
        .deliverPacket old.h len opts] }, true) := by
  have hfree : memFresh (holdBuffer h s) seg.addr.toNat seg.len = true := memFresh_iff.2 hlive
  rw [acquireReplaced, if_neg (by simp [handleFresh_iff.2 hh]), drawnSegment_of_ok hok, hseg]
  refine (if_neg (ne_false_of_eq_true hfree)).trans ?_
  simp [replaceBuffer, deliver, State.emit, holdBuffer, bufferOf]

/-! ### The re-arm and the advance (R178) -/

/-- The state an iteration ends in, when what precedes the re-arm left `v`. -/
def iterationEnd (d : Bool) (v : State) : State := ((rearmAdvance v).pushWork [.rxNext d]).withResult .none

/-- What the end of an iteration does to the ring, seen from its begin. -/
theorem iterationEnd_rearmedFrom (d : Bool) (hw : s.mem.wf) (hl : OffsetsOk s.cfg.layout) (hst : Sited s v)
    (hm : v.mem = s.mem) (hi : v.rxIndex = s.rxIndex) : RearmedFrom s (iterationEnd d v) := by
  have hwv : v.mem.wf := by rwa [hm]
  have hlv : OffsetsOk v.cfg.layout := by rwa [hst.cfg]
  have hmem : (iterationEnd d v).mem = (rearm v.rxIndex v).mem := by simp [iterationEnd, rearmAdvance]
  have hsite : Sited v (iterationEnd d v) := by constructor <;> simp [iterationEnd]
  have harm : ArmedAt (iterationEnd d v) v.rxIndex := (rearm_armed hwv hlv v.rxIndex).congr
    ((rearm_sited _ _).symm.trans hsite) (by rwa [(rearm_sited ..).cfg]) (by simp [iterationEnd]) fun a _ => by rw [hmem]
  refine ⟨by rwa [hi] at harm, fun a ha => ?_, by simp [iterationEnd, rearmAdvance, hi, hst.cfg]⟩
  have hne : ¬ v.inDesc .rx v.rxIndex a := by rwa [hi, hst.inDesc]
  rw [hmem, rearm_read_of_ne hwv hlv hne, hm]

/-- The stores of the re-arm are all it records, and none of them is a delivery or a flush. -/
theorem iterationEnd_history (d : Bool) (v : State) :
    ∃ l, (iterationEnd d v).history = v.history ++ l ∧ ∀ e ∈ l, quiet e = true :=
  ⟨_, writeDesc_history .., fun e he => (writeEvents_quiet _ _ _ _ _ _ _ e he).1⟩

theorem iterationEnd_shape (d : Bool) (v : State) : iterationEnd d v = { v with
    mem := (iterationEnd d v).mem, history := (iterationEnd d v).history, rxIndex := (iterationEnd d v).rxIndex
    work := .rxNext d :: v.work, result := .none } := by
  obtain ⟨mem, hist, h⟩ := rearmAdvance_shape v
  rw [iterationEnd, h]
  rfl

/-- Settles O41: the iteration is the acquisition that replaces the buffer, and the re-arm of what it leaves. -/
theorem rxIrqReplacesTheBuffer : Obligations.RxIrqReplacesTheBuffer := by
  constructor
  · intro h regions acqs s hr hrx hi hown hgood hd hbad
    obtain ⟨old, hold, -⟩ := rxSlot_some hrx hi
    have hold' : (drawState acqs s).rxBuf s.rxIndex = some old := hold
    rw [execRxIrq_of_ready hr hrx hd, rxNext_of_good false hown hgood, acquire]
    simp only [hold']
    rw [acquireReplaced_unlawful (s := drawState acqs s) (hd h regions List.mem_cons_self) hbad]
    rfl
  · intro h regions acqs seg old s hr hrx hw hi hown hgood hold hh hd hseg hlive
    have hold' : (drawState acqs s).rxBuf s.rxIndex = some old := hold
    have hacq := acquireReplaced_fresh (s := drawState acqs s) (i := s.rxIndex) (old := old)
      (len := frameLen s s.rxIndex) (opts := frameOpts s s.rxIndex) (hd h regions List.mem_cons_self) hh hseg hlive
    generalize hv : State.mk .. = v at hacq
    have hrun : exec (.rxIrq (.replaced h regions :: acqs)) s =
        .next (iterationEnd true v) := by
      rw [execRxIrq_of_ready hr hrx hd, rxNext_of_good false hown hgood, acquire]
      simp only [hold', hacq]
      rfl
    have hvm : v.mem = s.mem := by rw [← hv]; rfl
    have hvi : v.rxIndex = s.rxIndex := by rw [← hv]; rfl
    have hvs : Sited s v := by rw [← hv]; exact ⟨rfl, rfl, rfl⟩
    obtain ⟨l, hl, hq⟩ := iterationEnd_history true v
    refine ⟨_, [.descRead .rx s.rxIndex .opts1, .acquire, .descRead .rx s.rxIndex .opts2, .dmaPrepare (.buffer h),
      .dmaComplete (.buffer old.h), .deliverPacket old.h (frameLen s s.rxIndex) (frameOpts s s.rxIndex)] ++ l, hrun,
      iterationEnd_rearmedFrom true hw (offsetsOk (cfgOk hr.1.cfg).layout) hvs hvm hvi, ?_, ?_, ?_, by simp, by simp, ?_⟩
    · rw [hl, ← hv]
      simp [drawState]
    · rw [deliveries_append, deliveries_quiet hq]
      rfl
    · intro hm
      rcases List.mem_append.1 hm with hm | hm
      · simp at hm
      · cases hq _ hm
    · rw [iterationEnd_shape, ← hv]
      simp [drawState, hr.1.alone rfl]

end Sys2Proof.Machine
end

section
/-! SUPPORT. O50: RESET.FULL as a whole, its first step and the one that does the rest (R190). -/

namespace Sys2Proof.Machine

-- One declaration at a time: each thread of the elaborator reserves a stack of its own.
set_option Elab.async false

variable {s t v : State}

/-! ### Without the statistics memory (R59; log entry 41) -/

theorem initProblem_eq_notPrepared (h : ¬ InitUsable s) : initProblem s = some .notPrepared := by
  obtain ⟨hat, hst⟩ := Classical.not_imp.1 h
  rw [initProblem, if_pos hat]
  unfold StUsable at hst
  unfold stProblem at hst ⊢
  split at hst
  · split at hst
    · exact absurd rfl hst
    · rename_i hp
      exact if_neg hp
  · rfl

/-- What an operation that may come to reset the NIC is refused with (R236). -/
theorem precheck_both_notPrepared (hr : Ready .serialized s) (ht : TxUsable s) (hrx : RxUsable s) (h : ¬ InitUsable s) :
    precheck [.serialized] .both s = some .notPrepared := by
  obtain ⟨ha, he⟩ := hr
  unfold TxUsable at ht
  unfold RxUsable at hrx
  simp [precheck, ha.caller, ha.cfg, he, ht, hrx, initProblem_eq_notPrepared h]

/-! ### The two clears (R116, R117) -/

/-- Both rings after the NIC's reset: what they hold and what is left alone (R190 steps 2 to 4). -/
theorem resetRings_effect (hw : s.mem.wf) (hl : OffsetsOk s.cfg.layout) (hap : ∀ a, s.inRing .tx a → ¬ s.inRing .rx a)
    (hv : clearTx (nicReset (flushQueue s)) = .next v) (hst : Sited (clearRx v) t) (hm : t.mem = (clearRx v).mem)
    (hslots : t.txSlot = v.txSlot) (hbufs : t.rxSlot = v.rxSlot) :
    (∀ i < s.cfg.nTx, ClearedAt t i ∧ t.txPkt i = none) ∧ (∀ i < s.cfg.nRx, ArmedAt t i) ∧
      ∀ a, ¬ s.inRing .tx a → ¬ s.inRing .rx a → t.mem.read a = s.mem.read a := by
  obtain ⟨hwv, hsv, hread, hclr, hpkt⟩ := clearTx_effect (s := nicReset (flushQueue s)) hw hl hv
  have hsv : Sited s v := ⟨hsv.cfg, hsv.tx, hsv.rx⟩
  have hlv : OffsetsOk v.cfg.layout := by rw [hsv.cfg]; exact hl
  obtain ⟨-, hsu, hout, harm⟩ := clearRx_effect (s := v) hwv hlv
  refine ⟨fun i hi => ⟨(hclr i hi).congr (hsu.trans hst) hlv fun a ha => ?_, ?_⟩, fun i hi => ?_, fun a htx hrx => ?_⟩
  · rw [hm]
    refine hout a fun hrx => ?_
    rw [hsv.inDesc] at ha
    rw [hsv.inRing] at hrx
    exact hap a (inRing_of_inDesc (ring := .tx) hi ha) hrx
  · have hnone : v.txPkt i = none := (hpkt i).trans (if_pos hi)
    rw [State.txPkt, hslots]
    exact hnone
  · exact (harm i (by rw [hsv.cfg]; exact hi)).congr hst (by rw [hsu.cfg]; exact hlv) (by rw [hbufs, clearRx_rxSlot])
      fun a _ => by rw [hm]
  · rw [hm, hout a (by rw [hsv.inRing]; exact hrx)]
    exact hread a htx

/-! ### The step that does the rest (R190) -/

/-- RESET.FULL from its upcall on goes through, its events in order and all it leaves named (R190). -/
theorem fullReset_effect (hw : s.mem.wf) (hl : OffsetsOk s.cfg.layout) (hap : ∀ a, s.inRing .tx a → ¬ s.inRing .rx a)
    (hlen : s.txSlot.length = s.cfg.nTx) (hi : HandleInv s) :
    ∃ t l, fullReset s = .next t ∧ (∀ i < s.cfg.nTx, ClearedAt t i ∧ t.txPkt i = none) ∧
      (∀ i < s.cfg.nRx, ArmedAt t i) ∧
      (∀ a, ¬ s.inRing .tx a → ¬ s.inRing .rx a → t.mem.read a = s.mem.read a) ∧
      t.history = s.history ++ [.stopAndFlushQueue, .nicReset] ++ l ++ finishEvents s ∧
      freedPackets l = packetsIn s ∧
      t = { s with
        mem := t.mem, history := t.history, heldPackets := t.heldPackets, txSlot := t.txSlot, nicSeen := []
        txqEnabled := s.link.up || s.txqEnabled, rxIndex := 0, statsPending := false
        txPending := none, txNext := 0, txDirty := 0, txFree := s.cfg.nTx, txStalled := false
        txDoneCount := 0, txDoneLast := 0, deadlockWarn := 0, txUnsubmitted := []
        irqPending := ⟨false, false, false, false⟩, nicTxBusy := none
        regs := resetRegs s, freeCount := s.freeCount + 3 } := by
  obtain ⟨v, l, hv, hhist, hfreed, -⟩ := clearTx_completes (s := nicReset (flushQueue s)) hlen
    ⟨hi.packetsOnce, hi.packetsHeld, hi.buffersOnce, hi.buffersHeld⟩ fun _ _ => nofun
  obtain ⟨mem, hist, slots, held, hshape⟩ := clearTx_shape hv
  obtain ⟨l', hhist', hquiet⟩ := clearRx_history v
  obtain ⟨mem', hist', hshape'⟩ := clearRx_shape v
  have hbase : ∀ r, (clearRx v).base r = s.base r := by rw [hshape', hshape]; exact fun r => by cases r <;> rfl
  have hst : Sited (clearRx v) (finishReset (clearRx v)) := by rw [finishReset_eq]; exact ⟨rfl, rfl, rfl⟩
  have hevents : finishEvents (clearRx v) = finishEvents s := by rw [hshape', hshape]; rfl
  obtain ⟨hclr, harm, hbytes⟩ := resetRings_effect hw hl hap hv hst (by rw [finishReset_eq])
    (by rw [finishReset_eq]; exact clearRx_txSlot v) (by rw [finishReset_eq]; exact clearRx_rxSlot v)
  refine ⟨_, l ++ l', by rw [fullReset_eq, hv]; rfl, hclr, harm, hbytes, ?_, ?_, ?_⟩
  · rw [finishReset_eq]
    show (clearRx v).history ++ _ = _
    rw [hevents, hhist', hhist]
    simp [nicReset, flushQueue, State.emit]
  · rw [freedPackets_append, freedPackets_eq_nil fun e he => (hquiet e he).2, List.append_nil]
    exact hfreed
  · rw [finishReset_eq, hshape', hshape]
    simp only [Bool.if_true_left, Bool.decide_eq_true, resetRegs, statsBase_eq]
    rfl

/-! ### The operation -/

/-- The first step closes the queue and leaves the rest as a task (R189, R190; log entry 14). -/
theorem execResetFull_begins (hr : Ready .serialized s) (ht : TxUsable s) (hrx : RxUsable s) (hini : InitUsable s) :
    exec .resetFull s = .next { s with txqEnabled := false, work := [.resetRest .none], result := .none } := by
  obtain ⟨ha, he⟩ := hr
  have hpre : precheck [.serialized] .both s = none :=
    precheck_eq_none.2 ⟨by simp [ha.caller], ha.cfg, he, ht, hrx, hini⟩
  show execResetFull s = _
  rw [execResetFull, guarded_ok hpre ha.overlaps]
  simp [beginReset, closeQueue, State.pushWork, State.withResult, ha.alone rfl]

/-- The state the second step starts from, nothing having come between. -/
def queueClosed (s : State) : State := { s with
  txqEnabled := false, work := [], caller := .serialized, result := .none }

theorem runWork_resetRest (s : State) :
    runWork 1 { s with txqEnabled := false, work := [.resetRest .none], result := .none } =
      andThen (fullReset (queueClosed s)) fun t => .next (t.withResult .none) := by
  have hgo := goOn_of_work (s := { s with txqEnabled := false, work := [.resetRest .none], result := .none }) rfl
  rw [runWork, hgo]
  show andThen (andThen (fullReset (queueClosed s)) _) _ = _
  cases fullReset (queueClosed s) <;> rfl

/-- Settles O50: without the statistics memory the guard refuses; with it the second step does the rest. -/
theorem fullResetReestablishesBothRings : Obligations.FullResetReestablishesBothRings := by
  refine ⟨fun i s hi hr ht hrx hini => ?_, fun s hr ht hrx hini hw hlen hinv hrings => ?_⟩
  · have hpre := precheck_both_notPrepared hr ht hrx hini
    rcases hi with rfl | rfl | ⟨draws, rfl⟩
    · exact exec_refused (i := .resetFull) hpre
    · exact exec_refused (i := .txDlchk) hpre
    · exact exec_refused (i := .irq draws) hpre
  · have hbegin := execResetFull_begins hr ht hrx hini
    obtain ⟨t, l, hrun, hclr, harm, hbytes, hhist, hfreed, hstate⟩ := fullReset_effect (s := queueClosed s) hw
      (offsetsOk (cfgOk hr.1.cfg).layout) (fun _ => rings_apart hrings ht hrx) hlen
      ⟨hinv.packetsOnce, hinv.packetsHeld, hinv.buffersOnce, hinv.buffersHeld⟩
    refine ⟨hbegin, t.withResult .none, l, ?_, fun i hi => ?_, fun i hi => ?_, hbytes, ?_, hfreed, ?_⟩
    · rw [execWhole, hbegin, andThen_next, runWork_resetRest, hrun, andThen_next]
    · obtain ⟨⟨h1, h2, h3⟩, hnone⟩ := hclr i hi
      exact ⟨⟨h1, h2, h3⟩, hnone⟩
    · obtain ⟨h1, h2, h3⟩ := harm i hi
      exact ⟨h1, h2, h3⟩
    · refine hhist.trans ?_
      rw [show finishEvents (queueClosed s) = finishEvents s from rfl, finishEvents]
      simp only [List.append_assoc]
      rfl
    · have hregs : t.regs = resetRegs s := congrArg State.regs hstate
      have hkept : (⟨allCauses s.cfg.reg, s.base .tx, s.base .rx,
          if s.cfg.reg.statsAtInit then statsAddr s else t.regs.statsBase⟩ : NicRegs) = resetRegs s := by
        rw [hregs, resetRegs, statsBase_eq]
        split <;> rfl
      have hfree : t.freeCount = s.freeCount + 3 := congrArg State.freeCount hstate
      refine (congrArg (fun t : State => t.withResult .none) hstate).trans ?_
      simp only [State.withResult, hkept, hfree, queueClosed, Bool.or_false, hr.1.caller, hr.1.alone rfl]
      rfl

end Sys2Proof.Machine
end

section
/-! SUPPORT. O55: ENABLE with an allocation that fails, and its unwinding (R200, R201). -/

namespace Sys2Proof.Machine

-- One declaration at a time: each thread of the elaborator reserves a stack of its own.
set_option Elab.async false

variable {s u : State} {d : EnableDraws} {tx rx st : Addr} {bufs : List (BufferDraw × Segment)} {l : List Event}

theorem execEnable_outOfRange (ha : Acting .host s) (hoff : s.enabled = false) (hin : ¬ BufsInRange s.cfg d) :
    exec (.enable d) s = .next (s.refuse .operandRange) := by
  have hpre : precheck [.host] .always s = none := precheck_eq_none.2 ⟨by simp [ha.caller], ha.cfg, trivial⟩
  have hbad : bufsOk s.cfg d = false := eq_false_of_ne_true (bufsOk_iff.not.2 hin)
  show execEnable d s = _
  rw [execEnable, guarded_ok hpre ha.overlaps, if_neg (by simp [hoff]), if_pos hbad]

theorem allocDma_of_fails {draw : Option Addr} {size align : Nat} (h : AllocFails draw size align) :
    allocDma size align draw = none := by
  cases draw with
  | none => rfl
  | some a => exact if_pos (by simpa [allocBad] using h a rfl)

/-! ### Steps E1 to E3 -/

/-- The memories E1 to E3 acquire. -/
def txRingAt (c : Cfg) (tx : Addr) : DmaMem := ⟨tx, descSize * c.nTx, .prepared⟩
def rxRingAt (c : Cfg) (rx : Addr) : DmaMem := ⟨rx, descSize * c.nRx, .prepared⟩
def statsAt (c : Cfg) (st : Addr) : DmaMem := ⟨st, c.statsSize, .prepared⟩

/-- What E1 leaves of a disabled block. -/
def afterTxRing (s : State) (tx : Addr) : State := { s with
  txMem := some (txRingAt s.cfg tx), rxMem := none, stMem := none, rxSlot := [], heldBuffers := []
  history := s.history ++ [.dmaPrepare .txRing] }

/-- What E2 leaves. -/
def afterRxRing (s : State) (tx rx : Addr) : State := { s with
  txMem := some (txRingAt s.cfg tx), rxMem := some (rxRingAt s.cfg rx), stMem := none, rxSlot := [], heldBuffers := []
  history := s.history ++ [.dmaPrepare .txRing] ++ [.dmaPrepare .rxRing] }

/-- What E3 leaves. -/
def afterStats (s : State) (tx rx st : Addr) : State := { s with
  txMem := some (txRingAt s.cfg tx), rxMem := some (rxRingAt s.cfg rx), stMem := some (statsAt s.cfg st)
  rxSlot := [], heldBuffers := []
  history := s.history ++ [.dmaPrepare .txRing] ++ [.dmaPrepare .rxRing] ++ [.dmaPrepare .stats] }

theorem liveMems_afterTxRing (s : State) (tx : Addr) : liveMems (afterTxRing s tx) = [txRingAt s.cfg tx] := rfl

theorem liveMems_afterRxRing (s : State) (tx rx : Addr) :
    liveMems (afterRxRing s tx rx) = [txRingAt s.cfg tx, rxRingAt s.cfg rx] := rfl

/-- A drawn memory is lawful where it is apart from all that is live (R57, H8). -/
theorem dmaLawful_iff {m : DmaMem} : dmaLawful s m = true ↔ ∀ n ∈ liveMems s, memsApart m n := memFresh_iff

theorem enableFrom_of_fails (h : AllocFails d.tx (descSize * s.cfg.nTx) s.cfg.ringAlign) :
    enableFrom d (dropUnspecified s) = .next (fatalInit (dropUnspecified s)) := by
  have hn : allocDma (descSize * (dropUnspecified s).cfg.nTx) (dropUnspecified s).cfg.ringAlign d.tx = none :=
    allocDma_of_fails h
  rw [enableFrom, hn]

theorem enableFrom_of_gives (h : AllocGives d.tx (descSize * s.cfg.nTx) s.cfg.ringAlign tx) :
    enableFrom d (dropUnspecified s) = enableRxRing d (afterTxRing s tx) := by
  have hm : allocDma (descSize * (dropUnspecified s).cfg.nTx) (dropUnspecified s).cfg.ringAlign d.tx =
    some (txRingAt s.cfg tx) := allocDma_of_gives h
  rw [enableFrom, hm]
  rfl

theorem enableRxRing_of_fails (h : AllocFails d.rx (descSize * s.cfg.nRx) s.cfg.ringAlign) :
    enableRxRing d (afterTxRing s tx) = fail2 (afterTxRing s tx) := by
  have hn : allocDma (descSize * (afterTxRing s tx).cfg.nRx) (afterTxRing s tx).cfg.ringAlign d.rx = none :=
    allocDma_of_fails h
  rw [enableRxRing, hn]

/-- Step E2 with a base that is aligned: the two rings apart or not is the question (H8, U3). -/
theorem enableRxRing_of_gives (h : AllocGives d.rx (descSize * s.cfg.nRx) s.cfg.ringAlign rx) :
    (memsApart (rxRingAt s.cfg rx) (txRingAt s.cfg tx) →
      enableRxRing d (afterTxRing s tx) = enableStats d (afterRxRing s tx rx)) ∧
    (¬ memsApart (rxRingAt s.cfg rx) (txRingAt s.cfg tx) →
      enableRxRing d (afterTxRing s tx) = .refused .unlawfulDraw) := by
  have hm : allocDma (descSize * (afterTxRing s tx).cfg.nRx) (afterTxRing s tx).cfg.ringAlign d.rx =
    some (rxRingAt s.cfg rx) := allocDma_of_gives h
  have hlaw : dmaLawful (afterTxRing s tx) (rxRingAt s.cfg rx) = true ↔
      memsApart (rxRingAt s.cfg rx) (txRingAt s.cfg tx) := by
    rw [dmaLawful_iff, liveMems_afterTxRing, List.forall_mem_singleton]
  rw [enableRxRing, hm]
  exact ⟨fun hap => if_neg (ne_false_of_eq_true (hlaw.2 hap)), fun hno => if_pos (eq_false_of_ne_true (hlaw.not.2 hno))⟩

theorem enableStats_of_fails (h : AllocFails d.st s.cfg.statsSize s.cfg.statsAlign) :
    enableStats d (afterRxRing s tx rx) = fail3 (afterRxRing s tx rx) := by
  have hn : allocDma (afterRxRing s tx rx).cfg.statsSize (afterRxRing s tx rx).cfg.statsAlign d.st = none :=
    allocDma_of_fails h
  rw [enableStats, hn]

/-- Step E3 with a base that is aligned. -/
theorem enableStats_of_gives (h : AllocGives d.st s.cfg.statsSize s.cfg.statsAlign st) :
    (memsApart (statsAt s.cfg st) (txRingAt s.cfg tx) ∧ memsApart (statsAt s.cfg st) (rxRingAt s.cfg rx) →
      enableStats d (afterRxRing s tx rx) = enableBuffers d.bufs (afterStats s tx rx st)) ∧
    (¬ (memsApart (statsAt s.cfg st) (txRingAt s.cfg tx) ∧ memsApart (statsAt s.cfg st) (rxRingAt s.cfg rx)) →
      enableStats d (afterRxRing s tx rx) = .refused .unlawfulDraw) := by
  have hm : allocDma (afterRxRing s tx rx).cfg.statsSize (afterRxRing s tx rx).cfg.statsAlign d.st =
    some (statsAt s.cfg st) := allocDma_of_gives h
  have hlaw : dmaLawful (afterRxRing s tx rx) (statsAt s.cfg st) = true ↔
      memsApart (statsAt s.cfg st) (txRingAt s.cfg tx) ∧ memsApart (statsAt s.cfg st) (rxRingAt s.cfg rx) := by
    rw [dmaLawful_iff, liveMems_afterRxRing, List.forall_mem_cons, List.forall_mem_singleton]
  rw [enableStats, hm]
  exact ⟨fun hap => if_neg (ne_false_of_eq_true (hlaw.2 hap)), fun hno => if_pos (eq_false_of_ne_true (hlaw.not.2 hno))⟩

/-! ### Step E4 -/

/-- What the first buffers of E4 leave: each in its slot, the other slots empty (R200). -/
def afterBuffers (s : State) (tx rx st : Addr) (bufs : List (BufferDraw × Segment)) : State := { s with
  txMem := some (txRingAt s.cfg tx), rxMem := some (rxRingAt s.cfg rx), stMem := some (statsAt s.cfg st)
  rxSlot := bufs.map drawnSlot ++ List.replicate (s.cfg.nRx - bufs.length) none
  heldBuffers := (bufs.map fun b => b.1.h).reverse
  history := s.history ++ [.dmaPrepare .txRing] ++ [.dmaPrepare .rxRing] ++ [.dmaPrepare .stats] ++
    bufs.map fun b => .dmaPrepare (.buffer b.1.h) }

@[simp] theorem afterBuffers_cfg (s : State) (tx rx st : Addr) (bufs : List (BufferDraw × Segment)) :
    (afterBuffers s tx rx st bufs).cfg = s.cfg := rfl

theorem liveMems_afterBuffers (s : State) (tx rx st : Addr) (bufs : List (BufferDraw × Segment)) :
    liveMems (afterBuffers s tx rx st bufs) =
      txRingAt s.cfg tx :: rxRingAt s.cfg rx :: statsAt s.cfg st :: bufs.map drawnMem := by
  have hslots : (bufs.map drawnSlot).filterMap (Option.map RxBuffer.mem) = bufs.map drawnMem := by
    rw [List.filterMap_map]
    exact congrFun List.filterMap_eq_map bufs
  simp [liveMems, afterBuffers, hslots]

/-- The draws stay lawful without the last buffer. -/
theorem EnableTakes.init {c : Cfg} {b : BufferDraw × Segment} (h : EnableTakes d c tx rx st (bufs ++ [b])) :
    EnableTakes d c tx rx st bufs where
  txDraw := h.txDraw
  rxDraw := h.rxDraw
  stDraw := h.stDraw
  drawn := by
    have hd := congrArg (List.take bufs.length) h.drawn
    simpa [List.take_take] using hd
  segment := fun x hx => h.segment x (List.mem_append_left _ hx)
  handles := h.handles.sublist (by simp)
  apart := h.apart.sublist (by simp)

/-- The draw of the last buffer. -/
theorem EnableTakes.last {c : Cfg} {b : BufferDraw × Segment} (h : EnableTakes d c tx rx st (bufs ++ [b])) :
    d.bufs.getD bufs.length none = some b.1 := by
  have hd := congrArg (fun l => l.getD bufs.length none) h.drawn
  simpa using hd

/-- The handle of the last buffer is none of those before it (R171). -/
theorem EnableTakes.last_fresh {c : Cfg} {b : BufferDraw × Segment} (h : EnableTakes d c tx rx st (bufs ++ [b])) :
    b.1.h ∉ (bufs.map fun b => b.1.h).reverse := by
  have hn := h.handles
  rw [List.map_append, List.nodup_append] at hn
  exact fun hm => hn.2.2 _ (List.mem_reverse.1 hm) _ (by simp) rfl

/-- Its memory is apart from all acquired before it (R57). -/
theorem EnableTakes.last_apart {b : BufferDraw × Segment} (h : EnableTakes d s.cfg tx rx st (bufs ++ [b])) :
    ∀ m ∈ liveMems (afterBuffers s tx rx st bufs), memsApart m (drawnMem b) := by
  have hp := h.apart
  rw [List.map_append, ← List.cons_append, ← List.cons_append, ← List.cons_append] at hp
  rw [liveMems_afterBuffers]
  exact fun m hm => (List.pairwise_append.1 hp).2.2 m hm _ (by simp [drawnMem])

theorem afterBuffers_append (s : State) (tx rx st : Addr) {bufs : List (BufferDraw × Segment)} (b : BufferDraw × Segment)
    (hlt : bufs.length < s.cfg.nRx) : { holdBuffer b.1.h (afterBuffers s tx rx st bufs) with
      rxSlot := (afterBuffers s tx rx st bufs).rxSlot.set bufs.length (drawnSlot b) } =
    afterBuffers s tx rx st (bufs ++ [b]) := by
  obtain ⟨k, hk⟩ : ∃ k, s.cfg.nRx - bufs.length = k + 1 := ⟨s.cfg.nRx - bufs.length - 1, by omega⟩
  have hk' : s.cfg.nRx - (bufs.length + 1) = k := by omega
  have hset : (bufs.map drawnSlot ++ List.replicate (k + 1) none).set bufs.length (drawnSlot b) =
      bufs.map drawnSlot ++ drawnSlot b :: List.replicate k none := by
    rw [List.replicate_succ]
    simp
  simp [afterBuffers, holdBuffer, hk, hk', hset]

/-- One more buffer (R200 E4). -/
theorem fillSlot_afterBuffers {b : BufferDraw × Segment} (h : EnableTakes d s.cfg tx rx st (bufs ++ [b]))
    (hlt : bufs.length < s.cfg.nRx) : fillSlot bufs.length (some b.1) (afterBuffers s tx rx st bufs) =
      .next (afterBuffers s tx rx st (bufs ++ [b]), true) := by
  obtain ⟨hok, hseg⟩ := h.segment b (by simp)
  have hseg' : drawnSegment (afterBuffers s tx rx st bufs).cfg b.1.regions = some b.2 := by
    rw [afterBuffers_cfg, drawnSegment_of_ok hok, hseg]
  rw [fillSlot_given hseg' h.last_fresh h.last_apart, afterBuffers_append s tx rx st b hlt]

/-- Step E4 goes through the buffers it is given, and on from there (R200). -/
theorem fillSlots_afterBuffers {k : Nat} (h : EnableTakes d s.cfg tx rx st bufs) (hlen : bufs.length + k ≤ s.cfg.nRx) :
    fillSlots (bufs.length + k) 0 d.bufs (afterBuffers s tx rx st []) =
      fillSlots k bufs.length (d.bufs.drop bufs.length) (afterBuffers s tx rx st bufs) := by
  induction bufs using List.reverseRecOn generalizing k with
  | nil => simp
  | append_singleton bufs b ih =>
    have hlen' : (bufs ++ [b]).length = bufs.length + 1 := by simp
    have hdraw : (d.bufs.drop bufs.length).headD none = some b.1 := by
      rw [← h.last]
      simp [List.getD_eq_getElem?_getD]
    rw [hlen', Nat.add_right_comm, Nat.add_assoc, ih h.init (by omega), fillSlots, hdraw,
      fillSlot_afterBuffers h (by omega)]
    simp

/-- What becomes of E4 is decided by the draw behind the buffers it is given. -/
theorem enableBuffers_afterStats (h : EnableTakes d s.cfg tx rx st bufs) (hlt : bufs.length < s.cfg.nRx) :
    (∀ {u}, fillSlot bufs.length (d.bufs.getD bufs.length none) (afterBuffers s tx rx st bufs) = .next (u, false) →
      enableBuffers d.bufs (afterStats s tx rx st) = fail4 bufs.length u) ∧
    ∀ {r}, fillSlot bufs.length (d.bufs.getD bufs.length none) (afterBuffers s tx rx st bufs) = .refused r →
      enableBuffers d.bufs (afterStats s tx rx st) = .refused r := by
  obtain ⟨k, hk⟩ : ∃ k, s.cfg.nRx = bufs.length + (k + 1) := ⟨s.cfg.nRx - bufs.length - 1, by omega⟩
  have hstart : { afterStats s tx rx st with rxSlot := List.replicate (afterStats s tx rx st).cfg.nRx none } =
      afterBuffers s tx rx st [] := by
    simp [afterBuffers, afterStats]
  have hdraw : (d.bufs.drop bufs.length).headD none = d.bufs.getD bufs.length none := by
    simp [List.getD_eq_getElem?_getD]
  have hrun : enableBuffers d.bufs (afterStats s tx rx st) =
      andThen (fillSlots (k + 1) bufs.length (d.bufs.drop bufs.length) (afterBuffers s tx rx st bufs)) fun r =>
        match r.2 with
        | some i => fail4 i r.1
        | none => bringUp r.1 := by
    rw [enableBuffers, hstart, ← fillSlots_afterBuffers h hk.ge, ← hk]
    rfl
  rw [hrun, fillSlots, hdraw]
  exact ⟨fun hf => by rw [hf]; rfl, fun hf => by rw [hf]; rfl⟩

/-! ### The unwinding (R201) -/

/-- What a failed ENABLE leaves when `l` is what it recorded before it raised. -/
def unwound (s : State) (slots : List (Option RxBuffer)) (l : List Event) : State := { s with
  txMem := none, rxMem := none, stMem := none, rxSlot := slots, heldBuffers := []
  history := s.history ++ l ++ [.raised .fatalInit], result := .fatalInit }

def freedTxRing : List Event := [.dmaComplete .txRing, .freeDma .txRing]
def freedRxRing : List Event := [.dmaComplete .rxRing, .freeDma .rxRing]
def freedStats : List Event := [.dmaComplete .stats, .freeDma .stats]

/-- The buffers freed, the last one first. -/
def freedBuffers (bufs : List (BufferDraw × Segment)) : List Event :=
  bufs.reverse.flatMap fun b => [.dmaComplete (.buffer b.1.h), .freeBuffer b.1.h]

theorem fail2_of_some {m : DmaMem} (h : s.txMem = some m) : fail2 s = .next { s with
    txMem := none, history := s.history ++ freedTxRing ++ [.raised .fatalInit], result := .fatalInit } := by
  rw [fail2, freeTxMem, h]
  rfl

theorem fail3_of_some {m n : DmaMem} (htx : s.txMem = some m) (hrx : s.rxMem = some n) : fail3 s = .next { s with
    txMem := none, rxMem := none
    history := s.history ++ freedRxRing ++ freedTxRing ++ [.raised .fatalInit], result := .fatalInit } := by
  rw [fail3, freeRxMem, hrx, andThen_next]
  exact fail2_of_some htx

theorem fail4_of_some {i : Nat} {m n k : DmaMem} (hfree : freeSlots i s = .next u) (htx : u.txMem = some m)
    (hrx : u.rxMem = some n) (hst : u.stMem = some k) : fail4 i s = .next { u with
      txMem := none, rxMem := none, stMem := none
      history := u.history ++ freedStats ++ freedRxRing ++ freedTxRing ++ [.raised .fatalInit], result := .fatalInit } := by
  rw [fail4, hfree, andThen_next, freeStMem, hst, andThen_next]
  exact fail3_of_some htx hrx

/-- The slots filled by E4 are emptied in decreasing index, each buffer the last one acquired (R201). -/
theorem freeSlots_drawn {rest : List (Option RxBuffer)} (hslots : s.rxSlot = bufs.map drawnSlot ++ rest)
    (hheld : s.heldBuffers = (bufs.map fun b => b.1.h).reverse) : freeSlots bufs.length s = .next { s with
      rxSlot := List.replicate bufs.length none ++ rest, heldBuffers := []
      history := s.history ++ freedBuffers bufs } := by
  induction bufs using List.reverseRecOn generalizing s rest with
  | nil =>
    have hr : s.rxSlot = rest := by simpa using hslots
    have hh : s.heldBuffers = [] := by simpa using hheld
    simp [freeSlots, freedBuffers, ← hr, ← hh]
  | append_singleton bufs b ih =>
    have hlast : s.rxBuf bufs.length = some ⟨b.1.h, drawnMem b⟩ := by
      simp [State.rxBuf, hslots, drawnSlot]
    have hfirst : s.heldBuffers = b.1.h :: (bufs.map fun b => b.1.h).reverse := by simpa using hheld
    have hrest := ih (s := { s with
        rxSlot := s.rxSlot.set bufs.length none, heldBuffers := s.heldBuffers.erase b.1.h
        history := s.history ++ [.dmaComplete (.buffer b.1.h), .freeBuffer b.1.h] }) (rest := none :: rest)
      (by simp [hslots]) (by simp [hfirst])
    rw [List.length_append, List.length_singleton, freeSlots, hlast]
    simp only [freeBuffer_of_held (hfirst ▸ List.mem_cons_self), andThen_next, hrest]
    simp [freedBuffers, List.replicate_succ']

/-- `fail(4, i)` at the buffer behind those acquired, whatever is recorded since (R201). -/
theorem fail4_afterBuffers (hle : bufs.length ≤ s.cfg.nRx) (hu : u = { afterBuffers s tx rx st bufs with
    history := (afterBuffers s tx rx st bufs).history ++ l }) : fail4 bufs.length u =
      .next (unwound s (List.replicate s.cfg.nRx none) ([.dmaPrepare .txRing, .dmaPrepare .rxRing, .dmaPrepare .stats] ++
        bufs.map (fun b => .dmaPrepare (.buffer b.1.h)) ++ l ++
        (freedBuffers bufs ++ freedStats ++ freedRxRing ++ freedTxRing))) := by
  have hfree := freeSlots_drawn (s := u) (bufs := bufs) (rest := List.replicate (s.cfg.nRx - bufs.length) none)
    (by rw [hu]; rfl) (by rw [hu]; rfl)
  have hslots : List.replicate bufs.length (none : Option RxBuffer) ++ List.replicate (s.cfg.nRx - bufs.length) none =
      List.replicate s.cfg.nRx none := by rw [List.replicate_append_replicate, Nat.add_sub_cancel' hle]
  have htx : u.txMem = some (txRingAt s.cfg tx) := by rw [hu]; rfl
  have hrx : u.rxMem = some (rxRingAt s.cfg rx) := by rw [hu]; rfl
  have hst : u.stMem = some (statsAt s.cfg st) := by rw [hu]; rfl
  rw [fail4_of_some hfree htx hrx hst, hslots, hu]
  simp [unwound, afterBuffers]

/-- Events of acquiring and releasing memory and of nothing else. -/
def isMemEvent : Event → Bool
  | .dmaPrepare _ => true
  | .dmaComplete _ => true
  | .freeBuffer _ => true
  | .freeDma _ => true
  | _ => false

theorem isMemEvent_spec {e : Event} (h : isMemEvent e = true) : isRegAccess e = false ∧ isUpcall e = false := by
  cases e
  case dmaPrepare | dmaComplete | freeBuffer | freeDma => exact ⟨rfl, rfl⟩
  all_goals cases h

theorem released_freedBuffers (bufs : List (BufferDraw × Segment)) :
    released (freedBuffers bufs) = (bufs.map fun b => DmaId.buffer b.1.h).reverse := by
  rw [freedBuffers, ← List.map_reverse]
  induction bufs.reverse with
  | nil => rfl
  | cons b bs ih =>
    rw [List.flatMap_cons, released_append, ih]
    rfl

/-- Acquiring releases nothing. -/
theorem released_prepared (bufs : List (BufferDraw × Segment)) :
    released (bufs.map fun b => .dmaPrepare (.buffer b.1.h)) = [] :=
  released_quiet fun e he => by
    obtain ⟨b, -, rfl⟩ := List.mem_map.1 he
    rfl

/-- How a failed ENABLE ends (R201, R235): in the reset of its memories, with `l` recorded. -/
def FailsWith (d : EnableDraws) (s : State) (l : List Event) : Prop := ∃ t, exec (.enable d) s = .next t ∧
  buffersIn t = [] ∧ (∀ e ∈ l, isRegAccess e = false ∧ isUpcall e = false) ∧ t = unwound s t.rxSlot l

theorem failsWith_of_run {n : Nat} (hrun : exec (.enable d) s = .next (unwound s (List.replicate n none) l))
    (hl : l.all isMemEvent = true) : FailsWith d s l :=
  ⟨_, hrun, by simp [buffersIn, unwound], fun e he => isMemEvent_spec (List.all_eq_true.1 hl e he), rfl⟩

/-- ENABLE up to step E4, given the draws of E1 to E3 (R200). -/
theorem execEnable_to_buffers (ha : Acting .host s) (hoff : s.enabled = false) (hin : BufsInRange s.cfg d)
    (h : EnableTakes d s.cfg tx rx st bufs) : exec (.enable d) s = enableBuffers d.bufs (afterStats s tx rx st) := by
  obtain ⟨h1, h23⟩ := List.pairwise_cons.1 h.apart
  obtain ⟨h2, -⟩ := List.pairwise_cons.1 h23
  have h12 := memsApart_symm (h1 _ List.mem_cons_self)
  have h13 := memsApart_symm (h1 _ (List.mem_cons_of_mem _ List.mem_cons_self))
  have h23 := memsApart_symm (h2 _ List.mem_cons_self)
  rw [execEnable_of_acting ha hoff (bufsOk_iff.2 hin), enableFrom_of_gives h.txDraw,
    (enableRxRing_of_gives h.rxDraw).1 h12, (enableStats_of_gives h.stDraw).1 ⟨h13, h23⟩]

/-- What ENABLE fails with where E4 comes to a draw it cannot use, `l` recorded by that draw. -/
theorem failsWith_at_buffer (ha : Acting .host s) (hoff : s.enabled = false) (hin : BufsInRange s.cfg d)
    (h : EnableTakes d s.cfg tx rx st bufs) (hlt : bufs.length < s.cfg.nRx) (hl : l.all isMemEvent = true)
    (hfill : fillSlot bufs.length (d.bufs.getD bufs.length none) (afterBuffers s tx rx st bufs) =
      .next ({ afterBuffers s tx rx st bufs with history := (afterBuffers s tx rx st bufs).history ++ l }, false)) :
    ∃ l', FailsWith d s l' ∧
      released l' = released l ++ (bufs.map fun b => DmaId.buffer b.1.h).reverse ++ [.stats, .rxRing, .txRing] := by
  have hrun := (execEnable_to_buffers ha hoff hin h).trans ((enableBuffers_afterStats h hlt).1 hfill)
  refine ⟨_, failsWith_of_run (hrun.trans (fail4_afterBuffers hlt.le rfl)) ?_, ?_⟩
  · simp [hl, freedBuffers, freedStats, freedRxRing, freedTxRing, isMemEvent]
  · simp only [released_append, released_prepared, released_freedBuffers]
    simp [released, freedStats, freedRxRing, freedTxRing]

/-- A buffer drawn in range that is not one segment is freed at once (R129). -/
theorem fillSlot_unusable {i : Nat} {b : BufferDraw} (hok : regionsOk s.cfg b.regions = true)
    (hseg : segmentRx s.cfg b.regions = none) (hh : b.h ∉ s.heldBuffers) : fillSlot i (some b) s = .next ({ s with
      history := s.history ++ [.dmaPrepare (.buffer b.h), .dmaComplete (.buffer b.h), .freeBuffer b.h] }, false) := by
  unfold fillSlot
  dsimp only
  rw [if_neg (ne_false_of_eq_true (handleFresh_iff.2 hh)), drawnSegment_of_ok hok, hseg]
  simp [freeBuffer, holdBuffer]

/-- Live memory and a handle already out are no move of the allocator (H8, U3). -/
theorem fillSlot_unlawful {i : Nat} {b : BufferDraw} (hok : regionsOk s.cfg b.regions = true)
    (hbad : b.h ∈ s.heldBuffers ∨ ∃ seg, segmentRx s.cfg b.regions = some seg ∧
      ∃ m ∈ liveMems s, ¬ memsApart ⟨seg.addr, seg.len, .prepared⟩ m) :
    fillSlot i (some b) s = .refused .unlawfulDraw := by
  unfold fillSlot
  dsimp only
  by_cases hh : b.h ∈ s.heldBuffers
  · rw [if_pos (eq_false_of_ne_true (handleFresh_iff.not.2 (not_not.2 hh)))]
  · obtain ⟨seg, hseg, m, hm, hnot⟩ := hbad.resolve_left hh
    have hlive : memFresh s seg.addr.toNat seg.len = false :=
      eq_false_of_ne_true fun hf => hnot (memFresh_iff.1 hf m hm)
    rw [if_neg (ne_false_of_eq_true (handleFresh_iff.2 hh)), drawnSegment_of_ok hok, hseg]
    exact if_pos hlive

/-- The draw behind the buffers taken is one ENABLE may come to. -/
theorem BufsInRange.regionsOk_at {c : Cfg} {b : BufferDraw} (hin : BufsInRange c d) {i : Nat} (hi : i < c.nRx)
    (hb : d.bufs.getD i none = some b) : regionsOk c b.regions = true := by
  refine hin b (List.mem_iff_getElem?.2 ⟨i, ?_⟩)
  rw [List.getElem?_take_of_lt hi]
  rw [List.getD_eq_getElem?_getD] at hb
  exact Option.getD_eq_iff.1 hb |>.resolve_right (by simp)

/-- Settles O55: each step that fails is followed by the unwinding of those before it. -/
theorem failedEnableUnwindsInReverse : Obligations.FailedEnableUnwindsInReverse := by
  refine ⟨fun d s ha hoff hin => execEnable_outOfRange ha hoff hin, fun d s ha hoff hin => ?_⟩
  intro fails
  have hfrom := execEnable_of_acting ha hoff (bufsOk_iff.2 hin)
  refine ⟨fun htx => ?_, fun tx htx hrx => ?_, fun tx rx htx hrx hap hst => ?_, fun tx rx st bufs h hlt hdraw => ?_,
    fun tx rx htx hrx hno => ?_, fun tx rx st htx hrx hap hst hno => ?_, fun tx rx st bufs b h hlt hdraw hbad => ?_,
    fun tx rx st bufs b h hlt hdraw hh hseg => ?_⟩
  · have hend : fatalInit (dropUnspecified s) = unwound s [] [] := by
      simp [unwound, fatalInit, State.raise, State.emit, State.withResult, dropUnspecified]
    exact failsWith_of_run (n := 0) ((hfrom.trans (enableFrom_of_fails htx)).trans (congrArg _ hend)) rfl
  · have hrun := hfrom.trans ((enableFrom_of_gives htx).trans ((enableRxRing_of_fails hrx).trans (fail2_of_some rfl)))
    refine ⟨.dmaPrepare .txRing :: freedTxRing, failsWith_of_run (n := 0) (hrun.trans ?_) rfl, rfl⟩
    simp [unwound, afterTxRing]
  · have hrun := hfrom.trans ((enableFrom_of_gives htx).trans (((enableRxRing_of_gives hrx).1 hap).trans
      ((enableStats_of_fails hst).trans (fail3_of_some rfl rfl))))
    refine ⟨.dmaPrepare .txRing :: .dmaPrepare .rxRing :: freedRxRing ++ freedTxRing,
      failsWith_of_run (n := 0) (hrun.trans ?_) rfl, rfl⟩
    simp [unwound, afterRxRing]
  · have hfill : fillSlot bufs.length (d.bufs.getD bufs.length none) (afterBuffers s tx rx st bufs) =
        .next ({ afterBuffers s tx rx st bufs with
          history := (afterBuffers s tx rx st bufs).history ++ [] }, false) := by
      rw [hdraw, List.append_nil]
      rfl
    exact failsWith_at_buffer ha hoff hin h hlt rfl hfill
  · rw [hfrom, enableFrom_of_gives htx, (enableRxRing_of_gives hrx).2 hno]
  · rw [hfrom, enableFrom_of_gives htx, (enableRxRing_of_gives hrx).1 hap, (enableStats_of_gives hst).2 hno]
  · have hbad' : b.h ∈ (afterBuffers s tx rx st bufs).heldBuffers ∨ ∃ seg, segmentRx s.cfg b.regions = some seg ∧
        ∃ m ∈ liveMems (afterBuffers s tx rx st bufs), ¬ memsApart ⟨seg.addr, seg.len, .prepared⟩ m := by
      rw [liveMems_afterBuffers]
      exact hbad.imp_left List.mem_reverse.2
    rw [execEnable_to_buffers ha hoff hin h]
    refine (enableBuffers_afterStats h hlt).2 ?_
    rw [hdraw, fillSlot_unlawful (s := afterBuffers s tx rx st bufs) (hin.regionsOk_at hlt hdraw) hbad']
  · have hfill := fillSlot_unusable (s := afterBuffers s tx rx st bufs) (i := bufs.length)
      (hin.regionsOk_at hlt hdraw) hseg fun hm => hh (List.mem_reverse.1 hm)
    rw [← hdraw] at hfill
    exact failsWith_at_buffer ha hoff hin h hlt rfl hfill

end Sys2Proof.Machine
end

section
/-! SUPPORT. O1, O2, O3: the decoder. Written-out codes, the round trip of every instruction, and what each reader of
Decode.lean accepts, whatever the bytes. -/

namespace Sys2Proof

-- One declaration at a time: each thread of the elaborator reserves a stack of its own.
set_option Elab.async false

/-! ### O1 -/

/-- Settles O1: the decoder run on each of the codes. -/
theorem specWordsDecode : Obligations.SpecWordsDecode := by
  unfold Obligations.SpecWordsDecode
  decide

/-! ### O2 -/

/-- Settles O2: the round trip of each instruction, its operand record read back field by field, or its word bit by
bit. -/
theorem encodeThenDecodeReturnsInstr : Obligations.EncodeThenDecodeReturnsInstr := by
  intro i
  cases i
  case ringAlloc => exact Laws.RoundTrip.ringAlloc _
  case ringWrite => exact Laws.RoundTrip.ringWrite _ _ _ _ _ _
  case ringReclaim => exact Laws.RoundTrip.ringReclaim
  case ringClearTx => exact Laws.RoundTrip.ringClearTx
  case ringClearRx => exact Laws.RoundTrip.ringClearRx
  case segTx => exact Laws.RoundTrip.segTx _
  case segRx => exact Laws.RoundTrip.segRx _
  case encV1 => exact Laws.RoundTrip.encV1 _
  case encV2 => exact Laws.RoundTrip.encV2 _
  case encVlan => exact Laws.RoundTrip.encVlan _
  case txSubmit => exact Laws.RoundTrip.txSubmit _
  case txIrq => exact Laws.RoundTrip.txIrq
  case txDlchk => exact Laws.RoundTrip.txDlchk
  case rxIrq => exact Laws.RoundTrip.rxIrq _
  case rxCsumV1 => exact Laws.RoundTrip.rxCsumV1 _ _
  case rxCsumV2 => exact Laws.RoundTrip.rxCsumV2 _ _
  case rxVlan => exact Laws.RoundTrip.rxVlan _
  case timerTick => exact Laws.RoundTrip.timerTick _
  case linkUp => exact Laws.RoundTrip.linkUp _
  case linkDown => exact Laws.RoundTrip.linkDown
  case resetFull => exact Laws.RoundTrip.resetFull
  case irq => exact Laws.RoundTrip.irq _
  case statsReq => exact Laws.RoundTrip.statsReq
  case statsDone => exact Laws.RoundTrip.statsDone
  case enable => exact Laws.RoundTrip.enable _
  case disable => exact Laws.RoundTrip.disable
  case nicTxDone => exact Laws.RoundTrip.nicTxDone _ _
  case nicRxFill => exact Laws.RoundTrip.nicRxFill _ _ _ _
  case nicIrqRaise => exact Laws.RoundTrip.nicIrqRaise _
  case nicReset => exact Laws.RoundTrip.nicReset
  case nicTxQuiesce => exact Laws.RoundTrip.nicTxQuiesce
  case txd1V1Csum => exact Laws.RoundTrip.txd1V1Csum _ _ _ _ _ _ _ _
  case txd1V1Tso => exact Laws.RoundTrip.txd1V1Tso _ _ _ _ _ _
  case txd1V2 => exact Laws.RoundTrip.txd1V2 _ _ _ _ _ _
  case txd2V1 => exact Laws.RoundTrip.txd2V1 _ _
  case txd2V2 => exact Laws.RoundTrip.txd2V2 _ _ _ _ _ _
  case rxdArmed => exact Laws.RoundTrip.rxdArmed _ _
  case rxd1V1 => exact Laws.RoundTrip.rxd1V1 _ _ _ _ _ _ _ _ _
  case rxd1V2 => exact Laws.RoundTrip.rxd1V2 _ _ _ _ _ _ _ _ _ _
  case rxd2V1 => exact Laws.RoundTrip.rxd2V1 _ _ _
  case rxd2V2 => exact Laws.RoundTrip.rxd2V2 _ _ _ _ _

/-! ### What a reader yields -/

/-- Whatever bytes the reader accepts, the value it reads passes the check. -/
def Yields {α : Type} (get : Parser α) (ok : α → Bool) : Prop :=
  ∀ ⦃bs a rest⦄, get bs = .ok (a, rest) → ok a = true

variable {α β : Type} {get : Parser α} {ok : α → Bool} {next : α → Parser β} {good : β → Bool}

theorem Yields.ret {a : α} (h : ok a = true) : Yields (Parser.ret a) ok := by
  rintro bs _ _ ⟨⟩
  exact h

theorem Yields.fail (e : DecodeError) : Yields (Parser.fail e) ok := nofun

theorem Yields.andThen (hget : Yields get ok) (hnext : ∀ a, ok a = true → Yields (next a) good) :
    Yields (get.andThen next) good := by
  intro bs b rest h
  unfold Parser.andThen at h
  split at h
  · rename_i hrun
    exact hnext _ (hget hrun) h
  · cases h

/-- A value nothing is asked of. -/
theorem Yields.skip (hnext : ∀ a, Yields (next a) good) : Yields (get.andThen next) good :=
  Yields.andThen (ok := fun _ => true) (fun _ _ _ _ => rfl) fun a _ => hnext a

theorem yieldsNat (k : Nat) : Yields (getNat k) fun n => decide (n < 256 ^ k) := by
  induction k with
  | zero => exact .ret (by simp)
  | succ k ih =>
    intro bs a rest h
    cases bs with
    | nil => cases h
    | cons b bs =>
      simp only [getNat] at h
      split at h
      · rename_i n _ hrun
        cases h
        have hn : n < 256 ^ k := of_decide_eq_true (ih hrun)
        have hb := b.isLt
        rw [decide_eq_true_iff, Nat.pow_succ]
        omega
      · cases h

theorem yieldsInt : Yields getInt fits32 := fun _ _ _ h =>
  decide_eq_true (of_decide_eq_true (yieldsNat 4 h))

theorem yieldsMany (hget : Yields get ok) (k : Nat) : Yields (getMany get k) fun l => l.length == k && l.all ok := by
  induction k with
  | zero => exact .ret rfl
  | succ k ih =>
    refine hget.andThen fun a ha => ih.andThen fun l hl => .ret ?_
    simpa [ha] using hl

theorem yieldsList (hget : Yields get ok) : Yields (getList get) fun l => countFits l && l.all ok :=
  (yieldsNat 2).andThen fun k hk bs l rest h => by
    obtain ⟨hlen, hall⟩ := Bool.and_eq_true_iff.1 (yieldsMany hget k h)
    rw [decide_eq_true_iff] at hk
    rw [beq_iff_eq] at hlen
    rw [hall, Bool.and_true, countFits, decide_eq_true_iff, hlen]
    exact hk

theorem yieldsOpt (hget : Yields get ok) : Yields (getOpt get) (optFits ok) :=
  .skip fun
    | false => .ret rfl
    | true => hget.andThen fun _ h => .ret h

/-! ### Operand records -/

theorem yieldsRegion : Yields getRegion Region.fits := .skip fun _ => yieldsInt.andThen fun _ h => .ret h

theorem yieldsRegions : Yields (getList getRegion) regionsFit := yieldsList yieldsRegion

theorem yieldsSegment : Yields getSegment Segment.fits := .skip fun _ => yieldsInt.andThen fun _ h => .ret h

theorem yieldsOffload : Yields getOffload OffloadReq.fits :=
  .skip fun _ => .skip fun _ => .skip fun _ => .skip fun _ => .skip fun _ => yieldsInt.andThen fun _ h => .ret h

theorem yieldsPacket : Yields getPacket Packet.fits :=
  yieldsInt.andThen fun _ hh => yieldsRegions.andThen fun _ hr => yieldsOffload.andThen fun _ ho => .skip fun _ =>
    .ret (Bool.and_eq_true_iff.2 ⟨Bool.and_eq_true_iff.2 ⟨hh, hr⟩, ho⟩)

theorem yieldsStaleWord : Yields getStaleWord StaleWord.fits := yieldsInt.andThen fun _ h => .skip fun _ => .ret h

theorem yieldsTxDone : Yields getTxDone TxDoneDraws.fits :=
  .skip fun _ => .skip fun _ => (yieldsOpt yieldsStaleWord).andThen fun _ h => .ret h

theorem yieldsStaleBuffer : Yields getStaleBuffer StaleBuffer.fits :=
  yieldsInt.andThen fun _ hw => (yieldsOpt yieldsInt).andThen fun _ ha => .ret (Bool.and_eq_true_iff.2 ⟨hw, ha⟩)

theorem yieldsRxFill : Yields getRxFill RxFillDraws.fits :=
  .skip fun _ => (yieldsOpt yieldsStaleBuffer).andThen fun _ h => .ret h

theorem yieldsAcquisition : Yields getAcquisition Acquisition.fits :=
  .skip fun
    | 0 => .ret rfl
    | 1 => yieldsInt.andThen fun _ hh => yieldsRegions.andThen fun _ hr => .ret (Bool.and_eq_true_iff.2 ⟨hh, hr⟩)
    | 2 => yieldsInt.andThen fun _ hh => yieldsInt.andThen fun _ hs => .ret (Bool.and_eq_true_iff.2 ⟨hh, hs⟩)
    | _ + 3 => .fail _

theorem yieldsAcquisitions : Yields (getList getAcquisition) acquisitionsFit := yieldsList yieldsAcquisition

theorem yieldsBufferDraw : Yields getBufferDraw BufferDraw.fits :=
  yieldsInt.andThen fun _ hh => yieldsRegions.andThen fun _ hr => .ret (Bool.and_eq_true_iff.2 ⟨hh, hr⟩)

theorem yieldsEnableDraws : Yields getEnableDraws EnableDraws.fits :=
  .skip fun _ => .skip fun _ => .skip fun _ => (yieldsList (yieldsOpt yieldsBufferDraw)).andThen fun _ h => .ret h

theorem yieldsFrame : Yields (getList get8) countFits := fun _ _ _ h =>
  (Bool.and_eq_true_iff.1 (yieldsList (ok := fun _ => true) (fun _ _ _ _ => rfl) h)).1

theorem yieldsRingWrite : Yields (getOperands 0x01) WellFormed :=
  .skip fun _ => yieldsInt.andThen fun _ hi => yieldsSegment.andThen fun _ hs => .skip fun _ => .skip fun _ =>
    .skip fun _ => .ret (Bool.and_eq_true_iff.2 ⟨hi, hs⟩)

theorem yieldsNicRxFill : Yields (getOperands 0x71) WellFormed :=
  yieldsInt.andThen fun _ hi => yieldsFrame.andThen fun _ hf => .skip fun _ => yieldsRxFill.andThen fun _ hd =>
    .ret (Bool.and_eq_true_iff.2 ⟨Bool.and_eq_true_iff.2 ⟨hi, hf⟩, hd⟩)

/-- The record behind each selector, in the order of R95's table. -/
theorem yieldsOperands (selector : Nat) : Yields (getOperands selector) WellFormed := by
  unfold getOperands
  split
  exacts [yieldsInt.andThen fun _ h => .ret h, yieldsRingWrite, .ret rfl, .ret rfl, .ret rfl,
    yieldsRegions.andThen fun _ h => .ret h, yieldsRegions.andThen fun _ h => .ret h,
    yieldsOffload.andThen fun _ h => .ret h, yieldsOffload.andThen fun _ h => .ret h, .skip fun _ => .ret rfl,
    yieldsPacket.andThen fun _ h => .ret h, .ret rfl, .ret rfl,
    yieldsAcquisitions.andThen fun _ h => .ret h, .skip fun _ => .skip fun _ => .ret rfl,
    .skip fun _ => .skip fun _ => .ret rfl, .skip fun _ => .ret rfl,
    .skip fun _ => .ret rfl, .skip fun _ => .ret rfl, .ret rfl, .ret rfl, yieldsAcquisitions.andThen fun _ h => .ret h,
    .ret rfl, .ret rfl,
    yieldsEnableDraws.andThen fun _ h => .ret h, .ret rfl,
    yieldsInt.andThen fun _ hi => yieldsTxDone.andThen fun _ hd => .ret (Bool.and_eq_true_iff.2 ⟨hi, hd⟩),
    yieldsNicRxFill, .skip fun _ => .ret rfl, .ret rfl, .ret rfl,
    .fail _]

/-! ### O3 -/

theorem decodeOp_wellFormed {bytes : List Byte} {i : Instr} (h : decodeOp bytes = .ok i) : WellFormed i = true := by
  cases bytes with
  | nil => cases h
  | cons b bs =>
    simp only [decodeOp] at h
    split at h
    · cases h
    · rename_i hrun
      split at h <;> cases h
      exact yieldsOperands _ hrun

theorem within_and (w mask : Word) : within (w &&& mask) mask = true := by
  rw [within, BitVec.and_assoc, BitVec.and_self, beq_self_eq_true]

/-- A format's unnamed bits are read under their mask. -/
theorem readWord_wellFormed (f : DescFormat) (w : Word) : WellFormed (readWord f w) = true := by
  cases f
  case rxd1V1 | rxd1V2 | rxd2V1 | rxd2V2 => exact within_and w _
  all_goals rfl

/-- Settles O3: each reader yields values that fit their field, and a word's unnamed bits lie where no field stands. -/
theorem decodedInstrIsWellFormed : Obligations.DecodedInstrIsWellFormed := by
  intro c i h
  cases c with
  | op bytes => exact decodeOp_wellFormed h
  | word f w =>
    simp only [decode, decodeWord] at h
    split at h <;> cases h
    exact readWord_wellFormed f w

end Sys2Proof
end

section
/-! SUPPORT. O27: RING.CLEAR_RX. -/

namespace Sys2Proof.Machine

-- One declaration at a time: each thread of the elaborator reserves a stack of its own.
set_option Elab.async false

variable {s : State}

theorem execRingClearRx_of_ready (hr : Ready .serialized s) (hrx : RxUsable s) :
    exec .ringClearRx s = .next ((clearRx (noteSeen .rx s)).withResult .none) := by
  have hpre : precheck [.serialized] .rx s = none :=
    precheck_eq_none.2 ⟨by simp [hr.1.caller], hr.1.cfg, hr.2, hrx⟩
  show execRingClearRx s = _
  rw [execRingClearRx, guarded_ok hpre hr.1.overlaps]

/-- Settles O27: the loop of RING.CLEAR_RX arms each descriptor and stores to no other byte. -/
theorem ringClearRxArmsTheRing : Obligations.RingClearRxArmsTheRing := by
  intro s hr hrx hw
  obtain ⟨-, -, hout, harm⟩ := clearRx_effect (s := noteSeen .rx s) hw (offsetsOk (cfgOk hr.1.cfg).layout)
  obtain ⟨mem, hist, hrun⟩ := clearRx_shape (noteSeen .rx s)
  refine ⟨_, execRingClearRx_of_ready hr hrx, fun i hi => ?_, hout, ?_, ?_⟩
  · obtain ⟨h1, h2, h3⟩ := harm i hi
    exact ⟨h1, h2, h3⟩
  · exact remembersCleared_of_noteSeen (by rw [hrun]; rfl)
  · rw [hrun]
    rfl

end Sys2Proof.Machine
end

section
/-! SUPPORT. O32: the command bits of a transmit descriptor stay in their fields (R76, R136, R137, R139). -/

namespace Sys2Proof.Machine

-- One declaration at a time: each thread of the elaborator reserves a stack of its own.
set_option Elab.async false

/-! ### Words that share no bit -/

variable {v w m : Word} {l : Layout} {c : Cfg}

theorem apart_comm : v &&& w = 0#32 ↔ w &&& v = 0#32 := by rw [BitVec.and_comm]

theorem or_apart (hv : v &&& m = 0#32) (hw : w &&& m = 0#32) : (v ||| w) &&& m = 0#32 := by
  rw [BitVec.and_comm, BitVec.and_or_distrib_left, BitVec.and_comm m v, BitVec.and_comm m w, hv, hw, BitVec.or_self]

theorem apart_or (hv : m &&& v = 0#32) (hw : m &&& w = 0#32) : m &&& (v ||| w) = 0#32 :=
  apart_comm.1 (or_apart (apart_comm.1 hv) (apart_comm.1 hw))

theorem flagIf_apart {p : Nat} (b : Bool) (h : bit p &&& m = 0#32) : flagIf b p &&& m = 0#32 := by
  cases b
  · exact BitVec.zero_and
  · exact h

/-- What is apart from a field is apart from every value that fits it. -/
theorem putField_apart {f : BitField} {n : Nat} (hn : n ≤ maxOf f.w) (h : fieldMask f &&& m = 0#32) :
    putField f n &&& m = 0#32 := by
  refine word_ext fun q _ => ?_
  rw [flag_and, flag_zero]
  cases hq : flag (fieldMask f) q
  · rw [flag_putField_of_fits hn hq, Bool.false_and]
  · rw [flag_disjoint h hq, Bool.and_false]

/-! ### `opts1` -/

/-- The bits of `opts1` no command may have: ownership, ring end, packet marks, length. -/
def reserved1 (l : Layout) : Word := bit l.own ||| bit l.eor ||| bit l.fs ||| bit l.ls ||| fieldMask l.txlen

theorem apart_reserved1 (hown : bit l.own &&& m = 0#32) (heor : bit l.eor &&& m = 0#32) (hfs : bit l.fs &&& m = 0#32)
    (hls : bit l.ls &&& m = 0#32) (hlen : fieldMask l.txlen &&& m = 0#32) : m &&& reserved1 l = 0#32 :=
  apart_comm.1 (or_apart (or_apart (or_apart (or_apart hown heor) hfs) hls) hlen)

theorem csum1_reserved1 (h : layoutWf l = true) : bit l.ipcs1 &&& reserved1 l = 0#32 ∧
    bit l.udpcs1 &&& reserved1 l = 0#32 ∧ bit l.tcpcs1 &&& reserved1 l = 0#32 := by
  have h1 := tx1_apart h
  simp only [List.pairwise_cons, List.mem_cons, forall_eq_or_imp] at h1
  obtain ⟨⟨-, -, -, -, -, oi, ou, ot, -⟩, ⟨-, -, -, -, ei, eu, et, -⟩, ⟨-, -, -, fi, fu, ft, -⟩, ⟨-, -, li, lu, lt, -⟩, -,
    ⟨ni, nu, nt, -⟩, -⟩ := h1
  exact ⟨apart_reserved1 oi ei fi li ni, apart_reserved1 ou eu fu lu nu, apart_reserved1 ot et ft lt nt⟩

theorem tso1_reserved1 (h : layoutWf l = true) : bit l.lgsen &&& reserved1 l = 0#32 ∧
    fieldMask l.mss1 &&& reserved1 l = 0#32 := by
  have h1 := tso_apart h
  simp only [List.pairwise_cons, List.mem_cons, forall_eq_or_imp] at h1
  obtain ⟨⟨-, -, -, og, -, om, -⟩, ⟨-, -, eg, -, em, -⟩, ⟨-, fg, -, fm, -⟩, ⟨lg, -, lm, -⟩, ⟨gn, -⟩, ⟨nm, -⟩, -⟩ := h1
  exact ⟨apart_reserved1 og eg fg lg (apart_comm.1 gn), apart_reserved1 om em fm lm nm⟩

/-! ### `opts2` -/

/-- The TX format of `opts2` of the second revision, with checksum requests and with segmentation offload (R81). -/
theorem csum2_apart (h : layoutWf l = true) : [bit l.udpcs2, bit l.tcpcs2, bit l.ipcs2, bit l.txvtag,
    fieldMask l.vlan].Pairwise fun a b => a &&& b = 0#32 :=
  formats_noOverlap h (by simp [layoutFormats])

theorem tso2_apart (h : layoutWf l = true) : [fieldMask l.mss2, bit l.txvtag, fieldMask l.vlan].Pairwise
    fun a b => a &&& b = 0#32 :=
  formats_noOverlap h (by simp [layoutFormats])

theorem layout_widths (h : layoutWf l = true) : l.mss1.w = l.mss2.w ∧ l.vlan.w = 16 := by
  simp only [layoutWf, Bool.and_eq_true, beq_iff_eq] at h
  obtain ⟨⟨⟨⟨⟨-, hmss⟩, hvlan⟩, -⟩, -⟩, -⟩ := h
  exact ⟨hmss, hvlan⟩

/-- The VLAN word is the tag bit and a tag that fills its field. -/
theorem apart_encodeVlan (h : layoutWf c.layout = true) (vlan : Option Half) (ht : m &&& bit c.layout.txvtag = 0#32)
    (hf : m &&& fieldMask c.layout.vlan = 0#32) : m &&& encodeVlan c vlan = 0#32 := by
  cases vlan with
  | none => exact BitVec.and_zero
  | some tci =>
    have hfit : (vlanField c.layout tci).toNat ≤ maxOf c.layout.vlan.w := by
      rw [(layout_widths h).2]
      exact Nat.le_sub_one_of_lt (vlanField c.layout tci).isLt
    exact apart_or ht (apart_comm.1 (putField_apart hfit (apart_comm.1 hf)))

theorem csum2_vlan (h : layoutWf c.layout = true) (vlan : Option Half) : bit c.layout.udpcs2 &&& encodeVlan c vlan = 0#32 ∧
    bit c.layout.tcpcs2 &&& encodeVlan c vlan = 0#32 ∧ bit c.layout.ipcs2 &&& encodeVlan c vlan = 0#32 := by
  have h2 := csum2_apart h
  simp only [List.pairwise_cons, List.mem_cons, forall_eq_or_imp] at h2
  obtain ⟨⟨-, -, ut, uv, -⟩, ⟨-, tt, tv, -⟩, ⟨it, iv, -⟩, -⟩ := h2
  exact ⟨apart_encodeVlan h vlan ut uv, apart_encodeVlan h vlan tt tv, apart_encodeVlan h vlan it iv⟩

theorem tso2_vlan (h : layoutWf c.layout = true) (vlan : Option Half) :
    fieldMask c.layout.mss2 &&& encodeVlan c vlan = 0#32 := by
  have h2 := tso2_apart h
  simp only [List.pairwise_cons, List.mem_cons, forall_eq_or_imp] at h2
  obtain ⟨⟨mt, mv, -⟩, -⟩ := h2
  exact apart_encodeVlan h vlan mt mv

/-! ### O32 -/

/-- An accepted segmentation offload has an MSS that fits its field (R138 (d)). -/
theorem mss_le_of_supported {off : OffloadReq} (h : ¬ unsupported c off = true) (htso : off.tso = true) :
    off.mss ≤ maxOf c.layout.mss1.w := by
  simp only [unsupported, htso, Bool.true_and, Bool.or_eq_true, decide_eq_true_eq, not_or, not_lt] at h
  exact h.2.2

/-- What the encoders make (R136, R137): `LGSEN` and the MSS, or the checksum requests, in the word the revision gives
them. -/
theorem encodeOffload_cases {off : OffloadReq} {cmd : Cmd} (h : encodeOffload c off = some cmd) :
    (off.mss ≤ maxOf c.layout.mss1.w ∧
      (cmd = ⟨bit c.layout.lgsen ||| putField c.layout.mss1 off.mss, 0#32⟩ ∨
        cmd = ⟨bit c.layout.lgsen, putField c.layout.mss2 off.mss⟩)) ∨
    cmd = ⟨flagIf off.ip c.layout.ipcs1 ||| flagIf off.udp c.layout.udpcs1 ||| flagIf off.tcp c.layout.tcpcs1, 0#32⟩ ∨
    cmd = ⟨0#32, flagIf off.udp c.layout.udpcs2 ||| flagIf off.tcp c.layout.tcpcs2 ||| flagIf off.ip c.layout.ipcs2⟩ := by
  unfold encodeOffload encodeV1 encodeV2 at h
  by_cases hu : unsupported c off = true
  · simp [hu] at h
  · have hmss := mss_le_of_supported hu
    by_cases ht : off.tso = true <;> by_cases hr : c.revision2 = true <;> simp only [hu, ht, hr, if_true] at h <;>
      cases h
    · exact .inl ⟨hmss ht, .inr rfl⟩
    · exact .inl ⟨hmss ht, .inl rfl⟩
    · exact .inr (.inr rfl)
    · exact .inr (.inl rfl)

/-- Settles O32: each command bit is one of its format's, which the layout keeps apart from the others. -/
theorem commandBitsStayInTheirFields : Obligations.CommandBitsStayInTheirFields := by
  intro c off cmd vlan hc henc
  have hl := (cfgOk hc).layout
  obtain ⟨hip, hudp, htcp⟩ := csum1_reserved1 hl
  obtain ⟨hlgsen, hmss1⟩ := tso1_reserved1 hl
  obtain ⟨hudp2, htcp2, hip2⟩ := csum2_vlan hl vlan
  rcases encodeOffload_cases henc with ⟨hmss, rfl | rfl⟩ | rfl | rfl
  · exact ⟨or_apart hlgsen (putField_apart hmss hmss1), BitVec.zero_and⟩
  · exact ⟨hlgsen, putField_apart ((layout_widths hl).1 ▸ hmss) (tso2_vlan hl vlan)⟩
  · exact ⟨or_apart (or_apart (flagIf_apart _ hip) (flagIf_apart _ hudp)) (flagIf_apart _ htcp), BitVec.zero_and⟩
  · exact ⟨BitVec.zero_and, or_apart (or_apart (flagIf_apart _ hudp2) (flagIf_apart _ htcp2)) (flagIf_apart _ hip2)⟩

end Sys2Proof.Machine
end

section
/-! SUPPORT. O60: the descriptor-word formats under the default layout (R76, R78 to R85). -/

namespace Sys2Proof.Machine

-- One declaration at a time: each thread of the elaborator reserves a stack of its own.
set_option Elab.async false

/-! ### The fields of a format and those of the encoder -/

theorem placeBit_false (p : Nat) : placeBit false p = 0#32 := BitVec.zero_shiftLeft ..

theorem flagIf_eq_placeBit (b : Bool) (p : Nat) : flagIf b p = placeBit b p := by
  cases b
  · exact (placeBit_false p).symm
  · rfl

theorem bit_eq_placeBit (p : Nat) : bit p = placeBit true p := rfl

theorem putField_eq_place {n : Nat} (v : BitVec n) (lo w : Nat) : putField ⟨lo, w⟩ v.toNat = place v lo := by
  rw [putField, place, BitVec.ofNat_toNat]

theorem fieldFits_toNat (lo n : Nat) (v : BitVec n) : fieldFits ⟨lo, n⟩ v.toNat = true :=
  decide_eq_true (Nat.le_sub_one_of_lt v.isLt)

/-- The bits that lie where no field stands are all kept. -/
theorem unnamed_of_within {rest mask : Word} {named : List Word} (h : within rest mask = true)
    (hnamed : mask &&& ~~~ orAll named = mask) : unnamed rest named = rest := by
  rw [within, beq_iff_eq] at h
  rw [unnamed, ← h, BitVec.and_assoc, hnamed]

/-- A word whose values fit their fields is the result, and nothing else changes. -/
theorem descResult_of_fits {f : DescFormat} {fits : Bool} {word : Layout → Word} {w : Word} {s : State}
    (hc : cfgWf s.cfg = true) (hfits : fits = true) (hword : word s.cfg.layout = w) :
    descResult f fits word s = .next { s with result := .desc f w } := by
  have hpre : precheck anyAgent .always s = none :=
    precheck_eq_none.2 ⟨by cases s.caller <;> decide, hc, trivial⟩
  rw [descResult, hpre]
  simp only [hfits, hword, if_true]
  rfl

/-! ### O60 -/

/-- Settles O60: each format's meaning is its fields placed where `L0` has them, as the encoder places them. -/
theorem descriptorWordsUnderDefaultLayout : Obligations.DescriptorWordsUnderDefaultLayout := by
  intro i f w s hf hwf henc hc hl
  cases i
  case txd1V1Csum | txd1V1Tso | txd1V2 | txd2V1 | txd2V2 | rxdArmed =>
    cases henc
    dsimp only [exec, execTxd1V1Csum, execTxd1V1Tso, execTxd1V2, execTxd2V1, execTxd2V2, execRxdArmed]
    refine descResult_of_fits hc ?_ ?_
    · simp [hl, Layout.l0, fieldFits_toNat]
    · simp [hl, Layout.l0, orAll, commonBits, flagIf_eq_placeBit, bit_eq_placeBit, putField_eq_place]
  case rxd1V1 | rxd1V2 | rxd2V1 | rxd2V2 =>
    cases henc
    dsimp only [exec, execRxd1V1, execRxd1V2, execRxd2V1, execRxd2V2]
    refine descResult_of_fits hc ?_ ?_
    · simp [hl, Layout.l0, fieldFits_toNat]
    · rw [hl, unnamed_of_within hwf (by decide)]
      simp [Layout.l0, orAll, commonBits, flagIf_eq_placeBit, placeBit_false, putField_eq_place]
  all_goals cases hf

end Sys2Proof.Machine
end

section
/-! SUPPORT. O22, O23: RING.ALLOC, where it is refused or stalls and what it hands out (R110, R111). -/

namespace Sys2Proof.Machine

-- One declaration at a time: each thread of the elaborator reserves a stack of its own.
set_option Elab.async false

variable {s : State} {n : Nat}

theorem execRingAlloc_of_ready (hr : Ready .submitter s) (n : Nat) : exec (.ringAlloc n) s =
    if n = 0 ∨ s.cfg.kMaxSegs < n then .next (s.refuse .operandRange)
    else if allocFails n s then .next ((s.raise .backpressure).withResult .stall)
    else .next ((takeDescs n s).withResult (.first s.txNext)) := by
  have hpre : precheck [.submitter] .enabled s = none :=
    precheck_eq_none.2 ⟨by simp [hr.1.caller], hr.1.cfg, hr.2⟩
  show execRingAlloc n s = _
  rw [execRingAlloc, guarded_ok hpre hr.1.overlaps]

/-- An allocation that fits is made (R110). -/
theorem execRingAlloc_fits (hr : Ready .submitter s) (h1 : 1 ≤ n) (hk : n ≤ s.cfg.kMaxSegs) (hfree : (n : Int) < s.txFree) :
    exec (.ringAlloc n) s = .next ((takeDescs n s).withResult (.first s.txNext)) := by
  rw [execRingAlloc_of_ready hr, if_neg (by omega), if_neg (by rw [allocFails_iff]; omega)]

/-- An allocation that leaves a count a ring can have does not wrap `tx_free` (R14). -/
theorem takeDescs_fits (hc : cfgWf s.cfg = true) (hfree : (n : Int) < s.txFree) (hmax : s.txFree ≤ s.cfg.nTx) :
    takeDescs n s = { s with
      txNext := txIdx s.cfg s.txNext n, txFree := s.txFree - n
      txUnsubmitted := s.txUnsubmitted ++ txRange s.cfg s.txNext n } := by
  have hn := (cfgOk hc).nTxMax
  have hwrap : wrapI32 (s.txFree + -(n : Int)) = s.txFree - n := wrapI32_of_bounds (by omega) (by omega)
  rw [takeDescs, atomicAdd, hwrap]

/-- Settles O22: each clause is one branch of RING.ALLOC. -/
theorem ringAllocAdvancesOrStalls : Obligations.RingAllocAdvancesOrStalls := by
  intro n s hr
  refine ⟨fun hn => ?_, fun h1 hk hfull => ?_, fun h1 hk hfree hmax => ?_⟩
  · rw [execRingAlloc_of_ready hr, if_pos hn]
    rfl
  · rw [execRingAlloc_of_ready hr, if_neg (by omega), if_pos (allocFails_iff.2 hfull)]
    rfl
  · rw [execRingAlloc_fits hr h1 hk hfree, takeDescs_fits hr.1.cfg hfree hmax]
    rfl

/-- What an allocation that fits hands out was not outstanding (R111). -/
theorem CursorsOk.not_isOutstanding_next (hs : CursorsOk s) {j : Nat} (hroom : outstanding s + j < s.cfg.nTx) :
    ¬ isOutstanding s (txIdx s.cfg s.txNext j) := by
  have hn := hs.next
  have hd := hs.dirty
  have hoeq := hs.outstanding_eq
  have hidx : txIdx s.cfg s.txNext j = if s.txNext + j < s.cfg.nTx then s.txNext + j else s.txNext + j - s.cfg.nTx :=
    ringStep_eq hn (by omega)
  have hlt : txIdx s.cfg s.txNext j < s.cfg.nTx := Nat.mod_lt _ (by omega)
  rw [hs.isOutstanding_iff hlt, hidx]
  grind

/-- Settles O23: the indices from `tx_next` on lie past what is outstanding, and a descriptor not outstanding is the
engine's. -/
theorem ringAllocHandsOutFreeDescriptors : Obligations.RingAllocHandsOutFreeDescriptors := by
  intro n s hr hcur hrings h1 hk hfree
  obtain ⟨-, hout, -⟩ := hcur.allocate hr.1.cfg (u := takeDescs n s) hfree rfl rfl rfl rfl
  have hroom : outstanding s + n < s.cfg.nTx := by
    have := hcur.free
    omega
  refine ⟨_, execRingAlloc_fits hr h1 hk hfree, rfl, fun j hj => ?_⟩
  have hnot : ¬ isOutstanding s (txIdx s.cfg s.txNext j) := hcur.not_isOutstanding_next (by omega)
  have howned := hrings.idle _ (Nat.mod_lt _ (by omega)) hnot
  exact ⟨hnot, hcur.isOutstanding_allocated hout hroom hj rfl rfl, howned⟩

end Sys2Proof.Machine
end

section
/-! SUPPORT. O25: the scan of RING.RECLAIM, descriptor by descriptor (R114, R115). -/

namespace Sys2Proof.Machine

-- One declaration at a time: each thread of the elaborator reserves a stack of its own.
set_option Elab.async false

variable {s v : State} {k n : Nat}

/-! ### The indices from `tx_dirty` up -/

theorem txIdx_txIdx_one (c : Cfg) (d j : Nat) : txIdx c (txIdx c d 1) j = txIdx c d (j + 1) := by
  rw [txIdx, txIdx, txIdx, Nat.mod_add_mod, Nat.add_assoc, Nat.add_comm 1 j]

theorem txIdx_zero {c : Cfg} {d : Nat} (hd : d < c.nTx) : txIdx c d 0 = d := Nat.mod_eq_of_lt hd

theorem txRange_zero (c : Cfg) (d : Nat) : txRange c d 0 = [] := rfl

theorem txRange_succ {c : Cfg} {d : Nat} (hd : d < c.nTx) (n : Nat) :
    txRange c d (n + 1) = d :: txRange c (txIdx c d 1) n := by
  simp only [txRange, List.range_succ_eq_map, List.map_cons, List.map_map, Function.comp_def, txIdx_txIdx_one,
    txIdx_zero hd]

/-! ### Which descriptors a scan takes -/

/-- A scan of at most `k` descriptors takes `n`: `PassTakes` with any bound (R114, R115). -/
structure ScanTakes (s : State) (k n : Nat) : Prop where
  bound : n ≤ k
  done  : ∀ j < n, s.nicOwned .tx (txIdx s.cfg s.txDirty j) = false
  stop  : n < k → s.nicOwned .tx (txIdx s.cfg s.txDirty n) = true

theorem ScanTakes.passTakes (h : ScanTakes s (outstanding s) n) : PassTakes s n := ⟨h.bound, h.done, h.stop⟩

theorem scanTakes_none (h : 0 < k → s.nicOwned .tx (txIdx s.cfg s.txDirty 0) = true) : ScanTakes s k 0 :=
  ⟨Nat.zero_le _, fun _ hj => absurd hj (Nat.not_lt_zero _), h⟩

/-- The state a completed descriptor is reclaimed to, with no visit action (R114). -/
def afterReclaim (s : State) : State := { s with
  txDirty := txIdx s.cfg s.txDirty 1, txFree := wrapI32 (s.txFree + 1), txDoneCount := countUp s.cfg s.txDoneCount
  txUnsubmitted := s.txUnsubmitted.filter (· != s.txDirty)
  history := s.history ++ [.descRead .tx s.txDirty .opts1] ++ [.acquire] }

theorem ScanTakes.cons (hd : s.txDirty < s.cfg.nTx) (hown : s.nicOwned .tx s.txDirty = false)
    (h : ScanTakes (afterReclaim s) k n) : ScanTakes s (k + 1) (n + 1) where
  bound := Nat.succ_le_succ h.bound
  done
    | 0, _ => by rw [txIdx_zero hd]; exact hown
    | j + 1, hj => by rw [← txIdx_txIdx_one]; exact h.done j (Nat.lt_of_succ_lt_succ hj)
  stop := fun hn => by rw [← txIdx_txIdx_one]; exact h.stop (Nat.lt_of_succ_lt_succ hn)

/-! ### What a scan leaves -/

/-- `v` comes from `s` by reclaiming `n` descriptors, with no store to any (R114). -/
structure Reclaimed (s v : State) (n : Nat) : Prop where
  record : ∃ l, v.history = s.history ++ l ∧ ∀ e ∈ l, isStore e = false
  frame  : v = { s with
    txDirty := txIdx s.cfg s.txDirty n, txFree := s.txFree + n, txDoneCount := counted s.cfg s.txDoneCount n
    txUnsubmitted := v.txUnsubmitted, history := v.history }

theorem Reclaimed.none (hd : s.txDirty < s.cfg.nTx) : Reclaimed s s 0 where
  record := ⟨[], (List.append_nil _).symm, nofun⟩
  frame := by rw [txIdx_zero hd, Nat.cast_zero, Int.add_zero]; rfl

theorem Reclaimed.none_read (hd : s.txDirty < s.cfg.nTx) : Reclaimed s (s.noteRead .tx s.txDirty .opts1) 0 where
  record := ⟨[.descRead .tx s.txDirty .opts1], rfl, by simp [isStore]⟩
  frame := by rw [txIdx_zero hd, Nat.cast_zero, Int.add_zero]; rfl

theorem Reclaimed.cons (hwrap : wrapI32 (s.txFree + 1) = s.txFree + 1) (h : Reclaimed (afterReclaim s) v n) :
    Reclaimed s v (n + 1) where
  record := by
    obtain ⟨l, hl, hstore⟩ := h.record
    refine ⟨[.descRead .tx s.txDirty .opts1, .acquire] ++ l, ?_, by simpa [isStore] using hstore⟩
    rw [hl, afterReclaim]
    simp
  frame := by
    have hfree : (afterReclaim s).txFree + n = s.txFree + ((n + 1 : Nat) : Int) := by
      show wrapI32 (s.txFree + 1) + n = _
      rw [hwrap]
      omega
    have hdirty : txIdx (afterReclaim s).cfg (afterReclaim s).txDirty n = txIdx s.cfg s.txDirty (n + 1) :=
      txIdx_txIdx_one ..
    have hcount : counted (afterReclaim s).cfg (afterReclaim s).txDoneCount n = counted s.cfg s.txDoneCount (n + 1) :=
      counted_countUp ..
    refine h.frame.trans ?_
    rw [hfree, hdirty, hcount, afterReclaim]

/-! ### The scan -/

theorem reclaimLoop_owned (k : Nat) (done : List Nat) (hown : s.nicOwned .tx s.txDirty = true) :
    reclaimLoop (k + 1) done s = .next (s.noteRead .tx s.txDirty .opts1, done) := by
  simp [reclaimLoop, reclaimOne, hown]

theorem reclaimLoop_completed (k : Nat) (done : List Nat) (hown : s.nicOwned .tx s.txDirty = false) :
    reclaimLoop (k + 1) done s = reclaimLoop k (done ++ [s.txDirty]) (afterReclaim s) := by
  simp only [reclaimLoop, reclaimOne, noteRead_nicOwned, State.noteRead_txDirty, hown, andThen_next]
  rfl

/-- The scan of RING.RECLAIM from `s` takes the completed descriptors and answers their indices in order (R114, R115). -/
theorem reclaimLoop_takes (hd : s.txDirty < s.cfg.nTx) (hlow : 0 ≤ s.txFree) (hhigh : s.txFree + k < 2 ^ 31)
    (done : List Nat) : ∃ n v, ScanTakes s k n ∧ Reclaimed s v n ∧
      reclaimLoop k done s = .next (v, done ++ txRange s.cfg s.txDirty n) := by
  induction k generalizing s done with
  | zero =>
    refine ⟨0, s, scanTakes_none fun h => absurd h (Nat.lt_irrefl 0), .none hd, ?_⟩
    rw [txRange_zero, List.append_nil]
    rfl
  | succ k ih =>
    push_cast at hhigh
    by_cases hown : s.nicOwned .tx s.txDirty = true
    · refine ⟨0, _, scanTakes_none fun _ => ?_, .none_read hd, ?_⟩
      · rw [txIdx_zero hd]
        exact hown
      · rw [reclaimLoop_owned k done hown, txRange_zero, List.append_nil]
    · have hfalse := eq_false_of_ne_true hown
      have hwrap : wrapI32 (s.txFree + 1) = s.txFree + 1 := wrapI32_of_bounds (by omega) (by omega)
      have hfree : (afterReclaim s).txFree = s.txFree + 1 := hwrap
      obtain ⟨n, v, htakes, hrec, hrun⟩ := ih (s := afterReclaim s) (Nat.mod_lt _ (Nat.zero_lt_of_lt hd))
        (by omega) (by omega) (done ++ [s.txDirty])
      refine ⟨n + 1, v, htakes.cons hd hfalse, hrec.cons hwrap, ?_⟩
      rw [reclaimLoop_completed k done hfalse, hrun, txRange_succ hd, List.append_assoc]
      rfl

/-! ### O25 -/

theorem execRingReclaim_of_ready (hr : Ready .serialized s) (ht : TxUsable s) : exec .ringReclaim s =
    andThen (reclaimLoop (outstandingCount s) [] s) fun r => .next (r.1.withResult (.indices r.2)) := by
  have hpre : precheck [.serialized] .tx s = none :=
    precheck_eq_none.2 ⟨by simp [hr.1.caller], hr.1.cfg, hr.2, ht⟩
  show execRingReclaim s = _
  rw [execRingReclaim, guarded_ok hpre hr.1.overlaps]

/-- Settles O25: the scan reads each descriptor from `tx_dirty` up and stops at the first the NIC owns. -/
theorem ringReclaimReportsCompletedInOrder : Obligations.RingReclaimReportsCompletedInOrder := by
  intro s hr ht hcur
  have hfree := hcur.free
  have hlt := hcur.outstanding_lt
  have hmax := (cfgOk hr.1.cfg).nTxMax
  obtain ⟨n, v, htakes, ⟨hrecord, hframe⟩, hrun⟩ :=
    reclaimLoop_takes (k := outstanding s) hcur.dirty (by omega) (by omega) []
  refine ⟨n, v.withResult (.indices (txRange s.cfg s.txDirty n)), htakes.passTakes, ?_, rfl, ?_, ?_, ?_, hrecord, ?_⟩
  · rw [execRingReclaim_of_ready hr ht, hcur.outstandingCount_eq, hrun]
    rfl
  all_goals rw [hframe]; rfl

end Sys2Proof.Machine
end

section
/-! SUPPORT. O38: TX.DLCHK, threshold by threshold (R121, R153). -/

namespace Sys2Proof.Machine

-- One declaration at a time: each thread of the elaborator reserves a stack of its own.
set_option Elab.async false

variable {s : State}

/-! ### The check itself -/

/-- Descriptors are outstanding and none has completed since the last check (R153). -/
def TxIdle (s : State) : Prop := s.txDoneCount = s.txDoneLast ∧ s.txFree < (s.cfg.nTx : Int)

variable (rest : List Task) (ends : Result)

theorem dlchk_of_not_idle (h : ¬ TxIdle s) : dlchk rest ends s =
    ((snapshotDone { s with deadlockWarn := 0 }).pushWork rest, false) := if_neg h

theorem dlchk_of_idle (h : TxIdle s) (h1 : countUp s.cfg s.deadlockWarn ≠ s.cfg.dlThresh1)
    (h2 : countUp s.cfg s.deadlockWarn ≠ s.cfg.dlThresh2) : dlchk rest ends s =
      ((snapshotDone { s with deadlockWarn := countUp s.cfg s.deadlockWarn }).pushWork rest, false) :=
  (if_pos h).trans ((if_neg h1).trans (if_neg h2))

theorem dlchk_of_first_threshold (h : TxIdle s) (h1 : countUp s.cfg s.deadlockWarn = s.cfg.dlThresh1) :
    dlchk rest ends s = (((countTimeouts { s with deadlockWarn := countUp s.cfg s.deadlockWarn }).raise
      .missedInterrupt).pushWork (.txBegin :: .dlSnapshot :: rest), false) :=
  (if_pos h).trans (if_pos h1)

theorem dlchk_of_second_threshold (hc : cfgWf s.cfg = true) (h : TxIdle s)
    (h2 : countUp s.cfg s.deadlockWarn = s.cfg.dlThresh2) : dlchk rest ends s =
      (beginReset ends ((countResets { s with deadlockWarn := countUp s.cfg s.deadlockWarn }).raise .txDeadlock),
        true) := by
  have h1 : countUp s.cfg s.deadlockWarn ≠ s.cfg.dlThresh1 := by
    have := (cfgOk hc).dl2
    omega
  exact (if_pos h).trans ((if_neg h1).trans (if_pos h2))

/-! ### O38 -/

theorem execTxDlchk_of_ready (hr : Ready .serialized s) (ht : TxUsable s) (hrx : RxUsable s) (hini : InitUsable s) :
    exec .txDlchk s = .next ((dlchk [] .didReset s).1.withResult (dlchkResult (dlchk [] .didReset s).2)) := by
  have hpre : precheck [.serialized] .both s = none :=
    precheck_eq_none.2 ⟨by simp [hr.1.caller], hr.1.cfg, hr.2, ht, hrx, hini⟩
  show execTxDlchk s = _
  rw [execTxDlchk, guarded_ok hpre hr.1.overlaps]

/-- Settles O38: each clause on TX.DLCHK is one case of its check, and what it leaves to do is the operation it forces,
begun or run as a task. -/
theorem deadlockCheckEscalates : Obligations.DeadlockCheckEscalates := by
  refine ⟨fun s hr ht hrx hini => ?_, fun s hr ht hrx hini => execResetFull_begins hr ht hrx hini,
    fun _ _ => ⟨rfl, rfl⟩, fun s hr ht => execTxIrq_of_ready hr ht, fun _ => ⟨rfl, rfl⟩⟩
  have hexec := execTxDlchk_of_ready hr ht hrx hini
  have hwork : s.work = [] := hr.1.alone rfl
  refine ⟨fun h => ?_, fun h h1 h2 => ?_, fun h h1 => ?_, fun h h2 => ?_⟩
  · rw [hexec, dlchk_of_not_idle [] .didReset h]
    rfl
  · rw [hexec, dlchk_of_idle [] .didReset h h1 h2]
    rfl
  · rw [hexec, dlchk_of_first_threshold [] .didReset h h1]
    simp only [State.pushWork, State.raise_work, countTimeouts_work, hwork]
    rfl
  · rw [hexec, dlchk_of_second_threshold [] .didReset hr.1.cfg h h2]
    simp only [beginReset, State.pushWork, closeQueue_work, State.raise_work, countResets_work, hwork]
    rfl

end Sys2Proof.Machine
end

section
/-! SUPPORT. O28, O29, O30: the segmenter's loop, the one R126 writes, and the regions behind each segment (R126, R127,
R129). -/

namespace Sys2Proof.Machine

-- One declaration at a time: each thread of the elaborator reserves a stack of its own.
set_option Elab.async false

variable {maxSegs maxLen : Nat} {regions : List Region} {r : Region} {l segs : List Segment} {last : Segment}
  {s t : State}

/-! ### The loop of R126, pass by pass -/

theorem segmentStep_empty (hr : r.len = 0) : segmentStep maxSegs maxLen (some l) r = some l := if_pos hr

theorem segmentStep_first (hr : r.len ≠ 0) :
    segmentStep maxSegs maxLen (some []) r = if maxSegs = 0 then none else some [⟨r.pa, r.len⟩] := by
  refine (if_neg hr).trans ?_
  simp [eq_comm]

/-- A region behind a segment extends it or opens the next. -/
theorem segmentStep_last (hr : r.len ≠ 0) : segmentStep maxSegs maxLen (some (l ++ [last])) r =
    if mergeable maxLen last r = true then some (l ++ [⟨last.addr, last.len + r.len⟩])
    else if l.length + 1 = maxSegs then none else some (l ++ [last] ++ [⟨r.pa, r.len⟩]) := by
  refine (if_neg hr).trans ?_
  simp [mergeable]

theorem segmentStep_foldl_none (regions : List Region) : regions.foldl (segmentStep maxSegs maxLen) none = none := by
  induction regions with
  | nil => rfl
  | cons _ _ ih => exact ih

/-- The model's loop, which holds the last segment apart and the finished ones newest first, is that of R126. -/
theorem segmentLoop_eq_foldl {done : List Segment} {o : Option Segment} (h : o = none → done = []) :
    segmentLoop maxSegs maxLen done o regions =
      regions.foldl (segmentStep maxSegs maxLen) (some (done.reverse ++ o.toList)) := by
  induction regions generalizing done o with
  | nil => cases o <;> simp [segmentLoop]
  | cons r rs ih =>
    unfold segmentLoop
    rw [List.foldl_cons]
    by_cases hr : r.len = 0
    · rw [if_pos hr, segmentStep_empty hr, ih h]
    rw [if_neg hr]
    cases o with
    | none =>
      obtain rfl := h rfl
      show _ = rs.foldl _ (segmentStep maxSegs maxLen (some []) r)
      rw [segmentStep_first hr]
      by_cases hmax : maxSegs = 0
      · simp [hmax, segmentStep_foldl_none]
      · simp [hmax, ih]
    | some last =>
      show _ = rs.foldl _ (segmentStep maxSegs maxLen (some (done.reverse ++ [last])) r)
      rw [segmentStep_last hr, List.length_reverse]
      by_cases hm : mergeable maxLen last r = true
      · simp [hm, ih]
      · by_cases hmax : done.length + 1 = maxSegs
        · simp [hm, hmax, segmentStep_foldl_none]
        · simp [hm, hmax, ih]

theorem segmentLoop_eq_segmentsOf (maxSegs maxLen : Nat) (regions : List Region) :
    segmentLoop maxSegs maxLen [] none regions = segmentsOf maxSegs maxLen regions := segmentLoop_eq_foldl fun _ => rfl

/-! ### The two operations past their guard (R236) -/

/-- The operand's range, as the statements have it (R125). -/
theorem regionsOk_iff {c : Cfg} : regionsOk c regions = true ↔
    ∀ r ∈ regions, r.pa.toNat + r.len ≤ 2 ^ 64 ∧ r.len ≤ 2 ^ c.layout.txlen.w - 1 := by
  simp only [regionsOk, List.all_eq_true, regionOk, Bool.and_eq_true, decide_eq_true_eq]
  rfl

theorem regionsOk_eq_false {c : Cfg} (h : ∃ r ∈ regions, 2 ^ 64 < r.pa.toNat + r.len ∨
    2 ^ c.layout.txlen.w - 1 < r.len) : regionsOk c regions = false := by
  obtain ⟨r, hm, hbad⟩ := h
  exact List.all_eq_false.2 ⟨r, hm, by simp [regionOk_eq_false hbad]⟩

theorem execSegTx_of_ready (hr : Ready .submitter s) : exec (.segTx regions) s =
    if regionsOk s.cfg regions = false then .next (s.refuse .operandRange)
    else .next (s.withResult ((segmentsOf s.cfg.kMaxSegs (segLenMax s.cfg) regions).elim .tooManySegments .segs)) := by
  have hpre : precheck [.submitter] .enabled s = none := precheck_eq_none.2 ⟨by simp [hr.1.caller], hr.1.cfg, hr.2⟩
  show execSegTx regions s = _
  rw [execSegTx, guarded_ok hpre hr.1.overlaps, segmentTx, segmentLoop_eq_segmentsOf]
  cases segmentsOf s.cfg.kMaxSegs (segLenMax s.cfg) regions <;> rfl

theorem execSegRx_of_ready (hr : Ready .serialized s) : exec (.segRx regions) s =
    if regionsOk s.cfg regions = false then .next (s.refuse .operandRange)
    else .next (s.withResult ((segmentRx s.cfg regions).elim .tooManySegments .seg)) := by
  have hpre : precheck [.serialized] .enabled s = none := precheck_eq_none.2 ⟨by simp [hr.1.caller], hr.1.cfg, hr.2⟩
  show execSegRx regions s = _
  rw [execSegRx, guarded_ok hpre hr.1.overlaps]
  cases segmentRx s.cfg regions <;> rfl

/-- Settles O28: the range decides, and in range the model's loop is that of R126. -/
theorem segTxFollowsItsLoop : Obligations.SegTxFollowsItsLoop := by
  intro regions s hr
  refine ⟨fun hin => ?_, fun hout => ?_⟩
  · rw [execSegTx_of_ready hr, if_neg (by simp [regionsOk_iff.2 hin]), segLenMax, maxOf]
    cases segmentsOf s.cfg.kMaxSegs (2 ^ s.cfg.layout.txlen.w - 1) regions <;> rfl
  · rw [execSegTx_of_ready hr, if_pos (regionsOk_eq_false hout)]
    rfl

/-- Settles O29: of what the loop of R126 gives for one segment, one that holds a buffer is taken. -/
theorem segRxYieldsOneLargeSegment : Obligations.SegRxYieldsOneLargeSegment := by
  intro regions s hr
  refine ⟨fun hin => ?_, fun hout => ?_⟩
  · rw [execSegRx_of_ready hr, if_neg (by simp [regionsOk_iff.2 hin]), segmentRx, segmentLoop_eq_segmentsOf, maxOf]
    rcases segmentsOf 1 (2 ^ s.cfg.layout.rxlen.w - 1) regions with _ | _ | ⟨seg, _ | _⟩
    · rfl
    · rfl
    · by_cases hbig : s.cfg.rxBufSize ≤ seg.len
      · simp only [if_pos hbig]
        rfl
      · simp only [if_neg hbig]
        rfl
    · rfl
  · rw [execSegRx_of_ready hr, if_pos (regionsOk_eq_false hout)]
    rfl

/-! ### The regions behind each segment (R127) -/

/-- A segment with the regions it was made of. -/
abbrev Piece := Segment × List Region

/-- The addresses of a list of regions, in order. -/
def runOfRegions (l : List Region) : List Nat := l.flatMap fun r => runOf r.pa r.len

/-- The segments a list of pieces stands for. -/
def segsOf (pieces : List Piece) : List Segment := pieces.map Prod.fst

/-- Of two consecutive segments that touch, the first had no room for the first region of the second (R127 (d)). -/
def Separate (maxLen : Nat) (p q : Piece) : Prop :=
  p.1.addr.toNat + p.1.len = q.1.addr.toNat →
    ∃ first rest, q.2 = first :: rest ∧ first.pa = q.1.addr ∧ maxLen < p.1.len + first.len

/-- The pieces take up the regions, the empty ones left out, within the number of segments allowed (R127). -/
structure Covers (maxSegs maxLen : Nat) (regions : List Region) (pieces : List Piece) : Prop where
  few      : pieces.length ≤ maxSegs
  all      : pieces.flatMap Prod.snd = regions.filter (fun r => r.len != 0)
  same     : ∀ p ∈ pieces, runOfRegions p.2 = runOf p.1.addr p.1.len
  separate : pieces.IsChain (Separate maxLen)

theorem runOf_zero (a : Addr) : runOf a 0 = [] := rfl

/-- Two runs that touch make one. -/
theorem runOf_append {a b : Addr} {m n : Nat} (h : a.toNat + m = b.toNat) :
    runOf a (m + n) = runOf a m ++ runOf b n := by
  simp only [runOf, List.range_add, List.map_append, List.map_map, ← h]
  congr 1
  exact List.map_congr_left fun k _ => (Nat.add_assoc ..).symm

theorem runOfRegions_append (l m : List Region) : runOfRegions (l ++ m) = runOfRegions l ++ runOfRegions m :=
  List.flatMap_append

theorem runOfRegions_singleton (r : Region) : runOfRegions [r] = runOf r.pa r.len := List.append_nil _

/-- Empty regions contribute no address. -/
theorem runOfRegions_filter (l : List Region) : runOfRegions (l.filter fun r => r.len != 0) = runOfRegions l := by
  induction l with
  | nil => rfl
  | cons r l ih =>
    rw [← List.singleton_append, List.filter_append, runOfRegions_append, runOfRegions_append, ih]
    by_cases hr : r.len = 0
    · simp [runOfRegions, hr, runOf_zero]
    · simp [hr]

theorem Covers.skip {pieces : List Piece} (h : Covers maxSegs maxLen regions pieces) (hr : r.len = 0) :
    Covers maxSegs maxLen (regions ++ [r]) pieces :=
  ⟨h.few, by simp [h.all, hr], h.same, h.separate⟩

/-- A region that extends the last segment joins its regions. -/
theorem Covers.extend {init : List Piece} {p : Piece} (h : Covers maxSegs maxLen regions (init ++ [p])) (hr : r.len ≠ 0)
    (hadj : p.1.addr.toNat + p.1.len = r.pa.toNat) :
    Covers maxSegs maxLen (regions ++ [r]) (init ++ [(⟨p.1.addr, p.1.len + r.len⟩, p.2 ++ [r])]) where
  few := by simpa using h.few
  all := by
    have hall := h.all
    simp only [List.flatMap_append, List.flatMap_singleton] at hall
    simp [← hall, hr]
  same := by
    have hp := h.same p (by simp)
    intro q hq
    rcases List.mem_append.1 hq with hq | hq
    · exact h.same q (List.mem_append_left _ hq)
    · obtain rfl := List.mem_singleton.1 hq
      rw [runOfRegions_append, hp, runOfRegions_singleton, runOf_append hadj]
  separate := by
    obtain ⟨hinit, -, hlast⟩ := List.isChain_append.1 h.separate
    refine List.isChain_append.2 ⟨hinit, .singleton _, fun x hx y hy hxy => ?_⟩
    obtain rfl : _ = y := by simpa using hy
    obtain ⟨first, rest, hq, hfirst⟩ := hlast x hx p rfl hxy
    exact ⟨first, rest ++ [r], by simp [hq], hfirst⟩

/-- A region that opens a segment: the last one neither touches it nor has room for it. -/
theorem Covers.add {pieces : List Piece} (h : Covers maxSegs maxLen regions pieces) (hr : r.len ≠ 0)
    (hfew : pieces.length ≠ maxSegs) (hnot : ∀ p ∈ pieces.getLast?, mergeable maxLen p.1 r = false) :
    Covers maxSegs maxLen (regions ++ [r]) (pieces ++ [(⟨r.pa, r.len⟩, [r])]) where
  few := by
    have := h.few
    simp only [List.length_append, List.length_singleton]
    omega
  all := by simp [h.all, hr]
  same := by
    intro q hq
    rcases List.mem_append.1 hq with hq | hq
    · exact h.same q hq
    · obtain rfl := List.mem_singleton.1 hq
      exact runOfRegions_singleton r
  separate := by
    refine List.isChain_append.2 ⟨h.separate, .singleton _, fun p hp y hy hxy => ?_⟩
    obtain rfl : _ = y := by simpa using hy
    have hm := hnot p hp
    have hroom : ¬ p.1.len + r.len ≤ maxLen := by simpa [mergeable, hxy] using hm
    exact ⟨r, [], rfl, rfl, by simpa using hroom⟩

/-- One pass of the loop. -/
theorem Covers.step {pieces : List Piece} (h : Covers maxSegs maxLen regions pieces)
    (hstep : segmentStep maxSegs maxLen (some (segsOf pieces)) r = some segs) :
    ∃ new, segsOf new = segs ∧ Covers maxSegs maxLen (regions ++ [r]) new := by
  by_cases hr : r.len = 0
  · rw [segmentStep_empty hr] at hstep
    exact ⟨pieces, Option.some.inj hstep, h.skip hr⟩
  rcases List.eq_nil_or_concat' pieces with rfl | ⟨init, p, rfl⟩
  · change segmentStep maxSegs maxLen (some []) r = some segs at hstep
    rw [segmentStep_first hr] at hstep
    split at hstep
    · cases hstep
    · rename_i hmax
      exact ⟨_, by simpa [segsOf] using hstep, h.add hr (Ne.symm hmax) (by simp)⟩
  · rw [segsOf, List.map_append, List.map_singleton, segmentStep_last hr] at hstep
    split at hstep
    · rename_i hm
      simp only [mergeable, Bool.and_eq_true, beq_iff_eq, decide_eq_true_eq] at hm
      exact ⟨_, by simpa [segsOf] using hstep, h.extend hr hm.1⟩
    · rename_i hm
      split at hstep
      · cases hstep
      · rename_i hmax
        exact ⟨_, by simpa [segsOf] using hstep, h.add hr (by simpa using hmax) (by simpa using hm)⟩

theorem segmentsOf_covers (h : segmentsOf maxSegs maxLen regions = some segs) :
    ∃ pieces, segsOf pieces = segs ∧ Covers maxSegs maxLen regions pieces := by
  induction regions using List.reverseRecOn generalizing segs with
  | nil => exact ⟨[], Option.some.inj h, ⟨Nat.zero_le _, rfl, by simp, .nil⟩⟩
  | append_singleton regions r ih =>
    rw [segmentsOf, List.foldl_append] at h
    change segmentStep maxSegs maxLen (segmentsOf maxSegs maxLen regions) r = some segs at h
    cases hprev : segmentsOf maxSegs maxLen regions with
    | none => rw [hprev] at h; cases h
    | some before =>
      obtain ⟨pieces, rfl, hc⟩ := ih hprev
      rw [hprev] at h
      exact hc.step h

/-- SEG.TX ends in segments only where the operand is in range and the loop gives them. -/
theorem segmentTx_of_result (h : exec (.segTx regions) s = .next t) (ht : t.result = .segs segs) :
    regionsOk s.cfg regions = true ∧ segmentTx s.cfg regions = some segs := by
  rcases guarded_eq_next (show execSegTx regions s = .next t from h) with ⟨_, -, rfl⟩ | ⟨-, h⟩
  · cases ht
  split at h
  · cases h
    cases ht
  · rename_i hok
    split at h
    · rename_i hseg
      cases h
      cases ht
      exact ⟨by simpa using hok, hseg⟩
    · cases h
      cases ht

/-- Settles O30: each pass of the loop keeps the regions behind the segments, and a segment is closed only where the next
region does not touch it or does not fit. -/
theorem segmentsCoverTheRegions : Obligations.SegmentsCoverTheRegions := by
  intro regions s t segs h ht
  obtain ⟨hok, hseg⟩ := segmentTx_of_result h ht
  have hlen := segmentTx_in hok hseg
  rw [segmentTx, segmentLoop_eq_segmentsOf] at hseg
  obtain ⟨pieces, rfl, hc⟩ := segmentsOf_covers hseg
  have hruns : pieces.map (fun p => runOfRegions p.2) = (segsOf pieces).map fun g => runOf g.addr g.len := by
    rw [segsOf, List.map_map]
    exact List.map_congr_left hc.same
  refine ⟨by simpa [segsOf] using hc.few, fun g hg => (hlen g hg).2, ?_, pieces.map Prod.snd, ?_, ?_, ?_⟩
  · calc (segsOf pieces).flatMap (fun g => runOf g.addr g.len)
      _ = (pieces.map fun p => runOfRegions p.2).flatten := by rw [hruns, List.flatMap_def]
      _ = runOfRegions (pieces.flatMap Prod.snd) := by rw [← List.flatMap_def, runOfRegions, List.flatMap_assoc]; rfl
      _ = runOfRegions regions := by rw [hc.all, runOfRegions_filter]
  · rw [← List.flatMap_def, hc.all]
  · rw [List.map_map]
    exact hruns
  · intro k hk hadj
    have hk' : k + 1 < pieces.length := by simpa [segsOf] using hk
    simp only [segsOf, List.getElem_map] at hadj ⊢
    obtain ⟨first, rest, hq, hfirst⟩ := List.isChain_iff_getElem.1 hc.separate k hk' hadj
    exact ⟨first, rest, by simp [hk', hq], hfirst⟩

end Sys2Proof.Machine
end

section
/-! SUPPORT. O39, O40: an iteration of RX.IRQ that delivers nothing: an idle descriptor, a fragment, a frame without a
fresh buffer (R165, R168, R170). -/

namespace Sys2Proof.Machine

-- One declaration at a time: each thread of the elaborator reserves a stack of its own.
set_option Elab.async false

variable {s v : State} {draws : List Acquisition} {a : Acquisition} {i len : Nat} {opts : DeliverOpts} {l : List Event}

/-! ### What an iteration without a delivery records -/

/-- Events among which no frame is delivered and nothing flushed. -/
def Undelivered (l : List Event) : Prop := deliveries l = [] ∧ .flushInputQueue ∉ l

/-- The end of the iteration adds the stores of the re-arm and no delivery. -/
theorem iterationEnd_undelivered (d : Bool) (hv : v.history = s.history ++ l) (hl : Undelivered l) :
    ∃ m, (iterationEnd d v).history = s.history ++ m ∧ (∀ e ∈ l, e ∈ m) ∧ Undelivered m := by
  obtain ⟨stores, hend, hquiet⟩ := iterationEnd_history d v
  refine ⟨l ++ stores, by rw [hend, hv, List.append_assoc], fun e he => List.mem_append_left _ he, ?_, fun hm => ?_⟩
  · rw [deliveries_append, hl.1, deliveries_quiet hquiet]
    rfl
  · rcases List.mem_append.1 hm with hm | hm
    · exact hl.2 hm
    · cases hquiet _ hm

/-! ### An idle descriptor and a fragment (R165, R168) -/

/-- Drawn region lists out of R125's range are refused with the invocation (log entry 37). -/
theorem execRxIrq_outOfRange (hr : Ready .serialized s) (hrx : RxUsable s) (hd : ¬ DrawsInRange s.cfg draws) :
    exec (.rxIrq draws) s = .next (s.refuse .operandRange) := by
  have hpre : precheck [.serialized] .rx s = none := precheck_eq_none.2 ⟨by simp [hr.1.caller], hr.1.cfg, hr.2, hrx⟩
  show execRxIrq draws s = _
  rw [execRxIrq, guarded_ok hpre hr.1.overlaps, if_pos (eq_false_of_ne_true (drawsOk_iff.not.2 hd))]

/-- A descriptor of the NIC ends a pass that owes no flush. -/
theorem rxNext_idle (hown : s.nicOwned .rx s.rxIndex = true) :
    rxNext false s = .next (s.noteRead .rx s.rxIndex .opts1) := if_pos hown

/-- The state a fragment leaves before the re-arm. -/
def fragmentState (s : State) : State := { s with
  ctrFrameTooLong := (s.ctrFrameTooLong + 1) % 2 ^ s.cfg.ctrW
  history := s.history ++ [.descRead .rx s.rxIndex .opts1, .acquire, .descRead .rx s.rxIndex .opts2,
    .raised .rxFragmented] }

theorem rxNext_of_fragment (d : Bool) (hown : s.nicOwned .rx s.rxIndex = false)
    (hfrag : fragmented s.cfg.layout (s.desc32 .rx s.rxIndex .opts1) = true) :
    rxNext d s = .next ((rearmAdvance (fragmentState s)).pushWork [.rxNext d]) := by
  have hown' : ¬ (s.noteRead .rx s.rxIndex .opts1).nicOwned .rx s.rxIndex = true := by simp [hown]
  have hdrop : dropFragment (((s.noteRead .rx s.rxIndex .opts1).emit .acquire).noteRead .rx s.rxIndex .opts2) =
      fragmentState s := by
    simp [fragmentState, dropFragment, countFrameTooLong, countUp, State.raise, State.noteRead, State.emit]
  have hhandle : handleRx (s.noteRead .rx s.rxIndex .opts1) = .next (fragmentState s, false) :=
    (if_pos hfrag).trans (congrArg (fun u : State => Host.Outcome.next (u, false)) hdrop)
  rw [rxNext]
  refine (if_neg hown').trans ?_
  rw [hhandle, andThen_next, Bool.or_false]

/-- Settles O39: each clause is one way an iteration of RX.IRQ goes, and a fragment's ends with the re-arm. -/
theorem rxIrqRecyclesFragments : Obligations.RxIrqRecyclesFragments := by
  refine ⟨fun draws s hr hrx hd => execRxIrq_outOfRange hr hrx hd, fun draws s hr hrx hw hi hd => ⟨fun hown => ?_,
    fun hown hfrag => ?_⟩⟩
  · rw [execRxIrq_of_ready hr hrx hd, rxNext_idle (s := takeDraws draws s) hown]
    rfl
  · have hrun : exec (.rxIrq draws) s = .next (iterationEnd false (fragmentState (takeDraws draws s))) := by
      rw [execRxIrq_of_ready hr hrx hd, rxNext_of_fragment (s := takeDraws draws s) false hown hfrag]
      rfl
    obtain ⟨l, hl, hkeeps, hdel, hflush⟩ := iterationEnd_undelivered (s := s) (v := fragmentState (takeDraws draws s))
      false rfl ⟨rfl, by simp⟩
    refine ⟨_, l, hrun, iterationEnd_rearmedFrom false hw (offsetsOk (cfgOk hr.1.cfg).layout) ⟨rfl, rfl, rfl⟩ rfl rfl,
      hl, hkeeps _ (by simp), hdel, hflush, ?_⟩
    rw [iterationEnd_shape]
    simp [fragmentState, takeDraws, hr.1.alone rfl]

/-! ### A frame without a fresh buffer (R170) -/

/-- An acquisition that yields no buffer the frame of `len` bytes can go to, or be replaced by (R129, R170, R171; log
entry 38). -/
def Unusable (s : State) (len : Nat) (a : Acquisition) : Prop :=
  a = .failed ∨ (∃ h regions, a = .replaced h regions ∧ h ∉ s.heldBuffers ∧ segmentRx s.cfg regions = none) ∨
    ∃ h size, a = .copied h size ∧ size < len

/-- A pass that has used up its draws goes on as if it drew a failed one (log entry 5). -/
theorem rxNext_exhausted (d : Bool) (hown : s.nicOwned .rx s.rxIndex = false) (hgood : GoodFrame s s.rxIndex) :
    rxNext d (takeDraws [] s) = rxNext d (takeDraws [.failed] s) := by
  obtain ⟨hwhole, hlong, hfits⟩ := hgood
  have hwhole' := ne_true_of_eq_false hwhole
  have hlen : ¬ badRxLength s.cfg (s.desc32 .rx s.rxIndex .opts1) = true := by
    simp only [badRxLength, Bool.or_eq_true, decide_eq_true_eq]
    omega
  have hown' : ¬ s.nicOwned .rx s.rxIndex = true := by simp [hown]
  have hhandle : handleRx ((takeDraws [] s).noteRead .rx s.rxIndex .opts1) =
      handleRx ((takeDraws [.failed] s).noteRead .rx s.rxIndex .opts1) := by
    unfold handleRx
    exact ((if_neg hwhole').trans (if_neg hlen)).trans ((if_neg hwhole').trans (if_neg hlen)).symm
  rw [rxNext, rxNext]
  exact (if_neg hown').trans ((congrArg (andThen · _) hhandle).trans (if_neg hown').symm)

/-- RX.IRQ on a good frame draws the first acquisition it brings, a failed one when it brings none (R165). -/
theorem execRxIrq_of_good (hr : Ready .serialized s) (hrx : RxUsable s) (hd : DrawsInRange s.cfg draws)
    (hown : s.nicOwned .rx s.rxIndex = false) (hgood : GoodFrame s s.rxIndex) : exec (.rxIrq draws) s =
      andThen (acquire s.rxIndex (draws.headD .failed) (frameLen s s.rxIndex) (frameOpts s s.rxIndex)
        (drawState draws.tail s)) fun r => .next (iterationEnd r.2 r.1) := by
  rw [execRxIrq_of_ready hr hrx hd]
  cases draws with
  | nil =>
    rw [rxNext_exhausted false hown hgood, rxNext_of_good false hown hgood, List.headD_nil, List.tail_nil]
    cases acquire s.rxIndex .failed (frameLen s s.rxIndex) (frameOpts s s.rxIndex) (drawState [] s) <;> rfl
  | cons x acqs =>
    rw [rxNext_of_good false hown hgood, List.headD_cons, List.tail_cons]
    cases acquire s.rxIndex x (frameLen s s.rxIndex) (frameOpts s s.rxIndex) (drawState acqs s) <;> rfl

/-- The state an acquisition without a usable buffer leaves: the failure counted and raised behind `l` (R170). -/
def droppedState (l : List Event) (s : State) : State := { s with
  ctrResourceErrors := (s.ctrResourceErrors + 1) % 2 ^ s.cfg.ctrW
  history := s.history ++ (l ++ [.raised .resourceExhaustion]) }

theorem acquisitionFailed_eq (s : State) : acquisitionFailed s = droppedState [] s := rfl

/-- A drawn buffer that is not one segment is freed at once (R129). -/
theorem acquireReplaced_unusable {h : Handle} {regions : List Region} {old : RxBuffer}
    (hok : regionsOk s.cfg regions = true) (hh : h ∉ s.heldBuffers) (hseg : segmentRx s.cfg regions = none) :
    acquireReplaced i old h regions len opts s =
      .next (droppedState [.dmaPrepare (.buffer h), .dmaComplete (.buffer h), .freeBuffer h] s, false) := by
  rw [acquireReplaced, if_neg (by simp [handleFresh_iff.2 hh]), drawnSegment_of_ok hok, hseg]
  dsimp only
  rw [freeBuffer_of_held (by simp [holdBuffer])]
  simp [acquisitionFailed_eq, droppedState, holdBuffer]

/-- Whatever is drawn in vain, the frame is dropped and the engine holds what it held (R170). -/
theorem acquire_unusable (hold : s.rxBuf i ≠ none) (hu : Unusable s len a)
    (hok : ∀ h regions, a = .replaced h regions → regionsOk s.cfg regions = true) :
    ∃ l, Undelivered l ∧ acquire i a len opts s = .next (droppedState l s, false) := by
  obtain ⟨old, hold⟩ := Option.ne_none_iff_exists'.1 hold
  rcases hu with rfl | ⟨h, regions, rfl, hh, hseg⟩ | ⟨h, size, rfl, hsize⟩
  · exact ⟨[], ⟨rfl, by simp⟩, rfl⟩
  · refine ⟨[.dmaPrepare (.buffer h), .dmaComplete (.buffer h), .freeBuffer h], ⟨rfl, by simp⟩, ?_⟩
    rw [acquire]
    simp only [hold]
    exact acquireReplaced_unusable (hok _ _ rfl) hh hseg
  · refine ⟨[], ⟨rfl, by simp⟩, ?_⟩
    rw [acquire]
    simp only [hold]
    exact if_pos hsize

/-- Settles O40: the draw comes to nothing, and the re-arm gives the descriptor the buffer it has. -/
theorem rxIrqSurvivesFailedAcquisition : Obligations.RxIrqSurvivesFailedAcquisition := by
  intro draws a s hr hrx hw hi hown hgood hd hhead hun
  obtain ⟨old, hold, -⟩ := rxSlot_some hrx hi
  have hok : ∀ h regions, a = .replaced h regions → regionsOk s.cfg regions = true := by
    rintro h regions rfl
    cases draws with
    | nil => cases hhead
    | cons x acqs => exact hd h regions (by simpa using Or.inl hhead.symm)
  obtain ⟨l, hl, hacq⟩ := acquire_unusable (s := drawState draws.tail s) (i := s.rxIndex)
    (opts := frameOpts s s.rxIndex) (show s.rxBuf s.rxIndex ≠ none by simp [hold]) hun hok
  have hrun : exec (.rxIrq draws) s = .next (iterationEnd false (droppedState l (drawState draws.tail s))) := by
    rw [execRxIrq_of_good hr hrx hd hown hgood, hhead, hacq]
    rfl
  obtain ⟨m, hm, hkeeps, hdel, hflush⟩ := iterationEnd_undelivered (s := s) (v := droppedState l (drawState draws.tail s))
    (l := [.descRead .rx s.rxIndex .opts1, .acquire, .descRead .rx s.rxIndex .opts2] ++
      (l ++ [.raised .resourceExhaustion])) false (by simp [droppedState, drawState])
    ⟨by rw [deliveries_append, deliveries_append, hl.1]; rfl, by simp [hl.2]⟩
  refine ⟨_, m, hrun, iterationEnd_rearmedFrom false hw (offsetsOk (cfgOk hr.1.cfg).layout) ⟨rfl, rfl, rfl⟩ rfl rfl,
    hm, hkeeps _ (by simp), hdel, hflush, ?_⟩
  rw [iterationEnd_shape]
  simp [droppedState, drawState, hr.1.alone rfl]

end Sys2Proof.Machine
end

section
/-! SUPPORT. O53: IRQ acknowledges the pending causes and leaves their passes (R241, R245 (c)). -/

namespace Sys2Proof.Machine

-- One declaration at a time: each thread of the elaborator reserves a stack of its own.
set_option Elab.async false

variable {s : State} {draws : List Acquisition}

/-- A cause's mask shows in the status word exactly when the cause is pending (R240). -/
theorem causeMask_intrStatus (hc : cfgWf s.cfg = true) (c : Cause) :
    intrStatus s &&& causeMask s.cfg.reg c ≠ 0#16 ↔ s.irqPending.has c = true := by
  rw [← causesIn_intrStatus hc]
  cases c <;> simp [CauseSet.has, causesIn, causeMask]

/-- IRQ past its guard (R236, R241). -/
theorem execIrq_of_ready (hr : Ready .serialized s) (ht : TxUsable s) (hrx : RxUsable s) (hini : InitUsable s) :
    exec (.irq draws) s = if drawsOk s.cfg draws = false then .next (s.refuse .operandRange)
      else .next ((irq (takeDraws draws s)).withResult .none) := by
  have hpre : precheck [.serialized] .both s = none :=
    precheck_eq_none.2 ⟨by simp [hr.1.caller], hr.1.cfg, hr.2, ht, hrx, hini⟩
  show execIrq draws s = _
  rw [execIrq, guarded_ok hpre hr.1.overlaps]

/-- A bus error is counted, raised and answered with the begin of a reset (R233, R245). -/
theorem irq_of_busError (hc : cfgWf s.cfg = true) (h : s.irqPending.busError = true) :
    irq s = beginReset .none ((countResets (acknowledge s)).raise .busError) := by
  rw [irq, causesIn_intrStatus hc, if_pos h]

/-- Without one the passes of the pending causes are left to run (R241). -/
theorem irq_of_noBusError (hc : cfgWf s.cfg = true) (h : s.irqPending.busError = false) :
    irq s = (acknowledge s).pushWork (passesFor s.irqPending) := by
  rw [irq, causesIn_intrStatus hc, if_neg (by simp [h])]

theorem execStatsDone_of_ready (hr : Ready .serialized s) :
    exec .statsDone s = .next ((finishStats s).withResult .none) := by
  have hpre : precheck [.serialized] .enabled s = none := precheck_eq_none.2 ⟨by simp [hr.1.caller], hr.1.cfg, hr.2⟩
  show execStatsDone s = _
  rw [execStatsDone, guarded_ok hpre hr.1.overlaps]

/-- The state in which IRQ has acknowledged the pending causes. -/
def acknowledged (draws : List Acquisition) (s : State) : State := { s with
  irqPending := ⟨false, false, false, false⟩, freeCount := s.freeCount + 1, acquisitions := draws
  history := s.history ++ [.regRead s.cfg.reg.intrStatus 16 ((intrStatus s).setWidth 64),
    .regWrite s.cfg.reg.intrStatus 16 ((intrStatus s).setWidth 64)] }

theorem acknowledge_takeDraws (hc : cfgWf s.cfg = true) : acknowledge (takeDraws draws s) = acknowledged draws s :=
  acknowledge_eq (s := takeDraws draws s) hc

/-- The state in which IRQ begins the reset a bus error asks for (R233). -/
def busErrorRaised (draws : List Acquisition) (s : State) : State := { acknowledged draws s with
  ctrResets := (s.ctrResets + 1) % 2 ^ s.cfg.ctrW, history := (acknowledged draws s).history ++ [.raised .busError] }

/-- A bus error ends IRQ with a RESET.FULL begun and nothing else left. -/
theorem execIrq_of_busError (hr : Ready .serialized s) (ht : TxUsable s) (hrx : RxUsable s) (hini : InitUsable s)
    (hd : DrawsInRange s.cfg draws) (h : s.irqPending.busError = true) : exec (.irq draws) s =
      .next { busErrorRaised draws s with txqEnabled := false, work := [.resetRest .none], result := .none } := by
  rw [execIrq_of_ready hr ht hrx hini, if_neg (by simp [drawsOk_iff.2 hd]),
    irq_of_busError (s := takeDraws draws s) hr.1.cfg h, acknowledge_takeDraws hr.1.cfg]
  simp only [beginReset, State.pushWork, closeQueue_work, State.raise_work, countResets_work]
  rw [show (acknowledged draws s).work = [] from hr.1.alone rfl]
  rfl

/-- Settles O53: the status word shows the pending causes and no other, so they are the ones acknowledged, and the first
of the two branches is that of the bus error. -/
theorem irqDispatchesPendingCauses : Obligations.IrqDispatchesPendingCauses := by
  refine ⟨fun draws s hr ht hrx hini hd => ?_, fun draws s hr ht hrx hini hd => ?_, fun draws s hr => ⟨fun hrx hd => ?_,
    fun ht => execTxIrq_of_ready hr ht, execStatsDone_of_ready hr⟩⟩
  · rw [execIrq_of_ready hr ht hrx hini, if_pos (eq_false_of_ne_true (drawsOk_iff.not.2 hd))]
    rfl
  · refine ⟨intrStatus s, causeMask_intrStatus hr.1.cfg, fun hbus => ?_, fun hbus => ?_⟩
    · have hrun := execIrq_of_busError hr ht hrx hini hd hbus
      have hbegin : exec .resetFull (busErrorRaised draws s) = _ :=
        execResetFull_begins ⟨⟨hr.1.caller, hr.1.cfg, hr.1.alone⟩, hr.2⟩ ht hrx hini
      exact ⟨hrun.trans hbegin.symm, hrun⟩
    · rw [execIrq_of_ready hr ht hrx hini, if_neg (by simp [drawsOk_iff.2 hd]),
        irq_of_noBusError (s := takeDraws draws s) hr.1.cfg hbus, acknowledge_takeDraws hr.1.cfg, State.pushWork,
        show (acknowledged draws s).work = [] from hr.1.alone rfl, List.append_nil]
      rfl
  · exact execRxIrq_of_ready hr hrx hd

end Sys2Proof.Machine
end

section
/-! SUPPORT. O31: the three encoders and the command bits they give (R136 to R139). -/

namespace Sys2Proof.Machine

-- One declaration at a time: each thread of the elaborator reserves a stack of its own.
set_option Elab.async false

variable {c : Cfg} {off : OffloadReq} {s : State}

/-! ### What the encoders give -/

theorem flagIf_eq_ite (b : Bool) (p : Nat) : flagIf b p = if b then bit p else 0#32 := Bool.cond_eq_ite ..

/-- The model's test is the four cases of R138. -/
theorem unsupported_iff : unsupported c off = true ↔ OffloadUnsupported c off := by
  simp only [unsupported, Bool.or_eq_true, Bool.and_eq_true, beq_iff_eq, decide_eq_true_eq, or_assoc]
  rfl

theorem encoders_of_unsupported (h : OffloadUnsupported c off) : encodeV1 c off = none ∧ encodeV2 c off = none :=
  ⟨if_pos (unsupported_iff.2 h), if_pos (unsupported_iff.2 h)⟩

/-- With `tso` the checksum requests are not encoded (R136, R137). -/
theorem encoders_of_tso (h : ¬ OffloadUnsupported c off) (ht : off.tso = true) :
    encodeV1 c off = some ⟨bit c.layout.lgsen ||| putField c.layout.mss1 off.mss, 0#32⟩ ∧
    encodeV2 c off = some ⟨bit c.layout.lgsen, putField c.layout.mss2 off.mss⟩ :=
  ⟨(if_neg (unsupported_iff.not.2 h)).trans (if_pos ht), (if_neg (unsupported_iff.not.2 h)).trans (if_pos ht)⟩

theorem encoders_of_no_tso (h : ¬ OffloadUnsupported c off) (ht : off.tso = false) :
    encodeV1 c off = some ⟨flagIf off.ip c.layout.ipcs1 ||| flagIf off.udp c.layout.udpcs1 |||
      flagIf off.tcp c.layout.tcpcs1, 0#32⟩ ∧
    encodeV2 c off = some ⟨0#32, flagIf off.udp c.layout.udpcs2 ||| flagIf off.tcp c.layout.tcpcs2 |||
      flagIf off.ip c.layout.ipcs2⟩ :=
  have hu := unsupported_iff.not.2 h
  have ht' := ne_true_of_eq_false ht
  ⟨(if_neg hu).trans (if_neg ht'), (if_neg hu).trans (if_neg ht')⟩

/-- The tag stands in its field as R88 orders its bytes. -/
theorem encodeVlan_some (tci : Half) : encodeVlan c (some tci) = bit c.layout.txvtag |||
    (vlanField c.layout tci).setWidth 32 <<< c.layout.vlan.lo := by
  rw [encodeVlan, putField, BitVec.ofNat_toNat]

theorem vlanField_eq (l : Layout) (tci : Half) : vlanField l tci =
    if l.vlanSwapped then tci.extractLsb' 0 8 ++ tci.extractLsb' 8 8 else tci := Bool.cond_eq_ite ..

/-! ### The operations past their guard (R236) -/

theorem guarded_submitter_of_ready (hr : Ready .submitter s) (body : State → Out State) :
    guarded [.submitter] .enabled s body = body s :=
  guarded_ok (precheck_eq_none.2 ⟨by simp [hr.1.caller], hr.1.cfg, hr.2⟩) hr.1.overlaps

theorem execEncV1_of_ready (hr : Ready .submitter s) :
    exec (.encV1 off) s = .next { s with result := cmdResult (encodeV1 s.cfg off) } :=
  guarded_submitter_of_ready hr fun s => .next (s.withResult (cmdResult (encodeV1 s.cfg off)))

theorem execEncV2_of_ready (hr : Ready .submitter s) :
    exec (.encV2 off) s = .next { s with result := cmdResult (encodeV2 s.cfg off) } :=
  guarded_submitter_of_ready hr fun s => .next (s.withResult (cmdResult (encodeV2 s.cfg off)))

theorem execEncVlan_of_ready (hr : Ready .submitter s) (vlan : Option Half) :
    exec (.encVlan vlan) s = .next { s with result := .word (encodeVlan s.cfg vlan) } :=
  guarded_submitter_of_ready hr fun s => .next (s.withResult (.word (encodeVlan s.cfg vlan)))

/-- Settles O31: past its guard each encoder gives the word of its case, and only the result is new. -/
theorem encodersGiveTheirCommandBits : Obligations.EncodersGiveTheirCommandBits := by
  intro off vlan s hr l mss
  rw [execEncV1_of_ready hr, execEncV2_of_ready hr, execEncVlan_of_ready hr]
  refine ⟨fun hu => ?_, fun hu ht => ?_, fun hu ht => ?_, ?_⟩
  · obtain ⟨h1, h2⟩ := encoders_of_unsupported hu
    rw [h1, h2]
    exact ⟨rfl, rfl⟩
  · obtain ⟨h1, h2⟩ := encoders_of_tso hu ht
    rw [h1, h2]
    exact ⟨rfl, rfl⟩
  · obtain ⟨h1, h2⟩ := encoders_of_no_tso hu ht
    rw [h1, h2]
    simp only [flagIf_eq_ite]
    exact ⟨rfl, rfl⟩
  · cases vlan with
    | none => rfl
    | some tci =>
      rw [encodeVlan_some, vlanField_eq]

end Sys2Proof.Machine
end

section
/-! SUPPORT. O33: a submission that goes through, descriptor by descriptor (R140, R145, R147). -/

namespace Sys2Proof.Machine

-- One declaration at a time: each thread of the elaborator reserves a stack of its own.
set_option Elab.async false

variable {s u : State} {first n i : Nat} {seg : Segment} {flags1 flags2 : Word} {own : Bool} {cmd : Cmd}
  {vlan : Option Half}

/-! ### What a written descriptor reads as -/

/-- TX descriptor `i` reads as a descriptor write with these operands leaves it (R112). -/
structure WrittenAt (t : State) (i : Nat) (seg : Segment) (flags1 flags2 : Word) (own : Bool) : Prop where
  opts1 : t.desc32 .tx i .opts1 = finalWord t.cfg .tx i flags1 seg.len own
  opts2 : t.desc32 .tx i .opts2 = flags2
  addr  : t.descBuf .tx i = seg.addr

theorem writeDesc_writtenAt (hw : s.mem.wf) (hl : OffsetsOk s.cfg.layout) (i : Nat) (seg : Segment)
    (flags1 flags2 : Word) (own : Bool) :
    WrittenAt (writeDesc .tx i seg flags1 flags2 own s) i seg flags1 flags2 own := by
  obtain ⟨h1, h2, h3⟩ := writeDesc_fields hw hl .tx i seg flags1 flags2 own
  exact ⟨by rw [h1, (writeDesc_sited ..).cfg], h2, h3⟩

/-- A descriptor whose bytes stand reads as before. -/
theorem WrittenAt.carry (h : WrittenAt s i seg flags1 flags2 own) (hl : OffsetsOk s.cfg.layout) (hst : Sited s u)
    (hb : ∀ a, s.inDesc .tx i a → u.mem.read a = s.mem.read a) : WrittenAt u i seg flags1 flags2 own where
  opts1 := by rw [desc32_of_bytes hst hl hb (by simp), h.opts1, hst.cfg]
  opts2 := by rw [desc32_of_bytes hst hl hb (by simp), h.opts2]
  addr := by rw [descBuf_of_bytes hst hl hb, h.addr]

/-- The store that hands the descriptor over changes `opts1` alone (R147). -/
theorem WrittenAt.handOver (h : WrittenAt s i seg flags1 flags2 own) (hw : s.mem.wf) (hl : OffsetsOk s.cfg.layout)
    (hst : Sited s u)
    (hm : u.mem = s.mem.write32 (s.descAddr .tx i .opts1) (ownedWord s.cfg .tx i flags1 seg.len)) :
    WrittenAt u i seg flags1 flags2 true where
  opts1 := by rw [opts1Store_desc32 hw hst hm, hst.cfg]; rfl
  opts2 := by
    have h12 := hl.apart12
    rw [← h.opts2, State.desc32, State.desc32, hst.descAddr, hm]
    exact Memory.read32_write32_of_ne hw _ _ (by simp only [State.descAddr, fieldOff]; omega)
  addr := by
    have h1a := hl.apart1a
    rw [← h.addr, State.descBuf, State.descBuf, hst.descAddr, hm]
    exact Memory.read64_write32_of_ne hw _ _ (by simp only [State.descAddr, fieldOff]; omega)

/-! ### The descriptors of a packet -/

/-- Fewer steps than the ring has descriptors do not come round to the same one. -/
theorem txIdx_inj {c : Cfg} {first j k : Nat} (hj : j < c.nTx) (hk : k < c.nTx)
    (h : txIdx c first j = txIdx c first k) : j = k :=
  Nat.ModEq.eq_of_lt_of_lt (Nat.ModEq.add_left_cancel' first h) hj hk

/-- Step 5 of TX.SUBMIT writes one descriptor a segment, each but the first NIC-owned (R140, R145). -/
theorem writePacket_writtenAt (segs : List Segment) (j : Nat) {s : State} (hl : OffsetsOk s.cfg.layout) (hw : s.mem.wf)
    (hroom : j + segs.length ≤ s.cfg.nTx) (k : Nat) (hk : k < segs.length) :
    WrittenAt (writePacket first n cmd vlan j segs s) (txIdx s.cfg first (j + k)) segs[k]
      (packetFlags1 s.cfg cmd (j + k) n) (packetFlags2 s.cfg cmd vlan) (j + k != 0) := by
  induction segs generalizing j k s with
  | nil => cases hk
  | cons seg rest ih =>
    rw [List.length_cons] at hroom
    rw [writePacket]
    generalize hd : writeDesc .tx (txIdx s.cfg first j) seg (packetFlags1 s.cfg cmd j n) (packetFlags2 s.cfg cmd vlan)
      (j != 0) s = d
    have hat : WrittenAt d _ _ _ _ _ := hd ▸ writeDesc_writtenAt hw hl ..
    have hst : Sited s d := hd ▸ writeDesc_sited ..
    have hwd : d.mem.wf := hd ▸ writeDesc_wf hw ..
    have hld : OffsetsOk d.cfg.layout := hst.cfg ▸ hl
    cases k with
    | zero =>
      -- The later stores go to other descriptors.
      obtain ⟨-, hrest, out⟩ := writePacket_bytes (first := first) (n := n) (cmd := cmd) (vlan := vlan) rest (j + 1)
        hld hwd
      refine hat.carry hld hrest fun a ha => out a fun k' hk' hd => ?_
      rw [hst.cfg] at hd
      have := txIdx_inj (by omega) (by omega) (inDesc_unique ha hd)
      omega
    | succ k =>
      have hrest := ih (j + 1) hld hwd (by rw [hst.cfg]; omega) k (Nat.lt_of_succ_lt_succ hk)
      rw [hst.cfg, Nat.add_assoc, Nat.add_comm 1 k] at hrest
      exact hrest

/-- At the end of TX.SUBMIT every descriptor of the packet is NIC-owned, the first by the last store (R145, R147). -/
theorem submitSegs_writtenAt {h : Handle} {seg0 : Segment} {segs : List Segment} (hl : OffsetsOk s.cfg.layout)
    (hw : s.mem.wf) (hnext : s.txNext < s.cfg.nTx) (hroom : segs.length + 1 ≤ s.cfg.nTx) (k : Nat)
    (hk : k < (seg0 :: segs).length) :
    WrittenAt (submitSegs h seg0 segs cmd vlan s) (txIdx s.cfg s.txNext k) (seg0 :: segs)[k]
      (packetFlags1 s.cfg cmd k (segs.length + 1)) (packetFlags2 s.cfg cmd vlan) true := by
  have hpacket : WrittenAt (packetWritten seg0 segs cmd vlan s) _ _ _ _ _ := writePacket_writtenAt
    (s := takeDescs (segs.length + 1) s) (seg0 :: segs) 0 hl hw (by simpa using hroom) k hk
  rw [Nat.zero_add] at hpacket
  obtain ⟨hwp, hst, -⟩ := packetWritten_bytes (seg0 := seg0) (segs := segs) (cmd := cmd) (vlan := vlan) hl hw
  have hsub := submitSegs_sited h seg0 segs cmd vlan s
  have hmem := submitSegs_mem h seg0 segs cmd vlan s
  have hlp : OffsetsOk (packetWritten seg0 segs cmd vlan s).cfg.layout := hst.cfg ▸ hl
  cases k with
  | zero => exact hpacket.handOver hwp hlp hsub ((txIdx_zero hnext).symm ▸ hmem)
  | succ k =>
    refine hpacket.carry hlp hsub fun a ha => ?_
    rw [hmem]
    refine opts1Store_read_of_ne hwp hlp _ fun hd => ?_
    rw [← txIdx_zero hnext] at hd
    rw [List.length_cons] at hk
    have := txIdx_inj (c := s.cfg) (by omega) (by omega) (inDesc_unique ha hd)
    omega

/-! ### The operation -/

/-- The words of a packet's descriptor as R140 has them. -/
theorem ownedWord_packetFlags1 (c : Cfg) (cmd : Cmd) (i j n len : Nat) :
    ownedWord c .tx i (packetFlags1 c cmd j n) len = bit c.layout.own ||| (eorOn c .tx i |||
      (cmd.cmd1 ||| flagIf (j == 0) c.layout.fs ||| flagIf (j + 1 == n) c.layout.ls) |||
      putField c.layout.txlen len) := by
  rw [eorOn_eq]
  rfl

theorem submitHeld_sends {p : Packet} {seg0 : Segment} {segs : List Segment} (hup : s.link.up = true)
    (hq : s.txqEnabled = true) (hseg : segmentTx s.cfg p.regions = some (seg0 :: segs))
    (henc : encodeOffload s.cfg p.off = some cmd) (hfree : ((segs.length + 1 : Nat) : Int) < s.txFree) :
    submitHeld p s =
      .next ((submitSegs p.h seg0 segs cmd p.vlan (preparePacket p.h s)).withResult .success) := by
  have hfits : ¬ allocFails (segs.length + 1) (preparePacket p.h s) = true := allocFails_iff.not.2 (by simpa using hfree)
  rw [submitHeld, if_neg (by simp [hup, hq])]
  simp only [hseg, henc]
  rw [if_neg hfits]

/-- The state a packet is submitted from: the engine holds it, its memory prepared (R59). -/
def packetTaken (h : Handle) (s : State) : State := { s with
  heldPackets := ⟨h, .prepared⟩ :: s.heldPackets, history := s.history ++ [.dmaPrepare (.packet h)] }

/-- A packet that passes every check is sent (R145). -/
theorem execTxSubmit_sends {p : Packet} {seg0 : Segment} {segs : List Segment} (hr : Ready .submitter s)
    (hu : TxUsable s) (hup : s.link.up = true) (hq : s.txqEnabled = true) (hreg : regionsOk s.cfg p.regions = true)
    (hh : s.holdsPacket p.h = false) (hseg : segmentTx s.cfg p.regions = some (seg0 :: segs))
    (henc : encodeOffload s.cfg p.off = some cmd) (hfree : ((segs.length + 1 : Nat) : Int) < s.txFree) :
    exec (.txSubmit p) s =
      .next ((submitSegs p.h seg0 segs cmd p.vlan (packetTaken p.h s)).withResult .success) := by
  rw [show exec (.txSubmit p) s = _ from execTxSubmit_admitted p hr hu, if_neg (by simp [hreg]), if_neg (by simp [hh]),
    submitHeld_sends (s := holdPacket p.h s) hup hq hseg henc hfree, preparePacket_holdPacket hh, packetTaken]

/-- Settles O33: of the branches of TX.SUBMIT it is the last; the descriptors are written one by one, none twice. -/
theorem txSubmitWritesThePacket : Obligations.TxSubmitWritesThePacket := by
  intro p segs cmd s hr hu hcur hw hup hq hreg hh hseg hne henc hfree n at'
  obtain ⟨seg0, rest, rfl⟩ := List.exists_cons_of_ne_nil hne
  have hl := offsetsOk (cfgOk hr.1.cfg).layout
  have hmax : s.txFree ≤ s.cfg.nTx := by have := hcur.free; omega
  have hroom : rest.length + 1 ≤ s.cfg.nTx := by rw [List.length_cons] at hfree; omega
  have hrun := execTxSubmit_sends hr hu hup hq hreg hh hseg henc hfree
  have hdesc := submitSegs_writtenAt (h := p.h) (seg0 := seg0) (segs := rest) (cmd := cmd) (vlan := p.vlan)
    (s := packetTaken p.h s) hl hw hcur.next hroom
  have hbytes := fun a => submitSegs_bytes (h := p.h) (seg0 := seg0) (segs := rest) (cmd := cmd) (vlan := p.vlan)
    (s := packetTaken p.h s) hl hw hcur.next (a := a)
  have hcount : wrapI32 (s.txFree + -((rest.length + 1 : Nat) : Int)) = s.txFree - n :=
    congrArg State.txFree (takeDescs_fits hr.1.cfg hfree hmax)
  obtain ⟨mem, hist, unsub, hshape⟩ := submitSegs_shape p.h seg0 rest cmd p.vlan (packetTaken p.h s)
  rw [hshape] at hrun hdesc hbytes
  refine ⟨_, hrun, rfl, rfl, hcount, fun i => ?_, ?_, fun j hj => ?_, hbytes, rfl⟩
  · have hlast : at' rest.length < s.txSlot.length := hcur.slots ▸ Nat.mod_lt _ (by omega)
    refine (txPkt_set s (at' rest.length) i (some p.h) _ rfl).trans ?_
    simp only [hlast, and_true]
    rfl
  · simp [State.holdsPacket, packetTaken]
  · obtain ⟨h1, h2, h3⟩ := hdesc j hj
    exact ⟨h3, h2, h1.trans (ownedWord_packetFlags1 ..)⟩

end Sys2Proof.Machine
end

section
/-! SUPPORT. O34: the order in which a submission records its stores (R145, R147, R265). -/

namespace Sys2Proof.Machine

-- One declaration at a time: each thread of the elaborator reserves a stack of its own.
set_option Elab.async false

variable {s t : State} {c : Cfg} {p : Packet} {cmd : Cmd} {vlan : Option Half} {first n i j : Nat} {seg : Segment}
  {segs : List Segment} {flags1 flags2 w : Word} {own : Bool}

/-! ### The words of a packet without `OWN` -/

/-- No bit of a command is `OWN` (R76, R140). -/
theorem own_command (hc : cfgWf c = true) {off : OffloadReq} (henc : encodeOffload c off = some cmd) :
    flag cmd.cmd1 c.layout.own = false := by
  have happ := (commandBitsStayInTheirFields c off cmd none hc henc).1
  refine flag_disjoint ((BitVec.and_comm _ _).trans happ) ?_
  simp only [flag_or, flag_bit_self (own_lt (cfgOk hc).layout), Bool.true_or]

theorem own_packetFlags1 (hl : layoutWf c.layout = true) (hcmd : flag cmd.cmd1 c.layout.own = false) (j n : Nat) :
    flag (packetFlags1 c cmd j n) c.layout.own = false := by
  obtain ⟨hfs, hls, -⟩ := marks_ne hl
  simp only [packetFlags1, flag_or, hcmd, flag_flagIf, flag_bit_ne hfs, flag_bit_ne hls, Bool.and_false, Bool.or_false]

theorem own_opts1Word (hl : layoutWf c.layout = true) (hf : flag flags1 c.layout.own = false) {len : Nat}
    (hlen : len ≤ maxOf (lenField c .tx).w) : flag (opts1Word c .tx i flags1 len) c.layout.own = false := by
  simp only [opts1Word, flag_or, own_eorBit hl, hf, flag_putField_of_fits hlen (len_flag_own hl .tx), Bool.or_false]

/-! ### What comes before the hand-over -/

/-- An event that neither hands TX descriptor `first` over nor rings the doorbell (R147). -/
structure BeforeHandOver (c : Cfg) (first : Nat) (e : Event) : Prop where
  keeps  : handsOver c .tx first e = false
  silent : ∀ off v, e ≠ .doorbell off v

/-- A store to another descriptor. -/
theorem beforeHandOver_store_of_ne (hi : i ≠ first) (f : DescField) (v : BitVec 64) :
    BeforeHandOver c first (.descWrite .tx i f v) where
  keeps := by cases f <;> simp [handsOver, hi]
  silent := nofun

/-- A store of a word without `OWN`. -/
theorem beforeHandOver_opts1 (hw : flag w c.layout.own = false) :
    BeforeHandOver c first (.descWrite .tx i .opts1 (w.setWidth 64)) where
  keeps := by
    have hbit : w.getLsbD c.layout.own = false := hw
    simp [handsOver, BitVec.getLsbD_setWidth, hbit]
  silent := nofun

/-- Each store of a write to another descriptor. -/
theorem beforeHandOver_writeEvents_of_ne (hi : i ≠ first) :
    ∀ e ∈ writeEvents c .tx i seg flags1 flags2 own, BeforeHandOver c first e := by
  intro e he
  rcases List.mem_append.1 he with he | he
  · simp only [List.mem_cons, List.not_mem_nil, or_false] at he
    rcases he with rfl | rfl | rfl | rfl <;> exact beforeHandOver_store_of_ne hi ..
  · split at he
    · simp only [List.mem_cons, List.not_mem_nil, or_false] at he
      rcases he with rfl | rfl
      · exact ⟨rfl, nofun⟩
      · exact beforeHandOver_store_of_ne hi ..
    · cases he

/-- Each store of a write that leaves the descriptor with the engine (R112). -/
theorem beforeHandOver_writeEvents_of_kept (hl : layoutWf c.layout = true) (hf : flag flags1 c.layout.own = false)
    (hlen : seg.len ≤ maxOf (lenField c .tx).w) :
    ∀ e ∈ writeEvents c .tx i seg flags1 flags2 false, BeforeHandOver c first e := by
  intro e he
  rcases List.mem_append.1 he with he | he
  · simp only [List.mem_cons, List.not_mem_nil, or_false] at he
    rcases he with rfl | rfl | rfl | rfl
    · exact ⟨rfl, nofun⟩
    · exact beforeHandOver_opts1 (own_opts1Word hl (flag_zero _) hlen)
    · exact ⟨rfl, nofun⟩
    · exact beforeHandOver_opts1 (own_opts1Word hl hf hlen)
  · cases he

/-! ### The events of a submission -/

/-- The events of step 5 of TX.SUBMIT from descriptor `j` on (R145). -/
def packetEvents (c : Cfg) (first n : Nat) (cmd : Cmd) (vlan : Option Half) : Nat → List Segment → List Event
  | _, [] => []
  | j, seg :: rest =>
    writeEvents c .tx (txIdx c first j) seg (packetFlags1 c cmd j n) (packetFlags2 c cmd vlan) (j != 0) ++
      packetEvents c first n cmd vlan (j + 1) rest

theorem writePacket_history : (writePacket first n cmd vlan j segs s).history =
    s.history ++ packetEvents s.cfg first n cmd vlan j segs := by
  induction segs generalizing j s with
  | nil => exact (List.append_nil _).symm
  | cons seg rest ih => rw [writePacket, ih, writeDesc_history, writeDesc_cfg, packetEvents, List.append_assoc]

/-- The descriptors behind the first are none of its stores while the packet does not come round the ring. -/
theorem beforeHandOver_packetEvents (hfirst : first < c.nTx) (hj : 0 < j) (hroom : j + segs.length ≤ c.nTx) :
    ∀ e ∈ packetEvents c first n cmd vlan j segs, BeforeHandOver c first e := by
  induction segs generalizing j with
  | nil => nofun
  | cons seg rest ih =>
    rw [List.length_cons] at hroom
    have hne : txIdx c first j ≠ first := fun h => by
      have := txIdx_inj (by omega) (by omega) (h.trans (txIdx_zero hfirst).symm)
      omega
    intro e he
    exact (List.mem_append.1 he).elim (beforeHandOver_writeEvents_of_ne hne e) (ih (by omega) (by omega) e)

/-- Steps 4 to 8 of TX.SUBMIT as the history has them: the packet, the slot, the release, the hand-over, the doorbell. -/
theorem submitSegs_history (h : Handle) (seg0 : Segment) (segs : List Segment) (cmd : Cmd) (vlan : Option Half)
    (s : State) : (submitSegs h seg0 segs cmd vlan s).history =
      s.history ++ packetEvents s.cfg s.txNext (segs.length + 1) cmd vlan 0 (seg0 :: segs) ++
        [.slotStore (txIdx s.cfg s.txNext segs.length) h, .release,
          .descWrite .tx s.txNext .opts1
            ((ownedWord s.cfg .tx s.txNext (packetFlags1 s.cfg cmd 0 (segs.length + 1)) seg0.len).setWidth 64),
          .doorbell s.cfg.reg.txDoorbell s.cfg.reg.doorbellValue] := by
  simp [submitSegs, submitRange, ownFirst, storeSlot, ringDoorbell, writePacket_history]

/-! ### The operation -/

theorem submitRefused_ne_success (r : RefusedReason) (s : State) : (submitRefused r s).result ≠ .success := by
  unfold submitRefused
  split <;> simp [State.refuse]

/-- A submission that succeeds passed every check, and the packet was sent (R145). -/
theorem execTxSubmit_success (h : exec (.txSubmit p) s = .next t) (hok : t.result = .success) :
    ∃ seg0 segs cmd, cfgWf s.cfg = true ∧ regionsOk s.cfg p.regions = true ∧
      segmentTx s.cfg p.regions = some (seg0 :: segs) ∧ encodeOffload s.cfg p.off = some cmd ∧
      ((segs.length + 1 : Nat) : Int) < s.txFree ∧
      t = (submitSegs p.h seg0 segs cmd p.vlan (packetTaken p.h s)).withResult .success := by
  rcases execTxSubmit_next h with ⟨r, rfl⟩ | ⟨ha, hreg, hh, hheld⟩
  · exact absurd hok (submitRefused_ne_success r s)
  · rcases submitHeld_next hheld with ⟨-, u, -, rfl⟩ | ⟨-, u, -, rfl⟩ | ⟨seg0, segs, cmd, hseg, henc,
      ⟨-, rfl⟩ | ⟨hfree, rfl⟩⟩
    · cases hok
    · cases hok
    · cases hok
    · exact ⟨seg0, segs, cmd, ha.cfg, hreg, hseg, henc, hfree, by rw [preparePacket_holdPacket hh, packetTaken]⟩

/-- What TX.SUBMIT records before the release of its step 7: the mapping, the packet's stores, its slot (R59, R145). -/
def eventsBefore (p : Packet) (seg0 : Segment) (segs : List Segment) (cmd : Cmd) (s : State) : List Event :=
  .dmaPrepare (.packet p.h) :: (packetEvents s.cfg s.txNext (segs.length + 1) cmd p.vlan 0 (seg0 :: segs) ++
    [.slotStore (txIdx s.cfg s.txNext segs.length) p.h])

/-- The word of the first descriptor while it is the engine's (R140, R147). -/
def keptWord (seg0 : Segment) (segs : List Segment) (cmd : Cmd) (s : State) : Word :=
  opts1Word s.cfg .tx s.txNext (packetFlags1 s.cfg cmd 0 (segs.length + 1)) seg0.len

theorem submitSegs_taken_history (p : Packet) (seg0 : Segment) (segs : List Segment) (cmd : Cmd) (s : State) :
    (submitSegs p.h seg0 segs cmd p.vlan (packetTaken p.h s)).history = s.history ++ eventsBefore p seg0 segs cmd s ++
      [.release, .descWrite .tx s.txNext .opts1 ((bit s.cfg.layout.own ||| keptWord seg0 segs cmd s).setWidth 64),
        .doorbell s.cfg.reg.txDoorbell s.cfg.reg.doorbellValue] := by
  simp [submitSegs_history, packetTaken, eventsBefore, keptWord, ownedWord]

/-- The first descriptor is written with its own write, and without `OWN`. -/
theorem keptWord_mem_eventsBefore (p : Packet) {seg0 : Segment} (hnext : s.txNext < s.cfg.nTx) :
    .descWrite .tx s.txNext .opts1 ((keptWord seg0 segs cmd s).setWidth 64) ∈ eventsBefore p seg0 segs cmd s := by
  simp [eventsBefore, packetEvents, writeEvents, keptWord, txIdx_zero hnext]

theorem beforeHandOver_eventsBefore (p : Packet) {seg0 : Segment} (hl : layoutWf s.cfg.layout = true)
    (hcmd : flag cmd.cmd1 s.cfg.layout.own = false) (hlen : seg0.len ≤ maxOf (lenField s.cfg .tx).w)
    (hnext : s.txNext < s.cfg.nTx) (hroom : segs.length + 1 ≤ s.cfg.nTx) :
    ∀ e ∈ eventsBefore p seg0 segs cmd s, BeforeHandOver s.cfg s.txNext e := by
  intro e he
  rcases List.mem_cons.1 he with rfl | he
  · exact ⟨rfl, nofun⟩
  rcases List.mem_append.1 he with he | he
  · rcases List.mem_append.1 he with he | he
    · exact beforeHandOver_writeEvents_of_kept hl (own_packetFlags1 hl hcmd _ _) hlen e he
    · exact beforeHandOver_packetEvents hnext Nat.one_pos (by omega) e he
  · cases List.mem_singleton.1 he
    exact ⟨rfl, nofun⟩

theorem submitSegs_cfg (h : Handle) (seg0 : Segment) (segs : List Segment) (cmd : Cmd) (vlan : Option Half) (s : State) :
    (submitSegs h seg0 segs cmd vlan s).cfg = s.cfg := by
  obtain ⟨mem, hist, unsub, hshape⟩ := submitSegs_shape h seg0 segs cmd vlan s
  rw [hshape]

/-- The hand-over leaves the kept word with `OWN` set. -/
theorem submitSegs_first_opts1 (h : Handle) {seg0 : Segment} (hl : OffsetsOk s.cfg.layout) (hw : s.mem.wf)
    (hnext : s.txNext < s.cfg.nTx) (hroom : segs.length + 1 ≤ s.cfg.nTx) :
    (submitSegs h seg0 segs cmd vlan s).desc32 .tx s.txNext .opts1 =
      bit s.cfg.layout.own ||| keptWord seg0 segs cmd s := by
  have hat := (submitSegs_writtenAt (h := h) (seg0 := seg0) (segs := segs) (cmd := cmd) (vlan := vlan)
    hl hw hnext hroom 0 (Nat.succ_pos _)).opts1
  rw [submitSegs_cfg, txIdx_zero hnext] at hat
  exact hat

/-- Settles O34: the first descriptor's own write leaves it with the engine, and the writes behind it go to others. -/
theorem txSubmitOwnsFirstDescriptorLast : Obligations.TxSubmitOwnsFirstDescriptorLast := by
  intro p s t hw hcur hrun hok
  obtain ⟨seg0, segs, cmd, hc, hreg, hseg, henc, hfree, rfl⟩ := execTxSubmit_success hrun hok
  have hl := (cfgOk hc).layout
  have hcmd := own_command hc henc
  have hlen : seg0.len ≤ maxOf (lenField s.cfg .tx).w := (segmentTx_in hreg hseg seg0 List.mem_cons_self).2.2
  have hroom : segs.length + 1 ≤ s.cfg.nTx := by have := hcur.free; omega
  have hbefore := beforeHandOver_eventsBefore p hl hcmd hlen hcur.next hroom
  exact ⟨eventsBefore p seg0 segs cmd s, keptWord seg0 segs cmd s, submitSegs_taken_history ..,
    own_opts1Word hl (own_packetFlags1 hl hcmd _ _) hlen, keptWord_mem_eventsBefore p hcur.next,
    fun e he => (hbefore e he).keeps, fun off v he => (hbefore _ he).silent off v rfl,
    submitSegs_first_opts1 (s := packetTaken p.h s) p.h (offsetsOk hl) hw hcur.next hroom⟩

end Sys2Proof.Machine
end

section
/-! SUPPORT. O42: the acquisition that copies the frame (R171, R173). -/

namespace Sys2Proof.Machine

-- One declaration at a time: each thread of the elaborator reserves a stack of its own.
set_option Elab.async false

variable {s v : State} {h : Handle} {size len k : Nat} {acqs : List Acquisition} {old : RxBuffer} {opts : DeliverOpts}
  {l : List Event}

/-! ### A run of bytes read -/

@[simp] theorem Memory.length_readBytes (m : Memory) (a n : Nat) : (m.readBytes a n).length = n := by
  induction n generalizing a with
  | zero => rfl
  | succ n ih => simp [Memory.readBytes, ih]

theorem Memory.getElem_readBytes (m : Memory) (a n : Nat) (hk : k < (m.readBytes a n).length) :
    (m.readBytes a n)[k] = m.read (a + k) := by
  induction n generalizing a k with
  | zero => cases hk
  | succ n ih =>
    cases k with
    | zero => rfl
    | succ k => exact (ih (a + 1) (Nat.lt_of_succ_lt_succ hk)).trans (congrArg m.read (by omega))

/-! ### The copy (R173) -/

/-- A copy buffer the engine holds is no move of the allocator (R171, H8, U3). -/
theorem acquireCopied_unlawful (hsize : len ≤ size) (hh : h ∈ s.heldBuffers) :
    acquireCopied old h size len opts s = .refused .unlawfulDraw := by
  rw [acquireCopied, if_neg (Nat.not_lt.2 hsize),
    if_pos (eq_false_of_ne_true (handleFresh_iff.not.2 (not_not.2 hh)))]

/-- A fresh copy buffer takes the frame's bytes and is delivered; the slot keeps its own (R173). -/
theorem acquireCopied_fresh (hsize : len ≤ size) (hh : h ∉ s.heldBuffers) :
    acquireCopied old h size len opts s = .next ({ s with
      hostBufs := (h, s.mem.readBytes old.mem.addr.toNat len) :: s.hostBufs.filter (·.1 != h)
      history := s.history ++ [.copyBytes old.h h len, .deliverPacket h len opts] }, true) := by
  rw [acquireCopied, if_neg (Nat.not_lt.2 hsize), if_neg (by simp [handleFresh_iff.2 hh])]
  simp [deliver, State.emit, copyFrame]

/-- The end of the iteration adds the stores of the re-arm: it delivers nothing more and flushes nothing. -/
theorem iterationEnd_records (d : Bool) (hv : v.history = s.history ++ l) (hl : .flushInputQueue ∉ l) :
    ∃ m, (iterationEnd d v).history = s.history ++ m ∧ deliveries m = deliveries l ∧ .flushInputQueue ∉ m := by
  obtain ⟨stores, hend, hquiet⟩ := iterationEnd_history d v
  refine ⟨l ++ stores, by rw [hend, hv, List.append_assoc], ?_, fun hm => ?_⟩
  · rw [deliveries_append, deliveries_quiet hquiet, List.append_nil]
  · exact (List.mem_append.1 hm).elim hl fun hm => absurd (hquiet _ hm) nofun

theorem drawsInRange_copied (hd : DrawsInRange s.cfg acqs) : DrawsInRange s.cfg (.copied h size :: acqs) :=
  fun h' regions hm => hd h' regions (by simpa using hm)

/-- Settles O42: the iteration is the acquisition that copies the frame, and the re-arm with the slot's own buffer. -/
theorem rxIrqCopiesTheFrame : Obligations.RxIrqCopiesTheFrame := by
  constructor
  · intro h size acqs s hr hrx hi hown hgood hd hsize hh
    obtain ⟨old, hold, -⟩ := rxSlot_some hrx hi
    have hold' : (drawState acqs s).rxBuf s.rxIndex = some old := hold
    rw [execRxIrq_of_good hr hrx (drawsInRange_copied hd) hown hgood, List.headD_cons, List.tail_cons, acquire]
    simp only [hold']
    rw [acquireCopied_unlawful hsize (s := drawState acqs s) hh]
    rfl
  · intro h size acqs old s hr hrx hw hi hown hgood hold hh hd hsize
    have hold' : (drawState acqs s).rxBuf s.rxIndex = some old := hold
    have hacq := acquireCopied_fresh (s := drawState acqs s) (old := old) (opts := frameOpts s s.rxIndex) hsize hh
    generalize hv : State.mk .. = v at hacq
    have hrun : exec (.rxIrq (.copied h size :: acqs)) s = .next (iterationEnd true v) := by
      rw [execRxIrq_of_good hr hrx (drawsInRange_copied hd) hown hgood, List.headD_cons, List.tail_cons, acquire]
      simp only [hold', hacq]
      rfl
    have hhist : v.history = s.history ++ [.descRead .rx s.rxIndex .opts1, .acquire, .descRead .rx s.rxIndex .opts2,
        .copyBytes old.h h (frameLen s s.rxIndex),
        .deliverPacket h (frameLen s s.rxIndex) (frameOpts s s.rxIndex)] := by
      rw [← hv]
      simp [drawState]
    obtain ⟨l, hl, hdel, hflush⟩ := iterationEnd_records true hhist (by simp)
    refine ⟨_, l, hrun, iterationEnd_rearmedFrom true hw (offsetsOk (cfgOk hr.1.cfg).layout) ?_ ?_ ?_, hl, hdel, hflush,
      ⟨s.mem.readBytes old.mem.addr.toNat (frameLen s s.rxIndex), ?_, Memory.length_readBytes .., fun k hk =>
        Memory.getElem_readBytes _ _ _ hk⟩, ?_⟩
    · rw [← hv]; exact ⟨rfl, rfl, rfl⟩
    · rw [← hv]; rfl
    · rw [← hv]; rfl
    · rw [iterationEnd_shape, ← hv]; rfl
    · rw [iterationEnd_shape, ← hv]
      simp [drawState, hr.1.alone rfl]

end Sys2Proof.Machine
end

section
/-! SUPPORT. O43, O46: a length RX.IRQ has no behaviour for (R169), and the status decoders (R175 to R177). -/

namespace Sys2Proof.Machine

-- One declaration at a time: each thread of the elaborator reserves a stack of its own.
set_option Elab.async false

variable {s : State} {l : Layout}

/-! ### A length out of range (R169, U6) -/

theorem badRxLength_iff {c : Cfg} {w : Word} : badRxLength c w = true ↔
    getField c.layout.rxlen w ≤ c.fcsLen ∨ c.rxBufSize < getField c.layout.rxlen w := by
  simp [badRxLength]

/-- An iteration faults on a whole frame of a bad length (R169, U6). -/
theorem rxNext_of_badLength (d : Bool) (hown : s.nicOwned .rx s.rxIndex = false)
    (hwhole : fragmented s.cfg.layout (s.desc32 .rx s.rxIndex .opts1) = false)
    (hbad : badRxLength s.cfg (s.desc32 .rx s.rxIndex .opts1) = true) : rxNext d s = .fault .rxLength := by
  have hown' : ¬ (s.noteRead .rx s.rxIndex .opts1).nicOwned .rx s.rxIndex = true := by simp [hown]
  have hhandle : handleRx (s.noteRead .rx s.rxIndex .opts1) = .fault .rxLength :=
    (if_neg (ne_true_of_eq_false hwhole)).trans (if_pos hbad)
  rw [rxNext]
  refine (if_neg hown').trans ?_
  rw [hhandle, andThen_fault]

/-- Settles O43: the first iteration of the pass is on that descriptor. -/
theorem rxIrqFaultsOnBadLength : Obligations.RxIrqFaultsOnBadLength := by
  intro draws s hr hrx hd hown hwhole hbad
  rw [execRxIrq_of_ready hr hrx hd,
    rxNext_of_badLength (s := takeDraws draws s) false hown hwhole (badRxLength_iff.2 hbad), andThen_fault]

/-! ### The status decoders (R175, R176, R177) -/

theorem validIf_eq (fail : Bool) (v : Validity) : validIf fail v = if fail = false then v else Validity.nothing := by
  cases fail <;> rfl

/-- R175: the protocol id names the one fail bit that counts. -/
theorem csumV1_eq (c : Cfg) (w : Word) : csumV1 c w =
    if getField c.layout.pid w = 1 ∧ w.getLsbD c.layout.tcpf = false then ⟨true, true, false⟩
    else if getField c.layout.pid w = 2 ∧ w.getLsbD c.layout.udpf = false then ⟨true, false, true⟩
    else if getField c.layout.pid w = 3 ∧ w.getLsbD c.layout.ipf = false then ⟨true, false, false⟩
    else ⟨false, false, false⟩ := by
  unfold csumV1
  split <;> simp_all [validIf_eq, flag, Validity.nothing]

/-- R176: nothing without IPv4, and the type bits name the fail bit that counts. -/
theorem csumV2_eq (c : Cfg) (w1 w2 : Word) : csumV2 c w1 w2 =
    if w2.getLsbD c.layout.v4f = false then ⟨false, false, false⟩
    else if w1.getLsbD c.layout.tcpt = true then ⟨!w1.getLsbD c.layout.tcpf, !w1.getLsbD c.layout.tcpf, false⟩
    else if w1.getLsbD c.layout.udpt = true then ⟨!w1.getLsbD c.layout.udpf, false, !w1.getLsbD c.layout.udpf⟩
    else ⟨!w1.getLsbD c.layout.ipf, false, false⟩ := by
  have hvalid : ∀ (fail tcp udp : Bool), validIf fail ⟨true, tcp, udp⟩ = ⟨!fail, !fail && tcp, !fail && udp⟩ := by
    decide
  unfold csumV2
  simp only [hvalid, flag, Bool.and_true, Bool.and_false]
  rfl

/-- The VLAN field as the sixteen bits it holds (R76). -/
theorem ofNat_getField_vlan (hw : l.vlan.w = 16) (w : Word) :
    BitVec.ofNat 16 (getField l.vlan w) = w.extractLsb' l.vlan.lo 16 := by
  rw [getField, hw, BitVec.ofNat_toNat, BitVec.setWidth_eq]

/-- A run of bits out of a run of bits. -/
theorem extractLsb'_run (w : Word) (lo : Nat) {a k n : Nat} (h : a + k ≤ n) :
    (w.extractLsb' lo n).extractLsb' a k = w.extractLsb' (lo + a) k := by
  refine BitVec.eq_of_getLsbD_eq fun i hi => ?_
  have hin : a + i < n := by omega
  simp [hi, hin, Nat.add_assoc]

/-- R177: the tag, its two bytes the other way round where the layout says so. -/
theorem rxVlanTag_eq {c : Cfg} (hw : c.layout.vlan.w = 16) (w : Word) : rxVlanTag c w =
    if w.getLsbD c.layout.rxvtag = true then
      some (if c.layout.vlanSwapped = true then
          w.extractLsb' c.layout.vlan.lo 8 ++ w.extractLsb' (c.layout.vlan.lo + 8) 8
        else w.extractLsb' c.layout.vlan.lo 16)
    else none := by
  rw [rxVlanTag, ofNat_getField_vlan hw, vlanField_eq, extractLsb'_run w _ (by decide : 0 + 8 ≤ 16),
    extractLsb'_run w _ (by decide : 8 + 8 ≤ 16)]
  rfl

/-- Settles O46: past the guard each operation answers what its function gives, which its table says. -/
theorem rxDecodersReadTheStatus : Obligations.RxDecodersReadTheStatus := by
  intro w1 w2 s hr
  have hpre : precheck [.serialized] .enabled s = none := precheck_eq_none.2 ⟨by simp [hr.1.caller], hr.1.cfg, hr.2⟩
  refine ⟨?_, ?_, ?_⟩
  · show execRxCsumV1 w1 w2 s = _
    rw [execRxCsumV1, guarded_ok hpre hr.1.overlaps, csumV1_eq]
    rfl
  · show execRxCsumV2 w1 w2 s = _
    rw [execRxCsumV2, guarded_ok hpre hr.1.overlaps, csumV2_eq]
    rfl
  · show execRxVlan w2 s = _
    rw [execRxVlan, guarded_ok hpre hr.1.overlaps, rxVlanTag_eq (layout_widths (cfgOk hr.1.cfg).layout).2]
    rfl

end Sys2Proof.Machine
end

section
/-! SUPPORT. O44: what an iteration of RX.IRQ records, what a pass has done behind `n` of them, and the whole pass
(R165, R167, R174, R178). -/

namespace Sys2Proof.Machine

-- One declaration at a time: each thread of the elaborator reserves a stack of its own.
set_option Elab.async false

variable {s t u v : State} {d : Bool} {i j k n : Nat} {l m : List Event} {rest : List Task} {draws : List Acquisition}

/-! ### What an iteration records -/

/-- Among the events the one frame `x` is delivered if `r` says so, and nothing flushed (R174). -/
def RecordsFrame (x : Nat × DeliverOpts) (r : Bool) (l : List Event) : Prop :=
  (deliveries l).map (·.2) = (if r then [x] else []) ∧ .flushInputQueue ∉ l

theorem RecordsFrame.append {x : Nat × DeliverOpts} {r : Bool} (hl : RecordsFrame x false l)
    (hm : RecordsFrame x r m) : RecordsFrame x r (l ++ m) := by
  refine ⟨?_, fun h => (List.mem_append.1 h).elim hl.2 hm.2⟩
  rw [deliveries_append, List.map_append, hl.1, hm.1]
  rfl

/-- Whatever is drawn, the frame is delivered as the answer says (R170, R172, R173). -/
theorem acquire_records {a : Acquisition} {len : Nat} {opts : DeliverOpts} {r : State × Bool}
    (h : acquire i a len opts s = .next r) :
    ∃ l, r.1.history = s.history ++ l ∧ RecordsFrame (len, opts) r.2 l := by
  cases a with
  | failed =>
    cases h
    exact ⟨_, rfl, rfl, by simp⟩
  | replaced b regions =>
    rw [acquire] at h
    split at h
    · rw [acquireReplaced] at h
      split at h
      · cases h
      · dsimp only at h
        split at h
        · obtain ⟨u, hu, h⟩ := andThen_eq_next.1 h
          obtain ⟨-, rfl⟩ := freeBuffer_eq_next hu
          cases h
          exact ⟨[.dmaPrepare (.buffer b), .dmaComplete (.buffer b), .freeBuffer b, .raised .resourceExhaustion],
            by simp [acquisitionFailed_eq, droppedState, holdBuffer], rfl, by simp⟩
        · rename_i old _ _ _ _ _
          split at h
          · cases h
          · cases h
            exact ⟨[.dmaPrepare (.buffer b), .dmaComplete (.buffer old.h), .deliverPacket old.h len opts],
              by simp [replaceBuffer, deliver, holdBuffer], rfl, by simp⟩
    · cases h
  | copied b size =>
    rw [acquire] at h
    split at h
    · rename_i old _
      rw [acquireCopied] at h
      split at h
      · cases h
        exact ⟨_, rfl, rfl, by simp⟩
      · split at h
        · cases h
        · cases h
          exact ⟨[.copyBytes old.h b len, .deliverPacket b len opts], by simp [deliver, copyFrame], rfl, by simp⟩
    · cases h

/-- The length and the annotations of the frame at `rx_index` (R165, R169). -/
def currentFrame (s : State) : Nat × DeliverOpts := (frameLen s s.rxIndex, frameOpts s s.rxIndex)

theorem handleRx_records {r : State × Bool} (h : handleRx s = .next r) :
    ∃ l, r.1.history = s.history ++ l ∧ RecordsFrame (currentFrame s) r.2 l := by
  rw [handleRx] at h
  split at h
  · cases h
    exact ⟨[.acquire, .descRead .rx s.rxIndex .opts2, .raised .rxFragmented],
      by simp [dropFragment, countFrameTooLong, State.raise, State.noteRead, State.emit], rfl, by simp⟩
  · split at h
    · cases h
    · obtain ⟨l, hl, hrec⟩ := acquire_records h
      exact ⟨[.acquire, .descRead .rx s.rxIndex .opts2] ++ l, by simp [hl, State.noteRead, State.emit],
        RecordsFrame.append ⟨rfl, by simp⟩ hrec⟩

/-! ### One iteration, as a task of the pass -/

/-- What precedes the re-arm leaves the ring and the other slots as they are (R165, R172). -/
structure Handled (s v : State) : Prop where
  sited : Sited s v
  mem   : v.mem = s.mem
  index : v.rxIndex = s.rxIndex
  slots : ∀ i, i ≠ s.rxIndex → v.slotPhys i = s.slotPhys i

theorem handleRx_handled {r : State × Bool} (h : handleRx s = .next r) : Handled s r.1 ∧ r.1.work = s.work := by
  obtain ⟨slots, bufs, host, ctr, ctr', acqs, hist, hv⟩ := handleRx_shape h
  refine ⟨⟨?_, ?_, ?_, fun i hi => (handleRx_slots h).slotPhys rfl hi⟩, ?_⟩ <;> rw [hv]
  exact ⟨rfl, rfl, rfl⟩

/-- On a descriptor of the NIC the pass ends, with one flush if it delivered something (R165, R174). -/
theorem goOn_rxNext_idle (hw : s.work = .rxNext d :: rest) (hown : s.nicOwned .rx s.rxIndex = true) :
    goOn s = .next { s with
      work := rest, caller := .serialized, result := .none
      history := s.history ++ [.descRead .rx s.rxIndex .opts1] ++ (if d then [.flushInputQueue] else []) } := by
  have hown' : ((takeTask rest s).noteRead .rx s.rxIndex .opts1).nicOwned .rx s.rxIndex = true := hown
  rw [goOn_of_work hw, runTask, rxNext]
  refine (congrArg (andThen · _) (if_pos hown')).trans ?_
  cases d <;> simp [takeTask, State.noteRead, State.emit, State.withResult, taskResult]

/-- Any other is handled and re-armed, and the pass goes on, owing a flush if it did or has delivered now (R165,
R167). -/
theorem goOn_rxNext_taken (hw : s.work = .rxNext d :: rest) (hown : s.nicOwned .rx s.rxIndex = false)
    (h : goOn s = .next t) : ∃ r v l, t = iterationEnd (d || r) v ∧ Handled s v ∧ v.work = rest ∧
      v.history = s.history ++ l ∧ RecordsFrame (currentFrame s) r l := by
  have hown' : ¬ ((takeTask rest s).noteRead .rx s.rxIndex .opts1).nicOwned .rx s.rxIndex = true := by
    rw [noteRead_nicOwned]
    exact ne_true_of_eq_false hown
  rw [goOn_of_work hw, runTask, rxNext] at h
  replace h := (congrArg (andThen · _) (if_neg hown')).symm.trans h
  obtain ⟨u, hu, h⟩ := andThen_eq_next.1 h
  obtain ⟨r, hr, hu⟩ := andThen_eq_next.1 hu
  cases hu
  cases h
  obtain ⟨l, hl, hrec⟩ := handleRx_records hr
  obtain ⟨⟨hsited, hmem, hindex, hslots⟩, hwork⟩ := handleRx_handled hr
  exact ⟨r.2, r.1, [.descRead .rx s.rxIndex .opts1] ++ l, rfl, ⟨⟨hsited.cfg, hsited.tx, hsited.rx⟩, hmem, hindex, hslots⟩,
    hwork, by rw [hl]; exact List.append_assoc .., RecordsFrame.append ⟨rfl, by simp⟩ hrec⟩

/-- The re-arm records no delivery and no flush. -/
theorem RecordsFrame.iterationEnd {x : Nat × DeliverOpts} {r : Bool} (hv : v.history = s.history ++ l)
    (hrec : RecordsFrame x r l) (d : Bool) :
    ∃ m, (iterationEnd d v).history = s.history ++ m ∧ RecordsFrame x r m := by
  obtain ⟨m, hm, hdel, hflush⟩ := iterationEnd_records d hv hrec.2
  exact ⟨m, hm, by rw [hdel]; exact hrec.1, hflush⟩

/-! ### The descriptors of a pass -/

/-- The descriptor `j` places behind `rx_index`. -/
def rxAt (s : State) (j : Nat) : Nat := (s.rxIndex + j) % s.cfg.nRx

theorem rxAt_zero (hi : s.rxIndex < s.cfg.nRx) : rxAt s 0 = s.rxIndex := Nat.mod_eq_of_lt hi

/-- Within one turn of the ring no descriptor comes twice. -/
theorem rxAt_inj (hi : s.rxIndex < s.cfg.nRx) (hj : j < s.cfg.nRx) (hk : k < s.cfg.nRx) (h : rxAt s j = rxAt s k) :
    j = k := by
  rw [rxAt, rxAt, ringStep_eq hi hj.le, ringStep_eq hi hk.le] at h
  split at h <;> split at h <;> omega

/-- What an iteration that re-arms a descriptor leaves of the receive side (R178). -/
structure Rearms (s t : State) : Prop where
  rearmed : RearmedFrom s t
  sited   : Sited s t
  wf      : t.mem.wf
  slots   : ∀ i, i ≠ s.rxIndex → t.slotPhys i = s.slotPhys i

theorem Handled.rearms (h : Handled s v) (hw : s.mem.wf) (hl : OffsetsOk s.cfg.layout) (d : Bool) :
    Rearms s (iterationEnd d v) where
  rearmed := iterationEnd_rearmedFrom d hw hl h.sited h.mem h.index
  sited := h.sited.trans (by constructor <;> simp [iterationEnd])
  wf := by
    have hmem : (iterationEnd d v).mem = (rearm v.rxIndex v).mem := by simp [iterationEnd, rearmAdvance]
    rw [hmem]
    exact rearm_wf (h.mem ▸ hw) _
  slots i hi := (slotPhys_congr (by simp [iterationEnd]) i).trans (h.slots i hi)

/-- The pass that began in `s` has handled `n` descriptors and stands in `v`: those are armed, and every other byte is
what it was (R178). -/
structure PassedOver (s v : State) (n : Nat) : Prop where
  sited : Sited s v
  wf    : v.mem.wf
  index : v.rxIndex = rxAt s n
  bound : n ≤ s.cfg.nRx
  took  : ∀ j < n, s.nicOwned .rx (rxAt s j) = false
  armed : ∀ j < n, ArmedAt v (rxAt s j)
  mem   : ∀ a, (∀ j < n, ¬ s.inDesc .rx (rxAt s j) a) → v.mem.read a = s.mem.read a

/-- What stays armed when nothing of the descriptor and of its buffer's address changes. -/
theorem ArmedAt.carry (h : ArmedAt s i) (hst : Sited s t) (hl : OffsetsOk s.cfg.layout)
    (hslot : t.slotPhys i = s.slotPhys i) (hb : ∀ a, s.inDesc .rx i a → t.mem.read a = s.mem.read a) : ArmedAt t i :=
  ⟨by rw [desc32_of_bytes hst hl hb (by simp), h.opts1, hst.cfg], by rw [desc32_of_bytes hst hl hb (by simp), h.opts2],
    by rw [descBuf_of_bytes hst hl hb, h.addr, hslot]⟩

/-- A descriptor the pass has not come to holds the bytes it held. -/
theorem PassedOver.bytes (hp : PassedOver s v n) (hi : s.rxIndex < s.cfg.nRx) (hj : j < s.cfg.nRx) (hn : n ≤ j) :
    ∀ a, s.inDesc .rx (rxAt s j) a → v.mem.read a = s.mem.read a := fun a ha => hp.mem a fun k hk hka => by
  have := rxAt_inj hi (by omega) hj (inDesc_unique hka ha)
  omega

/-- After one turn of the ring the pass is back at a descriptor it armed. -/
theorem PassedOver.lt (hp : PassedOver s v n) (hi : s.rxIndex < s.cfg.nRx) (hc : layoutWf s.cfg.layout = true)
    (hown : v.nicOwned .rx v.rxIndex = false) : n < s.cfg.nRx := by
  refine lt_of_le_of_ne hp.bound fun hfull => ?_
  have hturn : v.rxIndex = s.rxIndex := by
    rw [hp.index, rxAt, hfull, Nat.add_mod_right, Nat.mod_eq_of_lt hi]
  have harm : ArmedAt v v.rxIndex := by
    rw [hturn, ← rxAt_zero hi]
    exact hp.armed 0 (by omega)
  rw [harm.owned (by rwa [hp.sited.cfg])] at hown
  cases hown

/-- The descriptor the pass has come to is as it was at the start. -/
theorem PassedOver.nicOwned (hp : PassedOver s v n) (hi : s.rxIndex < s.cfg.nRx) (hl : OffsetsOk s.cfg.layout)
    (hn : n < s.cfg.nRx) : v.nicOwned .rx v.rxIndex = s.nicOwned .rx (rxAt s n) := by
  rw [hp.index]
  exact nicOwned_of_bytes hp.sited hl (hp.bytes hi hn le_rfl)

/-- The length and the annotations of the frame `j` places behind `rx_index`. -/
def frameAt (s : State) (j : Nat) : Nat × DeliverOpts := (frameLen s (rxAt s j), frameOpts s (rxAt s j))

theorem PassedOver.currentFrame (hp : PassedOver s v n) (hi : s.rxIndex < s.cfg.nRx) (hl : OffsetsOk s.cfg.layout)
    (hn : n < s.cfg.nRx) : currentFrame v = frameAt s n := by
  have hb := hp.bytes hi hn le_rfl
  have h1 := desc32_of_bytes hp.sited hl hb (f := .opts1) (by simp)
  have h2 := desc32_of_bytes hp.sited hl hb (f := .opts2) (by simp)
  simp only [Machine.currentFrame, frameAt, frameLen, frameOpts, hp.index, h1, h2, hp.sited.cfg]

theorem PassedOver.begin (hw : s.mem.wf) (hi : s.rxIndex < s.cfg.nRx) (hst : Sited s v) (hm : v.mem = s.mem)
    (hx : v.rxIndex = s.rxIndex) : PassedOver s v 0 :=
  ⟨hst, hm ▸ hw, hx.trans (rxAt_zero hi).symm, Nat.zero_le _, fun _ h => absurd h (Nat.not_lt_zero _),
    fun _ h => absurd h (Nat.not_lt_zero _), fun a _ => by rw [hm]⟩

/-- One descriptor further. -/
theorem PassedOver.next (hp : PassedOver s v n) (hi : s.rxIndex < s.cfg.nRx) (hc : layoutWf s.cfg.layout = true)
    (hown : v.nicOwned .rx v.rxIndex = false) (hit : Rearms v u) : PassedOver s u (n + 1) := by
  have hl := offsetsOk hc
  have hn := hp.lt hi hc hown
  have hread : ∀ a, ¬ s.inDesc .rx (rxAt s n) a → u.mem.read a = v.mem.read a := fun a ha =>
    hit.rearmed.mem a (by rwa [hp.index, hp.sited.inDesc])
  refine ⟨hp.sited.trans hit.sited, hit.wf, ?_, hn, fun j hj => ?_, fun j hj => ?_, fun a ha => ?_⟩
  · rw [hit.rearmed.index, hp.index, hp.sited.cfg, rxAt, rxAt, Nat.mod_add_mod, Nat.add_assoc]
  · rcases Nat.lt_succ_iff_lt_or_eq.1 hj with hj | rfl
    · exact hp.took j hj
    · rw [← hp.nicOwned hi hl hn]
      exact hown
  · rcases Nat.lt_succ_iff_lt_or_eq.1 hj with hj | rfl
    · have hne : rxAt s j ≠ rxAt s n := fun h => absurd (rxAt_inj hi (hj.trans hn) hn h) hj.ne
      refine (hp.armed j hj).carry hit.sited (by rwa [hp.sited.cfg]) (hit.slots _ (by rwa [hp.index])) fun a ha =>
        hread a fun h => hne (inDesc_unique ((hp.sited.inDesc ..).1 ha) h)
    · rw [← hp.index]
      exact hit.rearmed.armed
  · rw [hread a (ha n (Nat.lt_succ_self n)), hp.mem a fun j hj => ha j (hj.trans (Nat.lt_succ_self n))]

/-! ### What a pass has recorded -/

/-- Behind `n` descriptors, frames have been delivered in ring order, `d` says whether any, and nothing is flushed yet
(R174). -/
structure PassRecords (s : State) (n : Nat) (d : Bool) (l : List Event) : Prop where
  unflushed : .flushInputQueue ∉ l
  owes      : d = true ↔ deliveries l ≠ []
  inOrder   : ∃ js : List Nat, js.Pairwise (· < ·) ∧ (∀ j ∈ js, j < n) ∧ (deliveries l).map (·.2) = js.map (frameAt s)

theorem PassRecords.begin : PassRecords s 0 false [] :=
  ⟨by simp, by simp [deliveries], [], List.Pairwise.nil, by simp, rfl⟩

theorem RecordsFrame.delivers {x : Nat × DeliverOpts} {r : Bool} (h : RecordsFrame x r l) :
    r = true ↔ deliveries l ≠ [] := by
  rw [ne_eq, ← List.map_eq_nil_iff (f := (·.2)), h.1]
  cases r <;> simp

theorem PassRecords.next {r : Bool} (hp : PassRecords s n d l) (hm : RecordsFrame (frameAt s n) r m) :
    PassRecords s (n + 1) (d || r) (l ++ m) := by
  obtain ⟨js, hsorted, hlt, hframes⟩ := hp.inOrder
  refine ⟨fun h => (List.mem_append.1 h).elim hp.unflushed hm.2, ?_, ?_⟩
  · rw [Bool.or_eq_true, hp.owes, hm.delivers, deliveries_append, ne_eq, ne_eq, ne_eq, List.append_eq_nil_iff]
    exact not_and_or.symm
  · cases r with
    | false =>
      refine ⟨js, hsorted, fun j hj => (hlt j hj).trans (Nat.lt_succ_self n), ?_⟩
      rw [deliveries_append, List.map_append, hframes, hm.1]
      exact List.append_nil _
    | true =>
      refine ⟨js ++ [n], List.pairwise_append.2 ⟨hsorted, List.pairwise_singleton .., fun j hj k hk => ?_⟩,
        fun j hj => ?_, ?_⟩
      · rw [List.mem_singleton.1 hk]
        exact hlt j hj
      · rcases List.mem_append.1 hj with hj | hj
        · exact (hlt j hj).trans (Nat.lt_succ_self n)
        · rw [List.mem_singleton.1 hj]
          exact Nat.lt_succ_self n
      · rw [deliveries_append, List.map_append, List.map_append, hframes, hm.1]
        rfl

/-! ### The whole pass -/

/-- RX.IRQ, and the tasks behind it with nothing between, are the tasks of a pass from its start (R165, R167). -/
theorem execWhole_rxIrq (n : Nat) (hr : Ready .serialized s) (hrx : RxUsable s) (hd : DrawsInRange s.cfg draws) :
    execWhole n (.rxIrq draws) s = runWork (n + 1) { s with acquisitions := draws, work := [.rxNext false] } := by
  have htake : takeTask [] { s with acquisitions := draws, work := [.rxNext false] } = takeDraws draws s := by
    rw [takeTask, takeDraws, ← hr.1.caller, ← hr.1.alone rfl]
  rw [execWhole, execRxIrq_of_ready hr hrx hd, runWork,
    goOn_of_work (s := { s with acquisitions := draws, work := [.rxNext false] }) rfl, htake]
  rfl

/-- A pass that comes to its end has delivered in ring order, and flushes once behind that (R165, R174). -/
theorem runWork_pass (fuel : Nat) (hi : s.rxIndex < s.cfg.nRx) (hc : layoutWf s.cfg.layout = true)
    (hp : PassedOver s v n) (hw : v.work = [.rxNext d]) (hh : v.history = s.history ++ l) (hrec : PassRecords s n d l)
    (hrun : runWork fuel v = .next t) (hend : t.work = []) : ∃ n' ≤ s.cfg.nRx, ∃ d' l', PassRecords s n' d' l' ∧
      t.history = s.history ++ (l' ++ [.descRead .rx t.rxIndex .opts1] ++ (if d' then [.flushInputQueue] else [])) ∧
      t.nicOwned .rx t.rxIndex = true := by
  induction fuel generalizing v n d l with
  | zero =>
    cases hrun
    rw [hw] at hend
    cases hend
  | succ fuel ih =>
    rw [runWork] at hrun
    cases hown : v.nicOwned .rx v.rxIndex with
    | true =>
      rw [goOn_rxNext_idle hw hown, andThen_next, runWork_idle fuel rfl] at hrun
      cases hrun
      exact ⟨n, hp.bound, d, l, hrec, by simp [hh], hown⟩
    | false =>
      obtain ⟨u, hu, hrun⟩ := andThen_eq_next.1 hrun
      obtain ⟨r, x, lx, rfl, hx, hxw, hxh, hxrec⟩ := goOn_rxNext_taken hw hown hu
      obtain ⟨m, hm, hmrec⟩ := hxrec.iterationEnd hxh (d || r)
      rw [hp.currentFrame hi (offsetsOk hc) (hp.lt hi hc hown)] at hmrec
      have hrearms := hx.rearms hp.wf (by rw [hp.sited.cfg]; exact offsetsOk hc) (d || r)
      refine ih (hp.next hi hc hown hrearms) ?_ ?_ (hrec.next hmrec) hrun
      · rw [iterationEnd_shape, hxw]
      · rw [hm, hh, List.append_assoc]

/-- Settles O44: an iteration reads the descriptor's owner and goes one of two ways, and a pass is iterations up to
the first idle descriptor. -/
theorem rxPassEndsAtNicOwnedDescriptor : Obligations.RxPassEndsAtNicOwnedDescriptor := by
  refine ⟨fun d rest s t hw hgo => ?_, fun draws n s t hr hrx hwf hi hd hrun hend => ?_⟩
  · cases hown : s.nicOwned .rx s.rxIndex with
    | true =>
      rw [goOn_rxNext_idle hw hown] at hgo
      cases hgo
      exact .inl ⟨rfl, rfl⟩
    | false =>
      obtain ⟨r, v, l, rfl, hv, hvw, hvh, hrec⟩ := goOn_rxNext_taken hw hown hgo
      obtain ⟨m, hm, hmrec⟩ := hrec.iterationEnd hvh (d || r)
      refine .inr ⟨rfl, d || r, m, by rw [iterationEnd_shape, hvw], hm, hmrec.2, ?_, ?_, ?_⟩
      · rw [← List.length_map (f := (·.2)), hmrec.1]
        cases r <;> simp
      · rw [Bool.or_eq_true, hmrec.delivers]
      · simp [iterationEnd, rearmAdvance, hv.index, hv.sited.cfg]
  · have hc := (cfgOk hr.1.cfg).layout
    rw [execWhole_rxIrq n hr hrx hd] at hrun
    have hbegin : PassedOver s { s with acquisitions := draws, work := [.rxNext false] } 0 :=
      .begin hwf hi ⟨rfl, rfl, rfl⟩ rfl rfl
    obtain ⟨n', hn', d', l', hrec, hhist, hown⟩ := runWork_pass (n + 1) hi hc hbegin rfl (List.append_nil _).symm
      .begin hrun hend
    obtain ⟨js, hsorted, hlt, hframes⟩ := hrec.inOrder
    have hdel : deliveries (l' ++ [.descRead .rx t.rxIndex .opts1] ++ (if d' then [.flushInputQueue] else [])) =
        deliveries l' := by
      rw [deliveries_append, deliveries_append]
      cases d' <;> exact (List.append_nil _).trans (List.append_nil _)
    refine ⟨_, js, hhist, hsorted, fun j hj => (hlt j hj).trans_le hn', by rw [hdel]; exact hframes, fun hnone => ?_,
      fun hsome => ?_, hown⟩
    · rw [hdel] at hnone
      have hd' : d' = false := eq_false_of_ne_true fun h => hrec.owes.1 h hnone
      simp [hd', hrec.unflushed]
    · rw [hdel] at hsome
      simp [hrec.owes.2 hsome, List.count_append, List.count_eq_zero.2 hrec.unflushed]

end Sys2Proof.Machine
end

section
/-! SUPPORT. O45: a pass of RX.IRQ in which every acquisition fails (R170, R179). -/

namespace Sys2Proof.Machine

-- One declaration at a time: each thread of the elaborator reserves a stack of its own.
set_option Elab.async false

variable {s v : State} {n : Nat} {l : List Event} {draws : List Acquisition}

/-! ### One iteration -/

theorem headD_failed (h : ∀ a ∈ draws, a = .failed) : draws.headD .failed = .failed := by
  cases draws with
  | nil => rfl
  | cons a draws => exact h a List.mem_cons_self

/-- A good frame whose acquisition fails is dropped (R170). -/
theorem rxNext_of_failed (d : Bool) (hfail : ∀ a ∈ s.acquisitions, a = .failed)
    (hown : s.nicOwned .rx s.rxIndex = false) (hgood : GoodFrame s s.rxIndex) :
    rxNext d s = .next ((rearmAdvance (droppedState [] (drawState s.acquisitions.tail s))).pushWork [.rxNext d]) := by
  have hdraw : rxNext d s = rxNext d (takeDraws (.failed :: s.acquisitions.tail) s) := by
    have hself : s = takeDraws s.acquisitions s := rfl
    cases hacq : s.acquisitions with
    | nil =>
      rw [hacq] at hself
      exact (congrArg (rxNext d) hself).trans (rxNext_exhausted d hown hgood)
    | cons a acqs =>
      rw [hacq, hfail a (by simp [hacq])] at hself
      exact congrArg (rxNext d) hself
  rw [hdraw, rxNext_of_good d hown hgood, acquire, acquisitionFailed_eq, andThen_next, Bool.or_false]

/-- A completed descriptor in order holds a fragment or a good frame (R168, R169). -/
theorem RxDescOk.fragment_or_good {i : Nat} (h : RxDescOk s i) (hown : s.nicOwned .rx i = false) :
    fragmented s.cfg.layout (s.desc32 .rx i .opts1) = true ∨ GoodFrame s i := by
  cases hfrag : fragmented s.cfg.layout (s.desc32 .rx i .opts1) with
  | true => exact .inl rfl
  | false =>
    have hlen := badRxLength_iff.not.1 (ne_true_of_eq_false (h.whole hown hfrag))
    exact .inr ⟨hfrag, by omega, by omega⟩

/-- The state a descriptor handled without a delivery leaves before the re-arm. -/
structure DropsFrame (s v : State) (l : List Event) : Prop where
  frame : v = { s with
    ctrFrameTooLong := v.ctrFrameTooLong, ctrResourceErrors := v.ctrResourceErrors, acquisitions := v.acquisitions
    history := v.history }
  history : v.history = s.history ++ l
  silent  : Undelivered l
  fails   : ∀ a ∈ v.acquisitions, a = .failed

theorem rxNext_drops (d : Bool) (hfail : ∀ a ∈ s.acquisitions, a = .failed) (hdesc : RxDescOk s s.rxIndex)
    (hown : s.nicOwned .rx s.rxIndex = false) :
    ∃ v l, rxNext d s = .next ((rearmAdvance v).pushWork [.rxNext d]) ∧ DropsFrame s v l := by
  rcases hdesc.fragment_or_good hown with hfrag | hgood
  · exact ⟨_, _, rxNext_of_fragment d hown hfrag, rfl, rfl, ⟨rfl, by simp⟩, hfail⟩
  · refine ⟨_, [.descRead .rx s.rxIndex .opts1, .acquire, .descRead .rx s.rxIndex .opts2, .raised .resourceExhaustion],
      rxNext_of_failed d hfail hown hgood, rfl, by simp [droppedState, drawState], ⟨rfl, by simp⟩, fun a ha => ?_⟩
    exact hfail a (List.mem_of_mem_tail ha)

/-! ### The pass -/

/-- A pass without an acquisition stands in `v` behind `n` descriptors. -/
structure DryPass (s v : State) (n : Nat) (l : List Event) : Prop extends PassedOver s v n where
  frame   : v = { s with
    mem := v.mem, history := v.history, rxIndex := v.rxIndex, ctrFrameTooLong := v.ctrFrameTooLong
    ctrResourceErrors := v.ctrResourceErrors, acquisitions := v.acquisitions, work := [.rxNext false]
    result := v.result }
  history : v.history = s.history ++ l
  silent  : Undelivered l
  fails   : ∀ a ∈ v.acquisitions, a = .failed

theorem Undelivered.append {m : List Event} (hl : Undelivered l) (hm : Undelivered m) : Undelivered (l ++ m) :=
  ⟨by rw [deliveries_append, hl.1, hm.1]; rfl, fun h => (List.mem_append.1 h).elim hl.2 hm.2⟩

theorem DryPass.work (hp : DryPass s v n l) : v.work = [.rxNext false] := by rw [hp.frame]

/-- The descriptor the pass has come to is in order. -/
theorem DryPass.rxDescOk (hp : DryPass s v n l) (hi : s.rxIndex < s.cfg.nRx) (hl : OffsetsOk s.cfg.layout)
    (hrings : RingsOk s) (hn : n < s.cfg.nRx) : RxDescOk v v.rxIndex := by
  obtain ⟨-, -, hrx, -⟩ := ringsOk_iff.1 hrings
  rw [hp.index]
  exact (hrx _ (Nat.mod_lt _ (by omega))).carry hl hp.sited (slotPhys_congr (by rw [hp.frame]) _) (hp.bytes hi hn le_rfl)

/-- It takes the next completed descriptor, whatever it holds (R170). -/
theorem DryPass.next (hp : DryPass s v n l) (hr : Ready .serialized s) (hi : s.rxIndex < s.cfg.nRx)
    (hrings : RingsOk s) (hown : v.nicOwned .rx v.rxIndex = false) :
    ∃ u m, goOn v = .next u ∧ DryPass s u (n + 1) m := by
  have hc := (cfgOk hr.1.cfg).layout
  have hl := offsetsOk hc
  obtain ⟨hends, hbuf, harmed, hwhole⟩ := hp.rxDescOk hi hl hrings (hp.lt hi hc hown)
  obtain ⟨x, m, hrun, hx⟩ := rxNext_drops (s := takeTask [] v) false hp.fails ⟨hends, hbuf, harmed, hwhole⟩ hown
  have hgo : goOn v = .next (iterationEnd false x) := by
    rw [goOn_of_work hp.work, runTask, hrun]
    rfl
  have hhandled : Handled v x := by
    rw [hx.frame]
    exact ⟨⟨rfl, rfl, rfl⟩, rfl, rfl, fun _ _ => rfl⟩
  obtain ⟨m', hm', -, hsilent⟩ := iterationEnd_undelivered false hx.history hx.silent
  refine ⟨_, l ++ m', hgo, hp.toPassedOver.next hi hc hown
    (hhandled.rearms hp.wf (by rw [hp.sited.cfg]; exact hl) false), ?_, ?_, hp.silent.append hsilent, ?_⟩
  · rw [iterationEnd_shape, hx.frame, hp.frame]
    simp [takeTask, hr.1.caller]
  · rw [hm', ← List.append_assoc, ← hp.history]
    rfl
  · rw [iterationEnd_shape]
    exact hx.fails

/-- Within one turn of the ring the pass comes to a descriptor of the NIC, and ends there (R165, R179). -/
theorem DryPass.ends (k : Nat) (hr : Ready .serialized s) (hi : s.rxIndex < s.cfg.nRx) (hrings : RingsOk s)
    (hp : DryPass s v n l) (hk : s.cfg.nRx ≤ n + k) : ∃ n' v' l', DryPass s v' n' l' ∧
      v'.nicOwned .rx v'.rxIndex = true ∧ runWork (k + 1) v = .next { v' with
        work := [], caller := .serialized, result := .none
        history := v'.history ++ [.descRead .rx v'.rxIndex .opts1] } := by
  induction k generalizing v n l with
  | zero =>
    cases hown : v.nicOwned .rx v.rxIndex with
    | true => exact ⟨n, v, l, hp, hown, by simp [runWork, goOn_rxNext_idle hp.work hown]⟩
    | false => exact absurd (hp.lt hi (cfgOk hr.1.cfg).layout hown) (by omega)
  | succ k ih =>
    cases hown : v.nicOwned .rx v.rxIndex with
    | true =>
      refine ⟨n, v, l, hp, hown, ?_⟩
      rw [runWork, goOn_rxNext_idle hp.work hown, andThen_next, runWork_idle (k + 1) rfl]
      simp
    | false =>
      obtain ⟨u, m, hgo, hu⟩ := hp.next hr hi hrings hown
      obtain ⟨n', v', l', hp', hown', hrun⟩ := ih hu (by omega)
      refine ⟨n', v', l', hp', hown', ?_⟩
      rw [runWork, hgo, andThen_next, hrun]

/-- Settles O45: a pass that acquires nothing goes on to the first descriptor of the NIC, one turn of the ring at
most. -/
theorem rxPassNeverBlocksOnAllocation : Obligations.RxPassNeverBlocksOnAllocation := by
  intro draws s hr hrx hw hi hrings hfail
  have hc := (cfgOk hr.1.cfg).layout
  have hd : DrawsInRange s.cfg draws := fun h regions hm => absurd (hfail _ hm) nofun
  have hbegin : DryPass s { s with acquisitions := draws, work := [.rxNext false] } 0 [] :=
    ⟨.begin hw hi ⟨rfl, rfl, rfl⟩ rfl rfl, rfl, (List.append_nil _).symm, ⟨rfl, by simp⟩, hfail⟩
  obtain ⟨n, v, l, hp, hown, hrun⟩ := hbegin.ends s.cfg.nRx hr hi hrings (by omega)
  rw [← execWhole_rxIrq s.cfg.nRx hr hrx hd] at hrun
  refine ⟨_, l ++ [.descRead .rx v.rxIndex .opts1], hrun, hown, ?_, ?_, ⟨n, hp.bound, hp.index, fun hn => ?_,
    fun j hj => ⟨hp.took j hj, ?_, ?_⟩, hp.mem⟩, ?_⟩
  · rw [← List.append_assoc, ← hp.history]
  · rw [deliveries_append, hp.silent.1]
    rfl
  · rw [← hown]
    exact (hp.nicOwned hi (offsetsOk hc) hn).symm
  · exact (hp.armed j hj).owned (by rwa [hp.sited.cfg])
  · obtain ⟨h1, h2, h3⟩ := hp.armed j hj
    exact ⟨h1, h2, h3⟩
  · rw [hp.frame]
    simp [hr.1.caller, hr.1.alone rfl]

end Sys2Proof.Machine
end

section
/-! SUPPORT. O48, O52: LINK.UP, and the statistics request and its end (R187, R205, R206). -/

namespace Sys2Proof.Machine

-- One declaration at a time: each thread of the elaborator reserves a stack of its own.
set_option Elab.async false

variable {s : State} {body : State → Out State}

/-! ### The guards of the serialized domain, passed -/

theorem guarded_enabled_of_ready (hr : Ready .serialized s) : guarded [.serialized] .enabled s body = body s :=
  guarded_ok (precheck_eq_none.2 ⟨by simp [hr.1.caller], hr.1.cfg, hr.2⟩) hr.1.overlaps

theorem guarded_tx_of_ready (hr : Ready .serialized s) (ht : TxUsable s) :
    guarded [.serialized] .tx s body = body s :=
  guarded_ok (precheck_eq_none.2 ⟨by simp [hr.1.caller], hr.1.cfg, hr.2, ht⟩) hr.1.overlaps

theorem guarded_both_of_ready (hr : Ready .serialized s) (ht : TxUsable s) (hrx : RxUsable s) (hini : InitUsable s) :
    guarded [.serialized] .both s body = body s :=
  guarded_ok (precheck_eq_none.2 ⟨by simp [hr.1.caller], hr.1.cfg, hr.2, ht, hrx, hini⟩) hr.1.overlaps

/-! ### O48 -/

/-- All that LINK.UP does (R187). -/
theorem linkUp_eq (p : LinkParams) (s : State) : linkUp p s = { s with
    link := ⟨true, p⟩, txqEnabled := true
    history := s.history ++ [.applyLinkTuning, .resumeQueue, .reportLinkStatus true (some (p.speed, p.duplex))] } := by
  simp [linkUp, resumeQueue, State.emit]

theorem execLinkUp_of_ready (hr : Ready .serialized s) (p : LinkParams) : exec (.linkUp p) s =
    if s.link.up then .next (s.refuse .precondition) else .next ((linkUp p s).withResult .none) := by
  show execLinkUp p s = _
  rw [execLinkUp, guarded_enabled_of_ready hr]

/-- Settles O48: LINK.UP from link down, and its refusal from link up. -/
theorem linkUpResumesTheQueue : Obligations.LinkUpResumesTheQueue := by
  refine fun p s hr => ⟨fun hdown => ?_, fun hup => ?_⟩
  · rw [execLinkUp_of_ready hr, if_neg (by simp [hdown])]
    rw [linkUp_eq]
    rfl
  · rw [execLinkUp_of_ready hr, if_pos hup]
    rfl

/-! ### O52 -/

theorem execStatsReq_of_ready (hr : Ready .serialized s) (hst : StUsable s) :
    exec .statsReq s = .next ((requestStats s).withResult .none) := by
  have hst : stProblem s = none := hst
  show execStatsReq s = _
  rw [execStatsReq, guarded_enabled_of_ready hr, hst]

/-- Settles O52: both operations turn on whether a request is pending. -/
theorem statisticsRequestIsOneAtATime : Obligations.StatisticsRequestIsOneAtATime := by
  intro m s hr hm hlife
  have hst : StUsable s := by simp [StUsable, stProblem, hm, hlife]
  have hbase : statsBase s = m.addr := by simp [statsBase, hm]
  rw [execStatsReq_of_ready hr hst, execStatsDone_of_ready hr, requestStats, finishStats]
  refine ⟨fun hp => ?_, fun hp => ?_⟩
  · rw [if_pos hp, if_pos hp]
    exact ⟨rfl, rfl⟩
  · rw [if_neg (by simp [hp]), if_neg (by simp [hp]), hbase, writeStatsBase, halves_eq]
    exact ⟨rfl, rfl⟩

end Sys2Proof.Machine
end

section
/-! SUPPORT. O49: LINK.DOWN, its first step and the one that clears the transmit ring (R188, R189). -/

namespace Sys2Proof.Machine

-- One declaration at a time: each thread of the elaborator reserves a stack of its own.
set_option Elab.async false

variable {s t : State}

/-! ### The step that does the rest -/

/-- The state in which LINK.DOWN clears the ring: the submitter is flushed out, the link reads down, and the NIC keeps
what it may have read (R188, R268). -/
def linkDownStart (s : State) : State := noteSeen .tx { flushQueue s with link := ⟨false, s.link.params⟩ }

theorem linkDown_eq (s : State) : linkDown s =
    andThen (clearTx (linkDownStart s)) fun t => .next (t.emit (.reportLinkStatus false none)) := rfl

theorem handleInv_linkDownStart (hi : HandleInv s) : HandleInv (linkDownStart s) := ⟨hi.1, hi.2, hi.3, hi.4⟩

/-- LINK.DOWN over a packet the NIC is still reading is the read of freed memory (U15; log entry 28). -/
theorem linkDown_of_busy (hlen : s.txSlot.length = s.cfg.nTx) (hi : HandleInv s) (hb : ¬ NothingBusy s) :
    linkDown s = .fault .freedMemoryRead := by
  rw [linkDown_eq, clearTx_of_busy (s := linkDownStart s) hlen (handleInv_linkDownStart hi) hb]
  rfl

/-- LINK.DOWN from its upcall on goes through: the packets it frees and all it records (R188). -/
theorem linkDown_completes (hlen : s.txSlot.length = s.cfg.nTx) (hi : HandleInv s) (hb : NothingBusy s) :
    ∃ t l, linkDown s = .next t ∧
      t.history = s.history ++ [.stopAndFlushQueue] ++ l ++ [.reportLinkStatus false none] ∧
      freedPackets l = packetsIn s ∧ ∀ e ∈ l, quiet e = true := by
  obtain ⟨v, l, hv, hhist, hfreed, hquiet, -⟩ :=
    clearTx_completes (s := linkDownStart s) hlen (handleInv_linkDownStart hi) hb
  refine ⟨_, l, by rw [linkDown_eq, hv]; rfl, ?_, hfreed, hquiet⟩
  rw [State.emit_history, hhist]
  rfl

/-- What LINK.DOWN leaves in memory and in the slots, and what the NIC remembers (R188, R268). -/
theorem linkDown_effect (hw : s.mem.wf) (hl : OffsetsOk s.cfg.layout) (h : linkDown s = .next t) :
    (∀ i < s.cfg.nTx, ClearedAt t i ∧ t.txPkt i = none) ∧ (∀ a, ¬ s.inRing .tx a → t.mem.read a = s.mem.read a) ∧
      RemembersCleared s t .tx := by
  obtain ⟨v, hv, h⟩ := andThen_eq_next.1 ((linkDown_eq s).symm.trans h)
  obtain ⟨-, -, hout, hclr, hpkt⟩ := clearTx_effect (s := linkDownStart s) hw hl hv
  have hseen : v.nicSeen = (noteSeen .tx s).nicSeen := by
    obtain ⟨m, hist, sl, he, rfl⟩ := clearTx_shape hv
    rfl
  cases h
  refine ⟨fun i hi => ?_, hout, remembersCleared_of_noteSeen hseen⟩
  obtain ⟨h1, h2, h3⟩ := hclr i hi
  exact ⟨⟨h1, h2, h3⟩, (hpkt i).trans (if_pos hi)⟩

/-! ### The operation -/

theorem execLinkDown_of_ready (hr : Ready .serialized s) (ht : TxUsable s) : exec .linkDown s =
    if s.link.up = false then .next (s.refuse .precondition) else .next ((beginLinkDown s).withResult .none) := by
  show execLinkDown s = _
  rw [execLinkDown, guarded_tx_of_ready hr ht]

/-- The first step closes the queue and leaves the rest as a task (R189; log entry 14). -/
theorem execLinkDown_begins (hr : Ready .serialized s) (ht : TxUsable s) (hup : s.link.up = true) :
    exec .linkDown s = .next { s with txqEnabled := false, work := [.linkDownRest], result := .none } := by
  rw [execLinkDown_of_ready hr ht, if_neg (by simp [hup])]
  simp [beginLinkDown, closeQueue, State.pushWork, State.withResult, hr.1.alone rfl]

theorem execWhole_linkDown (hr : Ready .serialized s) (ht : TxUsable s) (hup : s.link.up = true) :
    execWhole 1 .linkDown s = andThen (linkDown (queueClosed s)) fun t => .next (t.withResult .none) := by
  rw [execWhole, execLinkDown_begins hr ht hup, andThen_next, runWork, goOn_of_work rfl]
  show andThen (andThen (linkDown (queueClosed s)) _) _ = _
  cases linkDown (queueClosed s) <;> rfl

/-- Settles O49: with the link down it is refused; with it up the second step is the clear of the transmit ring, which
faults where the NIC is reading a packet. -/
theorem linkDownClearsOnlyTheTxRing : Obligations.LinkDownClearsOnlyTheTxRing := by
  refine fun s hr ht => ⟨fun hdown => ?_, execLinkDown_begins hr ht, fun hup hw hlen hi hb => ?_,
    fun hup hw hlen hi hb => ?_⟩
  · rw [execLinkDown_of_ready hr ht, if_pos hdown]
    rfl
  all_goals
    have hi' : HandleInv (queueClosed s) := ⟨hi.1, hi.2, hi.3, hi.4⟩
  · rw [execWhole_linkDown hr ht hup, linkDown_of_busy (s := queueClosed s) hlen hi' hb]
    rfl
  · obtain ⟨t, l, ht', hhist, hfreed, hquiet⟩ := linkDown_completes (s := queueClosed s) hlen hi' hb
    obtain ⟨hclr, hout, hseen⟩ := linkDown_effect (s := queueClosed s) hw (offsetsOk (cfgOk hr.1.cfg).layout) ht'
    refine ⟨t.withResult .none, l, by rw [execWhole_linkDown hr ht hup, ht']; rfl, fun i hi => ?_, hout, hhist, hfreed,
      fun hm => absurd (hquiet _ hm) nofun, regAccess_quiet hquiet, hseen, ?_⟩
    · obtain ⟨⟨h1, h2, h3⟩, hpkt⟩ := hclr i hi
      exact ⟨⟨h1, h2, h3⟩, hpkt⟩
    · obtain ⟨m, hist, sl, he, sn, rfl⟩ := linkDown_shape ht'
      simp [queueClosed, resetTxRegs, State.withResult, hr.1.caller, hr.1.alone rfl]

end Sys2Proof.Machine
end

section
/-! SUPPORT. O56: DISABLE, step by step (R203). -/

namespace Sys2Proof.Machine

-- One declaration at a time: each thread of the elaborator reserves a stack of its own.
set_option Elab.async false

variable {s t : State}

/-! ### The receive buffers (R203 X5) -/

/-- The handles of the buffers in the first `n` slots. -/
def buffersBelow (s : State) (n : Nat) : List Handle := (List.range n).filterMap fun j => (s.rxBuf j).map RxBuffer.h

theorem buffersBelow_congr {n : Nat} (h : ∀ j < n, t.rxBuf j = s.rxBuf j) : buffersBelow t n = buffersBelow s n :=
  List.filterMap_congr fun j hj => by rw [h j (List.mem_range.1 hj)]

theorem buffersBelow_all (hlen : s.rxSlot.length = s.cfg.nRx) : buffersBelow s s.cfg.nRx = buffersIn s := by
  have hslots := congrArg (List.map RxBuffer.h) (filterMap_getD s.rxSlot)
  rw [List.map_filterMap, List.map_filterMap, ← List.range_eq_range', hlen] at hslots
  exact hslots

/-- The buffer of slot `n` is freed. -/
def slotFreed (n : Nat) (b : RxBuffer) (s : State) : State := { s with
  heldBuffers := s.heldBuffers.erase b.h, rxSlot := s.rxSlot.set n none
  history := s.history ++ [.dmaComplete (.buffer b.h), .freeBuffer b.h] }

theorem freeSlots_succ {n : Nat} {b : RxBuffer} (hb : s.rxBuf n = some b) (hheld : b.h ∈ s.heldBuffers) :
    freeSlots (n + 1) s = freeSlots n (slotFreed n b s) := by
  simp only [freeSlots, hb, freeBuffer_of_held hheld, andThen_next]
  rfl

/-- The buffers are freed in decreasing index, and no packet is. -/
theorem freeSlots_completes {n : Nat} (hs : HandlesOwned s) (hfill : Filled n s) : ∃ t l, freeSlots n s = .next t ∧
    t.history = s.history ++ l ∧ freedPackets l = [] ∧
    released l = ((buffersBelow s n).map DmaId.buffer).reverse := by
  induction n generalizing s with
  | zero => exact ⟨s, [], rfl, (List.append_nil _).symm, rfl, rfl⟩
  | succ n ih =>
    obtain ⟨b, hb⟩ := Option.ne_none_iff_exists'.1 (hfill n (Nat.lt_succ_self n))
    have hheld : b.h ∈ s.heldBuffers := hs.2.2 _ ((buffersIn_perm hb).mem_iff.2 List.mem_cons_self)
    have hother : ∀ j < n, (slotFreed n b s).rxBuf j = s.rxBuf j := fun j hj => rxBuf_set none (Nat.ne_of_gt hj)
    have hbelow : buffersBelow s (n + 1) = buffersBelow s n ++ [b.h] := by
      simp [buffersBelow, List.range_succ, hb]
    obtain ⟨t, l, ht, hhist, hpkts, hrel⟩ := ih (s := slotFreed n b s) (hs.dropBuffer hb) fun j hj => by
      rw [hother j hj]
      exact hfill j (Nat.lt_succ_of_lt hj)
    refine ⟨t, [.dmaComplete (.buffer b.h), .freeBuffer b.h] ++ l, (freeSlots_succ hb hheld).trans ht,
      hhist.trans (List.append_assoc ..), ?_, ?_⟩
    · rw [freedPackets_append, hpkts]
      rfl
    · rw [released_append, hrel, hbelow, List.map_append, List.reverse_append, buffersBelow_congr hother]
      rfl

/-! ### The memories (R203 X7) -/

theorem freeMems_of_exist (h : MemsExist s) : freeMems s = .next { s with
    txMem := none, rxMem := none, stMem := none
    history := s.history ++ freedStats ++ freedRxRing ++ freedTxRing } := by
  obtain ⟨htx, hrx, hst⟩ := h
  obtain ⟨m, hm⟩ := Option.ne_none_iff_exists'.1 htx
  obtain ⟨n, hn⟩ := Option.ne_none_iff_exists'.1 hrx
  obtain ⟨k, hk⟩ := Option.ne_none_iff_exists'.1 hst
  rw [freeMems, freeStMem, hk]
  simp only [andThen_next, freeRxMem, hn, freeTxMem, hm]
  rfl

/-! ### From the timer to the memories -/

/-- DISABLE once nothing of the block runs any more: the timer is stopped, the causes masked, the queue stopped and the
NIC reset (R203 X1 to X3). -/
def quiesced (s : State) : State := { s with
  enabled := false, timerOn := false, txqEnabled := false
  irqPending := CauseSet.empty, nicTxBusy := none, nicSeen := []
  regs := ⟨0#16, Config.freeReg s.freeCount, Config.freeReg (s.freeCount + 1), Config.freeReg (s.freeCount + 2)⟩
  freeCount := s.freeCount + 3
  history := s.history ++ [.stopTimer, .regWrite s.cfg.reg.intrMask 16 0#64, .stopAndFlushQueue, .nicReset] }

theorem bringDown_eq (s : State) : bringDown s = andThen (clearTx (quiesced s)) fun u =>
    andThen (freeSlots u.cfg.nRx u) fun v =>
      freeMems { v with link := { v.link with up := false }, statsPending := false } := by
  have hquiet : nicReset (stopQueue (writeIntrMask 0#16
      ({ s with enabled := false, timerOn := false }.emit .stopTimer))) = quiesced s := by
    simp [nicReset, stopQueue, flushQueue, closeQueue, writeIntrMask, State.emit, quiesced]
  unfold bringDown
  dsimp only
  rw [hquiet]

/-- DISABLE goes through where every handle stands once and all memories are there, and frees them in order (R203). -/
theorem bringDown_completes (hlen : s.txSlot.length = s.cfg.nTx) (hi : HandleInv s) (hrx : RxUsable s)
    (hmem : MemsExist s) : ∃ t l, bringDown s = .next t ∧
      t.history = s.history ++ [.stopTimer, .regWrite s.cfg.reg.intrMask 16 0#64, .stopAndFlushQueue, .nicReset] ++ l ∧
      freedPackets l = packetsIn s ∧
      released l = ((buffersIn s).map DmaId.buffer).reverse ++ [.stats, .rxRing, .txRing] := by
  obtain ⟨u, l, hu, hul, hfreed, hquiet, -⟩ := clearTx_completes (s := quiesced s) hlen ⟨hi.1, hi.2, hi.3, hi.4⟩
    fun _ _ => nofun
  have hs : HandlesOwned s := handleInv_iff.1 hi
  have howned : HandlesOwned u := (clearTx_ends (ok := False) (s := quiesced s) hs).of_eq_next hu
  obtain ⟨hcfg, hslots, hm⟩ : u.cfg = s.cfg ∧ u.rxSlot = s.rxSlot ∧ MemsExist u := by
    obtain ⟨m, hist, sl, he, rfl⟩ := clearTx_shape hu
    exact ⟨rfl, rfl, hmem⟩
  have hfill : Filled u.cfg.nRx u := by
    rw [hcfg]
    intro j hj
    rw [State.rxBuf, hslots]
    exact filled_of_usable hrx j hj
  obtain ⟨v, k, hv, hvk, hpkts, hrel⟩ := freeSlots_completes howned hfill
  have hbufs : buffersBelow u u.cfg.nRx = buffersIn s := by
    obtain ⟨-, hrxlen, -⟩ := rxProblem_none hrx
    rw [buffersBelow_all (by rw [hcfg, hslots, hrxlen]), buffersIn, hslots, buffersIn]
  have hmv : MemsExist v := by
    obtain ⟨sl, bufs, hist, rfl⟩ := freeSlots_shape hv
    exact hm
  have hrun : bringDown s = freeMems { v with link := { v.link with up := false }, statsPending := false } := by
    rw [bringDown_eq, hu, andThen_next, hv, andThen_next]
  rw [freeMems_of_exist (s := { v with link := { v.link with up := false }, statsPending := false }) hmv] at hrun
  refine ⟨_, l ++ k ++ (freedStats ++ freedRxRing ++ freedTxRing), hrun, ?_, ?_, ?_⟩
  · simp only [hvk, hul, quiesced, List.append_assoc]
  · rw [freedPackets_append, freedPackets_append, hpkts, List.append_nil]
    exact (List.append_nil _).trans hfreed
  · rw [released_append, released_append, released_quiet hquiet, hrel, hbufs]
    rfl

/-- What DISABLE leaves in memory and in the transmit slots (R203 X4). -/
theorem bringDown_effect (hw : s.mem.wf) (hl : OffsetsOk s.cfg.layout) (hlen : s.txSlot.length = s.cfg.nTx)
    (h : bringDown s = .next t) : (∀ a, ¬ s.inRing .tx a → t.mem.read a = s.mem.read a) ∧ ∀ i, t.txPkt i = none := by
  obtain ⟨u, hu, h⟩ := andThen_eq_next.1 ((bringDown_eq s).symm.trans h)
  obtain ⟨v, hv, h⟩ := andThen_eq_next.1 h
  obtain ⟨-, -, hout, -, hpkt⟩ := clearTx_effect (s := quiesced s) hw hl hu
  obtain ⟨sl, bufs, hist, rfl⟩ := freeSlots_shape hv
  obtain ⟨hist', rfl⟩ := freeMems_shape h
  refine ⟨hout, fun i => (hpkt i).trans ?_⟩
  split
  · rfl
  · rename_i hi
    exact List.getD_eq_default _ _ (hlen.trans_le (Nat.not_lt.1 hi))

/-! ### O56 -/

theorem execDisable_of_acting (ha : Acting .host s) (hen : s.enabled = true) (ht : TxUsable s) (hrx : RxUsable s)
    (hst : StUsable s) : exec .disable s = andThen (bringDown s) fun t => .next (t.withResult .none) := by
  have hpre : precheck [.host] .both s = none :=
    precheck_eq_none.2 ⟨by simp [ha.caller], ha.cfg, hen, ht, hrx, fun _ => hst⟩
  have hst : stProblem s = none := hst
  show execDisable s = _
  rw [execDisable, guarded_ok hpre ha.overlaps, hst]

/-- Settles O56: what runs is stopped first; then the clear frees the packets, and the buffers and the memories
follow. -/
theorem disableTearsDownInOrder : Obligations.DisableTearsDownInOrder := by
  intro s ha hen ht hrx hst hw hlen hi
  obtain ⟨t, l, ht', hhist, hfreed, hrel⟩ := bringDown_completes hlen hi hrx (memsExist_of_usable ht hrx hst)
  obtain ⟨hout, hpkt⟩ := bringDown_effect hw (offsetsOk (cfgOk ha.cfg).layout) hlen ht'
  have hbufs := bringDown_empty hrx ht'
  refine ⟨t.withResult .none, l, by rw [execDisable_of_acting ha hen ht hrx hst, ht']; rfl, hhist, hfreed, hrel, hout,
    hpkt, hbufs, ?_⟩
  obtain ⟨m, hist, sl, he, rx, bufs, regs, rfl⟩ := bringDown_shape ht'
  exact ⟨rfl, rfl⟩

end Sys2Proof.Machine
end

section
/-! SUPPORT. O51: a second RESET.FULL over what the first one left (R191). -/

namespace Sys2Proof.Machine

-- One declaration at a time: each thread of the elaborator reserves a stack of its own.
set_option Elab.async false

variable {s t s' t' : State} {ring : Ring} {i a : Nat}

/-! ### The bytes of a descriptor are those of its three fields -/

theorem append_inj_of_eq {v w : Nat} {a c : BitVec w} {b d : BitVec v} (h : a ++ b = c ++ d) : a = c ∧ b = d :=
  ⟨by simpa [BitVec.extractLsb'_append_eq_left] using congrArg (BitVec.extractLsb' v w) h,
    by simpa [BitVec.extractLsb'_append_eq_right] using congrArg (BitVec.extractLsb' 0 v) h⟩

/-- Equal words are made of equal bytes. -/
theorem Memory.read_of_read32 {m n : Memory} {b : Nat} (h : m.read32 b = n.read32 b) (hlo : b ≤ a) (hhi : a < b + 4) :
    m.read a = n.read a := by
  obtain ⟨h, h0⟩ := append_inj_of_eq h
  obtain ⟨h, h1⟩ := append_inj_of_eq h
  obtain ⟨h3, h2⟩ := append_inj_of_eq h
  obtain ⟨k, rfl⟩ := Nat.exists_eq_add_of_le hlo
  have hk : k < 4 := by omega
  interval_cases k
  · exact h0
  · exact h1
  · exact h2
  · exact h3

theorem Memory.read_of_read64 {m n : Memory} {b : Nat} (h : m.read64 b = n.read64 b) (hlo : b ≤ a) (hhi : a < b + 8) :
    m.read a = n.read a := by
  obtain ⟨hhigh, hlow⟩ := append_inj_of_eq h
  rcases Nat.lt_or_ge a (b + 4) with ha | ha
  · exact Memory.read_of_read32 hlow hlo ha
  · exact Memory.read_of_read32 hhigh ha (by omega)

/-- The three fields fill the sixteen bytes of a descriptor (R52). -/
theorem read_of_fields (hst : Sited s t) (hl : OffsetsOk s.cfg.layout)
    (h1 : t.desc32 ring i .opts1 = s.desc32 ring i .opts1) (h2 : t.desc32 ring i .opts2 = s.desc32 ring i .opts2)
    (h3 : t.descBuf ring i = s.descBuf ring i) (ha : s.inDesc ring i a) : t.mem.read a = s.mem.read a := by
  obtain ⟨o1, o2, o3, h12, h1a, h2a⟩ := hl
  rw [State.desc32, State.desc32, hst.descAddr] at h1 h2
  rw [State.descBuf, State.descBuf, hst.descAddr] at h3
  have hfield : (s.descAddr ring i .opts1 ≤ a ∧ a < s.descAddr ring i .opts1 + 4) ∨
      (s.descAddr ring i .opts2 ≤ a ∧ a < s.descAddr ring i .opts2 + 4) ∨
      (s.descAddr ring i .addr ≤ a ∧ a < s.descAddr ring i .addr + 8) := by
    simp only [State.inDesc, State.descAddr, fieldOff, descSize] at *
    omega
  rcases hfield with ⟨hlo, hhi⟩ | ⟨hlo, hhi⟩ | ⟨hlo, hhi⟩
  · exact Memory.read_of_read32 h1 hlo hhi
  · exact Memory.read_of_read32 h2 hlo hhi
  · exact Memory.read_of_read64 h3 hlo hhi

theorem ClearedAt.read_eq (hs : ClearedAt s i) (ht : ClearedAt t i) (hst : Sited s t) (hl : OffsetsOk s.cfg.layout)
    (ha : s.inDesc .tx i a) : t.mem.read a = s.mem.read a :=
  read_of_fields hst hl (by rw [ht.opts1, hs.opts1, hst.cfg]) (ht.opts2.trans hs.opts2.symm)
    (ht.addr.trans hs.addr.symm) ha

theorem ArmedAt.read_eq (hs : ArmedAt s i) (ht : ArmedAt t i) (hst : Sited s t) (hl : OffsetsOk s.cfg.layout)
    (hslots : t.rxSlot = s.rxSlot) (ha : s.inDesc .rx i a) : t.mem.read a = s.mem.read a :=
  read_of_fields hst hl (by rw [ht.opts1, hs.opts1, hst.cfg]) (ht.opts2.trans hs.opts2.symm)
    (by rw [ht.addr, hs.addr, slotPhys_congr hslots]) ha

/-! ### Memory after the second reset -/

/-- RESET.FULL is the clear of the TX ring, with `v` behind it, and then that of the RX ring (R190). -/
theorem fullReset_clears (hw : s.mem.wf) (hl : OffsetsOk s.cfg.layout) (h : fullReset s = .next t) : ∃ v, v.mem.wf ∧
    Sited s v ∧ v.rxSlot = s.rxSlot ∧ (∀ a, ¬ s.inRing .tx a → v.mem.read a = s.mem.read a) ∧
    (∀ i < s.cfg.nTx, ClearedAt v i) ∧ t.mem = (clearRx v).mem := by
  obtain ⟨v, hv, h⟩ := andThen_eq_next.1 ((fullReset_eq s).symm.trans h)
  obtain ⟨hwv, ⟨hc, htx, hrx⟩, hout, hclr, -⟩ := clearTx_effect (s := nicReset (flushQueue s)) hw hl hv
  have hslots : v.rxSlot = s.rxSlot := by
    obtain ⟨m, hist, sl, he, rfl⟩ := clearTx_shape hv
    rfl
  cases h
  exact ⟨v, hwv, ⟨hc, htx, hrx⟩, hslots, hout, hclr, by rw [finishReset_eq]⟩

/-- A RESET.FULL from memory as another one has left it leaves it so, wherever the rings lie (R191). -/
theorem fullReset_mem_again (hw : s.mem.wf) (hl : OffsetsOk s.cfg.layout) (h : fullReset s = .next t)
    (hst : Sited s s') (hm : s'.mem = t.mem) (hslots : s'.rxSlot = s.rxSlot) (h' : fullReset s' = .next t') :
    t'.mem = t.mem := by
  obtain ⟨v, hwv, hsv, hvslots, hvout, hvclr, htm⟩ := fullReset_clears hw hl h
  obtain ⟨hwt, hst', hout, harm⟩ := clearRx_effect hwv (by rwa [hsv.cfg])
  have hw' : s'.mem.wf := by rwa [hm, htm]
  have hl' : OffsetsOk s'.cfg.layout := by rwa [hst.cfg]
  obtain ⟨v', hwv', hsv', hvslots', hvout', hvclr', htm'⟩ := fullReset_clears hw' hl' h'
  obtain ⟨hwt', hst'', hout', harm'⟩ := clearRx_effect hwv' (by rwa [hsv'.cfg])
  have hs' : Sited s v' := hst.trans hsv'
  have hvv : Sited v v' := hsv.symm.trans hs'
  rw [htm', htm]
  refine Memory.ext_read hwt' hwt fun a => ?_
  by_cases hrx : s.inRing .rx a
  · obtain ⟨i, hi, hd⟩ := inDesc_of_inRing hrx
    refine (harm i (by rwa [hsv.cfg])).read_eq (harm' i (by rwa [hs'.cfg])) (hst'.symm.trans (hvv.trans hst''))
      (by rwa [(hsv.trans hst').cfg]) ?_ (by rwa [(hsv.trans hst').inDesc])
    rw [clearRx_rxSlot, clearRx_rxSlot, hvslots', hslots, hvslots]
  · rw [hout' a (by rwa [hs'.inRing]), hout a (by rwa [hsv.inRing])]
    by_cases htx : s.inRing .tx a
    · obtain ⟨i, hi, hd⟩ := inDesc_of_inRing htx
      exact (hvclr i hi).read_eq (hvclr' i (by rwa [hst.cfg])) hvv (by rwa [hsv.cfg]) (by rwa [hsv.inDesc])
    · rw [hvout' a (by rwa [hst.inRing]), hm, htm, hout a (by rwa [hsv.inRing])]

/-! ### A reset with nothing to free -/

theorem clearTx_of_empty (hpkt : ∀ j, s.txPkt j = none) (hpend : s.txPending = none) :
    ∃ mem hist, clearTx s = .next (resetTxRegs { s with mem := mem, history := hist }) := by
  obtain ⟨mem, l, hrun, -⟩ := clearTxLoop_of_empty (k := s.cfg.nTx) (i := 0) hpkt
  refine ⟨mem, s.history ++ l, ?_⟩
  rw [clearTx, hrun]
  show andThen (freeSentOpt s.txPending _) _ = _
  rw [hpend]
  rfl

/-- RESET.FULL of a block that holds no packet gives up none (R190). -/
theorem fullReset_of_empty (hpkt : ∀ j, s.txPkt j = none) (hpend : s.txPending = none) :
    ∃ mem hist, fullReset s = .next { resetTxRegs s with
      mem := mem, history := hist, rxIndex := 0, txqEnabled := s.link.up || s.txqEnabled, statsPending := false
      irqPending := CauseSet.empty, nicTxBusy := none, nicSeen := [], regs := resetRegs s
      freeCount := s.freeCount + 3 } := by
  obtain ⟨mem, hist, hrun⟩ := clearTx_of_empty (s := nicReset (flushQueue s)) hpkt hpend
  obtain ⟨mem', hist', hrx⟩ := clearRx_shape (resetTxRegs { nicReset (flushQueue s) with mem := mem, history := hist })
  refine ⟨mem', hist' ++ finishEvents s, ?_⟩
  rw [fullReset_eq, hrun, andThen_next, hrx, finishReset_eq]
  simp only [Bool.if_true_left, Bool.decide_eq_true, resetRegs, statsBase_eq]
  rfl

/-- Of the registers a second reset writes anew only the free statistics base (R57; log entry 12). -/
theorem resetRegs_again (hst : Sited s t) (hmem : t.stMem = s.stMem) : resetRegs t = { resetRegs s with
    statsBase := if s.cfg.reg.statsAtInit then (resetRegs s).statsBase else (resetRegs t).statsBase } := by
  simp only [resetRegs, statsBase, hst.cfg, hst.base, hmem]
  split <;> rfl

/-! ### O51 -/

/-- A RESET.FULL that returns no refusal found its memories in place, and ran to its end. -/
theorem execWhole_resetFull_next (hr : Ready .serialized s) (h : execWhole 1 .resetFull s = .next t)
    (hres : t.result = .none) : TxUsable s ∧ RxUsable s ∧ InitUsable s ∧
      ∃ v, fullReset (queueClosed s) = .next v ∧ t = v.withResult .none := by
  obtain ⟨u, hu, h⟩ := andThen_eq_next.1 h
  rcases guarded_eq_next (show execResetFull s = .next u from hu) with ⟨r, -, rfl⟩ | ⟨hadm, -⟩
  · rw [runWork_idle (s := s.refuse r) 1 (hr.1.alone rfl)] at h
    cases h
    cases hres
  · obtain ⟨-, -, -, ht, hrx, hini⟩ := precheck_eq_none.1 hadm.1
    cases (execResetFull_begins hr ht hrx hini).symm.trans hu
    rw [runWork_resetRest] at h
    obtain ⟨v, hv, h⟩ := andThen_eq_next.1 h
    cases h
    exact ⟨ht, hrx, hini, v, hv, rfl⟩

/-- Settles O51: the first reset leaves the slots empty, so that the second frees nothing, and the bytes of both rings
as the second writes them. -/
theorem fullResetIsIdempotent : Obligations.FullResetIsIdempotent := by
  intro s t hr hw hlen h hres
  obtain ⟨ht, hrx, hini, v, hv, rfl⟩ := execWhole_resetFull_next hr h hres
  obtain ⟨hslots, hnone⟩ := fullReset_slots hv
  have hpkt : ∀ j, v.txPkt j = none := fun j => by
    rcases Nat.lt_or_ge j s.cfg.nTx with hj | hj
    · exact hnone j hj
    · exact List.getD_eq_default _ _ ((hslots.trans hlen).trans_le hj)
  obtain ⟨m, hist, sl, he, e⟩ := fullReset_shape hv
  obtain ⟨m', hist', hu⟩ := fullReset_of_empty (s := queueClosed (v.withResult .none)) hpkt (by rw [e]; rfl)
  have hmem := fullReset_mem_again (s := queueClosed s)
    (s' := queueClosed (v.withResult .none)) hw (offsetsOk (cfgOk hr.1.cfg).layout) hv
    (by rw [e]; exact ⟨rfl, rfl, rfl⟩) rfl (by rw [e]; rfl) hu
  have hr' : Ready .serialized (v.withResult .none) := by rw [e]; exact ⟨⟨rfl, hr.1.cfg, fun _ => rfl⟩, hr.2⟩
  have hbegin := execResetFull_begins hr' (by rw [e]; exact ht) (by rw [e]; exact hrx) (by rw [e]; exact hini)
  refine ⟨_, by rw [execWhole, hbegin, andThen_next, runWork_resetRest, hu, andThen_next], ?_⟩
  have hmem' : m' = v.mem := hmem
  subst hmem'
  have hregs := resetRegs_again (s := queueClosed s) (t := queueClosed (v.withResult .none))
    (by rw [e]; exact ⟨rfl, rfl, rfl⟩) (by rw [e]; rfl)
  rw [e] at hregs ⊢
  conv_lhs => rw [hregs]
  rfl

end Sys2Proof.Machine
end

section
/-! SUPPORT. O47: TIMER.TICK, its first step and the tasks behind it (R185). -/

namespace Sys2Proof.Machine

-- One declaration at a time: each thread of the elaborator reserves a stack of its own.
set_option Elab.async false

variable {s s1 u : State} {v : Byte} {n m : Nat} {x : Task} {rest : List Task}

/-! ### The link transition (R185 step 1, R186) -/

/-- The link register has been read. -/
def linkRead (v : Byte) (s : State) : State := s.emit (.regRead s.cfg.reg.linkStatus 8 (v.setWidth 64))

theorem tickLink_of_up (hnow : (linkLookup s.cfg v).up = true) (hl : s.link.up = false) :
    tickLink v s = linkUp (linkLookup s.cfg v).params (linkRead v s) := by
  have hl' : (linkRead v s).link.up = false := hl
  unfold tickLink
  exact if_pos (by simpa [hnow] using hl)

theorem tickLink_of_down (hnow : (linkLookup s.cfg v).up = false) (hl : s.link.up = true) :
    tickLink v s = beginLinkDown (linkRead v s) := by
  unfold tickLink
  exact (if_neg (by simp [hnow])).trans (if_pos (by simpa [hnow] using hl))

theorem tickLink_of_same (h : (linkLookup s.cfg v).up = s.link.up) : tickLink v s = linkRead v s := by
  unfold tickLink
  exact (if_neg (by simp [h])).trans (if_neg (by simp [h]))

theorem execTimerTick_of_ready (hr : Ready .serialized s) (ht : TxUsable s) (hrx : RxUsable s) (hst : StUsable s) :
    exec (.timerTick v) s = .next ((tickRest (tickLink v s)).withResult .none) := by
  have hproblem : stProblem s = none := hst
  show execTimerTick v s = _
  rw [execTimerTick, guarded_both_of_ready hr ht hrx fun _ => hst, hproblem]

/-- Step 1 is LINK.UP, the first step of LINK.DOWN, or nothing but the read. -/
theorem timerTick_begins (hr : Ready .serialized s) (ht : TxUsable s) (hrx : RxUsable s) (hst : StUsable s)
    (hup : (linkLookup s.cfg v).up = true ∧ s.link.up = false →
      exec (.linkUp (linkLookup s.cfg v).params) (linkRead v s) = .next s1)
    (hdown : (linkLookup s.cfg v).up = false ∧ s.link.up = true → exec .linkDown (linkRead v s) = .next s1)
    (hsame : (linkLookup s.cfg v).up = s.link.up → s1 = linkRead v s) :
    exec (.timerTick v) s = .next { s1 with work := s1.work ++ [.tickRelease, .tickCheck], result := .none } := by
  have hr0 : Ready .serialized (linkRead v s) := ⟨⟨hr.1.caller, hr.1.cfg, hr.1.alone⟩, hr.2⟩
  rw [execTimerTick_of_ready hr ht hrx hst]
  cases hnow : (linkLookup s.cfg v).up <;> cases hl : s.link.up
  · rw [hsame (hnow.trans hl.symm), tickLink_of_same (hnow.trans hl.symm)]
    rfl
  · have h := hdown ⟨hnow, hl⟩
    rw [execLinkDown_of_ready hr0 ht] at h
    cases (if_neg (ne_false_of_eq_true hl)).symm.trans h
    rw [tickLink_of_down hnow hl]
    rfl
  · have h := hup ⟨hnow, hl⟩
    rw [execLinkUp_of_ready hr0] at h
    cases (if_neg (ne_true_of_eq_false hl)).symm.trans h
    rw [tickLink_of_up hnow hl]
    rfl
  · rw [hsame (hnow.trans hl.symm), tickLink_of_same (hnow.trans hl.symm)]
    rfl

/-! ### The tasks (R185 steps 2 to 4) -/

theorem tickRelease_of_none (hp : s.txPending = none) : tickRelease s = .next s := by
  have hsame : { s with txPending := none } = s := by rw [← hp]
  rw [tickRelease, hp, freeSentOpt_none, andThen_next, hsame]

theorem tickRelease_of_busy {h : Handle} (hp : s.txPending = some h) (hb : s.nicTxBusy = some h) :
    tickRelease s = .fault .freedMemoryRead := by
  rw [tickRelease, hp, freeSentOpt_some, freeSent_of_busy hb]
  rfl

theorem tickRelease_of_idle {h : Handle} (hp : s.txPending = some h) (hb : s.nicTxBusy ≠ some h) :
    tickRelease s = andThen (freePacket h s) fun t => .next { t with txPending := none } := by
  rw [tickRelease, hp, freeSentOpt_some, freeSent_of_idle hb]

/-- Step 3 is TX.DLCHK, but for what is left behind it. -/
theorem tickCheck_of_dlchk (hr : Ready .serialized s) (ht : TxUsable s) (hrx : RxUsable s) (hini : InitUsable s)
    (h : exec .txDlchk s = .next u) : tickCheck s = { u with
      work := if u.result = .noReset then u.work ++ [.tickStats] else [.resetRest .none], result := s.result } := by
  cases (execTxDlchk_of_ready hr ht hrx hini).symm.trans h
  have hwork : s.work = [] := hr.1.alone rfl
  unfold tickCheck
  by_cases hidle : TxIdle s
  · by_cases h1 : countUp s.cfg s.deadlockWarn = s.cfg.dlThresh1
    · rw [dlchk_of_first_threshold _ _ hidle h1, dlchk_of_first_threshold _ _ hidle h1]
      simp [State.pushWork, dlchkResult, State.withResult, hwork, countTimeouts, State.raise, State.emit]
    · by_cases h2 : countUp s.cfg s.deadlockWarn = s.cfg.dlThresh2
      · rw [dlchk_of_second_threshold _ _ hr.1.cfg hidle h2, dlchk_of_second_threshold _ _ hr.1.cfg hidle h2]
        simp [beginReset, State.pushWork, dlchkResult, State.withResult, hwork, countResets, State.raise, State.emit,
          closeQueue]
      · rw [dlchk_of_idle _ _ hidle h1 h2, dlchk_of_idle _ _ hidle h1 h2]
        simp [State.pushWork, dlchkResult, State.withResult, hwork, snapshotDone]
  · rw [dlchk_of_not_idle _ _ hidle, dlchk_of_not_idle _ _ hidle]
    simp [State.pushWork, dlchkResult, State.withResult, hwork, snapshotDone]

theorem tickStats_of_statsReq (hr : Ready .serialized s) (hst : StUsable s)
    (hup : s.link.up = true → exec .statsReq s = .next u) (hdown : s.link.up = false → u = s) :
    tickStats s = { u with result := s.result } := by
  unfold tickStats
  cases hl : s.link.up
  · rw [hdown hl]
    rfl
  · cases (execStatsReq_of_ready hr hst).symm.trans (hup hl)
    obtain ⟨p, r, hist, e⟩ := requestStats_shape s
    rw [e]
    rfl

/-! ### What is left of a tick, with nothing between -/

/-- What is in progress ends within `n` tasks with nothing between, and the link stays as it is. -/
def RunsOut (n : Nat) (s : State) : Prop :=
  ∃ t l, runWork n s = .next t ∧ t.work = [] ∧ t.history = s.history ++ l ∧ t.link = s.link

theorem RunsOut.idle (n : Nat) (hw : s.work = []) : RunsOut n s :=
  ⟨s, [], runWork_idle n hw, hw, (List.append_nil _).symm, rfl⟩

theorem runWork_task (hw : s.work = x :: rest) (hx : runTask x (takeTask rest s) = .next u) (n : Nat) :
    runWork (n + 1) s = runWork n (u.withResult (taskResult x)) := by
  rw [runWork, goOn_of_work hw, hx]
  rfl

/-- One task further: none but the rest of LINK.DOWN touches the link. -/
theorem RunsOut.task (hw : s.work = x :: rest) (hne : x ≠ .linkDownRest)
    (hx : runTask x (takeTask rest s) = .next u) (hu : RunsOut n (u.withResult (taskResult x))) :
    RunsOut (n + 1) s := by
  obtain ⟨t, l, hrun, hidle, hhist, hlink⟩ := hu
  obtain ⟨-, -, -, ⟨k, hk, -⟩, -⟩ := (runTask_raises (ok := False) x (takeTask rest s)).of_eq_next hx
  have hkeep : u.link = s.link := by
    by_contra hn
    exact hne ((runTask_effect hx).link hn)
  refine ⟨t, k ++ l, (runWork_task hw hx n).trans hrun, hidle, ?_, hlink.trans hkeep⟩
  rw [hhist, ← List.append_assoc]
  exact congrArg (· ++ l) hk

theorem RunsOut.mono (h : RunsOut n s) (hle : n ≤ m) : RunsOut m s := by
  obtain ⟨t, l, hrun, hidle, hrest⟩ := h
  refine ⟨t, l, ?_, hidle, hrest⟩
  obtain ⟨d, rfl⟩ := Nat.exists_eq_add_of_le hle
  rw [Nat.add_comm]
  clear hle hrest
  induction n generalizing s with
  | zero => cases hrun; exact runWork_idle d hidle
  | succ n ih =>
    obtain ⟨w, hw, hrun⟩ := andThen_eq_next.1 hrun
    rw [← Nat.add_assoc, runWork, hw]
    exact ih hrun

theorem runsOut_tickStats (n : Nat) (hw : s.work = [.tickStats]) : RunsOut (n + 1) s := by
  refine .task hw nofun rfl (.idle n ?_)
  obtain ⟨p, r, hist, e⟩ := tickStats_shape (takeTask [] s)
  rw [e]
  rfl

theorem runsOut_dlSnapshot (n : Nat) (hw : s.work = [.dlSnapshot, .tickStats]) : RunsOut (n + 2) s :=
  .task hw nofun rfl (runsOut_tickStats n rfl)

/-- What a clear of the transmit ring and a pass over it ask: the packets stand once and are held, the NIC is reading
none, and there is a slot for each descriptor (R8, R26, U14). -/
structure Clearable (s : State) : Prop where
  owned : HandlesOwned s
  busy  : NothingBusy s
  slots : s.txSlot.length = s.cfg.nTx

theorem Clearable.takeTask (hs : Clearable s) (rest : List Task) : Clearable (takeTask rest s) := ⟨hs.1, hs.2, hs.3⟩

theorem Clearable.withResult (hs : Clearable s) (r : Result) : Clearable (s.withResult r) := ⟨hs.1, hs.2, hs.3⟩

theorem Clearable.pending (hs : Clearable s) :
    (∀ h, s.txPending = some h → s.holdsPacket h = true) ∧ ErratumBounded s := by
  have hmem : ∀ h, s.txPending = some h → h ∈ packetsIn s := fun h hp => List.mem_append_right _ (by simp [hp])
  exact ⟨fun h hp => hs.owned.1.2 h (hmem h hp), fun h hp => hs.busy h (hmem h hp)⟩

/-- A round of a pass ends it or leaves the next one, and a state that can be cleared (R114, R149). -/
theorem Clearable.txScan (hs : Clearable s) (k old : Nat) : ∃ u, txScan k old s = .next u ∧
    (u.work = s.work ∨ ∃ j, k = j + 1 ∧ u.work = .txScan j old :: s.work ∧ Clearable u) := by
  obtain ⟨u, hu⟩ := txScan_completes (k := k) (old := old) hs.pending.1 hs.pending.2
  have howned : HandlesOwned u := (txScan_ends (ok := False) k old hs.owned).of_eq_next hu
  refine ⟨u, hu, ?_⟩
  rcases txScan_cases hu with ⟨-, st, hist, rfl⟩ | ⟨j, held, hist, hk, -, -, rfl⟩
  · exact .inl rfl
  · exact .inr ⟨j, hk, rfl, howned, fun h hm => hs.busy h (packetsIn_afterVisit (s := s) hm),
      (List.length_set ..).trans hs.slots⟩

theorem runsOut_txScan {k old : Nat} (hs : Clearable s) (hw : s.work = .txScan k old :: rest)
    (hrest : ∀ t : State, t.work = rest → RunsOut n t) : RunsOut (k + 1 + n) s := by
  induction k generalizing s with
  | zero =>
    obtain ⟨u, hu, hwork | ⟨j, hk, -⟩⟩ := (hs.takeTask rest).txScan 0 old
    · exact (RunsOut.task hw nofun hu (hrest _ hwork)).mono (by omega)
    · cases hk
  | succ k ih =>
    obtain ⟨u, hu, hwork | ⟨j, hk, hwork, hs'⟩⟩ := (hs.takeTask rest).txScan (k + 1) old
    · exact (RunsOut.task hw nofun hu (hrest _ hwork)).mono (by omega)
    · cases hk
      refine (RunsOut.task hw nofun hu (ih (hs'.withResult _) hwork)).mono (by omega)

theorem runsOut_txBegin (hs : Clearable s) (hw : s.work = .txBegin :: rest)
    (hrest : ∀ t : State, t.work = rest → RunsOut n t) : RunsOut (outstandingCount s + 1 + n) s := by
  obtain ⟨u, hu, hwork | ⟨j, hk, hwork, hs'⟩⟩ := (hs.takeTask rest).txScan (outstandingCount s) s.txDirty
  · exact (RunsOut.task hw nofun hu (hrest _ hwork)).mono (by omega)
  · refine (RunsOut.task hw nofun hu (runsOut_txScan (hs'.withResult _) hwork hrest)).mono (by omega)

theorem runsOut_resetRest {ends : Result} (hs : Clearable s) (hw : s.work = [.resetRest ends]) : RunsOut 1 s := by
  obtain ⟨-, u, -, -, hu⟩ := fullReset_completes (s := takeTask [] s) hs.slots (handleInv_iff.2 (hs.takeTask []).owned)
  refine .task hw nofun hu (.idle 0 ?_)
  obtain ⟨m, hist, sl, he, rfl⟩ := fullReset_shape hu
  rfl

/-- Steps 3 and 4: the check, the pass or the reset it may force, and the statistics (R153, R185). -/
theorem runsOut_tickCheck (hs : Clearable s) (hw : s.work = [.tickCheck]) : RunsOut (outstandingCount s + 4) s := by
  obtain ⟨warn, last, tmo, resets, hist, txq, l, hl, e⟩ := dlchk_frame [.tickStats] .none (takeTask [] s)
  refine RunsOut.task (n := outstandingCount s + 3) hw nofun rfl ?_
  have hcheck : tickCheck (takeTask [] s) = _ := e
  rw [hcheck]
  rcases hl with rfl | rfl | rfl
  · exact (runsOut_tickStats 0 rfl).mono (by omega)
  · refine (runsOut_txBegin (n := 2) ?_ rfl fun t ht => runsOut_dlSnapshot 0 ht).mono ?_
    · exact ⟨hs.owned, hs.busy, hs.slots⟩
    · exact le_refl _
  · refine (runsOut_resetRest ?_ rfl).mono (by omega)
    exact ⟨hs.owned, hs.busy, hs.slots⟩

/-! ### The whole tick -/

theorem mem_of_mem_freedPackets {l : List Event} {h : Handle} (hm : h ∈ freedPackets l) : .freePacket h ∈ l := by
  obtain ⟨e, he, hf⟩ := List.mem_filterMap.1 hm
  cases e
  case freePacket x => cases hf; exact he
  all_goals cases hf

/-- Steps 2 to 4 behind step 1, nothing left of it: the held-back packet is freed first. -/
theorem runWork_tickRest (hs : Clearable s) (hw : s.work = [.tickRelease, .tickCheck])
    (hm : outstandingCount s + 5 ≤ m) : ∃ t l, runWork m s = .next t ∧ t.work = [] ∧ t.history = s.history ++ l ∧
      t.link = s.link ∧ ∀ h, s.txPending = some h → .freePacket h ∈ l := by
  have hrelease : tickRelease (takeTask [.tickCheck] s) = .next { takeTask [.tickCheck] s with
      txPending := none, heldPackets := heldAfterFree s
      history := s.history ++ s.txPending.elim [] (freeEvents s) } := by
    rw [tickRelease, freeSentOpt_pending (hs.takeTask _).pending.1 (hs.takeTask _).pending.2]
    rfl
  generalize hu : State.mk .. = u at hrelease
  have hclear : Clearable u := by
    refine ⟨(tickRelease_ends (ok := False) (hs.takeTask _).owned).of_eq_next hrelease, fun h hmem => ?_, ?_⟩
    · rw [← hu] at hmem ⊢
      exact hs.busy h (List.mem_append_left _ ((List.mem_append.1 hmem).resolve_right nofun))
    · rw [← hu]
      exact hs.slots
  have hcount : outstandingCount u + 4 = outstandingCount s + 4 := by rw [← hu]; rfl
  obtain ⟨d, rfl⟩ : ∃ d, m = d + 1 := ⟨m - 1, by omega⟩
  obtain ⟨t, l, hrun, hidle, hhist, hlink⟩ :=
    (runsOut_tickCheck (hclear.withResult .none) (by rw [← hu]; rfl)).mono (m := d) (hcount.trans_le (by omega))
  refine ⟨t, s.txPending.elim [] (freeEvents s) ++ l, (runWork_task hw hrelease d).trans hrun, hidle, ?_, ?_,
    fun h hp => ?_⟩
  · rw [hhist, ← hu]
    exact List.append_assoc ..
  · rw [hlink, ← hu]
    rfl
  · simp [hp, freeEvents]

theorem packetsIn_of_empty (hpkt : ∀ j < s.txSlot.length, s.txPkt j = none) (hpend : s.txPending = none) :
    packetsIn s = [] := by
  rw [packetsIn, ← filterMap_getD, hpend, Option.toList_none, List.append_nil, List.filterMap_eq_nil_iff]
  exact fun j hj => hpkt j (by simpa using List.mem_range'_1.1 hj)

/-- Steps 2 to 4 behind a LINK.DOWN: the rest of that one frees every packet first. -/
theorem runWork_linkDownRest (hs : Clearable s) (hw : s.work = [.linkDownRest, .tickRelease, .tickCheck])
    (hm : 6 ≤ m) : ∃ t l, runWork m s = .next t ∧ t.work = [] ∧ t.history = s.history ++ l ∧ t.link.up = false ∧
      ∀ h, s.txPending = some h → .freePacket h ∈ l := by
  obtain ⟨u, l, hu, hhist, hfreed, -⟩ := linkDown_completes (s := takeTask [.tickRelease, .tickCheck] s) hs.slots
    (handleInv_iff.2 (hs.takeTask _).owned) hs.busy
  have howned : HandlesOwned u := (linkDown_ends (ok := False) (hs.takeTask _).owned).of_eq_next hu
  obtain ⟨hslots, hnone⟩ := linkDown_slots hu
  have hlen : u.txSlot.length = s.cfg.nTx := hslots.trans hs.slots
  obtain ⟨hwork, hcount, hpend, hlink, hcfg⟩ : u.work = [.tickRelease, .tickCheck] ∧ outstandingCount u = 0 ∧
      u.txPending = none ∧ u.link.up = false ∧ u.cfg = s.cfg := by
    obtain ⟨m, hist, sl, he, sn, rfl⟩ := linkDown_shape hu
    exact ⟨rfl, by simp [outstandingCount, resetTxRegs, takeTask], rfl, rfl, rfl⟩
  have hempty : packetsIn u = [] := packetsIn_of_empty (by rw [hlen]; exact hnone) hpend
  have hclear : Clearable u := ⟨howned, by simp [NothingBusy, hempty], by rw [hlen, hcfg]⟩
  obtain ⟨d, rfl⟩ : ∃ d, m = d + 1 := ⟨m - 1, by omega⟩
  obtain ⟨t, l', hrun, hidle, hhist', hlink', -⟩ :=
    runWork_tickRest (s := u.withResult .none) (m := d) (hclear.withResult .none) hwork
      (show outstandingCount u + 5 ≤ d by omega)
  refine ⟨t, [.stopAndFlushQueue] ++ l ++ [.reportLinkStatus false none] ++ l', (runWork_task hw hu d).trans hrun,
    hidle, ?_, by rw [hlink']; exact hlink, fun h hp => ?_⟩
  · rw [hhist', State.withResult_history, hhist]
    simp [takeTask]
  · have hmem : .freePacket h ∈ l := mem_of_mem_freedPackets (by
      rw [hfreed]
      exact List.mem_append_right _ (by simpa [takeTask] using hp))
    simp [hmem]

/-- A step 1 that does not go down leaves the link as the register says, and nothing to do. -/
theorem tickLink_of_not_down (h : ¬ ((linkLookup s.cfg v).up = false ∧ s.link.up = true)) : ∃ link txq l,
    link.up = (linkLookup s.cfg v).up ∧
      tickLink v s = { s with link := link, txqEnabled := txq, history := s.history ++ l } := by
  by_cases hsame : (linkLookup s.cfg v).up = s.link.up
  · exact ⟨s.link, s.txqEnabled, _, hsame.symm, tickLink_of_same hsame⟩
  · obtain ⟨hnow, hl⟩ : (linkLookup s.cfg v).up = true ∧ s.link.up = false := by grind
    have htick := tickLink_of_up hnow hl
    rw [linkUp_eq, linkRead, State.emit_history, List.append_assoc] at htick
    exact ⟨⟨true, (linkLookup s.cfg v).params⟩, true, _, hnow.symm, htick⟩

/-- A step 1 that goes down leaves the rest of LINK.DOWN before the other three steps (R185, R189; log entry 14). -/
theorem tickRest_of_down (hnow : (linkLookup s.cfg v).up = false) (hl : s.link.up = true) (hwork : s.work = []) :
    (tickRest (tickLink v s)).withResult .none = { s with
      txqEnabled := false, work := [.linkDownRest, .tickRelease, .tickCheck], result := .none
      history := s.history ++ [.regRead s.cfg.reg.linkStatus 8 (v.setWidth 64)] } := by
  rw [tickLink_of_down hnow hl]
  simp [tickRest, beginLinkDown, linkRead, State.pushWork, closeQueue, State.withResult, State.emit, hwork]

/-- Settles O47: each duty is the operation it is named after, as a task; run one behind the other they end, the pass
over the ring taking a task for each descriptor outstanding. -/
theorem timerTickRunsItsFourDuties : Obligations.TimerTickRunsItsFourDuties := by
  refine ⟨fun v s s1 hr ht hrx hst => timerTick_begins hr ht hrx hst,
    fun s => ⟨tickRelease_of_none, fun h => tickRelease_of_busy, fun h => tickRelease_of_idle⟩,
    fun s u hr ht hrx hini h => congrArg _ (tickCheck_of_dlchk hr ht hrx hini h),
    fun s u hr hst hup hdown => congrArg _ (tickStats_of_statsReq hr hst hup hdown),
    fun v s hr ht hrx hst hcur hi hb => ?_⟩
  have hbegin := execTimerTick_of_ready (v := v) hr ht hrx hst
  have hs : Clearable s := ⟨handleInv_iff.1 hi, hb, hcur.slots⟩
  have hwork : s.work = [] := hr.1.alone rfl
  have hcount : outstandingCount s < s.cfg.nTx := hcur.outstandingCount_eq ▸ hcur.outstanding_lt
  refine ⟨⟨_, hbegin⟩, ?_⟩
  rw [execWhole, hbegin, andThen_next]
  by_cases hd : (linkLookup s.cfg v).up = false ∧ s.link.up = true
  · rw [tickRest_of_down hd.1 hd.2 hwork]
    obtain ⟨t, l, hrun, hidle, hhist, hlink, hfree⟩ := runWork_linkDownRest (m := s.cfg.nTx + 5)
      (s := { s with
        txqEnabled := false, work := [.linkDownRest, .tickRelease, .tickCheck], result := .none
        history := s.history ++ [.regRead s.cfg.reg.linkStatus 8 (v.setWidth 64)] }) ⟨hs.1, hs.2, hs.3⟩ rfl (by omega)
    refine ⟨t, .regRead s.cfg.reg.linkStatus 8 (v.setWidth 64) :: l, hrun, hidle, ?_, fun h hp => ?_, ?_⟩
    · exact hhist.trans (List.append_assoc ..)
    · exact .tail _ (hfree h hp)
    · exact hlink.trans hd.1.symm
  · obtain ⟨link, txq, k, hup, e⟩ := tickLink_of_not_down hd
    rw [e]
    obtain ⟨t, l, hrun, hidle, hhist, hlink, hfree⟩ := runWork_tickRest (m := s.cfg.nTx + 5)
      (s := (tickRest { s with link := link, txqEnabled := txq, history := s.history ++ k }).withResult .none)
      ⟨hs.1, hs.2, hs.3⟩ (by simp [tickRest, State.withResult, hwork]) (show outstandingCount s + 5 ≤ _ by omega)
    refine ⟨t, k ++ l, hrun, hidle, hhist.trans (List.append_assoc ..), fun h hp => ?_, ?_⟩
    · exact List.mem_append_right _ (hfree h hp)
    · rw [hlink]
      exact hup

end Sys2Proof.Machine
end

section
/-! SUPPORT. O57: NIC.TX_DONE, what it acts on, the word it leaves and the erratum window (R217, R218). -/

namespace Sys2Proof.Machine

-- One declaration at a time: each thread of the elaborator reserves a stack of its own.
set_option Elab.async false

variable {s : State} {i : Nat} {d : TxDoneDraws} {x : Seen}

/-- An operation with no precondition but its agent runs when that agent acts (R236). -/
theorem guarded_always_of_acting {a : Agent} {body : State → Out State} (ha : Acting a s) :
    guarded [a] .always s body = body s :=
  guarded_ok (precheck_eq_none.2 ⟨by simp [ha.caller], ha.cfg, trivial⟩) ha.overlaps

/-- What a completion forgets, as the statements have it (R218). -/
theorem forget_nicSeen (ring : Ring) (i : Nat) (s : State) :
    (forget ring i s).nicSeen = s.nicSeen.filter fun y => decide (¬ (y.ring = ring ∧ y.index = i)) :=
  List.filter_congr fun y _ => by rw [Bool.eq_iff_iff]; simp

theorem getLsbD_clearBit (w : Word) (p q : Nat) :
    (clearBit w p).getLsbD q = (w.getLsbD q && decide (q ≠ p)) := by
  by_cases hq : q < 32
  · rw [decide_not]
    exact flag_clearBit w p q hq
  · rw [BitVec.getLsbD_of_ge _ _ (by omega), BitVec.getLsbD_of_ge _ _ (by omega), Bool.false_and]

/-! ### What it acts on -/

theorem txDoneWord_iff : txDoneWord i d s = some x ↔ TxDoneReads s i d x := by
  obtain ⟨early, latch, _ | y⟩ := d
  · simp [txDoneWord, TxDoneReads, seenAt_eq_some]
  · simp [txDoneWord, TxDoneReads, Remembers, seenOf]

theorem readsFreed_iff : readsFreed s.cfg.layout d x = true ↔ ReadsFreedPacket s.cfg d x := by
  obtain ⟨early, latch, _ | y⟩ := d
  · simp [readsFreed, ReadsFreedPacket]
  · simp only [readsFreed, ReadsFreedPacket, flag, Bool.or_eq_true, Bool.and_eq_true, Option.isSome_iff_ne_none,
      Option.some.injEq, exists_eq_left']
    tauto

/-! ### Its branches -/

theorem execNicTxDone_of_acting (ha : Acting .nic s) : exec (.nicTxDone i d) s =
    if s.cfg.nTx ≤ i then .next (s.refuse .operandRange)
    else andThen (txDone i d s) fun t => .next (t.withResult .none) := by
  show execNicTxDone i d s = _
  rw [execNicTxDone, guarded_always_of_acting ha]

/-- NIC.TX_DONE has no move (R59, R218). -/
theorem txDone_stuck (h : ¬ TxUsable s ∨ ∀ x, ¬ TxDoneReads s i d x) : txDone i d s = .refused .nicNotEnabled := by
  unfold txDone
  split
  · rfl
  · rename_i htx
    have husable : TxUsable s := Option.not_isSome_iff_eq_none.1 htx
    split
    · rfl
    · rename_i x hx
      exact absurd (txDoneWord_iff.1 hx) (h.resolve_left (not_not_intro husable) x)

/-- The state a completion leaves: one store, the erratum window, the latch (R218, R220). -/
def txDoneState (i : Nat) (d : TxDoneDraws) (x : Seen) (s : State) : State := { s with
  mem := s.mem.write32 (s.descAddr .tx i .opts1) (clearBit x.word s.cfg.layout.own)
  history := s.history ++ [.nicDescWrite .tx i .opts1 ((clearBit x.word s.cfg.layout.own).setWidth 64)]
  nicSeen := s.nicSeen.filter fun y => decide (¬ (y.ring = .tx ∧ y.index = i))
  nicTxBusy := if x.word.getLsbD s.cfg.layout.ls then (if d.early then x.pkt else none) else s.nicTxBusy
  irqPending := if d.latch then { s.irqPending with tx := true } else s.irqPending
  result := .none }

theorem txDoneState_opts1 (hw : s.mem.wf) :
    (txDoneState i d x s).desc32 .tx i .opts1 = clearBit x.word s.cfg.layout.own :=
  opts1Store_desc32 hw ⟨rfl, rfl, rfl⟩ rfl

/-- The four bytes of the word are the only ones stored to (R216 (f), R217). -/
theorem txDoneState_read_of_ne (hw : s.mem.wf) {a : Nat}
    (ha : ¬ (s.descAddr .tx i .opts1 ≤ a ∧ a < s.descAddr .tx i .opts1 + 4)) :
    (txDoneState i d x s).mem.read a = s.mem.read a :=
  Memory.read_write32_of_ne hw _ _ (by omega)

/-- What it does with a word the NIC read: the fault of U15, or the completion (R218). -/
theorem execNicTxDone_of_reads (ha : Acting .nic s) (hi : i < s.cfg.nTx) (hu : TxUsable s)
    (hx : TxDoneReads s i d x) : exec (.nicTxDone i d) s =
      if readsFreed s.cfg.layout d x then .fault .freedMemoryRead else .next (txDoneState i d x s) := by
  have hu : txProblem s = none := hu
  rw [execNicTxDone_of_acting ha, if_neg (by omega), txDone, if_neg (by simp [hu]), txDoneWord_iff.2 hx]
  cases hf : readsFreed s.cfg.layout d x with
  | true => simp only [hf, if_true, andThen]
  | false =>
    simp only [hf, Bool.false_eq_true, if_false, andThen_next, txDoneState, ← forget_nicSeen]
    cases d.latch <;> rfl

/-- Settles O57: the word it acts on is the one the statement names, and `OWN` is the one bit its store changes. -/
theorem nicTxDoneClearsOnlyOwn : Obligations.NicTxDoneClearsOnlyOwn := by
  intro i d s ha
  refine ⟨fun hi => ?_, fun hi hno => ?_, fun x hi hu hx hfreed => ?_, fun x hi hu hw hx hfreed => ?_⟩
  · rw [execNicTxDone_of_acting ha, if_pos hi]
    rfl
  · rw [execNicTxDone_of_acting ha, if_neg (by omega), txDone_stuck hno]
    rfl
  · rw [execNicTxDone_of_reads ha hi hu hx, if_pos (readsFreed_iff.2 hfreed)]
  · rw [execNicTxDone_of_reads ha hi hu hx, if_neg (readsFreed_iff.not.2 hfreed)]
    refine ⟨_, rfl, fun p => ?_, fun a => txDoneState_read_of_ne hw, ?_⟩
    · rw [txDoneState_opts1 hw, getLsbD_clearBit]
    · rw [txDoneState_opts1 hw]
      rfl

end Sys2Proof.Machine
end

section
/-! SUPPORT. O59: NIC.IRQ_RAISE, NIC.TX_QUIESCE and NIC.RESET (R220, R222, R224). -/

namespace Sys2Proof.Machine

-- One declaration at a time: each thread of the elaborator reserves a stack of its own.
set_option Elab.async false

variable {s : State}

theorem CauseSet.has_add (p : CauseSet) (c c' : Cause) : (p.add c).has c' = (p.has c' || decide (c' = c)) := by
  cases c <;> cases c' <;> simp [CauseSet.add, CauseSet.has]

theorem execNicIrqRaise_of_acting {c : Cause} (ha : Acting .nic s) :
    exec (.nicIrqRaise c) s = .next ((latchCause c s).withResult .none) := by
  show execNicIrqRaise c s = _
  rw [execNicIrqRaise, guarded_always_of_acting ha]

theorem execNicTxQuiesce_of_acting (ha : Acting .nic s) :
    exec .nicTxQuiesce s = andThen (txQuiesce s) fun t => .next (t.withResult .none) := by
  show execNicTxQuiesce s = _
  rw [execNicTxQuiesce, guarded_always_of_acting ha]

theorem execNicReset_of_acting (ha : Acting .serialized s) :
    exec .nicReset s = .next ((nicReset s).withResult .none) := by
  show execNicReset s = _
  rw [execNicReset, guarded_always_of_acting ha]

theorem txQuiesce_of_busy {h : Handle} (hen : s.enabled = true) (hb : s.nicTxBusy = some h) :
    txQuiesce s = .next { s with nicTxBusy := none } := by
  rw [txQuiesce, if_neg (by simp [hen]), hb]

/-- NIC.TX_QUIESCE has no move (R224, R261). -/
theorem txQuiesce_stuck (h : s.enabled = false ∨ s.nicTxBusy = none) : txQuiesce s = .refused .nicNotEnabled := by
  unfold txQuiesce
  split
  · rfl
  · rename_i hen
    rw [h.resolve_left hen]

/-- Settles O59: each of the three writes the fields named and no other. -/
theorem nicRaisesQuiescesAndResets : Obligations.NicRaisesQuiescesAndResets := by
  refine ⟨fun cause s ha => ?_, fun h s ha hen hb => ?_, fun s ha hno => ?_, fun s ha => ?_⟩
  · rw [execNicIrqRaise_of_acting ha]
    exact ⟨_, rfl, fun c => CauseSet.has_add s.irqPending cause c, rfl⟩
  · rw [execNicTxQuiesce_of_acting ha, txQuiesce_of_busy hen hb]
    rfl
  · rw [execNicTxQuiesce_of_acting ha, txQuiesce_stuck hno]
    rfl
  · rw [execNicReset_of_acting ha]
    exact ⟨_, rfl, rfl⟩

end Sys2Proof.Machine
end
